-- ==== Sys2Proof/Word.lean ====
section
/-! DEFINITION. The words of the part: characters of its serial lines and its 16-bit check codes. -/

namespace Sys2Proof

/-- One character of a serial line (R183). -/
abbrev Byte := BitVec 8

/-- A 16-bit check code, of a frame (R216) or of a table entry (R169). -/
abbrev Check := BitVec 16

end Sys2Proof
end

