-- ==== Sys2Proof/Config.lean ====
section
/-! DEFINITION. What an implementation of the part fixes: the capacities the spec gives its tables and
queues, the length of the day, and, as opaque constants, what the spec leaves open: the silicon step code, and
whether an unreachable device masks evidence. -/

namespace Sys2Proof.Config

/-- Milliseconds in a day (R27, R28). -/
def day : Nat := 86400000
/-- Half a day, where the signed difference of two times wraps (R28). -/
def halfDay : Nat := 43200000

/-- R1. -/
def segments : Nat := 96
/-- R6, R169. -/
def rosterPlaces : Nat := 128
/-- R7: sensors bound to one end of one segment. -/
def sensorsPerEnd : Nat := 3
/-- R10. -/
def devices : Nat := 24
/-- R14. -/
def discovery : Nat := 8
/-- R38. -/
def intake : Nat := 24
/-- R68. -/
def cases : Nat := 32
/-- R70. -/
def presentPerKind : Nat := 8
/-- R71. -/
def ring : Nat := 16
/-- R72. -/
def contributors : Nat := 8
/-- R103. -/
def plans : Nat := 48
/-- R103. -/
def planSteps : Nat := 8
/-- R103. -/
def stepPool : Nat := 192
/-- R107, R121: links of a fallback chain. -/
def fallbackLinks : Nat := 4
/-- R17: segments of a path. -/
def pathLength : Nat := 16
/-- R133. -/
def orders : Nat := 16
/-- R170. -/
def lostCases : Nat := 8
/-- R171, R172. -/
def faultLimit : Nat := 3
/-- R171, in milliseconds. -/
def faultWindow : Nat := 60000
/-- R185. -/
def replies : Nat := 8
/-- R190. -/
def notices : Nat := 32
/-- R183. -/
def bodyLimit : Nat := 480
/-- R184, in milliseconds. -/
def characterGap : Nat := 20
/-- R200. -/
def counters : Nat := 16
/-- R203, in milliseconds. -/
def samplePeriod : Nat := 10

/-- DESIGN CHOICE (log 21). The silicon step code "a number 1–255 fixed in the part" (R196), less 1.
An opaque constant: nothing proves a value of it. -/
opaque stepCodeLessOne : Fin 255

/-- The silicon step code of R196. -/
def stepCode : Nat := stepCodeLessOne.val + 1

/-- DESIGN CHOICE (log 57). Whether a device marked unreachable masks evidence by the state and the settle-until time
it holds: R129 says that it does, R53 that it does not, whatever its state, and no rule decides between the two. An
opaque constant: nothing proves a value of it, so a statement holds under both rules. -/
opaque unreachableMasks : Bool

end Sys2Proof.Config
end

