-- ==== Sys2Proof/Syntax.lean ====
section
/-! DEFINITION. The commands and events of the part: one constructor of Instr for each row of
spec/opcode_table.json, with the row's operands. -/

namespace Sys2Proof

/-- The two ports (R183). -/
inductive Port where
  | a | b
deriving DecidableEq, Repr

/-- The phases of the feeder (chapter 1). -/
inductive Phase where
  | a | b | c
deriving DecidableEq, Repr

/-- A subset of the three phases (R1). -/
structure PhaseSet where
  a : Bool
  b : Bool
  c : Bool
deriving DecidableEq, Repr

/-- The end of a segment a sensor is bound to (R6). -/
inductive SensorEnd where
  | head | tail
deriving DecidableEq, Repr

/-- The kinds of device (R10). -/
inductive DeviceKind where
  | sectionalizing | tie
deriving DecidableEq, Repr

/-- The operating modes (section 1.7). -/
inductive Mode where
  | configuring | monitoring | halted
deriving DecidableEq, Repr

/-- What an order asks of a device (R131). -/
inductive Action where
  | open_ | close | query
deriving DecidableEq, Repr

/-- The kinds of hold (R163). -/
inductive HoldKind where
  | work | mute
deriving DecidableEq, Repr

/-- The event selects of the counters (R201), in the order of their codes. -/
inductive EventSelect where
  | none | reportsTaken | reportsDiscarded | evidenceAdmitted | evidenceMasked | evidenceConfirming
  | casesOpened | casesConfirmed | casesClosedUnconfirmed | casesRefused | ordersSent | orderRetries
  | ordersFailed | orderQueueOccupancy | caseTableOccupancy | isolationTime
deriving DecidableEq, Repr

/-- The scope of a counter (R200). -/
inductive Scope where
  | all
  | segment (n : Nat)
  | sensor (address : Nat)
  | device (n : Nat)
deriving DecidableEq, Repr

/-- The six options (R213). -/
structure Options where
  autoPermitted : Bool
  unattendedIsolate : Bool
  supervisePortA : Bool
  portBControl : Bool
  quietStart : Bool
  bReadCountersOnly : Bool
deriving DecidableEq, Repr

/-- A command's body as it arrives: of the length and codes its command requires, with its fields, or
malformed (R2, R95, R155, R204, R210). The fields are given as values; a body that comes as characters is
decoded by R218 from its fields, whose places in it the spec leaves open (DESIGN CHOICE, log 7). -/
inductive Body (α : Type) where
  | ok (fields : α)
  | malformed
deriving DecidableEq, Repr

/-- R3. -/
structure SegmentEdit where
  number : Nat
  parent : Option Nat
  phases : PhaseSet
  plan : Option Nat
  label : Nat
deriving DecidableEq, Repr

/-- R7. -/
structure SensorBinding where
  address : Nat
  segment : Nat
  side : SensorEnd
  phases : PhaseSet
deriving DecidableEq, Repr

/-- R11. -/
structure DeviceEdit where
  number : Nat
  link : Nat
  kind : DeviceKind
  segment : Nat
deriving DecidableEq, Repr

/-- A first number or address and a count (R5, R9, R106, R207). -/
structure ReadRange where
  first : Nat
  count : Nat
deriving DecidableEq, Repr

/-- A case named by its entry number and serial (section 4.8). -/
structure CaseName where
  entry : Nat
  serial : Nat
deriving DecidableEq, Repr

/-- R104. -/
structure PlanEdit where
  number : Nat
  segment : Nat
  steps : List Nat
  fallback : Option Nat
deriving DecidableEq, Repr

/-- R159. -/
structure OperateRequest where
  device : Nat
  action : Action
deriving DecidableEq, Repr

/-- R164. -/
structure HoldRequest where
  segment : Nat
  kind : HoldKind
  label : Nat
  conditional : Bool
deriving DecidableEq, Repr

/-- R205. -/
structure CounterProgram where
  number : Nat
  select : EventSelect
  scope : Scope
  notify : Bool
deriving DecidableEq, Repr

/-- R209. -/
structure SettingName where
  group : Nat
  index : Nat
deriving DecidableEq, Repr

/-- R210. -/
structure SettingWrite where
  group : Nat
  index : Nat
  value : BitVec 16
  mask : BitVec 16
deriving DecidableEq, Repr

/-- One character as a line's receiver sees it: its value, and whether its stop bit was missing (R184). -/
structure RxChar where
  value : Byte
  framingError : Bool
deriving DecidableEq, Repr

/-- The commands and events, one constructor per row of spec/opcode_table.json. -/
inductive Instr where
  | powerOn
  | startUp
  | restartBegin
  | identify (port : Port) (tag : Byte) (body : Body Unit)
  | getStatus (port : Port) (tag : Byte) (body : Body Unit)
  | resetPort (port : Port) (tag : Byte) (body : Body Unit)
  | restart (port : Port) (tag : Byte) (body : Body Unit)
  | setNoticeMask (port : Port) (tag : Byte) (body : Body (List Nat))
  | setMode (port : Port) (tag : Byte) (body : Body Mode)
  | defineSegment (port : Port) (tag : Byte) (body : Body SegmentEdit)
  | deleteSegment (port : Port) (tag : Byte) (body : Body Nat)
  | readSegments (port : Port) (tag : Byte) (body : Body ReadRange)
  | bindSensor (port : Port) (tag : Byte) (body : Body SensorBinding)
  | unbindSensor (port : Port) (tag : Byte) (body : Body Nat)
  | readRoster (port : Port) (tag : Byte) (body : Body ReadRange)
  | defineDevice (port : Port) (tag : Byte) (body : Body DeviceEdit)
  | deleteDevice (port : Port) (tag : Byte) (body : Body Nat)
  | readDevices (port : Port) (tag : Byte) (body : Body Unit)
  | readDiscovery (port : Port) (tag : Byte) (body : Body Unit)
  | setTime (port : Port) (tag : Byte) (body : Body Nat)
  | readTime (port : Port) (tag : Byte) (body : Body Unit)
  | dismissCase (port : Port) (tag : Byte) (body : Body CaseName)
  | closeCase (port : Port) (tag : Byte) (body : Body CaseName)
  | isolateCase (port : Port) (tag : Byte) (body : Body CaseName)
  | listCases (port : Port) (tag : Byte) (body : Body Unit)
  | readCase (port : Port) (tag : Byte) (body : Body CaseName)
  | definePlan (port : Port) (tag : Byte) (body : Body PlanEdit)
  | deletePlan (port : Port) (tag : Byte) (body : Body Nat)
  | readPlans (port : Port) (tag : Byte) (body : Body ReadRange)
  | reserve (port : Port) (tag : Byte) (body : Body Nat)
  | release (port : Port) (tag : Byte) (body : Body Nat)
  | operate (port : Port) (tag : Byte) (body : Body OperateRequest)
  | setHold (port : Port) (tag : Byte) (body : Body HoldRequest)
  | clearHold (port : Port) (tag : Byte) (body : Body Nat)
  | readClaims (port : Port) (tag : Byte) (body : Body Unit)
  | readFaultRecord (port : Port) (tag : Byte) (body : Body Bool)
  | programCounter (port : Port) (tag : Byte) (body : Body CounterProgram)
  | clearCounter (port : Port) (tag : Byte) (body : Body Nat)
  | readCounters (port : Port) (tag : Byte) (body : Body ReadRange)
  | readSetting (port : Port) (tag : Byte) (body : Body SettingName)
  | writeSetting (port : Port) (tag : Byte) (body : Body SettingWrite)
  | saveConfiguration (port : Port) (tag : Byte) (body : Body Unit)
  | stageOptions (port : Port) (tag : Byte) (body : Body Options)
  | burnOptions (port : Port) (tag : Byte) (body : Body Unit)
  | readOptions (port : Port) (tag : Byte) (body : Body Unit)
  | unknownKindCommand (port : Port) (tag : Byte) (kind : Byte)
  | nonCommandFrame (port : Port) (kind : Byte)
  | portFrameDropped (port : Port) (chars : List RxChar)
  | interCharacterTimeout (port : Port)
  | portTransmitEnd (port : Port)
  | portAAbsent
  | timePulse
  | pulseMissing
  | reportArrival (chars : List RxChar)
  | helloArrival (chars : List RxChar)
  | reportTaking
  | helloTaking
  | silenceExpiry (address : Nat)
  | deferredSilenceExpiry (address : Nat)
  | evidenceItemHandling
  | windowExpiry (entry : Nat)
  | isolationDeadlineReached (entry : Nat)
  | orderReply (chars : List RxChar)
  | stateReport (chars : List RxChar)
  | deviceTransmitEnd
  | replyDeadlineExpiry (device : Nat)
  | settleExpiry (device : Nat)
  | pollDue (device : Nat)
  | recoverySweepStep (writesOk : Bool)
  | heldWindowExpiry (entry : Nat)
  | heldAuthorityMove
  | heldIsolationLateNotice (entry : Nat)
  | heldRoomListJudging
  | heldPollRequest
  | faultWindowExpiry
  | occupancySample
  | saveCompletion (written : Bool) (reloadOk : Bool)
  | burnCompletion (written : Bool)
deriving DecidableEq, Repr

end Sys2Proof
end

