-- ==== Sys2Proof/Machine/State.lean ====
section
/-! DEFINITION. The state of the part as plain data: every table, queue, record, flag and pin the spec
gives it, the queue of waiting commands, and the state right after reset. -/

namespace Sys2Proof.Machine

/-- Faults of the model. None: nothing in the spec stops the part (HALTED is a mode, R25), so no
meaning raises a fault. -/
inductive Fault where
deriving DecidableEq, Repr

/-- Refusals of the model. -/
inductive Refusal where
  /-- Raised by exec alone, for a row of the table that has no meaning yet. Safe: nothing can be proved
  of a run that stops here. -/
  | notModelled (mnemonic : String)
deriving DecidableEq, Repr

/-! ### Checked tables -/

/-- An entry of a checked table (R169). `check` is the exclusive-or of the stored check code with the
code of the stored content, so that 0 is a match (DESIGN CHOICE, log 3: the spec gives no formula). -/
structure Checked (α : Type) where
  content : Option α
  check : Check
deriving DecidableEq, Repr

/-- R1. -/
structure Segment where
  parent : Option Nat
  phases : PhaseSet
  plan : Option Nat
  label : Nat
deriving DecidableEq, Repr

/-- Section 2.7. -/
inductive SensorState where
  | waiting | reporting | silent
deriving DecidableEq, Repr

/-- R6. -/
structure Sensor where
  address : Nat
  segment : Nat
  side : SensorEnd
  phases : PhaseSet
  state : SensorState
  lastSequence : Option Nat
  lastHeard : Nat
deriving DecidableEq, Repr

/-- R129. -/
inductive DeviceState where
  | unknown | closed | open_ | reclosing | lockedOut
deriving DecidableEq, Repr

/-- R139. -/
inductive RefusalReason where
  | localControl | mechanism | interlock
deriving DecidableEq, Repr

/-- The run-time half of a device entry (R129). -/
structure DeviceRun where
  state : DeviceState
  reachable : Bool
  settleUntil : Option Nat
  currentOrder : Option Nat
  lastRefusal : Option RefusalReason
  nextPoll : Option Nat
deriving DecidableEq, Repr

/-- The power-on values of the run-time fields (R129). -/
def DeviceRun.powerOn : DeviceRun :=
  { state := .unknown, reachable := true, settleUntil := none, currentOrder := none,
    lastRefusal := none, nextPoll := none }

/-- A device entry: its definition (R10) and its run-time fields (R129). -/
structure Device where
  link : Nat
  kind : DeviceKind
  segment : Nat
  run : DeviceRun
deriving DecidableEq, Repr

/-- R103. -/
structure Plan where
  segment : Nat
  steps : List Nat
  fallback : Option Nat
deriving DecidableEq, Repr

/-! ### Evidence and cases -/

/-- R46, in the order of its kind field. -/
inductive EvidenceKind where
  | tailDead | tailRestored | headLive | headCurrentDrop | arcBursts | groundCurrent
deriving DecidableEq, Repr

/-- R46, less the weight, which is fixed at admission. -/
structure Item where
  kind : EvidenceKind
  sensor : Nat
  segment : Nat
  side : SensorEnd
  phase : Phase
  timestamp : Nat
  arcs : Option Nat
deriving DecidableEq, Repr

/-- R71. -/
structure RingEntry where
  kind : EvidenceKind
  sensor : Nat
  segment : Nat
  timestamp : Nat
  weight : Int
  arcs : Option Nat
deriving DecidableEq, Repr

/-- R70. -/
structure Present where
  sensor : Nat
  timestamp : Nat
deriving DecidableEq, Repr

/-- R69. -/
inductive CaseState where
  | watch | confirmed | isolating | isolated | blocked
deriving DecidableEq, Repr

/-- R69. -/
inductive Finding where
  | broken | downed | brokenAndDowned
deriving DecidableEq, Repr

/-- R69. -/
structure IsolationRecord where
  confirmedAt : Nat
  plan : Option Nat
  step : Nat
  depth : Nat
  late : Bool
  isolatedBy : Option Nat
deriving DecidableEq, Repr

/-- The fields of a case entry that a CASE notice of a lost case reports, any of which may read outside
its range in a bad entry (R180). -/
inductive CaseField where
  | segment | phase | state | finding
deriving DecidableEq, Repr

/-- R69. `unreadable` names the fields whose stored value lies outside its range; it is empty in every
entry the part itself has written, and may be non-empty in a bad entry only (R180; log 22). -/
structure Case where
  serial : Nat
  segment : Nat
  phase : Phase
  state : CaseState
  openedAt : Nat
  windowEnd : Nat
  score : Nat
  tailDead : List Present
  headCurrentDrop : List Present
  headLive : List Present
  groundCurrent : List Present
  arcCount : Nat
  firstArc : Option Nat
  lastArc : Option Nat
  contributors : List Nat
  unlisted : Bool
  ring : List RingEntry
  admitted : Nat
  finding : Option Finding
  isolation : Option IsolationRecord
  unreadable : List CaseField
deriving DecidableEq, Repr

/-! ### Intake -/

/-- R36. -/
structure PhaseRecord where
  phase : Phase
  voltage : Nat
  current : Nat
  stepDown : Nat
  arcs : Nat
  leakage : Nat
deriving DecidableEq, Repr

/-- R36. -/
structure Report where
  sequence : Nat
  timestamp : Nat
  records : List PhaseRecord
deriving DecidableEq, Repr

/-- The two frames of the field link (R36). -/
inductive FieldFrame where
  | report (r : Report)
  | hello (phases : PhaseSet)
deriving DecidableEq, Repr

/-- R38. -/
structure IntakeEntry where
  address : Nat
  frame : FieldFrame
  arrival : Nat
deriving DecidableEq, Repr

/-- R14. -/
structure DiscoveryEntry where
  address : Nat
  firstHeard : Nat
  phases : Option PhaseSet
deriving DecidableEq, Repr

/-- R27. -/
inductive LockState where
  | unset | free | locked
deriving DecidableEq, Repr

/-- R27. `elapsed` counts the elapsed milliseconds on which every interval runs (R29; log 2), and
`lastPulse` is a moment of it. -/
structure TimeBase where
  now : Nat
  lock : LockState
  good : Nat
  lastPulse : Option Nat
  elapsed : Nat
deriving DecidableEq, Repr

/-! ### Orders and walks -/

/-- R131. -/
inductive OrderClass where
  | isolation | manual | poll
deriving DecidableEq, Repr

/-- R131. -/
inductive OrderOrigin where
  | case (serial : Nat)
  | port (p : Port) (tag : Byte)
  | none
deriving DecidableEq, Repr

/-- R131. -/
inductive OrderState where
  | queued | sent
deriving DecidableEq, Repr

/-- R131. The queuing position is the order's place in the queue's list. `left` marks an order passed
over because its device entry did not match, until the sweep has verified the device table (R152;
log 25). -/
structure Order where
  number : Nat
  device : Nat
  action : Action
  cls : OrderClass
  origin : OrderOrigin
  state : OrderState
  resend : Bool
  sends : Option Nat
  deadline : Option Nat
  left : Bool
deriving DecidableEq, Repr

/-- R113. -/
inductive WalkPhase where
  | main | remainder
deriving DecidableEq, Repr

/-- R113, with the device of the step; a step in ROOM may not know its device, when the plan could not
be read (log 14). -/
inductive StepCondition where
  | ordered (number : Nat) (device : Nat)
  | awaiting (device : Nat)
  | room (device : Option Nat)
deriving DecidableEq, Repr

/-- The progress IS holds for a case (R113). Plan, step and depth are in the case's isolation record. -/
structure Walk where
  entry : Nat
  serial : Nat
  phase : WalkPhase
  cond : StepCondition
deriving DecidableEq, Repr

/-- R163. -/
structure Hold where
  kind : HoldKind
  holder : Port
  label : Nat
deriving DecidableEq, Repr

/-! ### Integrity -/

/-- R170. The five checked tables and the store. -/
inductive Table where
  | segment | device | roster | plan | case | store
deriving DecidableEq, Repr

/-- R170; a field that reads outside its range is absent (log 22). -/
structure LostCase where
  entry : Nat
  serial : Nat
  segment : Option Nat
  phase : Option Phase
deriving DecidableEq, Repr

/-- The first fault of the record (R170). -/
structure FirstFault where
  table : Table
  entry : Option Nat
  time : Nat
  mode : Mode
deriving DecidableEq, Repr

/-- R170. The record is empty when `first` is none. -/
structure FaultRecord where
  first : Option FirstFault
  total : Nat
  repaired : Nat
  lost : List LostCase
  lostUnlisted : Bool
  storeFailed : Bool
deriving DecidableEq, Repr

/-- The empty fault record (R170). -/
def FaultRecord.empty : FaultRecord :=
  { first := none, total := 0, repaired := 0, lost := [], lostUnlisted := false, storeFailed := false }

/-- Recovery (R172, R175): the flag, the sweep's list, the table whose reload waits for a save, and
what this sweep has done, which its closing notice reports (R182). -/
structure Recovery where
  recovering : Bool
  sweep : List Table
  waiting : Option Table
  repaired : Nat
  reloaded : List Table
  lost : Nat
  failedCheck : Option Nat
deriving DecidableEq, Repr

/-- No recovery. -/
def Recovery.idle : Recovery :=
  { recovering := false, sweep := [], waiting := none, repaired := 0, reloaded := [], lost := 0,
    failedCheck := none }

/-- The work a recovery held back, still to be done after its end (R174; log 17). -/
structure Held where
  windows : List Nat
  authority : Bool
  late : List Nat
  room : Bool
  polls : Bool
deriving DecidableEq, Repr

/-- Nothing held back. -/
def Held.none : Held :=
  { windows := [], authority := false, late := [], room := false, polls := false }

/-- R194: `lastGood` is a moment of the elapsed count. -/
structure Supervision where
  absent : Bool
  lastGood : Nat
deriving DecidableEq, Repr

/-! ### Notices -/

/-- R192, with SUMMARY, in the order of their codes (R218). -/
inductive Category where
  | case | device | order | sensor | time | counter | fault | port | summary
deriving DecidableEq, Repr

/-- R101. -/
inductive CaseReason where
  | opened | confirmed | authority | unattended | command | planComplete | deviceOpened | noPlan
  | planFailed | storeFailure | expired | restored | merged | evicted | masked | withdrawn
  | dismissed | closed | lost
deriving DecidableEq, Repr

/-- R101. `old` is none at an opening; `new` is none for FREED. -/
structure CaseNotice where
  entry : Nat
  serial : Nat
  segment : Option Nat
  phase : Option Phase
  old : Option CaseState
  new : Option CaseState
  finding : Option Finding
  reason : CaseReason
  device : Option Nat
  time : Nat
deriving DecidableEq, Repr

/-- The causes of a state-change DEVICE notice (R150). -/
inductive RecordingCause where
  | orderReply (number : Nat)
  | staleReply (number : Nat)
  | stateReport
deriving DecidableEq, Repr

/-- The causes of a reachability DEVICE notice (R150). -/
inductive ReachCause where
  | orderFailed (number : Nat)
  | frameReceived
deriving DecidableEq, Repr

/-- R149. -/
inductive OrderOutcome where
  | done | refused | failed | withdrawn
deriving DecidableEq, Repr

/-- R134. -/
inductive WithdrawReason where
  | isolationOverride | workHold
deriving DecidableEq, Repr

/-- R149. -/
structure OrderNotice where
  tag : Byte
  number : Nat
  device : Nat
  action : Action
  outcome : OrderOutcome
  state : DeviceState
  retries : Nat
  refusal : Option RefusalReason
  withdrawal : Option WithdrawReason
  time : Nat
deriving DecidableEq, Repr

/-- R35. -/
inductive TimeCause where
  | thirdGoodPulse | pulseOff | earlyPulse | pulseMissing | setTime
deriving DecidableEq, Repr

/-- R182. `furtherFault` is a fault found while recovering. -/
inductive FaultOutcome where
  | recovering | furtherFault | halted
deriving DecidableEq, Repr

/-- The notices the blocks raise (chapter 9), each form with its body. -/
inductive Notice where
  | caseChange (n : CaseNotice)
  | tableExhausted (kind : EvidenceKind) (sensor : Nat) (segment : Nat) (phase : Phase) (time : Nat)
  | isolationLate (entry serial segment : Nat) (phase : Phase) (confirmedAt : Nat) (plan : Option Nat)
      (step depth time : Nat)
  | deviceState (device link : Nat) (old new : DeviceState) (cause : RecordingCause)
      (reachable : Bool) (time : Nat)
  | deviceReach (device link : Nat) (reachable : Bool) (cause : ReachCause) (time : Nat)
  | isolationOverride (device number serial : Nat)
  | order (n : OrderNotice)
  | sensor (address segment : Nat) (side : SensorEnd) (old new : SensorState) (lastHeard : Nat)
      (lastSequence : Option Nat)
  | time (old new : LockState) (cause : TimeCause) (now : Nat)
  | counter (number : Nat) (select : EventSelect) (scope : Scope) (value time : Nat)
  | faultFound (table : Table) (entry : Option Nat) (time total inWindow : Nat)
      (outcome : FaultOutcome) (fall : Option Bool)
  | faultInHalted (table : Table) (entry : Option Nat) (time total : Nat)
  | recoveryEnded (repaired : Nat) (reloaded : List Table) (lost : Nat) (mode : Mode)
      (failedCheck : Option Nat)
  | supervision (oldAbsent newAbsent : Bool) (interval time : Nat)
  | portReset (port : Port) (released time : Nat)
  | summary (category : Category) (withheld : Nat)
deriving DecidableEq, Repr

/-- R192. -/
structure CategoryState where
  mask : Bool
  latch : Bool
  withheld : Nat
deriving DecidableEq, Repr

/-! ### Settings, store, options, counters -/

/-- R208. -/
structure Settings where
  deadLevel : Nat
  liveLevel : Nat
  stepLevel : Nat
  leakageLevel : Nat
  alignWindow : Nat
  watchWindow : Nat
  arcPersistence : Nat
  arcSpread : Nat
  staleLimit : Nat
  weightTailDead : Nat
  weightHeadCurrentDrop : Nat
  weightHeadLive : Nat
  weightArcBursts : Nat
  weightGroundCurrent : Nat
  weightTailRestored : Nat
  authority : Nat
  isolationDeadline : Nat
  replyTimeout : Nat
  retryLimit : Nat
  settleInterval : Nat
  pollInterval : Nat
  silenceInterval : Nat
  supervisionInterval : Nat
deriving DecidableEq, Repr

/-- The defaults of R208. -/
def Settings.default : Settings :=
  { deadLevel := 200, liveLevel := 850, stepLevel := 8, leakageLevel := 20, alignWindow := 250,
    watchWindow := 5000, arcPersistence := 6, arcSpread := 1000, staleLimit := 2000,
    weightTailDead := 40, weightHeadCurrentDrop := 40, weightHeadLive := 10, weightArcBursts := 15,
    weightGroundCurrent := 20, weightTailRestored := 40, authority := 0, isolationDeadline := 2000,
    replyTimeout := 300, retryLimit := 3, settleInterval := 1000, pollInterval := 5,
    silenceInterval := 30, supervisionInterval := 15 }

/-- A roster entry as the image keeps it (R211). -/
structure Binding where
  address : Nat
  segment : Nat
  side : SensorEnd
  phases : PhaseSet
deriving DecidableEq, Repr

/-- A device definition as the image keeps it (R211). -/
structure DeviceDef where
  link : Nat
  kind : DeviceKind
  segment : Nat
deriving DecidableEq, Repr

/-- The content of the retained store's image (R211), entry by entry. -/
structure Image where
  segments : List (Option Segment)
  roster : List (Option Binding)
  devices : List (Option DeviceDef)
  plans : List (Option Plan)
  settings : Settings
deriving DecidableEq, Repr

/-- The image of an empty description with the default settings. -/
def Image.empty : Image :=
  { segments := List.replicate Config.segments none
    roster := List.replicate Config.rosterPlaces none
    devices := List.replicate Config.devices none
    plans := List.replicate Config.plans none
    settings := Settings.default }

/-- R211: the image, whether its check code matches its content, and the validity mark. -/
structure Store where
  image : Image
  codeMatches : Bool
  valid : Bool
deriving DecidableEq, Repr

/-- No option set (R213). -/
def clearOptions : Options :=
  { autoPermitted := false, unattendedIsolate := false, supervisePortA := false,
    portBControl := false, quietStart := false, bReadCountersOnly := false }

/-- The options record, and the options in force with the burned flag as loaded (R213). -/
structure OptionsRecord where
  burned : Bool
  options : Options
deriving DecidableEq, Repr

/-- R200. -/
structure Counter where
  select : EventSelect
  scope : Scope
  value : Nat
  overflow : Bool
  notify : Bool
deriving DecidableEq, Repr

/-- A counter after power-on (R200). -/
def Counter.clear : Counter :=
  { select := .none, scope := .all, value := 0, overflow := false, notify := false }

/-! ### Replies and ports -/

/-- The classes and substatuses of R187, in its order of priority but for ACCEPTED, the lowest. -/
inductive ReplyCode where
  | malformed | unknownKind | noSuchItem | outOfRange | notPermitted | wrongMode
  | notReserved | segmentHeld | caseOnPath | wrongCaseState | topologyInvalid | inUse
  | optionsBurned | nothingStaged
  | tableFull | orderQueueFull | planStoreFull
  | faultRecovery | storeFailure
  | otherPortInControl | deviceOrderInFlight | isolationInProgress | closeInFlight | saveInProgress
  | accepted
deriving DecidableEq, Repr

/-- R23: the failing item of a validation check. -/
inductive FailingItem where
  | none
  | segment (n : Nat)
  | sensor (address : Nat)
  | device (n : Nat)
  | plan (n : Nat)
deriving DecidableEq, Repr

/-- R99, with the score that R79 has LIST_CASES report (log 39). -/
structure CaseSummary where
  entry : Nat
  serial : Nat
  segment : Nat
  phase : Phase
  state : CaseState
  score : Nat
  finding : Option Finding
deriving DecidableEq, Repr

/-- R197: the number of case entries free and in each state. -/
structure CaseCounts where
  free : Nat
  watch : Nat
  confirmed : Nat
  isolating : Nat
  isolated : Nat
  blocked : Nat
deriving DecidableEq, Repr

/-- R197. -/
structure Status where
  mode : Mode
  recovering : Bool
  saving : Bool
  lock : LockState
  portAAbsent : Bool
  counts : CaseCounts
  orders : Nat
  ordersSent : Nat
  intake : Nat
  notices : Nat
  lostPending : Bool
  masks : List Bool
  latches : List Bool
  overrun : Nat
deriving DecidableEq, Repr

/-- What a reply carries after its class and substatus, as values. replyFields gives their characters by R218; the
order of the fields is laid out for READ_CASE alone (log 28). -/
inductive ReplyBody where
  | empty
  | validation (check : Nat) (item : FailingItem)
  | holder (p : Port)
  | deviceNumber (n : Nat)
  | orderNumber (n : Nat)
  | presentHold (h : Hold)
  | segments (records : List (Nat × Segment)) (more : Bool)
  | roster (entries : List Sensor) (more : Bool)
  | devices (records : List (Nat × Device × Option Order))
  | discovery (entries : List DiscoveryEntry)
  | time (now : Nat) (lock : LockState) (good : Nat) (sincePulse : Option Nat)
  | cases (occupied : Nat) (summaries : List CaseSummary)
  | caseRecord (entry : Nat) (record : Case)
  | plans (used : Nat) (records : List (Nat × Plan)) (more : Bool)
  | claims (reserved : List (Nat × Port)) (held : List (Nat × Hold))
  | faultRecord (record : FaultRecord) (window : List Nat) (recovering : Bool) (mode : Mode)
  | counters (records : List (Nat × Counter))
  | setting (value low high default : Nat)
  | settingWritten (before after : Nat)
  | options (record : OptionsRecord) (staged : Option Options) (inForce : OptionsRecord)
      (burning : Bool)
  | identity (vendor part : String) (step : Nat) (inForce : OptionsRecord) (mode : Mode)
  | status (s : Status)
  | masks (categories : List CategoryState)
deriving DecidableEq, Repr

/-- R186. `kind` is the reply's own kind, the command's plus 0x80. -/
structure Reply where
  kind : Nat
  tag : Byte
  code : ReplyCode
  body : ReplyBody
deriving DecidableEq, Repr

/-- The operations whose replies wait for their completion (R186). -/
inductive StoreOp where
  | save | burn
deriving DecidableEq, Repr

/-- A reply that keeps its place in the queue until its operation completes (R186). -/
structure WaitingReply where
  op : StoreOp
  kind : Nat
  tag : Byte
deriving DecidableEq, Repr

/-- A frame a port's transmitter sends (R186, R191). -/
inductive PortFrame where
  | reply (r : Reply)
  | notice (n : Notice) (sequence : Nat) (lost : Bool)
deriving DecidableEq, Repr

/-- The receiver of a port, of the field link or of the device link (R184): FRAME keeps the characters so far,
start included, and the elapsed moment of the latest. -/
inductive Receiver where
  | hunt
  | frame (chars : List Byte) (at_ : Nat)
deriving DecidableEq, Repr

/-- The state of one port controller (chapter 9). `ready` is in order of readiness. -/
structure PortState where
  rx : Receiver
  ready : List Reply
  waiting : List WaitingReply
  notices : List Notice
  lostPending : Bool
  sequence : Nat
  categories : List CategoryState
  overrun : Nat
  tx : Option PortFrame
deriving DecidableEq, Repr

/-- A port after power-on (R184, R185, R190, R192). -/
def PortState.powerOn : PortState :=
  { rx := .hunt, ready := [], waiting := [], notices := [], lostPending := false, sequence := 0,
    categories := List.replicate 8 { mask := false, latch := false, withheld := 0 }, overrun := 0,
    tx := none }

/-- What start-up waits for (R215 steps 1 and 2). -/
inductive StartWait where
  | burn | save
deriving DecidableEq, Repr

/-- Whether the part is held in reset, on its way through a RESTART, in start-up, or running
(R189, R199, R215). -/
inductive RunState where
  | resetAsserted
  | restartTaken
  | restartDue
  | startingUp (w : StartWait)
  | running
deriving DecidableEq, Repr

/-! ### The part -/

/-- The state of the detecting and switching blocks: FD, TB, RI, EU, CT, IS, DL, CU and IM, with the
supervision state of Port A. `stepsInUse` is the pool's count of step entries in use (R103, R104, R176). -/
structure Core where
  mode : Mode
  segments : List (Checked Segment)
  roster : List (Checked Sensor)
  devices : List (Checked Device)
  discovery : List DiscoveryEntry
  time : TimeBase
  intake : List IntakeEntry
  deferred : List Nat
  items : List Item
  cases : List (Checked Case)
  serial : Nat
  counted : List (Option CaseState)
  opened : List Nat
  plans : List (Checked Plan)
  stepsInUse : Nat
  walks : List Walk
  room : List Nat
  orders : List Order
  orderNumber : Nat
  linkTx : Option (List Byte)
  fieldRx : Receiver
  deviceRx : Receiver
  reservations : List (Option Port)
  holds : List (Option Hold)
  record : FaultRecord
  window : List Nat
  recovery : Recovery
  held : Held
  supervision : Supervision
deriving DecidableEq, Repr

/-- The whole part: the blocks of Core, the settings, store and options of RS, the two ports, the
counters of EC with their next sample, the run state and the IN_SERVICE pin. -/
structure Part where
  core : Core
  settings : Settings
  store : Store
  save : Option Image
  options : OptionsRecord
  inForce : OptionsRecord
  staged : Option Options
  burning : Bool
  portA : PortState
  portB : PortState
  counters : List Counter
  nextSample : Nat
  run : RunState
  inService : Bool
deriving DecidableEq, Repr

/-- The state of the model: the part, and the commands and events waiting, oldest first (log 1). -/
structure State where
  part : Part
  pending : List Instr
deriving DecidableEq, Repr

/-- A table of n undefined entries whose codes match. -/
def emptyTable (α : Type) (n : Nat) : List (Checked α) :=
  List.replicate n { content := none, check := 0 }

/-- The blocks after the start-up of a part whose store is invalid (R215; log 5). -/
def Core.reset : Core :=
  { mode := .configuring
    segments := emptyTable Segment Config.segments
    roster := emptyTable Sensor Config.rosterPlaces
    devices := emptyTable Device Config.devices
    discovery := []
    time := { now := 0, lock := .unset, good := 0, lastPulse := none, elapsed := 0 }
    intake := []
    deferred := []
    items := []
    cases := emptyTable Case Config.cases
    serial := 0
    counted := List.replicate Config.cases none
    opened := []
    plans := emptyTable Plan Config.plans
    stepsInUse := 0
    walks := []
    room := []
    orders := []
    orderNumber := 0
    linkTx := none
    fieldRx := .hunt
    deviceRx := .hunt
    reservations := List.replicate Config.devices none
    holds := List.replicate Config.segments none
    record := FaultRecord.empty
    window := []
    recovery := Recovery.idle
    held := Held.none
    supervision := { absent := false, lastGood := 0 } }

/-- A part never saved and never burned, after the start-up that follows a first power-on (R26, R211,
R213, R215; log 5). -/
def Part.reset : Part :=
  { core := Core.reset
    settings := Settings.default
    store := { image := Image.empty, codeMatches := false, valid := false }
    save := none
    options := { burned := false, options := clearOptions }
    inForce := { burned := false, options := clearOptions }
    staged := none
    burning := false
    portA := PortState.powerOn
    portB := PortState.powerOn
    counters := List.replicate Config.counters Counter.clear
    nextSample := Config.samplePeriod
    run := .running
    inService := false }

/-- The machine right after reset, with an empty queue. -/
def State.reset : State :=
  { part := Part.reset, pending := [] }

end Sys2Proof.Machine
end

