-- ==== Sys2Proof/Machine/Flags.lean ====
section
/-! DEFINITION. Reply classes and their priority (R187), and the categories and forms of notices
(R190, R218). -/

namespace Sys2Proof.Machine

/-- The priority of a class and substatus (R187): the lower number is reported. -/
def ReplyCode.rank : ReplyCode → Nat
  | .malformed => 0
  | .unknownKind => 1
  | .noSuchItem => 2
  | .outOfRange => 3
  | .notPermitted => 4
  | .wrongMode => 5
  | .notReserved => 6
  | .segmentHeld => 7
  | .caseOnPath => 8
  | .wrongCaseState => 9
  | .topologyInvalid => 10
  | .inUse => 11
  | .optionsBurned => 12
  | .nothingStaged => 13
  | .tableFull => 14
  | .orderQueueFull => 15
  | .planStoreFull => 16
  | .faultRecovery => 17
  | .storeFailure => 18
  | .otherPortInControl => 19
  | .deviceOrderInFlight => 20
  | .isolationInProgress => 21
  | .closeInFlight => 22
  | .saveInProgress => 23
  | .accepted => 24

/-- The code of a reply's class (R218): ACCEPTED 0, REFUSED 1, CONFLICT 2, EXHAUSTED 3, UNAVAILABLE 4,
BUSY 5. -/
def ReplyCode.cls (c : ReplyCode) : Nat :=
  if c.rank < 6 then 1
  else if c.rank < 14 then 2
  else if c.rank < 17 then 3
  else if c.rank < 19 then 4
  else if c.rank < 24 then 5
  else 0

/-- The code of a reply's substatus (R218): its place in its class's list, from 1; 0 for ACCEPTED. -/
def ReplyCode.sub (c : ReplyCode) : Nat :=
  match c.cls with
  | 1 => c.rank + 1
  | 2 => c.rank - 5
  | 3 => c.rank - 13
  | 4 => c.rank - 16
  | 5 => c.rank - 18
  | _ => 0

/-- A condition of a command, and the reply it contributes when it holds (R187). -/
abbrev Condition := Bool × ReplyCode

/-- The reply selected by the priority rule among the conditions that hold (R187); none when none
holds. -/
def select : List Condition → Option ReplyCode
  | [] => none
  | (holds, code) :: rest =>
    match holds, select rest with
    | false, r => r
    | true, none => some code
    | true, some r => if code.rank ≤ r.rank then some code else some r

/-- A category's code (R218). -/
def Category.code : Category → Nat
  | .case => 1
  | .device => 2
  | .order => 3
  | .sensor => 4
  | .time => 5
  | .counter => 6
  | .fault => 7
  | .port => 8
  | .summary => 9

/-- The category of a code that SET_NOTICE_MASK may name (R193): SUMMARY is not among them. -/
def maskable : Nat → Option Category
  | 1 => some .case
  | 2 => some .device
  | 3 => some .order
  | 4 => some .sensor
  | 5 => some .time
  | 6 => some .counter
  | 7 => some .fault
  | 8 => some .port
  | _ => none

/-- The category of a notice (section 9.4). -/
def Notice.category : Notice → Category
  | .caseChange _ => .case
  | .tableExhausted .. => .case
  | .isolationLate .. => .case
  | .deviceState .. => .device
  | .deviceReach .. => .device
  | .isolationOverride .. => .device
  | .order _ => .order
  | .sensor .. => .sensor
  | .time .. => .time
  | .counter .. => .counter
  | .faultFound .. => .fault
  | .faultInHalted .. => .fault
  | .recoveryEnded .. => .fault
  | .supervision .. => .port
  | .portReset .. => .port
  | .summary .. => .summary

/-- The form of a notice within its category, from 1 in the order its chapter lists the forms (R218). -/
def Notice.form : Notice → Nat
  | .caseChange _ => 1
  | .tableExhausted .. => 2
  | .isolationLate .. => 3
  | .deviceState .. => 1
  | .deviceReach .. => 2
  | .isolationOverride .. => 3
  | .order _ => 1
  | .sensor .. => 1
  | .time .. => 1
  | .counter .. => 1
  | .faultFound .. => 1
  | .faultInHalted .. => 2
  | .recoveryEnded .. => 3
  | .supervision .. => 1
  | .portReset .. => 2
  | .summary .. => 1

end Sys2Proof.Machine
end

