-- ==== Sys2Proof/Machine/Operands.lean ====
section
/-! DEFINITION. The frames of the four serial lines: the check (R216), the common frame (R183), the
codes of chapter 12 (R218), the frames of the field link (R36, R37) and the device link (R130), the
layouts of the part's own frames (R186, R191, R217), and the receiver of a line (R184). -/

namespace Sys2Proof.Machine

/-! ### The check (R216) -/

/-- One bit enters the check register. -/
def crcBit (r : Check) (bit : Bool) : Check :=
  if (r.getLsbD 15) != bit then (r <<< 1) ^^^ 0x1021#16 else r <<< 1

/-- One character enters the check register, most significant bit first. -/
def crcChar (r : Check) (c : Byte) : Check :=
  [7, 6, 5, 4, 3, 2, 1, 0].foldl (fun r i => crcBit r (c.getLsbD i)) r

/-- The check of characters in the order they are sent (R216). -/
def frameCheck (cs : List Byte) : Check := cs.foldl crcChar 0xFFFF#16

/-! ### Integers (section 12) -/

/-- n characters of a number, least significant first. -/
def leChars : Nat → Nat → List Byte
  | 0, _ => []
  | n + 1, v => BitVec.ofNat 8 v :: leChars n (v / 256)

/-- The number of characters, least significant first. -/
def leValue : List Byte → Nat
  | [] => 0
  | c :: cs => c.toNat + 256 * leValue cs

/-! ### The common frame (R183) -/

/-- A frame that has passed its check. -/
structure Frame where
  kind : Nat
  tag : Byte
  body : List Byte
deriving DecidableEq, Repr

/-- The characters of a frame with its check (R183, R216). -/
def frameChars (kind : Nat) (tag : Byte) (body : List Byte) : List Byte :=
  let inner := leChars 2 body.length ++ [BitVec.ofNat 8 kind, tag] ++ body
  0x5A#8 :: inner ++ leChars 2 (frameCheck inner).toNat

/-- The frame that characters spell, start to check; none when they fail the frame check, declare a body
over 480 characters, or are not of the declared length (R37, R130, R184). -/
def parseFrame (cs : List Byte) : Option Frame :=
  match cs with
  | start :: l0 :: l1 :: kind :: tag :: rest =>
    let len := leValue [l0, l1]
    let body := rest.take len
    if start = 0x5A#8 ∧ len ≤ Config.bodyLimit ∧ rest.length = len + 2
        ∧ leValue (rest.drop len) = (frameCheck (l0 :: l1 :: kind :: tag :: body)).toNat then
      some { kind := kind.toNat, tag := tag, body := body }
    else none
  | _ => none

/-! ### Codes (R218) -/

/-- R218. -/
def phaseCode : Phase → Nat
  | .a => 1
  | .b => 2
  | .c => 3

/-- R218. -/
def phaseOfCode : Nat → Option Phase
  | 1 => some .a
  | 2 => some .b
  | 3 => some .c
  | _ => none

/-- R218: 1 for A, 2 for B and 4 for C, summed; 1–7. -/
def phasesOfCode (n : Nat) : Option PhaseSet :=
  if 1 ≤ n ∧ n ≤ 7 then
    some { a := n.testBit 0, b := n.testBit 1, c := n.testBit 2 }
  else none

/-- R218: the other way, for the part's own frames. -/
def phasesCode (s : PhaseSet) : Nat :=
  (if s.a then 1 else 0) + (if s.b then 2 else 0) + (if s.c then 4 else 0)

/-- R218: UNKNOWN is 0, which the ports alone use. -/
def deviceStateCode : DeviceState → Nat
  | .unknown => 0
  | .closed => 1
  | .open_ => 2
  | .reclosing => 3
  | .lockedOut => 4

/-- R218: the states a device reports; code 0 has no meaning on the device link. -/
def reportedState : Nat → Option DeviceState
  | 1 => some .closed
  | 2 => some .open_
  | 3 => some .reclosing
  | 4 => some .lockedOut
  | _ => none

/-- R218. -/
def actionCode : Action → Nat
  | .open_ => 1
  | .close => 2
  | .query => 3

/-- R218. -/
def actionOfCode : Nat → Option Action
  | 1 => some .open_
  | 2 => some .close
  | 3 => some .query
  | _ => none

/-- Chapter 12, ORDER_REPLY. -/
def refusalOfCode : Nat → Option RefusalReason
  | 1 => some .localControl
  | 2 => some .mechanism
  | 3 => some .interlock
  | _ => none

/-- Chapter 12, ORDER_REPLY: the other way, for the ports. -/
def refusalCode : RefusalReason → Nat
  | .localControl => 1
  | .mechanism => 2
  | .interlock => 3

/-- R201: a select's code is its place among the selects. -/
def selectCode : EventSelect → Nat
  | .none => 0
  | .reportsTaken => 1
  | .reportsDiscarded => 2
  | .evidenceAdmitted => 3
  | .evidenceMasked => 4
  | .evidenceConfirming => 5
  | .casesOpened => 6
  | .casesConfirmed => 7
  | .casesClosedUnconfirmed => 8
  | .casesRefused => 9
  | .ordersSent => 10
  | .orderRetries => 11
  | .ordersFailed => 12
  | .orderQueueOccupancy => 13
  | .caseTableOccupancy => 14
  | .isolationTime => 15

/-- R201, the other way. -/
def selectOfCode : Nat → Option EventSelect
  | 0 => some .none
  | 1 => some .reportsTaken
  | 2 => some .reportsDiscarded
  | 3 => some .evidenceAdmitted
  | 4 => some .evidenceMasked
  | 5 => some .evidenceConfirming
  | 6 => some .casesOpened
  | 7 => some .casesConfirmed
  | 8 => some .casesClosedUnconfirmed
  | 9 => some .casesRefused
  | 10 => some .ordersSent
  | 11 => some .orderRetries
  | 12 => some .ordersFailed
  | 13 => some .orderQueueOccupancy
  | 14 => some .caseTableOccupancy
  | 15 => some .isolationTime
  | _ => none

/-- Chapter 12, the kinds of the evidence ring. -/
def evidenceCode : EvidenceKind → Nat
  | .tailDead => 1
  | .tailRestored => 2
  | .headLive => 3
  | .headCurrentDrop => 4
  | .arcBursts => 5
  | .groundCurrent => 6

/-- Chapter 12, READ_CASE. -/
def caseStateCode : CaseState → Nat
  | .watch => 1
  | .confirmed => 2
  | .isolating => 3
  | .isolated => 4
  | .blocked => 5

/-- Chapter 12, READ_CASE. -/
def findingCode : Finding → Nat
  | .broken => 1
  | .downed => 2
  | .brokenAndDowned => 3

/-- A number in one character, all ones when absent (R218). -/
def optChar (v : Option Nat) : List Byte := leChars 1 (v.getD 0xFF)

/-- A time in four characters, all ones when absent (R218). -/
def optTime (v : Option Nat) : List Byte := leChars 4 (v.getD 0xFFFFFFFF)

/-- A flag in one character. -/
def flagChar (b : Bool) : List Byte := leChars 1 (if b then 1 else 0)

/-- A number in two characters, all ones when absent (R218). -/
def optTwo (v : Option Nat) : List Byte := leChars 2 (v.getD 0xFFFF)

/-- The presence character before a field whose range fills its characters (R218). -/
def presenceChar (v : Option Nat) : List Byte := flagChar v.isSome

/-! ### The field link (R36, R37) -/

/-- One phase record of a REPORT; none for a phase code or a reading outside its range (R37). -/
def decodeRecord (cs : List Byte) : Option PhaseRecord :=
  match cs with
  | [p, v0, v1, c0, c1, s0, s1, arcs, g0, g1] =>
    let voltage := leValue [v0, v1]
    let current := leValue [c0, c1]
    let stepDown := leValue [s0, s1]
    let leakage := leValue [g0, g1]
    match phaseOfCode p.toNat with
    | none => none
    | some phase =>
      if voltage ≤ 1500 ∧ current ≤ 2000 ∧ stepDown ≤ 2000 ∧ leakage ≤ 5000 then
        some { phase := phase, voltage := voltage, current := current, stepDown := stepDown,
               arcs := arcs.toNat, leakage := leakage }
      else none
  | _ => none

/-- n phase records that fill the characters exactly. -/
def decodeRecords : Nat → List Byte → Option (List PhaseRecord)
  | 0, cs => if cs.isEmpty then some [] else none
  | n + 1, cs =>
    match decodeRecord (cs.take 10), decodeRecords n (cs.drop 10) with
    | some r, some rs => some (r :: rs)
    | _, _ => none

/-- Whether no phase is named twice. -/
def distinctPhases : List PhaseRecord → Bool
  | [] => true
  | r :: rs => !(rs.any fun q => q.phase == r.phase) && distinctPhases rs

/-- Whether a sensor address lies in 1–65534 (R6, R37). -/
def sensorAddress (a : Nat) : Bool := decide (1 ≤ a) && decide (a ≤ 65534)

/-- The body of a REPORT or HELLO, with its address; none for a frame that R37 drops. -/
def decodeField (f : Frame) : Option (Nat × FieldFrame) :=
  match f.kind, f.body with
  | 0x40, a0 :: a1 :: s0 :: s1 :: t0 :: t1 :: t2 :: t3 :: n :: rest =>
    let address := leValue [a0, a1]
    let stamp := leValue [t0, t1, t2, t3]
    match decodeRecords n.toNat rest with
    | some rs =>
      if sensorAddress address && decide (stamp < Config.day) && decide (1 ≤ rs.length)
          && decide (rs.length ≤ 3) && distinctPhases rs then
        some (address, .report { sequence := leValue [s0, s1], timestamp := stamp, records := rs })
      else none
    | none => none
  | 0x41, [a0, a1, p] =>
    let address := leValue [a0, a1]
    match phasesOfCode p.toNat with
    | some phases => if sensorAddress address then some (address, .hello phases) else none
    | none => none
  | _, _ => none

/-- The address field of a frame judged only on its check and length (R38), when it lies in 1–65534; none too for a
body shorter than the field, which R38 leaves unsaid (log 60). -/
def frameAddress (f : Frame) : Option Nat :=
  match f.body with
  | a0 :: a1 :: _ =>
    let address := leValue [a0, a1]
    if sensorAddress address then some address else none
  | _ => none

/-! ### The device link (R130) -/

/-- What a device's reply says of its order (section 6.2). -/
inductive ReplyOutcome where
  | done (state : DeviceState)
  | refused (reason : RefusalReason)
deriving DecidableEq, Repr

/-- The two frames devices send (section 6.2). -/
inductive DeviceFrame where
  | orderReply (number : Nat) (outcome : ReplyOutcome)
  | stateReport (state : DeviceState)
deriving DecidableEq, Repr

/-- A frame of the device link with its link address; none for a kind, length or code that R130 drops. -/
def decodeDevice (f : Frame) : Option (Nat × DeviceFrame) :=
  match f.kind, f.body with
  | 0x51, [link, number, outcome, detail] =>
    match outcome.toNat with
    | 1 => (reportedState detail.toNat).map fun s => (link.toNat, .orderReply number.toNat (.done s))
    | 2 => (refusalOfCode detail.toNat).map fun r => (link.toNat, .orderReply number.toNat (.refused r))
    | _ => none
  | 0x52, [link, state] =>
    (reportedState state.toNat).map fun s => (link.toNat, .stateReport s)
  | _, _ => none

/-- The ORDER frame of a send (R136, R216): its tag is 0. -/
def orderFrame (link number : Nat) (action : Action) : List Byte :=
  frameChars 0x50 0#8 (leChars 1 link ++ leChars 1 number ++ leChars 1 (actionCode action))

/-! ### The part's frames on the ports -/

/-- One list of the present set in a READ_CASE reply. -/
def presentChars (l : List Present) : List Byte :=
  leChars 1 l.length ++ l.flatMap fun p => leChars 2 p.sensor ++ leChars 4 p.timestamp

/-- One entry of the evidence ring in a READ_CASE reply. -/
def ringChars (r : RingEntry) : List Byte :=
  leChars 1 (evidenceCode r.kind) ++ leChars 2 r.sensor ++ leChars 1 r.segment
    ++ leChars 4 r.timestamp ++ leChars 2 (BitVec.ofInt 16 r.weight).toNat ++ leChars 1 (r.arcs.getD 0)

/-- The isolation record in a READ_CASE reply. -/
def isolationChars : Option IsolationRecord → List Byte
  | none => leChars 1 0
  | some i =>
    leChars 1 1 ++ leChars 4 i.confirmedAt ++ optChar i.plan ++ leChars 1 i.step ++ leChars 1 i.depth
      ++ flagChar i.late ++ optChar i.isolatedBy

/-- The READ_CASE reply after its header (section 12.3). -/
def caseChars (entry : Nat) (k : Case) : List Byte :=
  leChars 1 entry ++ leChars 2 k.serial ++ leChars 1 k.segment ++ leChars 1 (phaseCode k.phase)
    ++ leChars 1 (caseStateCode k.state) ++ optChar (k.finding.map findingCode)
    ++ leChars 4 k.openedAt ++ leChars 4 k.windowEnd
    ++ leChars 2 k.score ++ leChars 2 k.admitted
    ++ leChars 1 k.arcCount ++ optTime k.firstArc ++ optTime k.lastArc
    ++ leChars 1 k.contributors.length ++ flagChar k.unlisted ++ k.contributors.flatMap (leChars 2)
    ++ presentChars k.tailDead ++ presentChars k.headCurrentDrop ++ presentChars k.headLive
    ++ presentChars k.groundCurrent
    ++ leChars 1 k.ring.length ++ k.ring.flatMap ringChars
    ++ isolationChars k.isolation

/-- The header of a reply's body: its class and substatus (section 12.3). -/
def replyHeader (c : ReplyCode) : List Byte := leChars 1 c.cls ++ leChars 1 c.sub

/-- The header of a notice's body: category, lost flag and form (section 12.3). -/
def noticeHeader (n : Notice) (lost : Bool) : List Byte :=
  leChars 1 n.category.code ++ flagChar lost ++ leChars 1 n.form

/-! ### The receiver of a line (R184) -/

/-- A receiver as it stands when a character comes: a frame in progress is abandoned when 20 ms have passed
since its latest character. -/
def awaitChar (now : Nat) (rx : Receiver) : Receiver :=
  match rx with
  | .hunt => .hunt
  | .frame cs last => if Config.characterGap ≤ now - last then .hunt else .frame cs last

/-- A receiver in FRAME takes a character in place: the frame is abandoned when it declares too long a body,
and judged on its check when it has all its characters (R216). The good frame is handed on. -/
def collect (now : Nat) (cs : List Byte) : Receiver × Option Frame :=
  let declared := leValue ((cs.drop 1).take 2)
  if cs.length < 3 then (.frame cs now, none)
  else if Config.bodyLimit < declared then (.hunt, none)
  else if cs.length = declared + 7 then (.hunt, parseFrame cs)
  else (.frame cs now, none)

/-- The receiver takes one character at an elapsed moment, and hands on the good frame that it completes. In
HUNT a character 0x5A without its stop bit begins no frame (log 24). -/
def receiveChar (now : Nat) (rx : Receiver) (c : RxChar) : Receiver × Option Frame :=
  match awaitChar now rx with
  | .hunt =>
    if c.value = 0x5A#8 ∧ c.framingError = false then (.frame [c.value] now, none) else (.hunt, none)
  | .frame cs _ => if c.framingError then (.hunt, none) else collect now (cs ++ [c.value])

/-- The receiver takes characters in their order, and hands on the good frames they complete. -/
def receiveChars (now : Nat) : Receiver → List RxChar → Receiver × List Frame
  | rx, [] => (rx, [])
  | rx, c :: cs =>
    let x := receiveChar now rx c
    let rest := receiveChars now x.1 cs
    (rest.1, x.2.toList ++ rest.2)

end Sys2Proof.Machine
end

