-- ==== Sys2Proof/Machine/Bodies.lean ====
section
/-! DEFINITION. The bodies of the ports' frames, both ways: the fields a command's body carries, and the fields
of replies and notices, each in the codes of R218. The order of the fields of a body, and the codes of the
enumerations for which the spec states none, are left open (log 7, log 28). -/

namespace Sys2Proof.Machine

/-! ### What the spec leaves open -/

/-- The code of a value of an enumeration for which the spec states none: a mode, an end, a kind, a lock or
sensor state, a cause. The same in both directions (R218). Opaque: nothing proves a value of it (log 28). -/
opaque openCode {α : Type} : α → Nat

/-- The fields of a command's body of a kind, each with its characters, in the order in which the command's rule
names them; none for a body of another length. The spec lays out no command's body. Opaque (log 7). -/
opaque fieldsOf : Nat → List Byte → Option (List (List Byte))

/-- The characters of a reply's content, or of a record in it, of a kind, from its fields in the order in which
the command's rule names them. The spec lays out that of READ_CASE alone. Opaque (log 28). -/
opaque arrangeReply : Nat → List (List Byte) → List Byte

/-- The characters of a notice's own body, of a category and form, from its fields in the order in which its rule
names them. The spec lays out none. Opaque (log 28). -/
opaque arrangeNotice : Nat → Nat → List (List Byte) → List Byte

/-- What stands behind a presence character of 0, in so many characters. Opaque (log 28). -/
opaque absentChars : Nat → List Byte

/-- The characters of a text: IDENTIFY carries two, and the spec states neither their code nor their length.
Opaque (log 28). -/
opaque textChars : String → List Byte

/-! ### The commands, from the fields of their bodies -/

/-- The value of an enumeration with an open code. -/
def ofOpenCode {α : Type} (values : List α) (code : Nat) : Option α := values.find? fun v => openCode v == code

/-- A number in one character, none when the character is all ones (R218). -/
def optOfChars (cs : List Byte) : Option Nat := if leValue cs = 0xFF then none else some (leValue cs)

/-- A flag: 0 or 1. -/
def flagOfCode : Nat → Option Bool
  | 0 => some false
  | 1 => some true
  | _ => none

/-- A list of numbers of one character each, after a count (chapter 12). -/
def listOfChars : List Byte → Option (List Nat)
  | [] => none
  | n :: cs => if cs.length = n.toNat then some (cs.map (·.toNat)) else none

/-- The kinds of a counter's scope (R200). -/
inductive ScopeKind where
  | all | segment | sensor | device
deriving DecidableEq, Repr

/-- A scope from its kind and number. With kind ALL, whose number R200 and R205 leave unsaid, the number field is
read and its value, whatever it is, is not judged (log 59). -/
def scopeOf (n : Nat) : ScopeKind → Scope
  | .all => .all
  | .segment => .segment n
  | .sensor => .sensor n
  | .device => .device n

/-- SET_NOTICE_MASK: the codes of the categories (R193). -/
def masksOf : List (List Byte) → Option (List Nat)
  | [categories] => listOfChars categories
  | _ => none

/-- SET_MODE (R21). -/
def modeOf : List (List Byte) → Option Mode
  | [mode] => ofOpenCode [.configuring, .monitoring, .halted] (leValue mode)
  | _ => none

/-- DEFINE_SEGMENT (R3). -/
def segmentEditOf : List (List Byte) → Option SegmentEdit
  | [number, parent, phases, plan, label] =>
    (phasesOfCode (leValue phases)).map fun ps =>
      { number := leValue number, parent := optOfChars parent, phases := ps, plan := optOfChars plan
        label := leValue label }
  | _ => none

/-- BIND_SENSOR (R7). -/
def sensorBindingOf : List (List Byte) → Option SensorBinding
  | [address, segment, side, phases] =>
    match ofOpenCode [.head, .tail] (leValue side), phasesOfCode (leValue phases) with
    | some x, some ps => some { address := leValue address, segment := leValue segment, side := x, phases := ps }
    | _, _ => none
  | _ => none

/-- DEFINE_DEVICE (R11). -/
def deviceEditOf : List (List Byte) → Option DeviceEdit
  | [number, link, kind, segment] =>
    (ofOpenCode [.sectionalizing, .tie] (leValue kind)).map fun k =>
      { number := leValue number, link := leValue link, kind := k, segment := leValue segment }
  | _ => none

/-- DEFINE_PLAN (R104). -/
def planEditOf : List (List Byte) → Option PlanEdit
  | [number, segment, steps, fallback] =>
    (listOfChars steps).map fun l =>
      { number := leValue number, segment := leValue segment, steps := l, fallback := optOfChars fallback }
  | _ => none

/-- OPERATE (R159). -/
def operateRequestOf : List (List Byte) → Option OperateRequest
  | [device, action] =>
    (actionOfCode (leValue action)).map fun a => { device := leValue device, action := a }
  | _ => none

/-- SET_HOLD (R164). -/
def holdRequestOf : List (List Byte) → Option HoldRequest
  | [segment, kind, label, conditional] =>
    match ofOpenCode [.work, .mute] (leValue kind), flagOfCode (leValue conditional) with
    | some k, some f => some { segment := leValue segment, kind := k, label := leValue label, conditional := f }
    | _, _ => none
  | _ => none

/-- READ_FAULT_RECORD (R181). -/
def clearFlagOf : List (List Byte) → Option Bool
  | [clear] => flagOfCode (leValue clear)
  | _ => none

/-- PROGRAM_COUNTER (R205): its select in the code of R201. -/
def counterProgramOf : List (List Byte) → Option CounterProgram
  | [number, select, kind, named, notify] =>
    match selectOfCode (leValue select), ofOpenCode [.all, .segment, .sensor, .device] (leValue kind),
      flagOfCode (leValue notify) with
    | some x, some k, some f =>
      some { number := leValue number, select := x, scope := scopeOf (leValue named) k, notify := f }
    | _, _, _ => none
  | _ => none

/-- READ_SETTING (R209). -/
def settingNameOf : List (List Byte) → Option SettingName
  | [group, index] => some { group := leValue group, index := leValue index }
  | _ => none

/-- WRITE_SETTING (R210). -/
def settingWriteOf : List (List Byte) → Option SettingWrite
  | [group, index, value, mask] =>
    some { group := leValue group, index := leValue index, value := BitVec.ofNat 16 (leValue value)
           mask := BitVec.ofNat 16 (leValue mask) }
  | _ => none

/-- Six flags, all of them codes with a meaning. -/
def sixFlags (l : List (List Byte)) : Option (List Bool) := l.mapM fun cs => flagOfCode (leValue cs)

/-- STAGE_OPTIONS (R213). -/
def optionsOf (fields : List (List Byte)) : Option Options :=
  match sixFlags fields with
  | some [auto, unattended, supervise, portB, quiet, readOnly] =>
    some { autoPermitted := auto, unattendedIsolate := unattended, supervisePortA := supervise
           portBControl := portB, quietStart := quiet, bReadCountersOnly := readOnly }
  | _ => none

/-- The commands that name a case (section 4.8). -/
def caseNameOf : List (List Byte) → Option CaseName
  | [entry, serial] => some { entry := leValue entry, serial := leValue serial }
  | _ => none

/-- The commands that carry one number, an address or a time. -/
def numberOf : List (List Byte) → Option Nat
  | [number] => some (leValue number)
  | _ => none

/-- The commands that carry a range (R5, R9, R106, R207). -/
def readRangeOf : List (List Byte) → Option ReadRange
  | [first, count] => some { first := leValue first, count := leValue count }
  | _ => none

/-! ### The fields of replies and notices

A number takes one character when its range ends at 255, two at 65535, and a time or a counter's value four
(log 28). -/

/-- A value of an enumeration with an open code. -/
def openChar {α : Type} (v : α) : List Byte := leChars 1 (openCode v)

/-- A value of an enumeration, absent being all ones (R218). -/
def optOpenChar {α : Type} (v : Option α) : List Byte := optChar (v.map openCode)

/-- A number whose range fills its characters, behind its presence character (R218). -/
def optPresent (size : Nat) (v : Option Nat) : List Byte :=
  presenceChar v ++ match v with
    | some n => leChars size n
    | none => absentChars size

/-- Flags in their order. -/
def flagChars (l : List Bool) : List Byte := l.flatMap flagChar

/-- A list of records of a reply, behind its count (chapter 12). -/
def recordChars {α : Type} (kind : Nat) (fields : α → List (List Byte)) (l : List α) : List Byte :=
  leChars 1 l.length ++ l.flatMap fun x => arrangeReply kind (fields x)

/-- The six options of a record (R213). -/
def optionFlags (o : Options) : List Byte :=
  flagChars [o.autoPermitted, o.unattendedIsolate, o.supervisePortA, o.portBControl, o.quietStart,
    o.bReadCountersOnly]

/-- The flags of a record that may be absent, each then all ones: its range does not fill its character (R218). -/
def optOptionFlags (o : Option Options) : List Byte := (o.map optionFlags).getD (List.replicate 6 0xFF#8)

/-- A failing item's kind, and its number or address (R23). -/
inductive ItemKind where
  | none | segment | sensor | device | plan
deriving DecidableEq, Repr

/-- R23. -/
def itemFields : FailingItem → List (List Byte)
  | .none => [openChar ItemKind.none, optTwo none]
  | .segment n => [openChar ItemKind.segment, optTwo (some n)]
  | .sensor a => [openChar ItemKind.sensor, optTwo (some a)]
  | .device n => [openChar ItemKind.device, optTwo (some n)]
  | .plan n => [openChar ItemKind.plan, optTwo (some n)]

/-- A scope's kind and number (R200). With kind ALL the number is sent as an absent field, which R207 leaves unsaid
(log 59). -/
def scopeFields : Scope → List (List Byte)
  | .all => [openChar ScopeKind.all, optTwo none]
  | .segment n => [openChar ScopeKind.segment, optTwo (some n)]
  | .sensor a => [openChar ScopeKind.sensor, optTwo (some a)]
  | .device n => [openChar ScopeKind.device, optTwo (some n)]

/-- R1, R5. -/
def segmentFields (x : Nat × Segment) : List (List Byte) :=
  [leChars 1 x.1, optChar x.2.parent, leChars 1 (phasesCode x.2.phases), optChar x.2.plan, leChars 2 x.2.label]

/-- R6, R9. -/
def sensorFields (v : Sensor) : List (List Byte) :=
  [leChars 2 v.address, leChars 1 v.segment, openChar v.side, leChars 1 (phasesCode v.phases), openChar v.state,
    optPresent 2 v.lastSequence, leChars 4 v.lastHeard]

/-- The kinds of an order's origin (R131). -/
inductive OriginKind where
  | case | port | none
deriving DecidableEq, Repr

/-- An order's origin, with the case serial, or the port and tag, it names (R131). -/
def originFields : OrderOrigin → List (List Byte)
  | .case serial => [openChar OriginKind.case, leChars 2 serial]
  | .port p tag => [openChar OriginKind.port, openChar p, [tag]]
  | .none => [openChar OriginKind.none]

/-- The record of a device's current order (R151). -/
def orderFields (o : Order) : List (List Byte) :=
  [leChars 1 (actionCode o.action), openChar o.cls, openChar o.state, flagChar o.resend, optChar o.sends,
    optTime o.deadline] ++ originFields o.origin

/-- R13, R129, R151. The order's record follows when there is a current order, as that field's presence character
says. -/
def deviceFields (x : Nat × Device × Option Order) : List (List Byte) :=
  let v := x.2.1
  [leChars 1 x.1, leChars 1 v.link, openChar v.kind, leChars 1 v.segment,
    leChars 1 (deviceStateCode v.run.state), flagChar v.run.reachable, optTime v.run.settleUntil,
    optPresent 1 v.run.currentOrder, optChar (v.run.lastRefusal.map refusalCode), optTime v.run.nextPoll]
    ++ match x.2.2 with
      | some o => orderFields o
      | none => []

/-- R14, R16: the announced phases are absent while there are none. -/
def discoveryFields (x : DiscoveryEntry) : List (List Byte) :=
  [leChars 2 x.address, leChars 4 x.firstHeard, optChar (x.phases.map phasesCode)]

/-- R79, R99. -/
def summaryFields (k : CaseSummary) : List (List Byte) :=
  [leChars 1 k.entry, leChars 2 k.serial, leChars 1 k.segment, leChars 1 (phaseCode k.phase),
    leChars 1 (caseStateCode k.state), leChars 2 k.score, optChar (k.finding.map findingCode)]

/-- R103, R106: the steps as a list of device numbers. -/
def planFields (x : Nat × Plan) : List (List Byte) :=
  [leChars 1 x.1, leChars 1 x.2.segment, leChars 1 x.2.steps.length ++ x.2.steps.flatMap (leChars 1),
    optChar x.2.fallback]

/-- R163. -/
def holdFields (h : Hold) : List (List Byte) := [openChar h.kind, openChar h.holder, leChars 2 h.label]

/-- R170. -/
def lostFields (k : LostCase) : List (List Byte) :=
  [leChars 1 k.entry, leChars 2 k.serial, optChar k.segment, optChar (k.phase.map phaseCode)]

/-- R170, R181: an empty record's first fault is absent. -/
def recordFields (r : FaultRecord) : List (List Byte) :=
  [optOpenChar (r.first.map (·.table)), optTwo (r.first.bind (·.entry)), optTime (r.first.map (·.time)),
    optOpenChar (r.first.map (·.mode)), leChars 1 r.total, leChars 2 r.repaired,
    recordChars 0x2C lostFields r.lost, flagChar r.lostUnlisted, flagChar r.storeFailed]

/-- R200, R207. -/
def counterFields (x : Nat × Counter) : List (List Byte) :=
  [leChars 1 x.1, leChars 1 (selectCode x.2.select)] ++ scopeFields x.2.scope
    ++ [leChars 4 x.2.value, flagChar x.2.overflow, flagChar x.2.notify]

/-- Port A's supervision states (R194), for which R218 gives no code. -/
inductive Presence where
  | present | absent
deriving DecidableEq, Repr

/-- Port A's supervision state, in an open code (log 28). -/
def presenceState (absent : Bool) : List Byte := openChar (if absent then Presence.absent else Presence.present)

/-- R197. -/
def statusFields (s : Status) : List (List Byte) :=
  [openChar s.mode, flagChar s.recovering, flagChar s.saving, openChar s.lock, presenceState s.portAAbsent,
    leChars 1 s.counts.watch, leChars 1 s.counts.confirmed, leChars 1 s.counts.isolating,
    leChars 1 s.counts.isolated, leChars 1 s.counts.blocked, leChars 1 s.counts.free, leChars 1 s.orders,
    leChars 1 s.ordersSent, leChars 1 s.intake, leChars 1 s.notices, flagChar s.lostPending,
    flagChars s.masks, flagChars s.latches, leChars 1 s.overrun]

/-- The fields of a reply's content, in the order in which its command's rule names them. The elapsed milliseconds of
READ_TIME go as a time does: four characters, all ones when absent, and the low 32 bits of a larger count (log 28). -/
def replyFields (kind : Nat) : ReplyBody → List (List Byte)
  | .empty => []
  | .validation check item => leChars 1 check :: itemFields item
  | .holder p => [openChar p]
  | .deviceNumber n => [leChars 1 n]
  | .orderNumber n => [leChars 1 n]
  | .presentHold h => [openChar h.holder, openChar h.kind, leChars 2 h.label]
  | .segments l more => [recordChars kind segmentFields l, flagChar more]
  | .roster l more => [recordChars kind sensorFields l, flagChar more]
  | .devices l => [recordChars kind deviceFields l]
  | .discovery l => [recordChars kind discoveryFields l]
  | .time now lock good sincePulse => [leChars 4 now, openChar lock, leChars 1 good, optTime sincePulse]
  | .cases n l => [leChars 1 n, recordChars kind summaryFields l]
  | .caseRecord n k => [caseChars n k]
  | .plans used l more => [leChars 1 used, recordChars kind planFields l, flagChar more]
  | .claims reserved held =>
    [recordChars kind (fun x : Nat × Port => [leChars 1 x.1, openChar x.2]) reserved,
      recordChars kind (fun x : Nat × Hold => leChars 1 x.1 :: holdFields x.2) held]
  | .faultRecord r window recovering mode =>
    recordFields r ++ [recordChars kind (fun t => [leChars 4 t]) window, flagChar recovering, openChar mode]
  | .counters l => [recordChars kind counterFields l]
  | .setting value low high default => [leChars 2 value, leChars 2 low, leChars 2 high, leChars 2 default]
  | .settingWritten before after => [leChars 2 before, leChars 2 after]
  | .options r staged inForce burning =>
    [flagChar r.burned, optionFlags r.options, optOptionFlags staged, flagChar inForce.burned,
      optionFlags inForce.options, flagChar burning]
  | .identity vendor part step inForce mode =>
    [textChars vendor, textChars part, leChars 1 step, flagChar inForce.burned, optionFlags inForce.options,
      openChar mode]
  | .status s => statusFields s
  | .masks l =>
    [recordChars kind (fun x : CategoryState => [flagChar x.mask, flagChar x.latch, leChars 1 x.withheld]) l]

/-- The characters of a reply's content: READ_CASE's as section 12.3 lays it out, any other's from its fields. -/
def contentChars (kind : Nat) : ReplyBody → List Byte
  | .empty => []
  | .caseRecord n k => caseChars n k
  | b => arrangeReply kind (replyFields kind b)

/-- A case's new state in a CASE notice: its code, or that of FREED, which READ_CASE's table does not give. -/
def newStateCode : Option CaseState → Nat
  | some s => caseStateCode s
  | none => openCode (none : Option CaseState)

/-- The causes of a DEVICE notice, without the order's number (R150). -/
inductive CauseKind where
  | orderReply | staleReply | stateReport | orderFailed | frameReceived
deriving DecidableEq, Repr

/-- The cause of a recording, and the order number when it is a reply (R150). -/
def recordingFields : RecordingCause → List (List Byte)
  | .orderReply n => [openChar CauseKind.orderReply, optPresent 1 (some n)]
  | .staleReply n => [openChar CauseKind.staleReply, optPresent 1 (some n)]
  | .stateReport => [openChar CauseKind.stateReport, optPresent 1 none]

/-- The cause of a change of reachability, and the failed order's number (R150). -/
def reachFields : ReachCause → List (List Byte)
  | .orderFailed n => [openChar CauseKind.orderFailed, optPresent 1 (some n)]
  | .frameReceived => [openChar CauseKind.frameReceived, optPresent 1 none]

/-- The fields of a notice's own body, in the order in which its rule names them. -/
def noticeFields : Notice → List (List Byte)
  | .caseChange n =>
    [leChars 1 n.entry, leChars 2 n.serial, optChar n.segment, optChar (n.phase.map phaseCode),
      optChar (n.old.map caseStateCode), leChars 1 (newStateCode n.new), optChar (n.finding.map findingCode),
      openChar n.reason, optChar n.device, leChars 4 n.time]
  | .tableExhausted kind sensor segment phase time =>
    [leChars 1 (evidenceCode kind), leChars 2 sensor, leChars 1 segment, leChars 1 (phaseCode phase),
      leChars 4 time]
  | .isolationLate entry serial segment phase confirmedAt plan step depth time =>
    [leChars 1 entry, leChars 2 serial, leChars 1 segment, leChars 1 (phaseCode phase), leChars 4 confirmedAt,
      optChar plan, leChars 1 step, leChars 1 depth, leChars 4 time]
  | .deviceState device link old new cause reachable time =>
    [leChars 1 device, leChars 1 link, leChars 1 (deviceStateCode old), leChars 1 (deviceStateCode new)]
      ++ recordingFields cause ++ [flagChar reachable, leChars 4 time]
  | .deviceReach device link reachable cause time =>
    [leChars 1 device, leChars 1 link, flagChar reachable] ++ reachFields cause ++ [leChars 4 time]
  | .isolationOverride device number serial => [leChars 1 device, leChars 1 number, leChars 2 serial]
  | .order n =>
    [[n.tag], leChars 1 n.number, leChars 1 n.device, leChars 1 (actionCode n.action), openChar n.outcome,
      leChars 1 (deviceStateCode n.state), leChars 1 n.retries, optChar (n.refusal.map refusalCode),
      optOpenChar n.withdrawal, leChars 4 n.time]
  | .sensor address segment side old new lastHeard lastSequence =>
    [leChars 2 address, leChars 1 segment, openChar side, openChar old, openChar new, leChars 4 lastHeard,
      optPresent 2 lastSequence]
  | .time old new cause now => [openChar old, openChar new, openChar cause, leChars 4 now]
  | .counter number select scope value time =>
    [leChars 1 number, leChars 1 (selectCode select)] ++ scopeFields scope ++ [leChars 4 value, leChars 4 time]
  | .faultFound table entry time total inWindow outcome fall =>
    [openChar table, optTwo entry, leChars 4 time, leChars 1 total, leChars 1 inWindow, openChar outcome,
      optChar (fall.map fun f => if f then 1 else 0)]
  | .faultInHalted table entry time total => [openChar table, optTwo entry, leChars 4 time, leChars 1 total]
  | .recoveryEnded repaired reloaded lost mode failedCheck =>
    [leChars 2 repaired, leChars 1 reloaded.length ++ reloaded.flatMap openChar, leChars 1 lost, openChar mode,
      optChar failedCheck]
  | .supervision oldAbsent newAbsent interval time =>
    [presenceState oldAbsent, presenceState newAbsent, leChars 2 interval, leChars 4 time]
  | .portReset port released time => [openChar port, leChars 1 released, leChars 4 time]
  | .summary category withheld => [leChars 1 category.code, leChars 1 withheld]

/-! ### The frames a port sends -/

/-- The kind of a notice frame (R191, R217). -/
def noticeKind : Nat := 0xE0

/-- The kind of a frame a port sends: a reply's own, or the notice kind (R186, R191, R217). -/
def PortFrame.kind : PortFrame → Nat
  | .reply r => r.kind
  | .notice _ _ _ => noticeKind

/-- The tag of a frame a port sends: the command's tag in a reply, the notice sequence in a notice (R216). -/
def PortFrame.tag : PortFrame → Byte
  | .reply r => r.tag
  | .notice _ sequence _ => BitVec.ofNat 8 sequence

/-- The body of a frame a port sends: its header, then its content (section 12.3). -/
def PortFrame.body : PortFrame → List Byte
  | .reply r => replyHeader r.code ++ contentChars r.kind r.body
  | .notice n _ lost => noticeHeader n lost ++ arrangeNotice n.category.code n.form (noticeFields n)

/-- The characters of a frame a port sends (R183, R216). A body of over 480 characters is framed whole (log 66). -/
def portFrameChars (f : PortFrame) : List Byte := frameChars f.kind f.tag f.body

end Sys2Proof.Machine
end

