-- ==== Sys2Proof/Decode.lean ====
section
/-! DEFINITION. The command a word spells by the table's bits (no row has any), and the command that a good
frame on a port spells by its kind (R185, R217), its body's fields read by the codes of R218 (log 7). -/

namespace Sys2Proof

open Sys2Proof.Machine

/-- No row of the table has bits, so no word spells a command. -/
def decodeTableWord (_nbits _w : Nat) : Option Instr := none

/-! ### Bodies -/

/-- The body of a command of a kind, from its characters: its fields taken apart, and read by the codes of R218;
a body of another length, or with a code that has no meaning, is malformed. -/
def bodyOf {α : Type} (kind : Nat) (read : List (List Byte) → Option α) (cs : List Byte) : Body α :=
  match (fieldsOf kind cs).bind read with
  | some x => .ok x
  | none => .malformed

/-- The body of a command that carries none: any character makes it malformed. -/
def noBody (cs : List Byte) : Body Unit := if cs.isEmpty then .ok () else .malformed

/-! ### The kinds of the ports (R185, R217) -/

/-- The command that a good frame on a port spells: by its kind a command, a command of no known kind, or a
frame that is no command. -/
def portCommand (q : Port) (kind tag : Byte) (cs : List Byte) : Instr :=
  match kind.toNat with
  | 0x01 => .identify q tag (noBody cs)
  | 0x02 => .getStatus q tag (noBody cs)
  | 0x03 => .resetPort q tag (noBody cs)
  | 0x04 => .restart q tag (noBody cs)
  | 0x05 => .setNoticeMask q tag (bodyOf 0x05 masksOf cs)
  | 0x08 => .setMode q tag (bodyOf 0x08 modeOf cs)
  | 0x09 => .defineSegment q tag (bodyOf 0x09 segmentEditOf cs)
  | 0x0A => .deleteSegment q tag (bodyOf 0x0A numberOf cs)
  | 0x0B => .readSegments q tag (bodyOf 0x0B readRangeOf cs)
  | 0x0C => .bindSensor q tag (bodyOf 0x0C sensorBindingOf cs)
  | 0x0D => .unbindSensor q tag (bodyOf 0x0D numberOf cs)
  | 0x0E => .readRoster q tag (bodyOf 0x0E readRangeOf cs)
  | 0x0F => .defineDevice q tag (bodyOf 0x0F deviceEditOf cs)
  | 0x10 => .deleteDevice q tag (bodyOf 0x10 numberOf cs)
  | 0x11 => .readDevices q tag (noBody cs)
  | 0x12 => .readDiscovery q tag (noBody cs)
  | 0x14 => .setTime q tag (bodyOf 0x14 numberOf cs)
  | 0x15 => .readTime q tag (noBody cs)
  | 0x18 => .dismissCase q tag (bodyOf 0x18 caseNameOf cs)
  | 0x19 => .closeCase q tag (bodyOf 0x19 caseNameOf cs)
  | 0x1A => .isolateCase q tag (bodyOf 0x1A caseNameOf cs)
  | 0x1B => .listCases q tag (noBody cs)
  | 0x1C => .readCase q tag (bodyOf 0x1C caseNameOf cs)
  | 0x20 => .definePlan q tag (bodyOf 0x20 planEditOf cs)
  | 0x21 => .deletePlan q tag (bodyOf 0x21 numberOf cs)
  | 0x22 => .readPlans q tag (bodyOf 0x22 readRangeOf cs)
  | 0x24 => .reserve q tag (bodyOf 0x24 numberOf cs)
  | 0x25 => .release q tag (bodyOf 0x25 numberOf cs)
  | 0x26 => .operate q tag (bodyOf 0x26 operateRequestOf cs)
  | 0x27 => .setHold q tag (bodyOf 0x27 holdRequestOf cs)
  | 0x28 => .clearHold q tag (bodyOf 0x28 numberOf cs)
  | 0x29 => .readClaims q tag (noBody cs)
  | 0x2C => .readFaultRecord q tag (bodyOf 0x2C clearFlagOf cs)
  | 0x30 => .programCounter q tag (bodyOf 0x30 counterProgramOf cs)
  | 0x31 => .clearCounter q tag (bodyOf 0x31 numberOf cs)
  | 0x32 => .readCounters q tag (bodyOf 0x32 readRangeOf cs)
  | 0x34 => .readSetting q tag (bodyOf 0x34 settingNameOf cs)
  | 0x35 => .writeSetting q tag (bodyOf 0x35 settingWriteOf cs)
  | 0x36 => .saveConfiguration q tag (noBody cs)
  | 0x37 => .stageOptions q tag (bodyOf 0x37 optionsOf cs)
  | 0x38 => .burnOptions q tag (noBody cs)
  | 0x39 => .readOptions q tag (noBody cs)
  | k => if k < 0x80 then .unknownKindCommand q tag kind else .nonCommandFrame q kind

end Sys2Proof
end

