-- ==== Sys2Proof/Machine/Ops.lean ====
section
/-! DEFINITION. The shared operations: times of day, the event under way, checked tables and internal
faults, notices and counter occurrences, discovery, case entries and the order queue's bookkeeping. -/

namespace Sys2Proof.Machine

/-! ### Times of day (R28, R29) -/

/-- A time of day plus an interval (R28). -/
def addTime (t d : Nat) : Nat := (t + d) % Config.day

/-- A time of day moved by a signed amount (R28, R29). -/
def moveTime (d : Int) (t : Nat) : Nat := (((t : Int) + d) % (Config.day : Int)).toNat

/-- The signed difference a minus b of two times of day (R28). -/
def diffTime (a b : Nat) : Int :=
  let r := ((a : Int) - (b : Int)) % (Config.day : Int)
  if (Config.halfDay : Int) ≤ r then r - (Config.day : Int) else r

/-- Whether, at time `now`, the time `t` is reached (R28). -/
def reached (now t : Nat) : Bool := decide (0 ≤ diffTime now t)

/-! ### Phases -/

/-- Whether a set holds a phase. -/
def phaseIn (p : Phase) (s : PhaseSet) : Bool :=
  match p with
  | .a => s.a
  | .b => s.b
  | .c => s.c

/-- Whether a phase set is not empty. -/
def phasesNonempty (s : PhaseSet) : Bool := s.a || s.b || s.c

/-- Whether two phase sets share a phase. -/
def phasesMeet (s t : PhaseSet) : Bool := (s.a && t.a) || (s.b && t.b) || (s.c && t.c)

/-- Whether the first phase set is contained in the second. -/
def phasesWithin (s t : PhaseSet) : Bool := (!s.a || t.a) && (!s.b || t.b) && (!s.c || t.c)

/-! ### The event under way -/

/-- What an event reads and does not change: the settings and options in force, and the image when the
store can be reloaded from (marked valid, its code matching; R176). -/
structure Env where
  settings : Settings
  options : Options
  image : Option Image
deriving DecidableEq, Repr

/-- Whom a notice is offered to (section 9.4). -/
inductive Dest where
  | both
  | only (p : Port)
deriving DecidableEq, Repr

/-- An occurrence of an event select, with what it adds and the items it names (R201). The amount is
signed, because a time taken by the difference of R28 may be (log 35). -/
structure Occurrence where
  select : EventSelect
  amount : Int
  segment : Option Nat
  sensor : Option Nat
  device : Option Nat
deriving DecidableEq, Repr

/-- What an event still has to do before it ends. Each is carried out in turn by `runWork`, and what one
calls for is done before what stood after it. -/
inductive Work where
  /-- Pass a case confirmed in this event to IS (R83, R112). -/
  | pass (entry : Nat)
  /-- Send a CONFIRMED case to ISOLATING (R114). -/
  | isolate (entry : Nat) (reason : CaseReason)
  /-- Steps 1, 3 and 4 of the start of isolation (R114). -/
  | begin (entry : Nat)
  /-- Judge a walk's present step (R116). -/
  | judge (entry : Nat)
  /-- Judge again a step in AWAITING or ROOM (R118, R120). -/
  | rejudge (entry : Nat)
  /-- Judge the completion of a walk's own order (R119, R121). -/
  | ownDone (entry : Nat) (device : Nat)
  /-- A completion or withdrawal of an order for a device is announced to IS and polling (R134, R142). -/
  | announce (device : Nat)
  /-- A device has entered OPEN or LOCKED_OUT: its waiting steps are judged again (R145). -/
  | opened (device : Nat)
  /-- Judge the room list from its oldest end (R120). -/
  | room
  /-- Go on with the room list when the step just judged has left it (R120). -/
  | roomNext (entry : Nat)
  /-- Request the polls of due devices (R148). -/
  | polls
  /-- Hand a completed order to its origin (R142 step 3). -/
  | handOver (o : Order) (outcome : OrderOutcome) (refusal : Option RefusalReason)
  /-- Complete FAILED the order of a device number left undefined (R177). -/
  | failLost (device : Nat)
  /-- The validation that follows a successful reload (R178). -/
  | validate
  /-- The forced fall that ends a store failure in MONITORING (R178 step 5). -/
  | fall
  /-- The end of a sweep step (R175). -/
  | sweepEnd (table : Table)
deriving DecidableEq, Repr

/-- What an event gives out as its rules come to it: a notice (R190), or an occurrence for the counters
(R201), whose wraps raise their COUNTER notices there (R202; log 11). -/
inductive Emit where
  | tell (d : Dest) (n : Notice)
  | count (o : Occurrence)
deriving DecidableEq, Repr

/-- An entry of a checked table, as a read names it. -/
structure Ref where
  table : Table
  index : Nat
deriving DecidableEq, Repr

/-- The event under way: the blocks, with what it has given out, in order, the cases it has confirmed, the
bad entries it has met (log 6), the work it still has, and whether it found the store failed. -/
structure Ev extends Core where
  out : List Emit
  confirmedNow : List Nat
  met : List Ref
  todo : List Work
  storeFailed : Bool
deriving DecidableEq, Repr

/-- The event's beginning. -/
def startEvent (c : Core) : Ev :=
  { c with out := [], confirmedNow := [], met := [], todo := [], storeFailed := false }

/-- A notice is raised. -/
def raise (d : Dest) (n : Notice) (e : Ev) : Ev := { e with out := e.out ++ [.tell d n] }

/-- An occurrence is counted (R201). -/
def occur (o : Occurrence) (e : Ev) : Ev := { e with out := e.out ++ [.count o] }

/-- Work is left for the event. -/
def later (ws : List Work) (e : Ev) : Ev := { e with todo := e.todo ++ ws }

/-- An occurrence that names a segment. -/
def countSegment (sel : EventSelect) (amount : Int) (segment : Nat) (e : Ev) : Ev :=
  occur { select := sel, amount := amount, segment := some segment, sensor := none, device := none } e

/-- An occurrence that names a sensor. -/
def countSensor (sel : EventSelect) (address : Nat) (e : Ev) : Ev :=
  occur { select := sel, amount := 1, segment := none, sensor := some address, device := none } e

/-- An occurrence that names a segment and a sensor. -/
def countEvidence (sel : EventSelect) (segment address : Nat) (e : Ev) : Ev :=
  occur { select := sel, amount := 1, segment := some segment, sensor := some address,
          device := none } e

/-- An occurrence that names a device. -/
def countDevice (sel : EventSelect) (device : Nat) (e : Ev) : Ev :=
  occur { select := sel, amount := 1, segment := none, sensor := none, device := some device } e

/-- An occurrence that names no item. -/
def countAll (sel : EventSelect) (amount : Int) (e : Ev) : Ev :=
  occur { select := sel, amount := amount, segment := none, sensor := none, device := none } e

/-! ### Checked tables (R169) -/

/-- The content of an entry as it stands. -/
def entryAt {α : Type} (l : List (Checked α)) (n : Nat) : Option α :=
  match l[n]? with
  | some c => c.content
  | none => none

/-- Whether an entry's check code does not match. -/
def badAt {α : Type} (l : List (Checked α)) (n : Nat) : Bool :=
  match l[n]? with
  | some c => c.check != 0
  | none => false

/-- An entry is written, its check code with it. -/
def putAt {α : Type} (l : List (Checked α)) (n : Nat) (x : Option α) : List (Checked α) :=
  l.set n { content := x, check := 0 }

/-- An entry that is defined and matches is changed, its check code with it; any other is left. -/
def updateAt {α : Type} (l : List (Checked α)) (n : Nat) (f : α → α) : List (Checked α) :=
  match l[n]? with
  | some c =>
    match c.content with
    | some x => if c.check = 0 then putAt l n (some (f x)) else l
    | none => l
  | none => l

/-- Every entry's content is changed where it stands, without a read: an entry that matched still
matches and a bad one stays bad (R29, R147). -/
def mapContents {α : Type} (f : α → α) (l : List (Checked α)) : List (Checked α) :=
  l.map fun c => { c with content := c.content.map f }

/-- The numbers of the entries that are defined and satisfy a predicate, ascending. -/
def entriesWhere {α : Type} (l : List (Checked α)) (f : α → Bool) : List Nat :=
  (List.range l.length).filter fun n =>
    match entryAt l n with
    | some x => f x
    | none => false

/-- The numbers of the entries that read defined or occupied, ascending. -/
def occupied {α : Type} (l : List (Checked α)) : List Nat := entriesWhere l fun _ => true

/-- The numbers of the bad entries of a table, ascending. -/
def badEntries {α : Type} (l : List (Checked α)) : List Nat :=
  (List.range l.length).filter fun n => badAt l n

/-- Whether the entry a read names does not match. -/
def isBad (c : Core) (r : Ref) : Bool :=
  match r.table with
  | .segment => badAt c.segments r.index
  | .device => badAt c.devices r.index
  | .roster => badAt c.roster r.index
  | .plan => badAt c.plans r.index
  | .case => badAt c.cases r.index
  | .store => false

/-- The entry a fault names: its number, or for a roster place the address it reads (R170). -/
def faultEntry (c : Core) (r : Ref) : Option Nat :=
  match r.table with
  | .roster => (entryAt c.roster r.index).map (·.address)
  | .store => none
  | _ => some r.index

/-- Reads of a list of entries of one table. -/
def refs (t : Table) (ns : List Nat) : List Ref := ns.map fun n => { table := t, index := n }

/-- Reads of every entry of a table: those of a search for the entries with a property, so that a corrupted field
or mark hides none from it (R169; log 6). -/
def allRefs (c : Core) (t : Table) : List Ref :=
  match t with
  | .segment => refs .segment (List.range c.segments.length)
  | .device => refs .device (List.range c.devices.length)
  | .roster => refs .roster (List.range c.roster.length)
  | .plan => refs .plan (List.range c.plans.length)
  | .case => refs .case (List.range c.cases.length)
  | .store => []

/-- The first read that finds a mismatch. -/
def firstBad (c : Core) (rs : List Ref) : Option Ref := rs.find? fun r => isBad c r

/-! ### Internal faults (R172, R173) -/

/-- Every next poll becomes none (R147). -/
def clearPolls (e : Ev) : Ev :=
  { e with devices := mapContents (fun d => { d with run := { d.run with nextPoll := none } }) e.devices }

/-- Steps 1 and 2 of R172. -/
def recordFault (t : Table) (entry : Option Nat) (e : Ev) : Ev :=
  let first := match e.record.first with
    | some f => some f
    | none => some { table := t, entry := entry, time := e.time.now, mode := e.mode }
  { e with record := { e.record with first := first, total := min 255 (e.record.total + 1) } }

/-- The mode becomes HALTED: a sweep is abandoned and RECOVERING ends (R180). -/
def enterHalted (e : Ev) : Ev :=
  clearPolls { e with mode := .halted, recovery := Recovery.idle }

/-- IM enters RECOVERING with all five tables on the sweep's list (R172, R175). -/
def enterRecovery (e : Ev) : Ev :=
  { e with recovery := { Recovery.idle with
      recovering := true, sweep := [.segment, .device, .roster, .plan, .case] } }

/-- A further fault puts its table at the end of the sweep's list when the sweep has finished with it
(R173, R175). -/
def appendSweep (t : Table) (e : Ev) : Ev :=
  if t = .store ∨ t ∈ e.recovery.sweep ∨ e.recovery.waiting = some t then e
  else { e with recovery := { e.recovery with sweep := e.recovery.sweep ++ [t] } }

/-- An internal fault (R172, R173). For table STORE, a forced fall follows when the mode is MONITORING and
the fault does not halt the part (R178). -/
def internalFault (t : Table) (entry : Option Nat) (e : Ev) : Ev :=
  let e := recordFault t entry e
  if e.mode = .halted then
    raise .both (.faultInHalted t entry e.time.now e.record.total) e
  else
    let e := { e with window := e.window ++ [e.time.now] }
    let halts := Config.faultLimit ≤ e.window.length
    let outcome : FaultOutcome :=
      if halts then .halted else if e.recovery.recovering then .furtherFault else .recovering
    let fall := if t = .store then some (!halts && e.mode == .monitoring) else none
    let e := raise .both
      (.faultFound t entry e.time.now e.record.total e.window.length outcome fall) e
    if halts then enterHalted e
    else if e.recovery.recovering then appendSweep t e
    else enterRecovery e

/-- The fault of a read that found a mismatch. An entry met again in one event is no second fault (log 6). -/
def faultAt (r : Ref) (e : Ev) : Ev :=
  if e.met.contains r then e
  else internalFault r.table (faultEntry e.toCore r) { e with met := e.met ++ [r] }

/-- The mismatches among the reads of an event that goes on (R94, R173), each handled until the part
halts. -/
def faultsAt (rs : List Ref) (e : Ev) : Ev :=
  rs.foldl (fun e r => if e.mode = .halted then e else if isBad e.toCore r then faultAt r e else e) e

/-- Whether IM is not RECOVERING and the mode is not HALTED. -/
def healthy (c : Core) : Bool := !c.recovery.recovering && c.mode != .halted

/-! ### Case entries (R68, R69, R84) -/

/-- The entry of the case on a segment and phase; there is at most one (R68). -/
def caseOn (c : Core) (segment : Nat) (phase : Phase) : Option Nat :=
  (entriesWhere c.cases fun k => k.segment == segment && k.phase == phase).head?

/-- A case entry is changed, its check code with it; the state CT counts for it follows (R197). -/
def putCase (n : Nat) (k : Case) (e : Ev) : Ev :=
  { e with cases := putAt e.cases n (some k), counted := e.counted.set n (some k.state) }

/-- The fields of a CASE notice that come from the record; one that reads outside its range is absent
(R101, R180). -/
def caseNotice (n : Nat) (k : Case) (old new : Option CaseState) (reason : CaseReason)
    (device : Option Nat) (now : Nat) : Notice :=
  .caseChange
    { entry := n, serial := k.serial
      segment := if .segment ∈ k.unreadable then none else some k.segment
      phase := if .phase ∈ k.unreadable then none else some k.phase
      old := if .state ∈ k.unreadable then none else old
      new := new
      finding := if .finding ∈ k.unreadable then none else k.finding
      reason := reason, device := device, time := now }

/-- A case changes state with its CASE notice (R101). -/
def changeCase (n : Nat) (k : Case) (state : CaseState) (reason : CaseReason)
    (device : Option Nat) (e : Ev) : Ev :=
  raise .both (caseNotice n { k with state := state } (some k.state) (some state) reason device e.time.now)
    (putCase n { k with state := state } e)

/-- IS holds no further progress for an entry, whose step leaves the room list (R113, R120). -/
def dropWalk (n : Nat) (e : Ev) : Ev :=
  { e with walks := e.walks.filter (fun w => w.entry != n), room := e.room.filter (· != n) }

/-- An entry is made free, with what CT and IS keep of it. -/
def clearCase (n : Nat) (e : Ev) : Ev :=
  dropWalk n { e with
    cases := putAt e.cases n none
    counted := e.counted.set n none
    opened := e.opened.filter (· != n) }

/-- A case is freed with a reason (R84). -/
def freeCase (n : Nat) (k : Case) (reason : CaseReason) (device : Option Nat) (e : Ev) : Ev :=
  let e := clearCase n e
  let e := raise .both (caseNotice n k (some k.state) none reason device e.time.now) e
  if k.state = .watch ∧ .state ∉ k.unreadable then
    if .segment ∈ k.unreadable then countAll .casesClosedUnconfirmed 1 e
    else countSegment .casesClosedUnconfirmed 1 k.segment e
  else e

/-- The case counts, from the states CT counts outside the checked entries (R197). -/
def caseCounts (c : Core) : CaseCounts :=
  { free := c.counted.count none
    watch := c.counted.count (some .watch)
    confirmed := c.counted.count (some .confirmed)
    isolating := c.counted.count (some .isolating)
    isolated := c.counted.count (some .isolated)
    blocked := c.counted.count (some .blocked) }

/-! ### Moving the times of day (R29) -/

/-- A case's opened time, window end and confirmation time. -/
def moveCase (d : Int) (k : Case) : Case :=
  { k with
    openedAt := moveTime d k.openedAt
    windowEnd := moveTime d k.windowEnd
    isolation := k.isolation.map fun i => { i with confirmedAt := moveTime d i.confirmedAt } }

/-- A device's settle-until and next-poll times. -/
def moveDevice (d : Int) (v : Device) : Device :=
  { v with run := { v.run with
      settleUntil := v.run.settleUntil.map (moveTime d)
      nextPoll := v.run.nextPoll.map (moveTime d) } }

/-- The time base takes a value, and every time of day the blocks hold moves by the same amount (R29), in
HALTED too (log 40). What a reply or notice already queued at a port carries does not move (log 38). -/
def setTimeBase (now : Nat) (e : Ev) : Ev :=
  let d : Int := (now : Int) - (e.time.now : Int)
  { e with
    time := { e.time with now := now }
    cases := mapContents (moveCase d) e.cases
    devices := mapContents (moveDevice d) e.devices
    roster := mapContents (fun r => { r with lastHeard := moveTime d r.lastHeard }) e.roster
    discovery := e.discovery.map fun x => { x with firstHeard := moveTime d x.firstHeard }
    intake := e.intake.map fun x => { x with arrival := moveTime d x.arrival }
    orders := e.orders.map fun o => { o with deadline := o.deadline.map (moveTime d) }
    window := e.window.map (moveTime d) }

/-- The lock state changes with its TIME notice (R35). -/
def changeLock (s : LockState) (cause : TimeCause) (e : Ev) : Ev :=
  let old := e.time.lock
  raise .both (.time old s cause e.time.now) { e with time := { e.time with lock := s } }

/-! ### Discovery list (R15) -/

/-- An address heard that is not in the roster; `phases` are those of a HELLO. -/
def discover (address : Nat) (phases : Option PhaseSet) (e : Ev) : Ev :=
  if e.discovery.any (fun x => x.address == address) then
    { e with discovery := e.discovery.map fun x =>
        if x.address = address ∧ phases.isSome then { x with phases := phases } else x }
  else
    let kept := if Config.discovery ≤ e.discovery.length then e.discovery.drop 1 else e.discovery
    { e with discovery := kept ++
        [{ address := address, firstHeard := e.time.now, phases := phases }] }

/-! ### Sensors -/

/-- The roster place of an address. -/
def sensorPlace (c : Core) (address : Nat) : Option Nat :=
  (entriesWhere c.roster fun r => r.address == address).head?

/-- A sensor's entry is written, with a SENSOR notice when its state changes (R43, R44). -/
def putSensor (place : Nat) (old new : Sensor) (e : Ev) : Ev :=
  let e := { e with roster := putAt e.roster place (some new) }
  if old.state = new.state then e
  else raise .both (.sensor new.address new.segment new.side old.state new.state new.lastHeard
    new.lastSequence) e

end Sys2Proof.Machine
end

