-- ==== Sys2Proof/Machine/Tree.lean ====
section
/-! DEFINITION. The relations on the feeder's tree (R17 to R19), the bar on manual CLOSE (R160), the
plan checks (R107) and the validation checks (R23). All are computed on the tables' contents as they
stand; the reads an event makes for them are listed beside. -/

namespace Sys2Proof.Machine

/-! ### Paths (R17) -/

/-- The walk of R17 with `fuel` segments still allowed. -/
def pathFrom (segs : List (Checked Segment)) : Nat → Nat → List Nat
  | 0, _ => []
  | fuel + 1, s =>
    match entryAt segs s with
    | none => [s]
    | some r =>
      match r.parent with
      | none => [s]
      | some p => if (entryAt segs p).isSome then s :: pathFrom segs fuel p else [s]

/-- The path of a segment, nearest first (R17). -/
def pathOf (segs : List (Checked Segment)) (s : Nat) : List Nat := pathFrom segs Config.pathLength s

/-- The segment entries read along a path: those on it, and the undefined parent that ends it. An entry that
does not match is not followed (R169). -/
def pathReadsFrom (segs : List (Checked Segment)) : Nat → Nat → List Nat
  | 0, _ => []
  | fuel + 1, s =>
    if badAt segs s then [s]
    else
      match entryAt segs s with
      | none => [s]
      | some r =>
        match r.parent with
        | none => [s]
        | some p => s :: pathReadsFrom segs fuel p

/-- The reads made along the path of a segment. -/
def pathReads (c : Core) (s : Nat) : List Ref :=
  refs .segment (pathReadsFrom c.segments Config.pathLength s)

/-- T is an ancestor of S (R17). -/
def isAncestor (segs : List (Checked Segment)) (t s : Nat) : Bool :=
  t != s && (pathOf segs s).contains t

/-- The numbers of the defined SECTIONALIZING devices of a segment, ascending. -/
def headingDevices (c : Core) (s : Nat) : List Nat :=
  entriesWhere c.devices fun d => d.kind == .sectionalizing && d.segment == s

/-- The path devices of a segment, nearest first (R17). -/
def pathDevices (c : Core) (s : Nat) : List Nat :=
  (pathOf c.segments s).flatMap (headingDevices c)

/-- Whether a segment lies in a device's downstream set (R18). The set of a device whose own segment is undefined is
empty, in the bars of R160 too, though the path of that segment holds the device (log 65). -/
def inDownstream (segs : List (Checked Segment)) (d : Device) (s : Nat) : Bool :=
  d.kind == .sectionalizing && (entryAt segs d.segment).isSome && (pathOf segs s).contains d.segment

/-- Whether a segment has a HEAD sensor that monitors a phase (R19). -/
def hasHeadSensor (c : Core) (s : Nat) (p : Phase) : Bool :=
  !(entriesWhere c.roster fun r => r.segment == s && r.side == .head && phaseIn p r.phases).isEmpty

/-- Whether Z lies in the head coverage on p of a head sensor at Y (R19). -/
def inCoverage (c : Core) (y : Nat) (p : Phase) (z : Nat) : Bool :=
  match entryAt c.segments z with
  | none => false
  | some r =>
    let path := pathOf c.segments z
    phaseIn p r.phases && path.contains y
      && !((path.takeWhile (· != y)).any fun t => hasHeadSensor c t p)

/-- The head coverage, in ascending segment number (R19). -/
def headCoverage (c : Core) (y : Nat) (p : Phase) : List Nat :=
  (List.range Config.segments).filter (inCoverage c y p)

/-! ### Device states -/

/-- Whether a state is OPEN or LOCKED_OUT (R116, R145). -/
def standsOpen (s : DeviceState) : Bool :=
  match s with
  | .open_ => true
  | .lockedOut => true
  | _ => false

/-- Whether a device is defined and stands open. -/
def deviceOpen (c : Core) (n : Nat) : Bool :=
  match entryAt c.devices n with
  | some d => standsOpen d.run.state
  | none => false

/-! ### The bar on manual CLOSE (R160) -/

/-- Whether segment S bars the CLOSE of a device: S in the downstream set of a SECTIONALIZING device,
or S the segment of a TIE, an ancestor or a descendant of it (R160; log 65). -/
def barredBy (segs : List (Checked Segment)) (d : Device) (s : Nat) : Bool :=
  match d.kind with
  | .sectionalizing => inDownstream segs d s
  | .tie => s == d.segment || isAncestor segs s d.segment || isAncestor segs d.segment s

/-- The segments that carry a WORK hold. -/
def workHeld (holds : List (Option Hold)) : List Nat :=
  (List.range holds.length).filter fun s =>
    match holds[s]? with
    | some (some h) => h.kind == .work
    | _ => false

/-- Whether a case state bars CLOSE along the case's path (R160). -/
def barsClose (s : CaseState) : Bool :=
  match s with
  | .isolating => true
  | .isolated => true
  | .blocked => true
  | _ => false

/-- The segments that have a case in ISOLATING, ISOLATED or BLOCKED. -/
def caseBarred (c : Core) : List Nat :=
  (entriesWhere c.cases fun k => barsClose k.state).filterMap fun n =>
    (entryAt c.cases n).map (·.segment)

/-- Whether a device is barred by a WORK hold (R160). -/
def barredByHold (segs : List (Checked Segment)) (holds : List (Option Hold)) (d : Device) : Bool :=
  (workHeld holds).any (barredBy segs d)

/-- Whether a device is barred by a case (R160). -/
def barredByCase (c : Core) (segs : List (Checked Segment)) (d : Device) : Bool :=
  (caseBarred c).any (barredBy segs d)

/-- The reads made for the bar on a device: every case entry, the paths of the barring segments, and the path of
the device's own segment (log 6). -/
def barReads (c : Core) (d : Device) : List Ref :=
  allRefs c .case
    ++ (workHeld c.holds ++ caseBarred c).flatMap (pathReads c) ++ pathReads c d.segment

/-! ### Plan checks (R107) -/

/-- The fallback chain from a plan, with the links still allowed and the plans reached: at most 4 links, no plan
twice, and its end at a plan whose fallback is none, which a chain that runs into an undefined plan does not reach
(check 6 of R107; log 42). -/
def chainOk (plans : List (Checked Plan)) : Nat → List Nat → Nat → Bool
  | links, seen, p =>
    match entryAt plans p with
    | none => false
    | some r =>
      match r.fallback with
      | none => true
      | some f =>
        match links with
        | 0 => false
        | links + 1 => !seen.contains f && chainOk plans links (f :: seen) f
termination_by structural links => links

/-- Whether no number stands twice in a list. -/
def noRepeat : List Nat → Bool
  | [] => true
  | x :: xs => !xs.contains x && noRepeat xs

/-- Plan checks 1 to 4 of R107, which read no other plan. -/
def planStands (c : Core) (p : Plan) : Bool :=
  (entryAt c.segments p.segment).isSome
    && p.steps.all (fun d => (entryAt c.devices d).isSome)
    && p.steps.any (fun d => (pathDevices c p.segment).contains d)
    && noRepeat p.steps

/-- The plan checks of R107. -/
def planPasses (c : Core) (n : Nat) (p : Plan) : Bool :=
  planStands c p
    && (match p.fallback with
        | none => true
        | some f => (entryAt c.plans f).isSome)
    && chainOk c.plans Config.fallbackLinks [n] n

/-! ### Validation (R23) -/

/-- Check 3: from a segment, the root is reached within the segments still allowed. -/
def reachesRoot (segs : List (Checked Segment)) : Nat → Nat → Bool
  | 0, _ => false
  | fuel + 1, s =>
    match entryAt segs s with
    | none => false
    | some r =>
      match r.parent with
      | none => true
      | some p => reachesRoot segs fuel p

/-- The lowest number of a list. -/
def lowest : List Nat → Option Nat
  | [] => none
  | x :: xs =>
    match lowest xs with
    | none => some x
    | some y => some (min x y)

/-- The addresses of the roster entries that satisfy a predicate. -/
def addressesWhere (c : Core) (f : Sensor → Bool) : List Nat :=
  (entriesWhere c.roster f).filterMap fun n => (entryAt c.roster n).map (·.address)

/-- Whether a segment's record satisfies a predicate; an undefined segment does not. -/
def segmentHas (c : Core) (s : Nat) (f : Segment → Bool) : Bool :=
  match entryAt c.segments s with
  | some r => f r
  | none => false

/-- Check 1. -/
def check1 (c : Core) : Option FailingItem :=
  match entriesWhere c.segments (fun r => r.parent.isNone) with
  | [] => some .none
  | [_] => none
  | _ :: s :: _ => some (.segment s)

/-- Check 2. -/
def check2 (c : Core) : Option FailingItem :=
  ((entriesWhere c.segments fun r =>
    match r.parent with
    | none => false
    | some p => (entryAt c.segments p).isNone).head?).map .segment

/-- Check 3. -/
def check3 (c : Core) : Option FailingItem :=
  (((entriesWhere c.segments fun _ => true).filter fun s =>
    !reachesRoot c.segments Config.pathLength s).head?).map .segment

/-- Check 4. -/
def check4 (c : Core) : Option FailingItem :=
  ((entriesWhere c.segments fun r =>
    match r.parent with
    | none => false
    | some p => !segmentHas c p (fun q => phasesWithin r.phases q.phases)).head?).map .segment

/-- Check 5. -/
def check5 (c : Core) : Option FailingItem :=
  (lowest (addressesWhere c fun r =>
    !segmentHas c r.segment (fun q => phasesWithin r.phases q.phases))).map .sensor

/-- Check 6. -/
def check6 (c : Core) : Option FailingItem :=
  (lowest (addressesWhere c fun r =>
    !(entriesWhere c.roster fun q =>
      decide (q.address < r.address) && q.segment == r.segment && q.side == r.side
        && phasesMeet q.phases r.phases).isEmpty)).map .sensor

/-- Check 7. -/
def check7 (c : Core) : Option FailingItem :=
  (((entriesWhere c.devices fun _ => true).filter fun n =>
    match entryAt c.devices n with
    | none => false
    | some d => (entryAt c.segments d.segment).isNone
        || (d.kind == .sectionalizing && (headingDevices c d.segment).any fun m => decide (m < n))).head?).map
    .device

/-- Check 8, over the segments and then over the plans. -/
def check8 (c : Core) : Option FailingItem :=
  match (entriesWhere c.segments fun r =>
    match r.plan with
    | none => false
    | some p => (entryAt c.plans p).isNone).head? with
  | some s => some (.segment s)
  | none =>
    (((entriesWhere c.plans fun _ => true).filter fun n =>
      match entryAt c.plans n with
      | none => false
      | some p => !planPasses c n p).head?).map .plan

/-- The first of numbered checks that fails, with its item. -/
def firstFailing (n : Nat) : List (Option FailingItem) → Option (Nat × FailingItem)
  | [] => none
  | some i :: _ => some (n, i)
  | none :: rest => firstFailing (n + 1) rest

/-- The validation checks of R23 over the tables as they stand: the failing check and its item. -/
def validation (c : Core) : Option (Nat × FailingItem) :=
  firstFailing 1 [check1 c, check2 c, check3 c, check4 c, check5 c, check6 c, check7 c, check8 c]

/-! ### What validation reads (R22; log 6)

Validation stops at the first check that fails, and within it at the failing item, so it meets no entry
beyond them. -/

/-- The plans read along the fallback chain from a plan, itself included. -/
def chainReads (plans : List (Checked Plan)) : Nat → List Nat → Nat → List Nat
  | links, seen, p =>
    match entryAt plans p with
    | none => [p]
    | some r =>
      match r.fallback with
      | none => [p]
      | some f =>
        match links with
        | 0 => [p]
        | links + 1 => if seen.contains f then [p] else p :: chainReads plans links (f :: seen) f
termination_by structural links => links

/-- The plans read to judge one plan: its chain is followed only when checks 1 to 4 of R107 pass. -/
def planCheckReads (c : Core) (n : Nat) : List Nat :=
  match entryAt c.plans n with
  | some p => if planStands c p then chainReads c.plans Config.fallbackLinks [n] n else [n]
  | none => [n]

/-- The plans that the segments up to a number name. -/
def namedPlans (c : Core) (upTo : Nat) : List Nat :=
  (List.range upTo).filterMap fun s => (entryAt c.segments s).bind (·.plan)

/-- The segments read by checks 1 to 4: all, or those up to a second root. -/
def segmentReads (c : Core) : List Ref :=
  match check1 c with
  | some (.segment s) => refs .segment (List.range (s + 1))
  | _ => allRefs c .segment

/-- The devices read by check 7: all, or those up to the failing one. -/
def deviceReads (c : Core) : List Ref :=
  match check7 c with
  | some (.device n) => refs .device (List.range (n + 1))
  | _ => allRefs c .device

/-- The plans read by check 8: those the segments name and then every plan, each up to the failing item. -/
def planStoreReads (c : Core) : List Ref :=
  match check8 c with
  | some (.segment s) => refs .plan (namedPlans c (s + 1))
  | some (.plan n) =>
    refs .plan (namedPlans c c.segments.length ++ (List.range (n + 1)).flatMap (planCheckReads c))
  | _ =>
    refs .plan (namedPlans c c.segments.length ++ (List.range c.plans.length).flatMap (planCheckReads c))

/-- The reads validation makes. Checks 5 and 6 take the sensors in ascending address, and so read the whole
roster first. -/
def validationReads (c : Core) : List Ref :=
  match validation c with
  | none => segmentReads c ++ allRefs c .roster ++ deviceReads c ++ planStoreReads c
  | some (n, _) =>
    segmentReads c
      ++ (if 5 ≤ n then allRefs c .roster else [])
      ++ (if 7 ≤ n then deviceReads c else [])
      ++ (if 8 ≤ n then planStoreReads c else [])

end Sys2Proof.Machine
end

