-- ==== Sys2Proof/Machine/Orders.lean ====
section
/-! DEFINITION. The order queue and the device link's transmitter: queuing (R132, R133), withdrawal
(R134), arbitration and sending (R135, R136), polling (R147, R148) and the ORDER notice (R149). -/

namespace Sys2Proof.Machine

/-- The order for a device, of which the queue holds at most one (R133). -/
def orderOf (c : Core) (d : Nat) : Option Order := c.orders.find? fun o => o.device == d

/-- The run-time fields of a defined device whose entry matches are changed. -/
def setRun (n : Nat) (f : DeviceRun → DeviceRun) (e : Ev) : Ev :=
  { e with devices := updateAt e.devices n fun d => { d with run := f d.run } }

/-- The order for a device is changed where it stands. -/
def setOrder (d : Nat) (f : Order → Order) (e : Ev) : Ev :=
  { e with orders := e.orders.map fun o => if o.device = d then f o else o }

/-- The order for a device leaves the queue (R134, R142). -/
def removeOrder (d : Nat) (e : Ev) : Ev :=
  setRun d (fun r => { r with currentOrder := none })
    { e with orders := e.orders.filter fun o => o.device != d }

/-- The state of a device as an ORDER notice gives it (R149): UNKNOWN for a device left undefined (log 46), and
for one whose entry does not match (log 43). -/
def stateOf (c : Core) (d : Nat) : DeviceState :=
  match entryAt c.devices d with
  | some v => if badAt c.devices d then .unknown else v.run.state
  | none => .unknown

/-! ### The ORDER notice (R149) -/

/-- The ORDER notice of a MANUAL order to its origin port. -/
def orderNotice (o : Order) (outcome : OrderOutcome) (refusal : Option RefusalReason)
    (withdrawal : Option WithdrawReason) (e : Ev) : Ev :=
  match o.origin with
  | .port p tag =>
    raise (.only p)
      (.order { tag := tag, number := o.number, device := o.device, action := o.action,
                outcome := outcome, state := stateOf e.toCore o.device,
                retries := (o.sends.getD 0) - 1, refusal := refusal, withdrawal := withdrawal,
                time := e.time.now }) e
  | _ => e

/-! ### Withdrawal (R134) -/

/-- A QUEUED order leaves the queue, with its ORDER notice. Its announcement is made once the act that asked
for the withdrawal is whole (log 44). -/
def takeOut (reason : WithdrawReason) (o : Order) (e : Ev) : Ev :=
  let e := removeOrder o.device e
  let e := match o.cls with
    | .manual => orderNotice o .withdrawn none (some reason) e
    | _ => e
  later [.announce o.device] e

/-- The order for a device is withdrawn when it is QUEUED; a SENT one stays. The device entry is verified: one
that does not match is a fault, the order leaves the queue without it, and where that fault halts the part
the order stays (R169; log 43). -/
def withdraw (reason : WithdrawReason) (d : Nat) (e : Ev) : Ev :=
  match orderOf e.toCore d with
  | none => e
  | some o =>
    match o.state with
    | .sent => e
    | .queued =>
      let e := faultsAt [{ table := .device, index := d }] e
      if e.mode = .halted then e else takeOut reason o e

/-- The orders for several devices are withdrawn in turn; in HALTED none is. -/
def withdrawEach (reason : WithdrawReason) (ds : List Nat) (e : Ev) : Ev :=
  ds.foldl (fun e d => if e.mode = .halted then e else withdraw reason d e) e

/-- The devices of the QUEUED CLOSE orders, in queuing order. -/
def queuedCloses (c : Core) : List Nat :=
  (c.orders.filter fun o => o.action == .close && o.state == .queued).map (·.device)

/-- The reads that judge whether one segment bars a device: its entry, and the path of a TIE's own segment.
The path of the barring segment is read with its case. -/
def closeBarReads (c : Core) (d : Nat) : List Ref :=
  { table := .device, index := d } ::
    match badAt c.devices d, entryAt c.devices d with
    | false, some v =>
      match v.kind with
      | .tie => pathReads c v.segment
      | .sectionalizing => []
    | _, _ => []

/-- The QUEUED CLOSE orders are judged in queuing order. A read that finds a mismatch is a fault, and its order
is left; in HALTED nothing more is judged (R169). -/
def judgeCloses (reads : Core → Nat → List Ref) (f : Nat → Device → Ev → Ev) (e : Ev) : Ev :=
  (queuedCloses e.toCore).foldl (fun e d =>
    if (firstBad e.toCore (reads e.toCore d)).isSome then faultsAt (reads e.toCore d) e
    else
      match entryAt e.devices d with
      | some v => if e.mode = .halted then e else f d v e
      | none => e) e

/-- QUEUED CLOSE orders for devices that a segment bars are withdrawn (R114, R162). -/
def withdrawBarredBySegment (s : Nat) (e : Ev) : Ev :=
  judgeCloses closeBarReads (fun d v e =>
    if barredBy e.segments v s then withdraw .isolationOverride d e else e) e

/-- QUEUED CLOSE orders for devices that the tables as they stand bar are withdrawn, with reason work
hold when a WORK hold bars the device (R162). An edit has read the tables before (log 6); a sweep takes the
segments and the cases as they stand (log 31). -/
def withdrawBarred (e : Ev) : Ev :=
  judgeCloses (fun _ d => [{ table := .device, index := d }]) (fun d v e =>
    if barredByHold e.segments e.holds v then withdraw .workHold d e
    else if barredByCase e.toCore e.segments v then withdraw .isolationOverride d e
    else e) e

/-! ### Sending (R135, R136) -/

/-- Whether an order is a candidate for sending: QUEUED, but not in HALTED, or a pending re-send; one
left to the sweep is passed over (R135, R152). -/
def isCandidate (c : Core) (o : Order) : Bool :=
  !o.left && match o.state with
    | .queued => c.mode != .halted
    | .sent => o.resend

/-- The oldest candidate of a class. -/
def oldestOf (c : Core) (k : OrderClass) : Option Order :=
  c.orders.find? fun o => o.cls == k && isCandidate c o

/-- The arbiter's choice: by class, then by queuing position (R135). -/
def chooseOrder (c : Core) : Option Order :=
  match oldestOf c .isolation with
  | some o => some o
  | none =>
    match oldestOf c .manual with
    | some o => some o
    | none => oldestOf c .poll

/-- An order is sent (R136). -/
def sendOrder (env : Env) (o : Order) (link : Nat) (e : Ev) : Ev :=
  let n := o.sends.getD 0 + 1
  let e := setOrder o.device (fun o => { o with
      state := .sent, resend := false, sends := some n
      deadline := some (addTime e.time.now env.settings.replyTimeout) }) e
  let e := { e with linkTx := some (orderFrame link o.number o.action) }
  let e := countDevice .ordersSent o.device e
  if 2 ≤ n then countDevice .orderRetries o.device e else e

/-- The arbiter, with the passes still allowed. An order whose device entry does not match is passed over
and the fault is handled (R152). -/
def arbitrateFrom (env : Env) : Nat → Ev → Ev
  | 0, e => e
  | fuel + 1, e =>
    if e.linkTx.isSome then e
    else
      match chooseOrder e.toCore with
      | none => e
      | some o =>
        if badAt e.devices o.device then
          arbitrateFrom env fuel (faultAt { table := .device, index := o.device }
            (setOrder o.device (fun o => { o with left := true }) e))
        else
          match entryAt e.devices o.device with
          | some v => sendOrder env o v.link e
          | none => arbitrateFrom env fuel (setOrder o.device (fun o => { o with left := true }) e)

/-- When the transmitter is free and a candidate waits, the arbiter sends it (R135). -/
def arbitrate (env : Env) (e : Ev) : Ev := arbitrateFrom env (Config.orders + 1) e

/-! ### Queuing (R132, R133) -/

/-- Whether a request to queue an order for a device is granted (R133). -/
def grants (c : Core) (d : Nat) : Bool :=
  healthy c && (orderOf c d).isNone && decide (c.orders.length < Config.orders)

/-- An order joins the queue at the newest end and takes the next number (R132, R133). -/
def queueOrder (env : Env) (d : Nat) (action : Action) (cls : OrderClass) (origin : OrderOrigin)
    (e : Ev) : Ev :=
  let number := (e.orderNumber + 1) % 256
  let o : Order := { number := number, device := d, action := action, cls := cls, origin := origin,
                     state := .queued, resend := false, sends := none, deadline := none, left := false }
  let e := { e with orderNumber := number, orders := e.orders ++ [o] }
  arbitrate env (setRun d (fun r => { r with currentOrder := some number }) e)

/-! ### Polling (R147, R148) -/

/-- Whether a device is poll-eligible (R147). -/
def pollEligible (c : Core) (v : Device) : Bool :=
  c.mode == .monitoring && (v.run.state == .unknown || !v.run.reachable)

/-- Whether a device is due for polling (R147). -/
def pollDue (c : Core) (d : Nat) : Bool :=
  match entryAt c.devices d with
  | none => false
  | some v => pollEligible c v && match v.run.nextPoll with
    | some t => reached c.time.now t
    | none => false

/-- A due device's poll is requested (R148). A device entry that does not match is a fault, and no order
is queued (R152). -/
def requestPoll (env : Env) (d : Nat) (e : Ev) : Ev :=
  if pollDue e.toCore d && grants e.toCore d then
    if badAt e.devices d then faultAt { table := .device, index := d } e
    else
      let e := setRun d (fun r => { r with
        nextPoll := some (addTime e.time.now (1000 * env.settings.pollInterval)) }) e
      queueOrder env d .query .poll .none e
  else e

/-- Due polls are requested in ascending device number while the queue has room (R148). In MONITORING, outside
recovery and with room, every device entry is read to find them: one that does not match is a fault, and its next
poll is not acted on (R169; log 6). -/
def requestPolls (env : Env) (e : Ev) : Ev :=
  if e.mode = .monitoring ∧ healthy e.toCore = true ∧ e.orders.length < Config.orders then
    (List.range Config.devices).foldl (fun e d => requestPoll env d e)
      (faultsAt (allRefs e.toCore .device) e)
  else e

/-- A device falls due as the time base reaches its next poll. In that event the polls of all the devices then due
are requested, in ascending device number (R148; log 37). -/
def pollFallsDue (env : Env) (d : Nat) (e : Ev) : Ev :=
  if pollDue e.toCore d then requestPolls env e else e

/-- On entering MONITORING, the next poll of every poll-eligible device becomes the time base (R147). -/
def startPolls (e : Ev) : Ev :=
  { e with devices := mapContents (fun v =>
      if pollEligible e.toCore v then { v with run := { v.run with nextPoll := some e.time.now } }
      else v) e.devices }

/-- The devices that entering MONITORING makes due are polled in the event that makes them so, by SET_MODE and at
the end of start-up (R147, R148). -/
def beginPolling (e : Ev) : Ev := later [.polls] (startPolls e)

/-- A device that is known and reachable is not poll-eligible: its next poll becomes none (R147). -/
def endPoll (d : Nat) (e : Ev) : Ev :=
  setRun d (fun r => if r.reachable && r.state != .unknown then { r with nextPoll := none } else r) e

end Sys2Proof.Machine
end

