-- ==== Sys2Proof/Machine/Cases.lean ====
section
/-! DEFINITION. The Case Table: present set, contributors, ring, score and arc fields (R70 to R79), the
BROKEN and DOWNED conditions and confirmation (R80 to R82), restoration (R86), opening and eviction
(R73 to R75), merge (R87 to R89), and the effects of device changes and holds (R90 to R93). -/

namespace Sys2Proof.Machine

/-! ### Present set (R70, R77) -/

/-- The list of the present set for a kind; ARC_BURSTS and TAIL_RESTORED have none (R70). -/
def presentOf (k : Case) : EvidenceKind → List Present
  | .tailDead => k.tailDead
  | .headCurrentDrop => k.headCurrentDrop
  | .headLive => k.headLive
  | .groundCurrent => k.groundCurrent
  | .arcBursts => []
  | .tailRestored => []

/-- The list of the present set for a kind is replaced. -/
def withPresent (k : Case) (kind : EvidenceKind) (l : List Present) : Case :=
  match kind with
  | .tailDead => { k with tailDead := l }
  | .headCurrentDrop => { k with headCurrentDrop := l }
  | .headLive => { k with headLive := l }
  | .groundCurrent => { k with groundCurrent := l }
  | .arcBursts => k
  | .tailRestored => k

/-- Whether a list holds a sensor. -/
def holdsSensor (l : List Present) (s : Nat) : Bool := l.any fun p => p.sensor == s

/-- The entry with the earliest timestamp by R28, the first of equals. Where R28's difference puts the timestamps in
no one order, it is what one pass over them in joining order keeps (log 61). -/
def earliestOf : Present → List Present → Present
  | best, [] => best
  | best, x :: xs => earliestOf (if diffTime x.timestamp best.timestamp < 0 then x else best) xs

/-- A sensor joins a list under the capacity rule of R70. -/
def joinPresent (l : List Present) (p : Present) : List Present :=
  let all := l ++ [p]
  if all.length ≤ Config.presentPerKind then all
  else
    match all with
    | [] => []
    | x :: xs => all.erase (earliestOf x xs)

/-- The timestamp a list holds for a sensor is replaced. -/
def restamp (l : List Present) (p : Present) : List Present :=
  l.map fun q => if q.sensor = p.sensor then p else q

/-! ### Ring, contributors, score, arcs -/

/-- Entries are appended to a ring of 16, whose oldest entries are overwritten (R71). -/
def appendRing (ring new : List RingEntry) : List RingEntry :=
  let all := ring ++ new
  all.drop (all.length - Config.ring)

/-- A sensor becomes a contributor (R72). -/
def contribute (k : Case) (s : Nat) : Case :=
  if k.contributors.contains s then k
  else if k.contributors.length < Config.contributors then
    { k with contributors := k.contributors ++ [s] }
  else { k with unlisted := true }

/-- A weight is added to a score, kept in 0–4095 (R79). -/
def addScore (score : Nat) (w : Int) : Nat := min 4095 (((score : Int) + w).toNat)

/-- An ARC_BURSTS item updates the arc fields (R78). -/
def addArcs (k : Case) (arcs stamp : Nat) : Case :=
  let count := min 255 (k.arcCount + arcs)
  match k.firstArc, k.lastArc with
  | some a, some b =>
    { k with
      arcCount := count
      firstArc := some (if diffTime stamp a < 0 then stamp else a)
      lastArc := some (if 0 < diffTime stamp b then stamp else b) }
  | _, _ => { k with arcCount := count, firstArc := some stamp, lastArc := some stamp }

/-! ### Weight (R65, R66) -/

/-- Whether an admission of an item to a case is a duplicate (R66). -/
def isDuplicate (k : Case) (it : Item) : Bool := holdsSensor (presentOf k it.kind) it.sensor

/-- The weight an admission applies (R65). -/
def weightOf (s : Settings) (k : Case) (it : Item) : Int :=
  match it.kind with
  | .tailDead => if isDuplicate k it then 0 else s.weightTailDead
  | .headCurrentDrop => if isDuplicate k it then 0 else s.weightHeadCurrentDrop
  | .headLive => if isDuplicate k it then 0 else s.weightHeadLive
  | .groundCurrent => if isDuplicate k it then 0 else s.weightGroundCurrent
  | .arcBursts => s.weightArcBursts
  | .tailRestored => if holdsSensor k.tailDead it.sensor then -(s.weightTailRestored : Int) else 0

/-! ### Confirmation (R80 to R82) -/

/-- Whether two timestamps lie within ALIGN_WINDOW (R80). -/
def aligned (window a b : Nat) : Bool :=
  decide (diffTime a b ≤ (window : Int)) && decide (diffTime b a ≤ (window : Int))

/-- The BROKEN condition (R80). -/
def isBroken (s : Settings) (lock : LockState) (k : Case) : Bool :=
  !k.tailDead.isEmpty
    && (k.headCurrentDrop.any fun d => k.tailDead.any fun t => aligned s.alignWindow d.timestamp t.timestamp)
    && !k.headLive.isEmpty
    && decide (2 ≤ k.contributors.length)
    && lock == .locked

/-- The DOWNED condition (R81). -/
def isDowned (s : Settings) (k : Case) : Bool :=
  decide (s.arcPersistence ≤ k.arcCount)
    && (match k.firstArc, k.lastArc with
        | some a, some b => decide ((s.arcSpread : Int) ≤ diffTime b a)
        | _, _ => false)
    && !k.groundCurrent.isEmpty

/-- The finding of the confirmation test (R82); none when neither condition holds. -/
def findingFor (s : Settings) (lock : LockState) (k : Case) : Option Finding :=
  match isBroken s lock k, isDowned s k with
  | true, true => some .brokenAndDowned
  | true, false => some .broken
  | false, true => some .downed
  | false, false => none

/-- A case is confirmed with a finding (R82), and is to be passed to IS (R83). -/
def confirmCase (n : Nat) (k : Case) (f : Finding) (e : Ev) : Ev :=
  let k := { k with
    finding := some f
    isolation := some { confirmedAt := e.time.now, plan := none, step := 0, depth := 0,
                        late := false, isolatedBy := none } }
  let e := changeCase n k .confirmed .confirmed none e
  let e := countSegment .casesConfirmed 1 k.segment e
  let e := countSegment .evidenceConfirming k.admitted k.segment e
  { e with confirmedNow := e.confirmedNow ++ [n] }

/-- The confirmation test of a case in WATCH (R82). -/
def confirmTest (env : Env) (n : Nat) (e : Ev) : Ev :=
  match entryAt e.cases n with
  | none => e
  | some k =>
    match k.state with
    | .watch =>
      match findingFor env.settings e.time.lock k with
      | none => e
      | some f => confirmCase n k f e
    | _ => e

/-- The restoration test, after a TAIL_RESTORED that removed an entry of the TAIL_DEAD list and left it
empty (R86). -/
def restorationTest (n : Nat) (k : Case) (e : Ev) : Ev :=
  match k.state with
  | .watch => if k.arcCount = 0 then freeCase n k .restored none e else e
  | .confirmed => if k.finding = some .broken then freeCase n k .restored none e else e
  | _ => e

/-! ### Admission (R76) -/

/-- The record of a case once an item has been admitted to it (steps 1 to 3 of R76). -/
def admitted (s : Settings) (k : Case) (it : Item) : Case :=
  let w := weightOf s k it
  let p : Present := { sensor := it.sensor, timestamp := it.timestamp }
  let r : RingEntry :=
    { kind := it.kind, sensor := it.sensor, segment := it.segment, timestamp := it.timestamp
      weight := w, arcs := it.arcs }
  let k1 := { k with
    ring := appendRing k.ring [r]
    score := addScore k.score w
    admitted := min 65535 (k.admitted + 1) }
  match it.kind with
  | .tailRestored => { k1 with tailDead := k1.tailDead.filter fun q => q.sensor != it.sensor }
  | .arcBursts => contribute (addArcs k1 (it.arcs.getD 0) it.timestamp) it.sensor
  | kind =>
    let l := presentOf k1 kind
    contribute (withPresent k1 kind (if isDuplicate k it then restamp l p else joinPresent l p)) it.sensor

/-- An item is admitted to the case of an entry (R76), and counted (R67). -/
def admission (env : Env) (n : Nat) (it : Item) (e : Ev) : Ev :=
  match entryAt e.cases n with
  | none => e
  | some k =>
    let k' := admitted env.settings k it
    let e := countEvidence .evidenceAdmitted k.segment it.sensor (putCase n k' e)
    match it.kind with
    | .tailRestored =>
      if holdsSensor k.tailDead it.sensor && k'.tailDead.isEmpty then restorationTest n k' e else e
    | _ => confirmTest env n e

/-! ### Opening and eviction (R73 to R75) -/

/-- The lowest-numbered free entry. -/
def freeEntry (c : Core) : Option Nat :=
  (List.range c.cases.length).find? fun n => (entryAt c.cases n).isNone

/-- The better of two candidates for eviction: the lower score, else the one met first. -/
def evictionBetter (c : Core) (best : Option (Nat × Nat)) (n : Nat) : Option (Nat × Nat) :=
  match entryAt c.cases n with
  | none => best
  | some k =>
    match k.state with
    | .watch =>
      match best with
      | none => some (n, k.score)
      | some (m, s) => if k.score < s then some (n, k.score) else some (m, s)
    | _ => best

/-- The WATCH case with the lowest score, of equals the one opened earliest (R74). -/
def evictee (c : Core) : Option Nat :=
  ((c.opened ++ List.range c.cases.length).foldl (evictionBetter c) none).map (·.1)

/-- What became of a request to open a case. -/
inductive Opening where
  | opened (entry : Nat)
  | refused
  | abandoned
deriving DecidableEq, Repr

/-- The new record of R69, "at opening". -/
def newCase (env : Env) (serial segment : Nat) (phase : Phase) (now : Nat) : Case :=
  { serial := serial, segment := segment, phase := phase, state := .watch, openedAt := now
    windowEnd := addTime now env.settings.watchWindow, score := 0, tailDead := [],
    headCurrentDrop := [], headLive := [], groundCurrent := [], arcCount := 0, firstArc := none,
    lastArc := none, contributors := [], unlisted := false, ring := [], admitted := 0,
    finding := none, isolation := none, unreadable := [] }

/-- A case is opened in a free entry and the item is admitted to it (R73). -/
def openIn (env : Env) (n : Nat) (it : Item) (e : Ev) : Ev :=
  let serial := (e.serial + 1) % 65536
  let k := newCase env serial it.segment it.phase e.time.now
  let e := putCase n k { e with serial := serial, opened := e.opened ++ [n] }
  let e := raise .both (caseNotice n k none (some .watch) .opened none e.time.now) e
  let e := countSegment .casesOpened 1 it.segment e
  admission env n it e

/-- CT is asked to open a case on an item's segment and phase (R73 to R75). A read that finds a mismatch
abandons the item (R61). -/
def openCase (env : Env) (it : Item) (e : Ev) : Ev × Opening :=
  match freeEntry e.toCore with
  | some n =>
    if badAt e.cases n then (faultAt { table := .case, index := n } e, .abandoned)
    else (openIn env n it e, .opened n)
  | none =>
    match firstBad e.toCore (allRefs e.toCore .case) with
    | some r => (faultAt r e, .abandoned)
    | none =>
      match evictee e.toCore with
      | none =>
        (raise .both (.tableExhausted it.kind it.sensor it.segment it.phase e.time.now)
          (countSegment .casesRefused 1 it.segment e), .refused)
      | some z =>
        match entryAt e.cases z with
        | none => (e, .abandoned)
        | some k => (openIn env z it (freeCase z k .evicted none e), .opened z)

/-! ### Merge (R87 to R89) -/

/-- An entry is placed before the first entry that is later than it by R28, which is after all those not later
where R28's difference puts the timestamps in one order (log 61). -/
def insertByTime (r : RingEntry) : List RingEntry → List RingEntry
  | [] => [r]
  | x :: xs => if 0 < diffTime x.timestamp r.timestamp then r :: x :: xs else x :: insertByTime r xs

/-- Ring entries in ascending order of their timestamps, equals in their order (R88). -/
def sortRing (l : List RingEntry) : List RingEntry := l.foldl (fun acc r => insertByTime r acc) []

/-- One TAIL_DEAD entry of the merged case joins the list (R88 step 2). -/
def mergeTailDead (l : List Present) (p : Present) : List Present :=
  if holdsSensor l p.sensor then
    l.map fun q => if q.sensor = p.sensor ∧ 0 < diffTime p.timestamp q.timestamp then p else q
  else joinPresent l p

/-- The record of the case on X once Z has been merged into it (R88). -/
def merged (x z : Case) : Case :=
  let x := { x with
    ring := appendRing x.ring (sortRing z.ring)
    tailDead := z.tailDead.foldl mergeTailDead x.tailDead }
  let x := z.contributors.foldl contribute x
  { x with
    unlisted := x.unlisted || z.unlisted
    score := min 4095 (x.score + z.score)
    admitted := min 65535 (x.admitted + z.admitted) }

/-- The case of entry z is merged into the case of entry n and freed MERGED (R88). -/
def mergeInto (n : Nat) (e : Ev) (z : Nat) : Ev :=
  match entryAt e.cases n, entryAt e.cases z with
  | some kx, some kz => freeCase z kz .merged none (putCase n (merged kx kz) e)
  | _, _ => e

/-- The entries of the WATCH cases on a phase. -/
def watchOnPhase (c : Core) (p : Phase) : List Nat :=
  entriesWhere c.cases fun k => k.phase == p && k.state == .watch

/-- The reads made for a case entry and the path of its segment; the segment of an entry that does not match is
not followed (R169). -/
def caseReads (c : Core) (n : Nat) : List Ref :=
  { table := .case, index := n } ::
    if badAt c.cases n then []
    else
      match entryAt c.cases n with
      | some k => pathReads c k.segment
      | none => []

/-- The entries of the WATCH cases on p on descendants of X, in ascending segment number (R87). -/
def mergeable (c : Core) (x : Nat) (p : Phase) : List Nat :=
  (List.range Config.segments).filterMap fun z =>
    if isAncestor c.segments x z then
      match caseOn c z p with
      | some n =>
        match entryAt c.cases n with
        | some k => if k.state = .watch then some n else none
        | none => none
      | none => none
    else none

/-- The reads made to find the descendants of a segment among the WATCH cases on a phase: the case table, and the
path of each of those cases. -/
def mergeReads (c : Core) (p : Phase) : List Ref :=
  allRefs c .case ++ (watchOnPhase c p).flatMap (caseReads c)

/-- The merges a TAIL_DEAD of X on p asks for, into the case of entry n, and the one test after them
(R87 to R89). All the reads come before the first merge, so one mismatch leaves no merge made (log 58). -/
def mergeDescendants (env : Env) (n x : Nat) (p : Phase) (e : Ev) : Ev :=
  match firstBad e.toCore (mergeReads e.toCore p) with
  | some r => faultAt r e
  | none =>
    match mergeable e.toCore x p with
    | [] => e
    | zs => confirmTest env n (zs.foldl (mergeInto n) e)

/-! ### Effects of device changes and holds (R90 to R94) -/

/-- QUEUED orders of class ISOLATION of a case are withdrawn (R91). -/
def withdrawOrdersOf (serial : Nat) (e : Ev) : Ev :=
  withdrawEach .isolationOverride
    ((e.orders.filter fun o =>
      o.cls == .isolation && o.origin == .case serial && o.state == .queued).map (·.device)) e

/-- A case's isolation record names the device that opened over it. -/
def isolatedBy (k : Case) (d : Nat) : Case :=
  { k with isolation := k.isolation.map fun i => { i with isolatedBy := some d } }

/-- A device has entered OPEN or LOCKED_OUT over the case of an entry (R90). The ORDER notices of the orders
withdrawn for a case stand right after that case's own notice (log 45). -/
def openOverCase (d n : Nat) (e : Ev) : Ev :=
  match entryAt e.cases n with
  | none => e
  | some k =>
    match k.state with
    | .watch => freeCase n k .masked (some d) e
    | .confirmed =>
      withdrawBarredBySegment k.segment
        (changeCase n (isolatedBy k d) .isolated .deviceOpened (some d) e)
    | .blocked =>
      withdrawOrdersOf k.serial
        (dropWalk n (changeCase n (isolatedBy k d) .isolated .deviceOpened (some d) e))
    | .isolating => e
    | .isolated => e

/-- A device has entered RECLOSING over the case of an entry (R92). -/
def recloseOverCase (d n : Nat) (e : Ev) : Ev :=
  match entryAt e.cases n with
  | none => e
  | some k =>
    match k.state with
    | .watch => freeCase n k .masked (some d) e
    | _ => e

/-- An effect on every case whose segment is in a device's downstream set, in ascending entry number. Every case
entry, and the path of each that is occupied, is read before the first effect (log 58). An entry that does not
match, or whose path cannot be read, is a fault and is left; in HALTED nothing is done (R94). -/
def onDownstreamCases (v : Device) (f : Nat → Ev → Ev) (e : Ev) : Ev :=
  if e.mode = .halted ∨ v.kind = .tie then e
  else
    let c := e.toCore
    let e := faultsAt ((List.range c.cases.length).flatMap (caseReads c)) e
    (occupied c.cases).foldl (fun e n =>
      match entryAt c.cases n with
      | none => e
      | some k =>
        if e.mode ≠ .halted ∧ inDownstream c.segments v k.segment = true ∧
            firstBad c (caseReads c n) = none then f n e
        else e) e

/-- The entries of the WATCH cases on a segment. -/
def watchOn (c : Core) (s : Nat) : List Nat :=
  entriesWhere c.cases fun k => k.segment == s && k.state == .watch

/-- The WATCH cases on a segment are freed MASKED, in ascending entry number (R93). -/
def freeWatchOn (s : Nat) (e : Ev) : Ev :=
  (watchOn e.toCore s).foldl (fun e n =>
    match entryAt e.cases n with
    | none => e
    | some k => freeCase n k .masked none e) e

end Sys2Proof.Machine
end

