-- ==== Sys2Proof/Machine/Isolation.lean ====
section
/-! DEFINITION. The Isolation Sequencer: passing a confirmed case (R112), the start of isolation (R114,
R115), the step walk (R116 to R120), failure, completion and the remainder walk (R121 to R124), the
deadline (R126) and the limits of recovery (R128). What a judging leads to is left as work of the event. -/

namespace Sys2Proof.Machine

/-! ### Progress (R113) -/

/-- The progress IS holds for an entry. -/
def walkOf (c : Core) (n : Nat) : Option Walk := c.walks.find? fun w => w.entry == n

/-- The progress for an entry is written. -/
def putWalk (w : Walk) (e : Ev) : Ev :=
  { e with walks := e.walks.filter (fun v => v.entry != w.entry) ++ [w] }

/-- A step that is judged done, or has failed, leaves the room list (R120). -/
def leaveRoom (n : Nat) (e : Ev) : Ev := { e with room := e.room.filter (· != n) }

/-- A walk's condition becomes ORDERED or AWAITING, and its step leaves the room list (R120). -/
def waitFor (w : Walk) (cond : StepCondition) (e : Ev) : Ev :=
  putWalk { w with cond := cond } (leaveRoom w.entry e)

/-- A walk's condition becomes ROOM: its step joins the room list at the newest end, or keeps its place
there (R120). -/
def waitRoom (w : Walk) (d : Option Nat) (e : Ev) : Ev :=
  let e := putWalk { w with cond := .room d } e
  if e.room.contains w.entry then e else { e with room := e.room ++ [w.entry] }

/-- A case's isolation record is changed. -/
def setRecord (n : Nat) (k : Case) (f : IsolationRecord → IsolationRecord) (e : Ev) : Ev :=
  putCase n { k with isolation := k.isolation.map f } e

/-- The device a walk waits on, when its condition is AWAITING. -/
def awaits (w : Walk) : Option Nat :=
  match w.cond with
  | .awaiting d => some d
  | _ => none

/-- The device a walk waits on, when its condition is AWAITING or ROOM: the one noted at the last judging of its
step, also when a plan reload has since put another at its index (R145; log 47). -/
def waitsOn (w : Walk) : Option Nat :=
  match w.cond with
  | .awaiting d => some d
  | .room d => d
  | .ordered _ _ => none

/-- The entries of the walks that satisfy a predicate, ascending. -/
def walksWhere (c : Core) (f : Walk → Bool) : List Nat :=
  (List.range Config.cases).filter fun n =>
    match walkOf c n with
    | some w => f w
    | none => false

/-! ### The deadline (R126) -/

/-- Whether a case is past its deadline with its late notice unsent. -/
def isLate (env : Env) (now : Nat) (k : Case) : Bool :=
  k.state == .isolating && match k.isolation with
    | some r => !r.late && reached now (addTime r.confirmedAt env.settings.isolationDeadline)
    | none => false

/-- The deadline of the case of an entry is judged (R126). -/
def judgeDeadline (env : Env) (n : Nat) (e : Ev) : Ev :=
  if healthy e.toCore then
    match entryAt e.cases n with
    | none => e
    | some k =>
      if isLate env e.time.now k then
        if badAt e.cases n then faultAt { table := .case, index := n } e
        else
          match k.isolation with
          | none => e
          | some r =>
            raise .both (.isolationLate n k.serial k.segment k.phase r.confirmedAt r.plan r.step r.depth
              e.time.now) (setRecord n k (fun r => { r with late := true }) e)
      else e
  else e

/-! ### The start of isolation (R112, R114, R115) -/

/-- Whether unattended isolation applies (R111). -/
def unattended (env : Env) (c : Core) : Bool := env.options.unattendedIsolate && c.supervision.absent

/-- The reason for which a CONFIRMED case goes to ISOLATING by itself (R112). -/
def moveReason (env : Env) (c : Core) : Option CaseReason :=
  if env.settings.authority = 1 then some .authority
  else if unattended env c then some .unattended
  else none

/-- The reads made to send a case to ISOLATING: its entry, its path, the device table searched for the path
devices, and what judging the QUEUED CLOSE orders reads (log 30). -/
def isolateReads (c : Core) (n : Nat) : List Ref :=
  caseReads c n ++ allRefs c .device ++ (queuedCloses c).flatMap (closeBarReads c)

/-- A CONFIRMED case goes to ISOLATING, with steps 1 and 2 of R114 and the withdrawal of R162; the rest
of R114 follows. -/
def isolate (n : Nat) (reason : CaseReason) (e : Ev) : Ev :=
  if healthy e.toCore then
    match entryAt e.cases n with
    | none => e
    | some k =>
      match k.state with
      | .confirmed =>
        match firstBad e.toCore (isolateReads e.toCore n) with
        | some r => faultAt r e
        | none =>
          let plan := match entryAt e.segments k.segment with
            | some s => s.plan
            | none => none
          let k := { k with isolation := k.isolation.map fun r =>
            { r with plan := plan, step := 0, depth := 0 } }
          later [.begin n] (withdrawBarredBySegment k.segment (changeCase n k .isolating reason none e))
      | _ => e
  else e

/-- Steps 3 and 4 of R114: BLOCKED without a plan (R115), else the deadline and step 0. When a fault of the
announcements before them has halted the part, they are not done (R128; log 41). -/
def beginWalk (env : Env) (n : Nat) (e : Ev) : Ev :=
  if e.mode = .halted then e
  else
    match entryAt e.cases n with
    | none => e
    | some k =>
      match k.state, k.isolation with
      | .isolating, some r =>
        match r.plan with
        | none => changeCase n k .blocked .noPlan none e
        | some _ =>
          let e := putWalk { entry := n, serial := k.serial, phase := .main, cond := .room none } e
          later [.judge n] (judgeDeadline env n e)
      | _, _ => e

/-- A case confirmed in this event is passed to IS (R112). -/
def passCase (env : Env) (n : Nat) (e : Ev) : Ev :=
  match moveReason env e.toCore with
  | some reason => later [.isolate n reason] e
  | none => e

/-- The entries of the CONFIRMED cases, ascending. -/
def confirmedCases (c : Core) : List Nat := entriesWhere c.cases fun k => k.state == .confirmed

/-- Every CONFIRMED case goes to ISOLATING, each one's start before the next (R110, R111). Every case entry
is read to find them; one that does not match is a fault, after which none goes in this event (R128, R169;
log 6). -/
def isolateConfirmed (reason : CaseReason) (e : Ev) : Ev :=
  if healthy e.toCore then
    later ((confirmedCases e.toCore).map fun n => .isolate n reason)
      (faultsAt (allRefs e.toCore .case) e)
  else e

/-! ### Failure and completion (R119, R121 to R124) -/

/-- The plan in use as it stands; none when it is undefined. -/
def planInUse (c : Core) (r : IsolationRecord) : Option Plan := r.plan.bind (entryAt c.plans)

/-- The walk goes on to a step of its plan in use, which is judged at once. -/
def goToStep (n : Nat) (k : Case) (i : Nat) (e : Ev) : Ev :=
  later [.judge n] (leaveRoom n (setRecord n k (fun r => { r with step := i }) e))

/-- The plan in use of a MAIN walk has failed (R121, R123). -/
def failPlan (w : Walk) (k : Case) (r : IsolationRecord) (e : Ev) : Ev :=
  let plan := planInUse e.toCore r
  match plan.bind (·.fallback), decide (r.depth < Config.fallbackLinks) with
  | some f, true =>
    later [.judge w.entry]
      (leaveRoom w.entry
        (setRecord w.entry k (fun r => { r with plan := some f, depth := r.depth + 1, step := 0 }) e))
  | _, _ =>
    let e := changeCase w.entry k .blocked .planFailed none e
    let following := match plan with
      | some p => decide (r.step + 1 < p.steps.length)
      | none => false
    if following then
      goToStep w.entry { k with state := .blocked } (r.step + 1)
        (putWalk { w with phase := .remainder } e)
    else dropWalk w.entry e

/-- The walk is complete (R122). -/
def completeWalk (w : Walk) (k : Case) (r : IsolationRecord) (d : Nat) (e : Ev) : Ev :=
  let e := changeCase w.entry (isolatedBy k d) .isolated .planComplete (some d) e
  dropWalk w.entry
    (countSegment .isolationTime (diffTime e.time.now r.confirmedAt) k.segment e)

/-- The present step is passed over in a REMAINDER walk (R124). -/
def passOver (w : Walk) (k : Case) (r : IsolationRecord) (p : Plan) (e : Ev) : Ev :=
  if r.step + 1 < p.steps.length then goToStep w.entry k (r.step + 1) e else dropWalk w.entry e

/-- The present step is done by its device (R119). -/
def stepDone (w : Walk) (k : Case) (r : IsolationRecord) (p : Plan) (d : Nat) (e : Ev) : Ev :=
  if r.step + 1 < p.steps.length then goToStep w.entry k (r.step + 1) e
  else
    match w.phase with
    | .main => completeWalk w k r d e
    | .remainder => dropWalk w.entry e

/-! ### Judging a step (R116 to R118) -/

/-- An ISOLATION order is queued for a step, with the DEVICE notice to a reserving port (R116). -/
def queueIsolation (env : Env) (w : Walk) (d : Nat) (e : Ev) : Ev :=
  let e := queueOrder env d .open_ .isolation (.case w.serial) e
  let number := e.orderNumber
  let e := waitFor w (.ordered number d) e
  match e.reservations[d]? with
  | some (some p) => raise (.only p) (.isolationOverride d number w.serial) e
  | _ => e

/-- A step whose device is defined and not open is judged by the orders for the device (R116, R117,
R128). -/
def judgeClosed (env : Env) (w : Walk) (d : Nat) (e : Ev) : Ev :=
  match orderOf e.toCore d with
  | some o =>
    match o.state, o.cls with
    | .queued, .manual =>
      if e.recovery.recovering then waitRoom w (some d) e
      else queueIsolation env w d (withdraw .isolationOverride d e)
    | .queued, .poll =>
      if e.recovery.recovering then waitRoom w (some d) e
      else queueIsolation env w d (withdraw .isolationOverride d e)
    | _, _ => waitFor w (.awaiting d) e
  | none =>
    if grants e.toCore d then queueIsolation env w d e else waitRoom w (some d) e

/-- A step that names a device is judged (R116). A device entry that does not match is a fault, and the
step waits in ROOM for the end of recovery (log 14). -/
def judgeDevice (env : Env) (w : Walk) (k : Case) (r : IsolationRecord) (p : Plan) (d : Nat)
    (e : Ev) : Ev :=
  if badAt e.devices d then faultAt { table := .device, index := d } (waitRoom w (some d) e)
  else
    match entryAt e.devices d with
    | none =>
      match w.phase with
      | .main => failPlan w k r e
      | .remainder => passOver w k r p e
    | some v => if standsOpen v.run.state then stepDone w k r p d e else judgeClosed env w d e

/-- What a judging of a walk goes on to once its case entry and its plan have been read; a plan that is
undefined, or has no step at the index, has failed (R128, R176; log 14). -/
def withStep (n : Nat) (f : Walk → Case → IsolationRecord → Plan → Nat → Ev → Ev) (e : Ev) : Ev :=
  if e.mode = .halted then e
  else
    match walkOf e.toCore n with
    | none => e
    | some w =>
      if badAt e.cases n then faultAt { table := .case, index := n } e
      else
        match entryAt e.cases n with
        | none => e
        | some k =>
          match k.isolation with
          | none => e
          | some r =>
            match r.plan with
            | none => e
            | some i =>
              if badAt e.plans i then faultAt { table := .plan, index := i } (waitRoom w none e)
              else
                match entryAt e.plans i with
                | none =>
                  match w.phase with
                  | .main => failPlan w k r e
                  | .remainder => dropWalk n e
                | some p =>
                  match p.steps[r.step]? with
                  | none =>
                    match w.phase with
                    | .main => failPlan w k r e
                    | .remainder => dropWalk n e
                  | some d => f w k r p d e

/-- A walk's present step is judged (R116). -/
def judgeWalk (env : Env) (n : Nat) (e : Ev) : Ev := withStep n (judgeDevice env) e

/-- A step in AWAITING or ROOM is judged again (R118, R120). -/
def rejudge (env : Env) (n : Nat) (e : Ev) : Ev :=
  match walkOf e.toCore n with
  | none => e
  | some w =>
    match w.cond with
    | .ordered _ _ => e
    | _ => judgeWalk env n e

/-- The completion of a walk's own order for a device is judged by the device's state (R119, R121, R124). When
a reload has put another device at the step's index, the step is still judged by the order's device (log
47). -/
def ownDone (n d : Nat) (e : Ev) : Ev :=
  withStep n (fun w k r p _ e =>
    if deviceOpen e.toCore d then stepDone w k r p d e
    else
      match w.phase with
      | .main => failPlan w k r e
      | .remainder => passOver w k r p e) e

/-! ### Announcements (R118, R120, R134, R142, R145) -/

/-- A completion or withdrawal of an order for a device is announced to IS, then to polling. -/
def announce (d : Nat) (e : Ev) : Ev :=
  if e.mode = .halted then e
  else
    later ((walksWhere e.toCore fun w => awaits w == some d).map Work.rejudge ++ [.room, .polls]) e

/-- A device has entered OPEN or LOCKED_OUT (R118, R120, R145): the steps that wait on it in AWAITING or ROOM are
judged again, in ascending case entry (log 15). -/
def deviceOpened (d : Nat) (e : Ev) : Ev :=
  if e.mode = .halted then e
  else later ((walksWhere e.toCore fun w => waitsOn w == some d).map Work.rejudge) e

/-- The room list is judged from its oldest end. -/
def judgeRoom (e : Ev) : Ev :=
  match e.room with
  | [] => e
  | n :: _ => if e.mode = .halted then e else later [.rejudge n, .roomNext n] e

/-- The room list goes on when the step just judged has left it. A walk whose step left the list, and whose
next step has joined it at the newest end in the same judging, ends the judging (log 48). -/
def judgeRoomNext (n : Nat) (e : Ev) : Ev := if e.room.contains n then e else later [.room] e

/-- A completed order is handed to its origin (R142 step 3, R149). -/
def handOver (o : Order) (outcome : OrderOutcome) (refusal : Option RefusalReason) (e : Ev) : Ev :=
  match o.origin with
  | .port _ _ => orderNotice o outcome refusal none e
  | .none => e
  | .case serial =>
    if e.mode = .halted then e
    else
      match e.walks.find? fun w => w.serial == serial && w.cond == .ordered o.number o.device with
      | some w => later [.ownDone w.entry o.device] e
      | none => e

end Sys2Proof.Machine
end

