-- ==== Sys2Proof/Machine/Link.lean ====
section
/-! DEFINITION. The device link as it receives and times: frames from devices (R130, R137 to R139, R143,
R144), recording a state (R145, R146), reachability (R141), completion (R142), reply deadlines (R140)
and the expiry of settle intervals. -/

namespace Sys2Proof.Machine

/-- The run-time fields of a device, none when its entry is undefined. -/
def runOf (c : Core) (d : Nat) : Option DeviceRun := (entryAt c.devices d).map (·.run)

/-! ### Recording a state (R145, R146) -/

/-- The settle-until time after a change of state (R145, R146). -/
def settleAfter (env : Env) (now : Nat) (r : DeviceRun) (new : DeviceState) : Option Nat :=
  match new with
  | .closed =>
    match r.state with
    | .reclosing =>
      if env.settings.settleInterval = 0 then none else some (addTime now env.settings.settleInterval)
    | _ => r.settleUntil
  | _ => none

/-- The Case Table's effects of a change of a device's state (R90, R92). -/
def caseEffects (v : Device) (d : Nat) (new : DeviceState) (e : Ev) : Ev :=
  match new with
  | .open_ => onDownstreamCases v (openOverCase d) e
  | .lockedOut => onDownstreamCases v (openOverCase d) e
  | .reclosing => onDownstreamCases v (recloseOverCase d) e
  | .closed => e
  | .unknown => e

/-- A state is recorded for a device (R145). The Case Table's device-open effects come before the Isolation
Sequencer's judging of its steps on the device (log 63). -/
def recordState (env : Env) (d : Nat) (new : DeviceState) (cause : RecordingCause) (e : Ev) : Ev :=
  match entryAt e.devices d with
  | none => e
  | some v =>
    if v.run.state = new then e
    else
      let e := setRun d (fun r =>
        { r with state := new, settleUntil := settleAfter env e.time.now r new }) e
      let e := raise .both
        (.deviceState d v.link v.run.state new cause v.run.reachable e.time.now) e
      let e := caseEffects v d new e
      let e := if standsOpen new && e.mode != .halted then later [.opened d] e else e
      endPoll d e

/-- A frame taken from a device marks it reachable (R141), which ends the eligibility of a device whose state is
known, and its next poll becomes none (R147), by a POLL order's REFUSED reply too, where R148 has the device stay
eligible (log 62). -/
def markReachable (d : Nat) (e : Ev) : Ev :=
  match entryAt e.devices d with
  | none => e
  | some v =>
    if v.run.reachable then e
    else
      endPoll d (raise .both (.deviceReach d v.link true .frameReceived e.time.now)
        (setRun d (fun r => { r with reachable := true }) e))

/-! ### Completion (R142) -/

/-- What follows a completion: it is handed to its origin, then announced. -/
def completionWork (o : Order) (outcome : OrderOutcome) (refusal : Option RefusalReason) : List Work :=
  [.handOver o outcome refusal, .announce o.device]

/-- An order completes DONE with the state its reply carries (R138). -/
def completeDone (env : Env) (o : Order) (s : DeviceState) (e : Ev) : Ev :=
  later (completionWork o .done none)
    (recordState env o.device s (.orderReply o.number) (removeOrder o.device e))

/-- An order completes REFUSED (R139). -/
def completeRefused (o : Order) (reason : RefusalReason) (e : Ev) : Ev :=
  later (completionWork o .refused (some reason))
    (setRun o.device (fun r => { r with lastRefusal := some reason }) (removeOrder o.device e))

/-- A FAILED completion marks its device unreachable (R141); a device that this makes poll-eligible takes
its next poll (R147). -/
def markUnreachable (env : Env) (o : Order) (e : Ev) : Ev :=
  match entryAt e.devices o.device with
  | none => e
  | some v =>
    if v.run.reachable then
      let newly := e.mode == .monitoring && v.run.state != .unknown
      raise .both (.deviceReach o.device v.link false (.orderFailed o.number) e.time.now)
        (setRun o.device (fun r => { r with
          reachable := false
          nextPoll := if newly then some (addTime e.time.now (1000 * env.settings.pollInterval))
            else r.nextPoll }) e)
    else e

/-- An order completes FAILED (R141). -/
def completeFailed (env : Env) (o : Order) (e : Ev) : Ev :=
  later (completionWork o .failed none)
    (countDevice .ordersFailed o.device (markUnreachable env o (removeOrder o.device e)))

/-! ### Frames from devices (R130) -/

/-- The number of the defined device with a link address. -/
def deviceAtLink (c : Core) (link : Nat) : Option Nat :=
  (entriesWhere c.devices fun d => d.link == link).head?

/-- The SENT order that a reply with this number matches (R137). -/
def matching (c : Core) (d number : Nat) : Option Order :=
  match orderOf c d with
  | some o => if o.state = .sent ∧ o.number = number then some o else none
  | none => none

/-- An ORDER_REPLY taken from a device (R137, R143). -/
def takeReply (env : Env) (d number : Nat) (outcome : ReplyOutcome) (e : Ev) : Ev :=
  match matching e.toCore d number, outcome with
  | some o, .done s => completeDone env o s e
  | some o, .refused r => completeRefused o r e
  | none, .done s => recordState env d s (.staleReply number) e
  | none, .refused _ => e

/-- A decoded frame from a device link address is taken (R130). -/
def takeDecoded (env : Env) (link : Nat) (f : DeviceFrame) (e : Ev) : Ev :=
  match deviceAtLink e.toCore link with
  | none => e
  | some d =>
    if badAt e.devices d then faultAt { table := .device, index := d } e
    else
      match f with
      | .orderReply number outcome => takeReply env d number outcome (markReachable d e)
      | .stateReport s => recordState env d s .stateReport (markReachable d e)

/-- A good frame that the device link's receiver hands on is taken or dropped (R130). -/
def takeDeviceFrame (env : Env) (f : Frame) (e : Ev) : Ev :=
  match decodeDevice f with
  | none => e
  | some (link, df) => takeDecoded env link df e

/-! ### Timed events -/

/-- The end of an ORDER frame (R135). -/
def transmitEnd (env : Env) (e : Ev) : Ev :=
  match e.linkTx with
  | none => e
  | some _ => arbitrate env { e with linkTx := none }

/-- Whether an order's reply deadline expires now (R140, R152). -/
def deadlineExpired (c : Core) (o : Order) : Bool :=
  o.state == .sent && !o.resend && !o.left && match o.deadline with
    | some t => reached c.time.now t
    | none => false

/-- The reply deadline of the order for a device expires (R140). -/
def replyDeadline (env : Env) (d : Nat) (e : Ev) : Ev :=
  match orderOf e.toCore d with
  | none => e
  | some o =>
    if deadlineExpired e.toCore o then
      if badAt e.devices d then
        faultAt { table := .device, index := d } (setOrder d (fun o => { o with left := true }) e)
      else
        match o.cls, decide (o.sends.getD 0 - 1 < env.settings.retryLimit) with
        | .poll, _ => completeFailed env o e
        | _, true => arbitrate env (setOrder d (fun o => { o with resend := true }) e)
        | _, false => completeFailed env o e
    else e

/-- A device's settle-until is reached (R146). DL judges it in every mode but HALTED (R152). -/
def settleExpired (d : Nat) (e : Ev) : Ev :=
  match entryAt e.devices d with
  | none => e
  | some v =>
    match v.run.settleUntil with
    | none => e
    | some t =>
      if e.mode ≠ .halted ∧ reached e.time.now t = true then
        if badAt e.devices d then faultAt { table := .device, index := d } e
        else setRun d (fun r => { r with settleUntil := none }) e
      else e

end Sys2Proof.Machine
end

