-- ==== Sys2Proof/Machine/Evidence.lean ====
section
/-! DEFINITION. The Evidence Unit: derivation (R47 to R51), masking (R53 to R56) and attribution (R57 to
R64) of evidence items. -/

namespace Sys2Proof.Machine

/-! ### Derivation -/

/-- Whether a report shows the outage pattern (R49). -/
def outagePattern (s : Settings) (side : SensorEnd) (records : List PhaseRecord) : Bool :=
  side == .tail && decide (2 ≤ records.length) && records.all fun p => decide (p.voltage < s.deadLevel)

/-- Whether a phase record yields an item of a kind (R48, R50, R51). -/
def yields (s : Settings) (side : SensorEnd) (outage : Bool) (p : PhaseRecord) : EvidenceKind → Bool
  | .tailDead => side == .tail && decide (p.voltage < s.deadLevel) && !outage
  | .tailRestored => side == .tail && decide (s.liveLevel ≤ p.voltage)
  | .headCurrentDrop =>
    side == .head && decide (s.deadLevel ≤ p.voltage) && decide (s.stepLevel ≤ p.stepDown)
  | .headLive => side == .head && decide (s.deadLevel ≤ p.voltage) && decide (s.liveLevel ≤ p.voltage)
  | .arcBursts => (side == .tail || decide (s.deadLevel ≤ p.voltage)) && decide (1 ≤ p.arcs)
  | .groundCurrent =>
    (side == .tail || decide (s.deadLevel ≤ p.voltage)) && decide (s.leakageLevel ≤ p.leakage)

/-- The kinds in the order in which a record's items are taken (R47). -/
def kindOrder : List EvidenceKind :=
  [.tailDead, .headCurrentDrop, .arcBursts, .tailRestored, .headLive, .groundCurrent]

/-- The item of a kind that a phase record yields (R46). -/
def itemOf (r : Sensor) (stamp : Nat) (p : PhaseRecord) (kind : EvidenceKind) : Item :=
  { kind := kind, sensor := r.address, segment := r.segment, side := r.side, phase := p.phase
    timestamp := stamp
    arcs := match kind with
      | .arcBursts => some p.arcs
      | _ => none }

/-- The items of a report, in order (R47). -/
def derivedItems (s : Settings) (r : Sensor) (stamp : Nat) (records : List PhaseRecord) : List Item :=
  let outage := outagePattern s r.side records
  records.flatMap fun p => (kindOrder.filter (yields s r.side outage p)).map (itemOf r stamp p)

/-- An admitted report is handed to derivation (R45, R47, R49). -/
def derive (env : Env) (r : Sensor) (stamp : Nat) (records : List PhaseRecord) (e : Ev) : Ev :=
  let e := { e with items := e.items ++ derivedItems env.settings r stamp records }
  if outagePattern env.settings r.side records then countEvidence .evidenceMasked r.segment r.address e
  else e

/-! ### Masking -/

/-- Whether a state is one that masks (R53). -/
def maskingState (s : DeviceState) : Bool :=
  match s with
  | .open_ => true
  | .reclosing => true
  | .lockedOut => true
  | .closed => false
  | .unknown => false

/-- Whether a device's state or settling masks the evidence behind it (R53). Whether that of a device marked
unreachable does is left open: R53 says that it does not, whatever its state, and R129 that it does by the state it
last held (log 57). -/
def deviceMasks (now : Nat) (r : DeviceRun) : Bool :=
  (r.reachable || Config.unreachableMasks)
    && (maskingState r.state
      || (match r.settleUntil with
        | some t => !reached now t
        | none => false))

/-- Whether an item is masked by device, settling, hold or mode (R53 to R55). -/
def isMasked (c : Core) (it : Item) : Bool :=
  ((pathDevices c it.segment).any fun d =>
    match runOf c d with
    | some r => deviceMasks c.time.now r
    | none => false)
    || (match c.holds[it.segment]? with
      | some (some _) => true
      | _ => false)
    || c.mode == .configuring

/-- The reads of an item's masking lookup: the path, and the device table searched for the path's devices (R61;
log 6). -/
def maskReads (c : Core) (it : Item) : List Ref := pathReads c it.segment ++ allRefs c .device

/-! ### Attribution -/

/-- Whether a case takes evidence (R57). -/
def takesEvidence (k : Case) : Bool :=
  match k.state with
  | .watch => true
  | .confirmed => true
  | _ => false

/-- What stands at a segment for an item's phase. -/
inductive Standing where
  | none
  | taking (entry : Nat)
  | past
  | bad (entry : Nat)
deriving DecidableEq, Repr

/-- The case on a segment and phase, as attribution sees it. -/
def standing (c : Core) (segment : Nat) (phase : Phase) : Standing :=
  match caseOn c segment phase with
  | none => .none
  | some n =>
    if badAt c.cases n then .bad n
    else
      match entryAt c.cases n with
      | none => .none
      | some k => if takesEvidence k then .taking n else .past

/-- The fault of a case entry that attribution read (R61). -/
def caseFault (n : Nat) (e : Ev) : Ev := faultAt { table := .case, index := n } e

/-- The first segment of a path with a case on a phase, and what stands there (R57). -/
def searchPath (c : Core) (phase : Phase) : List Nat → Option (Nat × Standing)
  | [] => none
  | t :: rest =>
    match standing c t phase with
    | .none => searchPath c phase rest
    | s => some (t, s)

/-- A TAIL_DEAD item is attributed (R57 to R59). -/
def attributeTailDead (env : Env) (it : Item) (e : Ev) : Ev :=
  match searchPath e.toCore it.phase (pathOf e.segments it.segment) with
  | some (_, .bad n) => caseFault n e
  | some (_, .past) => e
  | some (t, .taking n) =>
    let e := admission env n it e
    if t = it.segment then mergeDescendants env n it.segment it.phase e else e
  | _ =>
    match openCase env it e with
    | (e, .opened n) => mergeDescendants env n it.segment it.phase e
    | (e, _) => e

/-- An item is attributed to its own segment's case, and opens one where `opens` says so (R60, R64). -/
def attributeOwn (env : Env) (opens : Bool) (it : Item) (e : Ev) : Ev :=
  match standing e.toCore it.segment it.phase with
  | .bad n => caseFault n e
  | .past => e
  | .taking n => admission env n it e
  | .none => if opens then (openCase env it e).1 else e

/-- The reads of a head-coverage search: the segment table, and the roster searched for its HEAD sensors (R61; log
6). -/
def coverageReads (c : Core) : List Ref := allRefs c .segment ++ allRefs c .roster

/-- A head item goes to the other segments of its coverage in turn, each judged as the table then stands;
a mismatch abandons it there (R61, R62). -/
def attributeCoverage (env : Env) (it : Item) : List Nat → Ev → Ev
  | [], e => e
  | z :: rest, e =>
    match standing e.toCore z it.phase with
    | .bad n => caseFault n e
    | .taking n => attributeCoverage env it rest (admission env n it e)
    | _ => attributeCoverage env it rest e

/-- A head item goes on to its coverage beyond its own segment (R62). -/
def attributeBeyond (env : Env) (it : Item) (e : Ev) : Ev :=
  match firstBad e.toCore (coverageReads e.toCore) with
  | some r => faultAt r e
  | none =>
    attributeCoverage env it
      ((headCoverage e.toCore it.segment it.phase).filter (· != it.segment)) e

/-- A HEAD_CURRENT_DROP or HEAD_LIVE item is attributed (R62, R63). -/
def attributeHead (env : Env) (opens : Bool) (it : Item) (e : Ev) : Ev :=
  match standing e.toCore it.segment it.phase with
  | .bad n => caseFault n e
  | .past => attributeBeyond env it e
  | .taking n => attributeBeyond env it (admission env n it e)
  | .none =>
    if opens then
      match openCase env it e with
      | (e, .abandoned) => e
      | (e, _) => attributeBeyond env it e
    else attributeBeyond env it e

/-- An item that is not masked is attributed (section 3.4). -/
def attributeItem (env : Env) (it : Item) (e : Ev) : Ev :=
  match it.kind with
  | .tailDead => attributeTailDead env it e
  | .tailRestored => attributeOwn env false it e
  | .headCurrentDrop => attributeHead env true it e
  | .headLive => attributeHead env false it e
  | .arcBursts => attributeOwn env true it e
  | .groundCurrent => attributeOwn env false it e

/-- An item that has left the list is judged (steps 2 to 5 of R52), and the cases it confirmed are passed
to IS (R83). -/
def judgeItem (env : Env) (it : Item) (e : Ev) : Ev :=
  if healthy e.toCore then
    match firstBad e.toCore (maskReads e.toCore it) with
    | some r => faultAt r e
    | none =>
      if isMasked e.toCore it then countEvidence .evidenceMasked it.segment it.sensor e
      else
        let e := attributeItem env it e
        later (e.confirmedNow.map Work.pass) e
  else { e with items := [] }

/-- The oldest item of the derivation list is handled (R52). -/
def handleItem (env : Env) (e : Ev) : Ev :=
  match e.items with
  | [] => e
  | it :: rest => judgeItem env it { e with items := rest }

end Sys2Proof.Machine
end

