-- ==== Sys2Proof/Machine/Intake.lean ====
section
/-! DEFINITION. Report Intake: the field link and the intake queue (R37, R38), the taking of a REPORT or a
HELLO (R39 to R43), and sensor silence (R44). -/

namespace Sys2Proof.Machine

/-! ### Arrival (R37, R38) -/

/-- A frame at a full intake queue is discarded: judged only on its check and length, and counted unless it
is a HELLO, which R201 counts nowhere (R38, R43; log 12). -/
def discardFrame (f : Frame) (e : Ev) : Ev :=
  if f.kind = 0x41 then e
  else
    match frameAddress f with
    | some a => countSensor .reportsDiscarded a e
    | none => countAll .reportsDiscarded 1 e

/-- A good frame that the field link's receiver hands on arrives (R37, R38). -/
def arriveField (f : Frame) (e : Ev) : Ev :=
  if Config.intake ≤ e.intake.length then discardFrame f e
  else
    match decodeField f with
    | none => e
    | some (a, x) =>
      { e with intake := e.intake ++ [{ address := a, frame := x, arrival := e.time.now }] }

/-! ### Taking (R39 to R43) -/

/-- Whether RI takes an entry (R39). -/
def mayTake (c : Core) : Bool := healthy c && c.items.isEmpty

/-- Whether a sequence is newer than a last sequence (R41). -/
def newer (s last : Nat) : Bool :=
  let d := (s + 65536 - last) % 65536
  decide (1 ≤ d) && decide (d ≤ 32767)

/-- Whether a timestamp is stale (R42). -/
def isStale (limit now stamp : Nat) : Bool :=
  decide ((limit : Int) < diffTime now stamp) || decide ((limit : Int) < diffTime stamp now)

/-- Tests 2 to 4 of R40 for a bound sensor. -/
def reportPasses (env : Env) (t : TimeBase) (v : Sensor) (r : Report) : Bool :=
  (match v.lastSequence with
    | some l => newer r.sequence l
    | none => true)
    && !(t.lock == .locked && isStale env.settings.staleLimit t.now r.timestamp)
    && r.records.all fun p => phaseIn p.phase v.phases

/-- The effective timestamp (R42). -/
def effectiveStamp (lock : LockState) (r : Report) (arrival : Nat) : Nat :=
  match lock with
  | .locked => r.timestamp
  | _ => arrival

/-- The effects of admission (R43), with the hand-off in MONITORING (R45). -/
def admitReport (env : Env) (place : Nat) (v : Sensor) (r : Report) (arrival : Nat) (e : Ev) : Ev :=
  let v' := { v with lastSequence := some r.sequence, lastHeard := arrival, state := .reporting }
  let e := putSensor place v v' e
  match e.mode with
  | .monitoring => derive env v (effectiveStamp e.time.lock r arrival) r.records e
  | _ => e

/-- A taken REPORT is judged (R40). -/
def judgeReport (env : Env) (address : Nat) (r : Report) (arrival : Nat) (e : Ev) : Ev :=
  match sensorPlace e.toCore address with
  | none => countSensor .reportsDiscarded address (discover address none e)
  | some n =>
    if badAt e.roster n then faultAt { table := .roster, index := n } e
    else
      match entryAt e.roster n with
      | none => e
      | some v =>
        if reportPasses env e.time v r then admitReport env n v r arrival e
        else countSensor .reportsDiscarded address e

/-- RI takes the oldest entry, when it is a REPORT (R39, R40). The taking is counted before the roster is read, so
a REPORT that a check-code mismatch then discards is counted as taken (log 55). -/
def takeReport (env : Env) (e : Ev) : Ev :=
  match e.intake with
  | { address := a, frame := .report r, arrival := t } :: rest =>
    if mayTake e.toCore then
      judgeReport env a r t (countSensor .reportsTaken a { e with intake := rest })
    else e
  | _ => e

/-- A taken HELLO is handled (R43). -/
def judgeHello (address : Nat) (phases : PhaseSet) (arrival : Nat) (e : Ev) : Ev :=
  match sensorPlace e.toCore address with
  | none => discover address (some phases) e
  | some n =>
    if badAt e.roster n then faultAt { table := .roster, index := n } e
    else
      match entryAt e.roster n with
      | none => e
      | some v => putSensor n v { v with lastHeard := arrival } e

/-- RI takes the oldest entry, when it is a HELLO (R39, R43). -/
def takeHello (e : Ev) : Ev :=
  match e.intake with
  | { address := a, frame := .hello ps, arrival := t } :: rest =>
    if mayTake e.toCore then judgeHello a ps t { e with intake := rest } else e
  | _ => e

/-! ### Silence (R44) -/

/-- Whether a sensor has reached silence expiry. -/
def silenceDue (env : Env) (now : Nat) (v : Sensor) : Bool :=
  v.state != .silent && reached now (addTime v.lastHeard (1000 * env.settings.silenceInterval))

/-- Whether a frame from an address waits in the intake queue. -/
def frameWaits (c : Core) (address : Nat) : Bool := c.intake.any fun x => x.address == address

/-- The silence expiry of a sensor is judged: it waits for the sensor's queued frames, or the sensor goes
SILENT. -/
def judgeSilence (env : Env) (address : Nat) (e : Ev) : Ev :=
  match sensorPlace e.toCore address with
  | none => e
  | some n =>
    match entryAt e.roster n with
    | none => e
    | some v =>
      if silenceDue env e.time.now v then
        if badAt e.roster n then faultAt { table := .roster, index := n } e
        else if frameWaits e.toCore address then { e with deferred := e.deferred ++ [address] }
        else putSensor n v { v with state := .silent } e
      else e

/-- A sensor reaches silence expiry; one that already waits for its frames is judged by its own event. -/
def silenceExpiry (env : Env) (address : Nat) (e : Ev) : Ev :=
  if e.mode = .halted ∨ address ∈ e.deferred then e else judgeSilence env address e

/-- A deferred expiry is judged again once no frame from the sensor waits. -/
def deferredSilence (env : Env) (address : Nat) (e : Ev) : Ev :=
  if e.mode ≠ .halted ∧ address ∈ e.deferred ∧ frameWaits e.toCore address = false then
    judgeSilence env address { e with deferred := e.deferred.filter (· != address) }
  else e

/-- Numbers in ascending order. -/
def insertAscending (n : Nat) : List Nat → List Nat
  | [] => [n]
  | x :: xs => if n ≤ x then n :: x :: xs else x :: insertAscending n xs

/-- A list of numbers, ascending. -/
def ascending (l : List Nat) : List Nat := l.foldr insertAscending []

/-- Every sensor that a new SILENCE_INTERVAL has already reached expires, in ascending address (log 26). Outside
HALTED every roster place is read to find them; one that does not match is a fault, and is not acted on (R169;
log 6). -/
def silenceAll (env : Env) (e : Ev) : Ev :=
  if e.mode = .halted then e
  else
    (ascending (addressesWhere e.toCore fun _ => true)).foldl (fun e a => silenceExpiry env a e)
      (faultsAt (allRefs e.toCore .roster) e)

end Sys2Proof.Machine
end

