-- ==== Sys2Proof/Machine/Recovery.lean ====
section
/-! DEFINITION. The Integrity Monitor's sweep: its steps (R175), reload (R176, R177), store failure (R178),
the forced fall (R179), lost cases (R180), the end of recovery and the work it held back (R174). -/

namespace Sys2Proof.Machine

/-! ### Lost cases (R180) -/

/-- A case is appended to the record's lost cases. -/
def listLost (n : Nat) (k : Case) (r : FaultRecord) : FaultRecord :=
  if r.lost.length < Config.lostCases then
    { r with lost := r.lost ++ [
        { entry := n, serial := k.serial
          segment := if .segment ∈ k.unreadable then none else some k.segment
          phase := if .phase ∈ k.unreadable then none else some k.phase }] }
  else { r with lostUnlisted := true }

/-- A bad case entry is freed LOST; one that reads as free is rewritten without a notice. In both cases IS drops
the progress it holds for the entry, with its step's place on the room list (R180; log 32). -/
def loseCase (n : Nat) (e : Ev) : Ev :=
  match entryAt e.cases n with
  | none => clearCase n e
  | some k =>
    freeCase n k .lost none
      { e with
        record := listLost n k e.record
        recovery := { e.recovery with lost := e.recovery.lost + 1 } }

/-! ### The forced fall (R179) -/

/-- The effect of the fall on the case of an entry; one that does not match is left to the sweep (log 31). -/
def fallCase (n : Nat) (e : Ev) : Ev :=
  if badAt e.cases n then e
  else
    match entryAt e.cases n with
    | none => e
    | some k =>
      match k.state with
      | .watch => freeCase n k .withdrawn none e
      | .confirmed =>
        withdrawBarredBySegment k.segment (changeCase n k .blocked .storeFailure none e)
      | .isolating =>
        withdrawBarredBySegment k.segment
          (withdrawOrdersOf k.serial (dropWalk n (changeCase n k .blocked .storeFailure none e)))
      | .isolated => e
      | .blocked => e

/-- The devices of the QUEUED POLL orders, in queuing order. -/
def queuedPolls (c : Core) : List Nat :=
  (c.orders.filter fun o => o.cls == .poll && o.state == .queued).map (·.device)

/-- Every QUEUED POLL order is withdrawn (R24, R179). -/
def withdrawPolls (e : Ev) : Ev :=
  withdrawEach .isolationOverride (queuedPolls e.toCore) e

/-- The forced fall from MONITORING to CONFIGURING; a fault of a withdrawal that halts the part ends it. -/
def forcedFall (e : Ev) : Ev :=
  let e := { e with mode := .configuring }
  let e := (occupied e.cases).foldl
    (fun e n => if e.mode = .halted then e else fallCase n e) e
  clearPolls (withdrawPolls e)

/-! ### Reload (R176, R177) -/

/-- A table whose every entry is written with a matching code. -/
def writeTable {α : Type} (l : List (Option α)) : List (Checked α) :=
  l.map fun x => { content := x, check := 0 }

/-- A new binding (R6). -/
def newSensor (b : Binding) (now : Nat) : Sensor :=
  { address := b.address, segment := b.segment, side := b.side, phases := b.phases, state := .waiting
    lastSequence := none, lastHeard := now }

/-- Whether a roster entry is bound as the image binds it. -/
def sameBinding (b : Binding) (v : Sensor) : Bool :=
  v.address == b.address && v.segment == b.segment && v.side == b.side && v.phases == b.phases

/-- The roster entry an image binding becomes: the entry held before, when it was bound the same and was
not bad, else a new binding. -/
def reloadSensor (old : List (Checked Sensor)) (now : Nat) (b : Binding) : Sensor :=
  match (entriesWhere old fun v => sameBinding b v).find? fun n => !badAt old n with
  | some n => (entryAt old n).getD (newSensor b now)
  | none => newSensor b now

/-- The device entry an image definition becomes for a number. -/
def reloadDevice (c : Core) (n : Nat) (d : DeviceDef) : Device :=
  let fresh : Device :=
    { link := d.link, kind := d.kind, segment := d.segment
      run := { DeviceRun.powerOn with
        currentOrder := (orderOf c n).map (·.number)
        nextPoll := if c.mode = .monitoring then some c.time.now else none } }
  match entryAt c.devices n with
  | some v =>
    if v.link = d.link ∧ v.kind = d.kind ∧ v.segment = d.segment ∧ badAt c.devices n = false then v
    else fresh
  | none => fresh

/-- A function of the number applied along a list, from a first number. -/
def mapFrom {α β : Type} (f : Nat → α → β) : Nat → List α → List β
  | _, [] => []
  | n, x :: xs => f n x :: mapFrom f (n + 1) xs

/-- The numbers of the devices that are not defined. -/
def undefinedDevices (c : Core) : List Nat :=
  (List.range c.devices.length).filter fun n => (entryAt c.devices n).isNone

/-- Devices left undefined lose their reservations, and their orders complete FAILED (R177), in ascending device
number (log 15). -/
def leaveUndefined (e : Ev) : Ev :=
  let gone := undefinedDevices e.toCore
  later ((gone.filter fun n => (orderOf e.toCore n).isSome).map Work.failLost)
    { e with reservations := mapFrom (fun n r => if gone.contains n then none else r) 0 e.reservations }

/-- The step entries of the pool that a plan store's plans use (R103). -/
def stepsUsed (plans : List (Checked Plan)) : Nat :=
  (plans.map fun x => (x.content.map (·.steps.length)).getD 0).sum

/-- The plan store takes a content, and the pool's count of step entries in use is recomputed (R176). -/
def setPlans (plans : List (Checked Plan)) (e : Ev) : Ev :=
  { e with plans := plans, stepsInUse := stepsUsed plans }

/-- A sensor that has left the roster has no expiry that waits (R44). -/
def dropDeferred (e : Ev) : Ev :=
  { e with deferred := e.deferred.filter fun a => (sensorPlace e.toCore a).isSome }

/-- A table is replaced by the image's content (R176, R177). -/
def reloadTable (img : Image) (t : Table) (e : Ev) : Ev :=
  match t with
  | .segment => withdrawBarred { e with segments := writeTable img.segments }
  | .plan => setPlans (writeTable img.plans) e
  | .roster =>
    let bound := img.roster.filterMap fun b => b.map (·.address)
    dropDeferred { e with
      roster := writeTable (img.roster.map fun b => b.map (reloadSensor e.roster e.time.now))
      discovery := e.discovery.filter fun x => !bound.contains x.address }
  | .device =>
    withdrawBarred (leaveUndefined
      { e with devices := writeTable (mapFrom (fun n d => d.map (reloadDevice e.toCore n)) 0 img.devices) })
  | .case => e
  | .store => e

/-! ### Store failure (R178) -/

/-- A table's bad entries become undefined, the others keeping their content. -/
def undefineBad {α : Type} (l : List (Checked α)) : List (Checked α) :=
  l.map fun c => if c.check = 0 then c else { content := none, check := 0 }

/-- The bad entries of the table being reloaded become undefined (step 4). -/
def undefineTable (t : Table) (e : Ev) : Ev :=
  match t with
  | .segment => { e with segments := undefineBad e.segments }
  | .plan => setPlans (undefineBad e.plans) e
  | .roster => dropDeferred { e with roster := undefineBad e.roster }
  | .device => leaveUndefined { e with devices := undefineBad e.devices }
  | .case => e
  | .store => e

/-- The notice of a store failure, which tells whether the forced fall followed (R182), says that none did. -/
def withoutFall (x : Emit) : Emit :=
  match x with
  | .tell d (.faultFound t n time total inWindow outcome (some _)) =>
    .tell d (.faultFound t n time total inWindow outcome (some false))
  | x => x

/-- Step 5: the forced fall, in MONITORING. When the work of step 4 has met the fault that halts the part, no fall
follows, and the store failure's notice says so (R182; log 51). -/
def fallInMonitoring (e : Ev) : Ev :=
  match e.mode with
  | .monitoring => forcedFall e
  | .halted => { e with out := e.out.map withoutFall }
  | .configuring => e

/-- Bad entries that have been dealt with are counted as repaired, in the record and for the sweep's notice, as
they are dealt with: a further fault in the same step takes none of them back (R175, R178; log 52). -/
def countRepaired (bad : Nat) (e : Ev) : Ev :=
  { e with
    record := { e.record with repaired := min 65535 (e.record.repaired + bad) }
    recovery := { e.recovery with repaired := e.recovery.repaired + bad } }

/-- A store failure in a sweep step; `bad` is the number of bad entries of the table. -/
def storeFailure (t : Table) (bad : Nat) (e : Ev) : Ev :=
  let e := { e with storeFailed := true, record := { e.record with storeFailed := true } }
  let e := internalFault .store none e
  if e.mode = .halted then e
  else later [.fall, .sweepEnd t] (undefineTable t (countRepaired bad e))

/-! ### The sweep (R175) -/

/-- The numbers of the bad entries of a table. -/
def badOf (c : Core) (t : Table) : List Nat :=
  match t with
  | .segment => badEntries c.segments
  | .device => badEntries c.devices
  | .roster => badEntries c.roster
  | .plan => badEntries c.plans
  | .case => badEntries c.cases
  | .store => []

/-- A table is reloaded from the store (R176), and joins the list of the tables reloaded, once for each of its reloads
in the sweep (R182; log 64). -/
def reload (env : Env) (writesOk : Bool) (t : Table) (e : Ev) : Ev :=
  let bad := (badOf e.toCore t).length
  match env.image, writesOk with
  | some img, true =>
    let e := countRepaired bad e
    later [.validate, .sweepEnd t]
      (reloadTable img t { e with recovery := { e.recovery with reloaded := e.recovery.reloaded ++ [t] } })
  | _, _ => storeFailure t bad e

/-- The bad entries of the case table are freed LOST, in ascending entry number, each counted as repaired (R180). -/
def loseCases (bad : List Nat) (e : Ev) : Ev :=
  bad.foldl (fun e n => loseCase n e) (countRepaired bad.length e)

/-- The table at the head of the sweep's list is verified and dealt with (R175). -/
def sweepTable (env : Env) (saving writesOk : Bool) (t : Table) (e : Ev) : Ev :=
  let bad := badOf e.toCore t
  if bad.isEmpty then later [.sweepEnd t] e
  else
    match t with
    | .case => later [.sweepEnd t] (loseCases bad e)
    | _ =>
      if saving then { e with recovery := { e.recovery with waiting := some t } }
      else reload env writesOk t e

/-- A sweep step (R175); none is taken while a reload waits for a save. -/
def sweepStep (env : Env) (saving writesOk : Bool) (e : Ev) : Ev :=
  if e.recovery.recovering = true ∧ e.recovery.waiting = none then
    match e.recovery.sweep with
    | [] => e
    | t :: rest =>
      sweepTable env saving writesOk t { e with recovery := { e.recovery with sweep := rest } }
  else e

/-- The reload that waited for a save is made, from the image the save wrote (R175). -/
def waitingReload (env : Env) (writesOk : Bool) (e : Ev) : Ev :=
  match e.recovery.waiting with
  | none => e
  | some t => reload env writesOk t { e with recovery := { e.recovery with waiting := none } }

/-- The validation that follows a reload in MONITORING (R178). -/
def validateReload (e : Ev) : Ev :=
  if e.recovery.recovering = true ∧ e.mode = .monitoring then
    match validation e.toCore with
    | none => e
    | some (check, _) =>
      forcedFall { e with recovery := { e.recovery with failedCheck := some check } }
  else e

/-- The order for a device number left undefined completes FAILED, changing no device (R177). -/
def failLost (d : Nat) (e : Ev) : Ev :=
  match orderOf e.toCore d with
  | none => e
  | some o => later (completionWork o .failed none) (countDevice .ordersFailed d (removeOrder d e))

/-- The work a recovery held back (R174). -/
def heldWork (env : Env) (c : Core) : Held :=
  { windows := entriesWhere c.cases fun k => k.state == .watch && reached c.time.now k.windowEnd
    authority := true
    late := entriesWhere c.cases (isLate env c.time.now)
    room := true
    polls := true }

/-- Recovery ends (R175). -/
def endRecovery (env : Env) (e : Ev) : Ev :=
  let r := e.recovery
  raise .both (.recoveryEnded r.repaired r.reloaded r.lost e.mode r.failedCheck)
    { e with recovery := Recovery.idle, held := heldWork env e.toCore }

/-- A verified device table ends the passing over of its orders, which the arbiter then sees (R152). -/
def takeUpLeft (env : Env) (e : Ev) : Ev :=
  arbitrate env { e with orders := e.orders.map fun o => { o with left := false } }

/-- The end of a sweep step: a device table is verified, and an emptied list ends the sweep (R152, R175). -/
def sweepEnd (env : Env) (t : Table) (e : Ev) : Ev :=
  if e.recovery.recovering then
    let e := match t with
      | .device => takeUpLeft env e
      | _ => e
    if e.recovery.recovering = true ∧ e.recovery.sweep = [] then endRecovery env e else e
  else e

/-! ### Work held back (R174) -/

/-- A WATCH case whose window end is reached is freed EXPIRED (R85); a bad entry is a fault. -/
def expireWindow (n : Nat) (e : Ev) : Ev :=
  if healthy e.toCore then
    match entryAt e.cases n with
    | none => e
    | some k =>
      if k.state = .watch ∧ reached e.time.now k.windowEnd = true then
        if badAt e.cases n then faultAt { table := .case, index := n } e
        else freeCase n k .expired none e
      else e
  else e

/-- A held-back window expiry (R85). -/
def heldWindow (n : Nat) (e : Ev) : Ev :=
  if healthy e.toCore = true ∧ n ∈ e.held.windows then
    expireWindow n { e with held := { e.held with windows := e.held.windows.filter (· != n) } }
  else e

/-- The held-back moves for authority (R112). -/
def heldAuthority (env : Env) (e : Ev) : Ev :=
  if healthy e.toCore = true ∧ e.held.authority = true then
    let e := { e with held := { e.held with authority := false } }
    match moveReason env e.toCore with
    | some reason => isolateConfirmed reason e
    | none => e
  else e

/-- A held-back late notice (R126). -/
def heldLate (env : Env) (n : Nat) (e : Ev) : Ev :=
  if healthy e.toCore = true ∧ n ∈ e.held.late then
    judgeDeadline env n { e with held := { e.held with late := e.held.late.filter (· != n) } }
  else e

/-- The held-back judging of every step on the room list, oldest first (R128). -/
def heldRoom (e : Ev) : Ev :=
  if healthy e.toCore = true ∧ e.held.room = true then
    later (e.room.map Work.rejudge) { e with held := { e.held with room := false } }
  else e

/-- The held-back requests of due polls (R148). -/
def heldPolls (env : Env) (e : Ev) : Ev :=
  if healthy e.toCore = true ∧ e.held.polls = true then
    requestPolls env { e with held := { e.held with polls := false } }
  else e

/-! ### The fault window (R171) -/

/-- Times that have stood 60,000 ms leave the window, but not in HALTED (R171). -/
def expireFaults (e : Ev) : Ev :=
  if e.mode = .halted then e
  else { e with window := e.window.filter fun t => !reached e.time.now (addTime t Config.faultWindow) }

end Sys2Proof.Machine
end

