-- ==== Sys2Proof/Machine/Engine.lean ====
section
/-! DEFINITION. How an event runs: its work to the end, then its outcome placed in the part, with its
occurrences counted (R201, R202) and its notices offered to the ports (R190, R192). -/

namespace Sys2Proof.Machine

/-! ### The work of an event -/

/-- One piece of work is done. -/
def doWork (env : Env) (w : Work) (e : Ev) : Ev :=
  match w with
  | .pass n => passCase env n e
  | .isolate n reason => isolate n reason e
  | .begin n => beginWalk env n e
  | .judge n => judgeWalk env n e
  | .rejudge n => rejudge env n e
  | .ownDone n d => ownDone n d e
  | .announce d => announce d e
  | .opened d => deviceOpened d e
  | .room => judgeRoom e
  | .roomNext n => judgeRoomNext n e
  | .polls => requestPolls env e
  | .handOver o outcome refusal => handOver o outcome refusal e
  | .failLost d => failLost d e
  | .validate => validateReload e
  | .fall => fallInMonitoring e
  | .sweepEnd t => sweepEnd env t e

/-- The work of an event, each piece followed by what it calls for before what stood after it. The fuel
bounds it (log 16). -/
def runWork (env : Env) : Nat → List Work → Ev → Ev
  | 0, _, e => e
  | _ + 1, [], e => e
  | fuel + 1, w :: rest, e =>
    let e := doWork env w { e with todo := [] }
    runWork env fuel (e.todo ++ rest) { e with todo := [] }

/-- The pieces of work an event may take (log 16). -/
def workFuel : Nat := 65536

/-- An event's own act, and its work to the end. -/
def settle (env : Env) (e : Ev) : Ev := runWork env workFuel e.todo { e with todo := [] }

/-! ### Notices (R190, R192) -/

/-- The place of a category among the eight of a port. -/
def categoryIndex (c : Category) : Nat := c.code - 1

/-- A notice joins a port's queue, the oldest making room (R190). -/
def joinNotices (n : Notice) (p : PortState) : PortState :=
  if p.notices.length < Config.notices then { p with notices := p.notices ++ [n] }
  else { p with notices := p.notices.drop 1 ++ [n], lostPending := true }

/-- A notice is offered to a port, which queues it or withholds it under its mask (R190, R192). -/
def offer (n : Notice) (p : PortState) : PortState :=
  match p.categories[categoryIndex n.category]? with
  | some c =>
    if c.mask then
      let c := { c with latch := true, withheld := min 255 (c.withheld + 1) }
      { p with categories := p.categories.set (categoryIndex n.category) c }
    else joinNotices n p
  | none => joinNotices n p

/-- A notice is offered to the ports it is for. -/
def offerTo (d : Dest) (n : Notice) (p : Part) : Part :=
  match d with
  | .both => { p with portA := offer n p.portA, portB := offer n p.portB }
  | .only .a => { p with portA := offer n p.portA }
  | .only .b => { p with portB := offer n p.portB }

/-- The notices of an event are offered in the order in which it raised them. -/
def offerAll (ns : List (Dest × Notice)) (p : Part) : Part :=
  ns.foldl (fun p x => offerTo x.1 x.2 p) p

/-! ### Counters (R201, R202) -/

/-- Whether a counter follows an occurrence (R201). -/
def follows (c : Counter) (o : Occurrence) : Bool :=
  c.select != .none && c.select == o.select && match c.scope with
    | .all => true
    | .segment n => o.segment == some n
    | .sensor a => o.sensor == some a
    | .device n => o.device == some n

/-- The number at which a counter wraps. -/
def counterSpan : Int := 4294967296

/-- Whether adding an amount wraps a counter (R202). -/
def wraps (c : Counter) (amount : Int) : Bool := decide (counterSpan ≤ (c.value : Int) + amount)

/-- An amount is added to a counter (R202). -/
def addTo (c : Counter) (amount : Int) : Counter :=
  { c with
    value := (((c.value : Int) + amount) % counterSpan).toNat
    overflow := c.overflow || wraps c amount }

/-- The port that owns a counter (R200). -/
def ownerOf (n : Nat) : Port := if n < 8 then .a else .b

/-- One counter sees an occurrence: its new state, and the COUNTER notice of a wrap. -/
def countOne (now n : Nat) (o : Occurrence) (c : Counter) : Counter × Option (Nat × Notice) :=
  if follows c o then
    let c' := addTo c o.amount
    if wraps c o.amount && c.notify then
      (c', some (n, .counter n c'.select c'.scope c'.value now))
    else (c', none)
  else (c, none)

/-- The counters see an occurrence, and tell their wraps in ascending counter number. -/
def countOccurrence (now : Nat) (o : Occurrence) (cs : List Counter) :
    List Counter × List (Nat × Notice) :=
  let rs := mapFrom (fun n c => countOne now n o c) 0 cs
  (rs.map (·.1), rs.filterMap (·.2))

/-- What an event gives out, in order: the counters see its occurrences, and the COUNTER notices of the wraps
stand where their occurrences stood (R190, R201, R202). -/
def emissions (now : Nat) : List Emit → List Counter → List Counter × List (Dest × Notice)
  | [], cs => (cs, [])
  | .tell d n :: xs, cs =>
    let rest := emissions now xs cs
    (rest.1, (d, n) :: rest.2)
  | .count o :: xs, cs =>
    let counted := countOccurrence now o cs
    let rest := emissions now xs counted.1
    (rest.1, counted.2.map (fun w => (.only (ownerOf w.1), w.2)) ++ rest.2)

/-- The number of a counter of a port's group whose wrap a notice tells. -/
def wrapOf (q : Port) (x : Dest × Notice) : Option Nat :=
  match x.2 with
  | .counter n _ _ _ _ => if ownerOf n = q then some n else none
  | _ => none

/-- A COUNTER notice is placed after those of lower and equal numbers. -/
def insertWrap (q : Port) (x : Dest × Notice) : List (Dest × Notice) → List (Dest × Notice)
  | [] => [x]
  | y :: ys =>
    if (wrapOf q x).getD 0 < (wrapOf q y).getD 0 then x :: y :: ys else y :: insertWrap q x ys

/-- The COUNTER notices of a port's group, in ascending counter number (R202). -/
def wrapsOf (q : Port) (l : List (Dest × Notice)) : List (Dest × Notice) :=
  (l.filter fun x => (wrapOf q x).isSome).foldl (fun acc x => insertWrap q x acc) []

/-- The places of a group's COUNTER notices are filled from a list. -/
def refill (q : Port) : List (Dest × Notice) → List (Dest × Notice) → List (Dest × Notice)
  | _, [] => []
  | ws, x :: xs =>
    match wrapOf q x, ws with
    | some _, w :: rest => w :: refill q rest xs
    | _, _ => x :: refill q ws xs

/-- The notices of an event in the order in which they join the queues: where its rules raise them (R190), the
COUNTER notices of one group among their places in ascending counter number (R202; log 11). -/
def inOrder (l : List (Dest × Notice)) : List (Dest × Notice) :=
  refill .b (wrapsOf .b l) (refill .a (wrapsOf .a l) l)

/-! ### An event in the part -/

/-- What an event reads and does not change. -/
def envOf (p : Part) : Env :=
  { settings := p.settings
    options := p.inForce.options
    image := if p.store.valid && p.store.codeMatches then some p.store.image else none }

/-- What an event gives out reaches the counters and the ports. -/
def deliver (now : Nat) (xs : List Emit) (p : Part) : Part :=
  let r := emissions now xs p.counters
  offerAll (inOrder r.2) { p with counters := r.1 }

/-- The outcome of an event is placed in the part. -/
def commit (e : Ev) (p : Part) : Part :=
  deliver e.time.now e.out
    { p with
      core := e.toCore
      store := if e.storeFailed then { p.store with valid := false } else p.store }

/-- An event of the blocks, run to its end and placed in the part. -/
def runEvent (f : Env → Ev → Ev) (p : Part) : Part :=
  let env := envOf p
  commit (settle env (f env (startEvent p.core))) p

/-- An event within start-up, which raises no notice (R215): its occurrences are counted, and what it raises is
dropped (log 50). -/
def runQuiet (f : Env → Ev → Ev) (p : Part) : Part :=
  let env := envOf p
  let e := settle env (f env (startEvent p.core))
  { p with core := e.toCore, counters := (emissions e.time.now e.out p.counters).1 }

end Sys2Proof.Machine
end

