-- ==== Sys2Proof/Machine/Time.lean ====
section
/-! DEFINITION. The Time Base: pulses (R32 to R34), the missing pulse (R35), the setting of the time (R30)
and the passing of a millisecond (R27; log 2). -/

namespace Sys2Proof.Machine

/-- A pulse's offset from the whole second nearest the time base (R32). -/
def pulseOffset (now : Nat) : Int :=
  let r := now % 1000
  if r < 500 then (r : Int) else (r : Int) - 1000

/-- Whether an offset lies within a bound on either side. -/
def within (o bound : Int) : Bool := decide (-bound ≤ o) && decide (o ≤ bound)

/-- The early-pulse test (R32). -/
def isEarly (t : TimeBase) : Bool :=
  match t.lastPulse with
  | some p => decide (t.elapsed - p < 500)
  | none => false

/-- A pulse snaps the time base and becomes the last pulse (R32). -/
def snap (e : Ev) : Ev :=
  let e := setTimeBase (moveTime (-(pulseOffset e.time.now)) e.time.now) e
  { e with time := { e.time with lastPulse := some e.time.elapsed } }

/-- The good-pulse count takes a value. -/
def setGood (n : Nat) (e : Ev) : Ev := { e with time := { e.time with good := n } }

/-- The lock state falls to FREE with count 0 (R34, R35). -/
def loseLock (cause : TimeCause) (e : Ev) : Ev := changeLock .free cause (setGood 0 e)

/-- A pulse arrives in FREE (R33). -/
def pulseFree (e : Ev) : Ev :=
  if isEarly e.time then setGood 0 e
  else
    let good := within (pulseOffset e.time.now) 2
    let count := e.time.good
    let e := snap e
    if good then
      if count < 2 then setGood (count + 1) e else changeLock .locked .thirdGoodPulse (setGood 3 e)
    else setGood 0 e

/-- A pulse arrives in LOCKED (R34). -/
def pulseLocked (e : Ev) : Ev :=
  if isEarly e.time then loseLock .earlyPulse e
  else
    let near := within (pulseOffset e.time.now) 5
    let e := snap e
    if near then e else loseLock .pulseOff e

/-- A pulse arrives (R32). -/
def pulse (e : Ev) : Ev :=
  match e.time.lock with
  | .unset => e
  | .free => pulseFree e
  | .locked => pulseLocked e

/-- 1,500 ms have passed after the last pulse (R35). -/
def missing (e : Ev) : Ev :=
  match e.time.lastPulse with
  | none => e
  | some p =>
    if 1500 ≤ e.time.elapsed - p then
      match e.time.lock with
      | .unset => e
      | .free => setGood 0 e
      | .locked => loseLock .pulseMissing e
    else e

/-- The time of day is set (R30). -/
def setTime (now : Nat) (e : Ev) : Ev :=
  let e := setTimeBase now e
  let e := { e with time := { e.time with good := 0, lastPulse := none } }
  match e.time.lock with
  | .locked => changeLock .free .setTime e
  | _ => { e with time := { e.time with lock := .free } }

/-- One millisecond passes (R27; log 2). -/
def passMillisecond (t : TimeBase) : TimeBase :=
  { t with now := (t.now + 1) % Config.day, elapsed := t.elapsed + 1 }

end Sys2Proof.Machine
end

