-- ==== Sys2Proof/Machine/Ports.lean ====
section
/-! DEFINITION. The ports and the shape every command and event takes: supervision (R194), the taking of a
command (R185, R189), its reply (R186), the transmitters (R186, R191), the IN_SERVICE pin (R20), and the
conditions that many commands share. -/

namespace Sys2Proof.Machine

/-! ### The two ports -/

/-- A port's state. -/
def portOf (q : Port) (p : Part) : PortState :=
  match q with
  | .a => p.portA
  | .b => p.portB

/-- A port's state is changed. -/
def setPort (q : Port) (f : PortState → PortState) (p : Part) : Part :=
  match q with
  | .a => { p with portA := f p.portA }
  | .b => { p with portB := f p.portB }

/-- The other port. -/
def otherPort : Port → Port
  | .a => .b
  | .b => .a

/-! ### Run states (R189, R199, R215) -/

/-- Whether the blocks run: neither held in reset nor in start-up. -/
def blocksRun (p : Part) : Bool :=
  match p.run with
  | .resetAsserted => false
  | .startingUp _ => false
  | _ => true

/-- Whether the ports' transmitters take frames: not in reset, from the moment a restart is due, or in
start-up. -/
def portsSend (p : Part) : Bool :=
  match p.run with
  | .running => true
  | .restartTaken => true
  | _ => false

/-! ### The end of an event -/

/-- A free transmitter takes the first ready reply, else the oldest notice (R186, R191). -/
def pump (p : PortState) : PortState :=
  match p.tx with
  | some _ => p
  | none =>
    match p.ready with
    | r :: rest => { p with ready := rest, tx := some (.reply r) }
    | [] =>
      match p.notices with
      | n :: rest =>
        let seq := (p.sequence + 1) % 256
        { p with notices := rest, sequence := seq, tx := some (.notice n seq p.lostPending),
                 lostPending := false }
      | [] => p

/-- Whether IN_SERVICE is high (R20). -/
def serviceHigh (p : Part) : Bool :=
  p.core.mode == .monitoring && !p.core.recovery.recovering && blocksRun p

/-- The end of an event: the pin follows, and the free transmitters take their frames (log 10). -/
def finish (p : Part) : Part :=
  let p := { p with inService := serviceHigh p }
  if portsSend p then { p with portA := pump p.portA, portB := pump p.portB } else p

/-- A command or event acts on the part, and leaves the waiting commands. -/
def act (f : Part → Part) (s : State) : Host.Outcome State Fault Refusal :=
  .next { s with part := finish (f s.part) }

/-- An event of the blocks: nothing happens while they do not run. -/
def happen (f : Env → Ev → Ev) (s : State) : Host.Outcome State Fault Refusal :=
  act (fun p => if blocksRun p then runEvent f p else p) s

/-! ### Supervision of Port A (R194, R195) -/

/-- Port A becomes PRESENT, with its PORT notice. -/
def makePresent (p : Part) : Part :=
  offerTo .both (.supervision true false p.settings.supervisionInterval p.core.time.now)
    { p with core := { p.core with supervision := { p.core.supervision with absent := false } } }

/-- A good frame is heard on a port: its receiver is in HUNT, and on a supervised Port A the time starts
again; `taken` says whether it also makes an ABSENT Port A PRESENT (log 9). -/
def hearFrame (q : Port) (taken : Bool) (p : Part) : Part :=
  let p := setPort q (fun s => { s with rx := .hunt }) p
  match q with
  | .b => p
  | .a =>
    if p.inForce.options.supervisePortA then
      let p := { p with core := { p.core with
        supervision := { p.core.supervision with lastGood := p.core.time.elapsed } } }
      if p.core.supervision.absent && taken then makePresent p else p
    else p

/-- Port A becomes ABSENT when its interval has passed (R194, R195), with unattended isolation (R111): a case
still CONFIRMED takes reason UNATTENDED, under AUTO too (log 49). -/
def judgeAbsence (env : Env) (e : Ev) : Ev :=
  if env.options.supervisePortA = true ∧ e.supervision.absent = false ∧
      1000 * env.settings.supervisionInterval ≤ e.time.elapsed - e.supervision.lastGood then
    let e := raise .both
      (.supervision false true env.settings.supervisionInterval e.time.now)
      { e with supervision := { e.supervision with absent := true } }
    if env.options.unattendedIsolate then isolateConfirmed .unattended e else e
  else e

/-! ### Taking a command and answering it (R185, R186) -/

/-- What a command answers: a reply ready in its event, or one that waits for an operation. -/
inductive Answer where
  | now (code : ReplyCode) (body : ReplyBody)
  | later (op : StoreOp)
deriving DecidableEq, Repr

/-- The answer of a code alone. -/
def plain (c : ReplyCode) : Answer := .now c .empty

/-- Whether a port's reply queue is full (R185). -/
def repliesFull (p : PortState) : Bool := decide (Config.replies ≤ p.ready.length + p.waiting.length)

/-- A reply joins a port's queue (R186). -/
def enqueue (kind : Nat) (tag : Byte) (a : Answer) (p : PortState) : PortState :=
  match a with
  | .now code body =>
    { p with ready := p.ready ++ [{ kind := kind + 0x80, tag := tag, code := code, body := body }] }
  | .later op => { p with waiting := p.waiting ++ [{ op := op, kind := kind + 0x80, tag := tag }] }

/-- A command frame arrives: discarded when the part takes none (R189), discarded and counted when the
reply queue is full (R185), else taken and answered. The frame is heard before its command acts, so that the
PRESENT notice of a RESET_PORT from an ABSENT Port A is emptied on that port with its queue (log 56). -/
def takeCommand (q : Port) (kind : Nat) (tag : Byte) (f : Part → Part × Answer) (p : Part) : Part :=
  match p.run with
  | .running =>
    if repliesFull (portOf q p) then
      setPort q (fun s => { s with overrun := min 255 (s.overrun + 1) }) (hearFrame q false p)
    else
      let r := f (hearFrame q true p)
      setPort q (enqueue kind tag r.2) r.1
  | _ => p

/-- The meaning of a port command: its kind, and what it does and answers once taken. -/
def answer (q : Port) (kind : Nat) (tag : Byte) (f : Part → Part × Answer) (s : State) :
    Host.Outcome State Fault Refusal :=
  act (takeCommand q kind tag f) s

/-- A command whose body is malformed is refused at once; any other is judged on its fields. -/
def onBody {α : Type} (b : Body α) (f : α → Part → Part × Answer) (p : Part) : Part × Answer :=
  match b with
  | .malformed => (p, plain .malformed)
  | .ok x => f x p

/-- The reply of the first stage of conditions, or what follows when none of them holds (R187; log 8). -/
def unless_ (cs : List Condition) (f : Part → Part × Answer) (p : Part) : Part × Answer :=
  match select cs with
  | some c => (p, plain c)
  | none => f p

/-- What a command does in the blocks: its answer, and the event it makes. -/
def viaCore (f : Env → Ev → Ev × Answer) (p : Part) : Part × Answer :=
  let env := envOf p
  let r := f env (startEvent p.core)
  (commit (settle env r.1) p, r.2)

/-- A stage of conditions inside the blocks. -/
def unlessEv (cs : List Condition) (f : Ev → Ev × Answer) (e : Ev) : Ev × Answer :=
  match select cs with
  | some c => (e, plain c)
  | none => f e

/-- The reads a command makes: a mismatch is answered UNAVAILABLE fault-recovery, and is a fault (R2, R95,
R155). -/
def reading (rs : List Ref) (f : Ev → Ev × Answer) (e : Ev) : Ev × Answer :=
  match firstBad e.toCore rs with
  | some r => (faultAt r e, plain .faultRecovery)
  | none => f e

/-! ### Conditions many commands share -/

/-- Sent on Port B without PORT_B_CONTROL (R188). -/
def uncontrolled (p : Part) (q : Port) : Bool := q == .b && !p.inForce.options.portBControl

/-- Mode is HALTED (R189). -/
def isHalted (p : Part) : Bool := p.core.mode == .halted

/-- The conditions of R2 for a topology or plan edit. -/
def editConditions (p : Part) (q : Port) (inRange : Bool) : List Condition :=
  [(!inRange, .outOfRange), (uncontrolled p q, .notPermitted),
   (p.core.mode != .configuring, .wrongMode), (p.core.recovery.recovering, .faultRecovery),
   (p.save.isSome, .saveInProgress)]

/-- The conditions of R2 for a read of a checked table. -/
def readConditions (p : Part) (inRange : Bool) : List Condition :=
  [(!inRange, .outOfRange), (isHalted p, .wrongMode), (p.core.recovery.recovering, .faultRecovery)]

/-- The first `count` of a list, and whether more follow (R5, R9, R106). -/
def upTo {α : Type} (count : Nat) (l : List α) : List α × Bool :=
  (l.take count, decide (count < l.length))

/-- A table's defined entries from a number on, ascending. -/
def entriesFrom {α : Type} (l : List (Checked α)) (first : Nat) : List (Nat × α) :=
  (List.range l.length).filterMap fun n =>
    if first ≤ n then (entryAt l n).map fun x => (n, x) else none

/-- The numbers of a table's entries from a number on. -/
def numbersFrom {α : Type} (l : List (Checked α)) (first : Nat) : List Nat :=
  (List.range l.length).filter fun n => decide (first ≤ n)

/-! ### Idle time -/

/-- A millisecond in which nothing else happens (log 2). -/
def idle (s : State) : State :=
  { s with part := { s.part with core := { s.part.core with
    time := passMillisecond s.part.core.time } } }

end Sys2Proof.Machine
end

