-- ==== Sys2Proof/Machine/CaseCommands.lean ====
section
/-! DEFINITION. The case commands (R95 to R100), the expiry of a case's window (R85) and of its isolation
deadline (R126). -/

namespace Sys2Proof.Machine

/-- The conditions of R95 that need no read. -/
def caseConditions (p : Part) (barred : Bool) (inRange : Bool) : List Condition :=
  [(!inRange, .outOfRange), (barred, .notPermitted), (isHalted p, .wrongMode),
   (p.core.recovery.recovering, .faultRecovery)]

/-- Whether the entry named holds the case named (R95). -/
def namesCase (c : Core) (x : CaseName) : Bool :=
  match entryAt c.cases x.entry with
  | some k => k.serial == x.serial
  | none => false

/-- A case command is judged on R95, its entry read when neither recovery nor HALTED forbids it, and goes on
with the case named (log 34). A mismatch is answered UNAVAILABLE fault-recovery, whatever else holds. -/
def onCase (cs : List Condition) (x : CaseName) (f : Case → Ev → Ev × Answer) (e : Ev) : Ev × Answer :=
  if healthy e.toCore = true ∧ x.entry < Config.cases then
    reading [{ table := .case, index := x.entry }]
      (unlessEv ((!namesCase e.toCore x, .noSuchItem) :: cs)
        (fun e =>
          match entryAt e.cases x.entry with
          | some k => f k e
          | none => (e, plain .noSuchItem))) e
  else unlessEv cs (fun e => (e, plain .noSuchItem)) e

/-- The shape of the four commands that name a case. -/
def caseCommand (q : Port) (changes : Bool) (f : CaseName → Case → Ev → Ev × Answer) (x : CaseName)
    (p : Part) : Part × Answer :=
  let cs := caseConditions p (changes && uncontrolled p q) (decide (x.entry < Config.cases))
  viaCore (fun _ e => onCase cs x (f x) e) p

/-- DISMISS_CASE past the common conditions (R96). -/
def dismissCase (x : CaseName) (k : Case) (e : Ev) : Ev × Answer :=
  match k.state with
  | .watch => (freeCase x.entry k .dismissed none e, plain .accepted)
  | .confirmed => (freeCase x.entry k .dismissed none e, plain .accepted)
  | _ => (e, plain .wrongCaseState)

/-- DISMISS_CASE: kind 0x18 (R96). -/
def execDismissCase (q : Port) (tag : Byte) (body : Body CaseName) (s : State) :
    Host.Outcome State Fault Refusal :=
  answer q 0x18 tag (onBody body (caseCommand q true dismissCase)) s

/-- CLOSE_CASE past the common conditions (R97). -/
def closeCase (x : CaseName) (k : Case) (e : Ev) : Ev × Answer :=
  match k.state with
  | .isolated => (freeCase x.entry k .closed none e, plain .accepted)
  | .blocked => (freeCase x.entry k .closed none e, plain .accepted)
  | _ => (e, plain .wrongCaseState)

/-- CLOSE_CASE: kind 0x19 (R97). -/
def execCloseCase (q : Port) (tag : Byte) (body : Body CaseName) (s : State) :
    Host.Outcome State Fault Refusal :=
  answer q 0x19 tag (onBody body (caseCommand q true closeCase)) s

/-- ISOLATE_CASE past the common conditions (R98). -/
def isolateCase (x : CaseName) (k : Case) (e : Ev) : Ev × Answer :=
  match k.state with
  | .confirmed =>
    reading (isolateReads e.toCore x.entry)
      (fun e => (isolate x.entry .command e, plain .accepted)) e
  | _ => (e, plain .wrongCaseState)

/-- ISOLATE_CASE: kind 0x1A (R98). -/
def execIsolateCase (q : Port) (tag : Byte) (body : Body CaseName) (s : State) :
    Host.Outcome State Fault Refusal :=
  answer q 0x1A tag (onBody body (caseCommand q true isolateCase)) s

/-- The summary of an occupied entry (R99), with the score that R79 has LIST_CASES report (log 39). -/
def summarise (n : Nat) (k : Case) : CaseSummary :=
  { entry := n, serial := k.serial, segment := k.segment, phase := k.phase, state := k.state
    score := k.score, finding := k.finding }

/-- LIST_CASES past the common conditions (R99). -/
def listCases (e : Ev) : Ev × Answer :=
  reading (allRefs e.toCore .case)
    (fun e =>
      let l := (entriesFrom e.cases 0).map fun x => summarise x.1 x.2
      (e, .now .accepted (.cases l.length l))) e

/-- LIST_CASES: kind 0x1B (R99). -/
def execListCases (q : Port) (tag : Byte) (body : Body Unit) (s : State) :
    Host.Outcome State Fault Refusal :=
  answer q 0x1B tag
    (onBody body fun _ p => unless_ (caseConditions p false true) (viaCore fun _ e => listCases e) p) s

/-- READ_CASE past the common conditions (R100). -/
def readCase (x : CaseName) (k : Case) (e : Ev) : Ev × Answer :=
  (e, .now .accepted (.caseRecord x.entry k))

/-- READ_CASE: kind 0x1C (R100). -/
def execReadCase (q : Port) (tag : Byte) (body : Body CaseName) (s : State) :
    Host.Outcome State Fault Refusal :=
  answer q 0x1C tag (onBody body (caseCommand q false readCase)) s

/-! ### Expiries -/

/-- WINDOW_EXPIRY (R85). -/
def execWindowExpiry (entry : Nat) (s : State) : Host.Outcome State Fault Refusal :=
  happen (fun _ e => expireWindow entry e) s

/-- ISOLATION_DEADLINE_REACHED (R126). -/
def execIsolationDeadlineReached (entry : Nat) (s : State) : Host.Outcome State Fault Refusal :=
  happen (fun env e => judgeDeadline env entry e) s

end Sys2Proof.Machine
end

