-- ==== Sys2Proof/Machine/FeederCommands.lean ====
section
/-! DEFINITION. The commands of the Feeder Description: SET_MODE (R21 to R24), segments (R3 to R5), the
roster (R7 to R9), devices (R11 to R13, R151) and discovery (R16). -/

namespace Sys2Proof.Machine

/-! ### SET_MODE -/

/-- The effects of entering MONITORING: every device then due is polled (R22, R147, R148). -/
def enterMonitoring (e : Ev) : Ev := beginPolling { e with mode := .monitoring }

/-- SET_MODE MONITORING, taken in CONFIGURING (R22): a mismatch counts only where the checks meet it. -/
def toMonitoring (e : Ev) : Ev × Answer :=
  reading (validationReads e.toCore)
    (fun e =>
      match validation e.toCore with
      | some (check, item) => (e, .now .topologyInvalid (.validation check item))
      | none => (enterMonitoring e, plain .accepted)) e

/-- Whether a case keeps the mode in MONITORING (R24). -/
def holdsMode (k : Case) : Bool :=
  match k.state with
  | .confirmed => true
  | .isolating => true
  | _ => false

/-- A WATCH case is freed WITHDRAWN (R24). -/
def withdrawWatch (n : Nat) (e : Ev) : Ev :=
  match entryAt e.cases n with
  | none => e
  | some k =>
    match k.state with
    | .watch => freeCase n k .withdrawn none e
    | _ => e

/-- The effects of entering CONFIGURING by SET_MODE (R24, R147). -/
def enterConfiguring (e : Ev) : Ev :=
  let e := { e with mode := .configuring }
  clearPolls (withdrawPolls
    ((occupied e.cases).foldl (fun e n => withdrawWatch n e) e))

/-- SET_MODE CONFIGURING, taken in MONITORING (R24). The case table is read to judge it, and the devices of
the QUEUED POLL orders once it is accepted (log 33). -/
def toConfiguring (e : Ev) : Ev × Answer :=
  reading (allRefs e.toCore .case)
    (fun e =>
      if (entriesWhere e.cases holdsMode).isEmpty then
        reading (refs .device (queuedPolls e.toCore))
          (fun e => (enterConfiguring e, plain .accepted)) e
      else (e, plain .isolationInProgress)) e

/-- A change of mode past its conditions (R21). -/
def changeMode (m : Mode) (e : Ev) : Ev × Answer :=
  if m = e.mode then (e, plain .accepted)
  else
    match m with
    | .monitoring => toMonitoring e
    | .configuring => toConfiguring e
    | .halted => (e, plain .outOfRange)

/-- The conditions of SET_MODE (R21). -/
def modeConditions (p : Part) (q : Port) (m : Mode) : List Condition :=
  [(m == .halted, .outOfRange), (uncontrolled p q, .notPermitted), (isHalted p, .wrongMode),
   (p.core.recovery.recovering, .faultRecovery)]

/-- SET_MODE: kind 0x08 (R21). -/
def execSetMode (q : Port) (tag : Byte) (body : Body Mode) (s : State) :
    Host.Outcome State Fault Refusal :=
  answer q 0x08 tag
    (onBody body fun m p => unless_ (modeConditions p q m) (viaCore fun _ e => changeMode m e) p) s

/-! ### Segments -/

/-- A number that may be absent lies below a bound. -/
def optBelow (n : Option Nat) (bound : Nat) : Bool :=
  match n with
  | some x => decide (x < bound)
  | none => true

/-- The numbered fields of a DEFINE_SEGMENT lie in their ranges (R1, R3). -/
def segmentInRange (x : SegmentEdit) : Bool :=
  decide (x.number < Config.segments) && optBelow x.parent Config.segments
    && optBelow x.plan Config.plans && decide (x.label < 65536)

/-- The entries of the cases on a segment. -/
def casesOn (c : Core) (s : Nat) : List Nat := entriesWhere c.cases fun k => k.segment == s

/-- The reads made to judge the bars on the CLOSE orders in the queue; none without one (log 6). -/
def closeReads (c : Core) : List Ref :=
  match c.orders.filter fun o => o.action == .close with
  | [] => []
  | os => refs .device (os.map (·.device)) ++ allRefs c .segment
      ++ allRefs c .case

/-- The devices of the SENT CLOSE orders. -/
def sentCloses (c : Core) : List Nat :=
  (c.orders.filter fun o => o.action == .close && o.state == .sent).map (·.device)

/-- Whether an edit brings a device with a SENT CLOSE order under a WORK hold's bar (R3, R162; log 23). -/
def bringsUnderHold (c : Core) (edited : List (Checked Segment)) : Bool :=
  (sentCloses c).any fun d =>
    match entryAt c.devices d with
    | some v => barredByHold edited c.holds v && !barredByHold c.segments c.holds v
    | none => false

/-- DEFINE_SEGMENT past the common conditions (R3, R162). -/
def defineSegment (x : SegmentEdit) (e : Ev) : Ev × Answer :=
  reading ({ table := .segment, index := x.number } :: allRefs e.toCore .case
      ++ closeReads e.toCore)
    (fun e =>
      let edited := putAt e.segments x.number
        (some { parent := x.parent, phases := x.phases, plan := x.plan, label := x.label })
      let stranded := (entryAt e.segments x.number).isSome &&
        !(entriesWhere e.cases fun k => k.segment == x.number && !phaseIn k.phase x.phases).isEmpty
      unlessEv [(stranded, .inUse), (bringsUnderHold e.toCore edited, .closeInFlight)]
        (fun e => (withdrawBarred { e with segments := edited }, plain .accepted)) e) e

/-- DEFINE_SEGMENT: kind 0x09 (R3). An empty phase set is a code with no meaning (R218). -/
def execDefineSegment (q : Port) (tag : Byte) (body : Body SegmentEdit) (s : State) :
    Host.Outcome State Fault Refusal :=
  answer q 0x09 tag
    (onBody body fun x p =>
      unless_ ((!phasesNonempty x.phases, .malformed) :: editConditions p q (segmentInRange x))
        (viaCore fun _ e => defineSegment x e) p) s

/-- Whether a segment carries a hold. -/
def isHeld (c : Core) (s : Nat) : Bool :=
  match c.holds[s]? with
  | some (some _) => true
  | _ => false

/-- DELETE_SEGMENT past the common conditions (R4, R162). -/
def deleteSegment (n : Nat) (e : Ev) : Ev × Answer :=
  reading ({ table := .segment, index := n } :: allRefs e.toCore .case ++ closeReads e.toCore)
    (fun e =>
      unlessEv
        [((entryAt e.segments n).isNone, .noSuchItem), (!(casesOn e.toCore n).isEmpty, .inUse),
         (isHeld e.toCore n, .inUse)]
        (fun e => (withdrawBarred { e with segments := putAt e.segments n none }, plain .accepted)) e) e

/-- DELETE_SEGMENT: kind 0x0A (R4). -/
def execDeleteSegment (q : Port) (tag : Byte) (body : Body Nat) (s : State) :
    Host.Outcome State Fault Refusal :=
  answer q 0x0A tag
    (onBody body fun n p =>
      unless_ (editConditions p q (decide (n < Config.segments))) (viaCore fun _ e => deleteSegment n e)
        p) s

/-- A first number below a bound and a count from 1 to a limit. -/
def rangeOk (x : ReadRange) (low bound limit : Nat) : Bool :=
  decide (low ≤ x.first) && decide (x.first < bound) && decide (1 ≤ x.count) && decide (x.count ≤ limit)

/-- READ_SEGMENTS past its conditions (R5). -/
def readSegments (x : ReadRange) (e : Ev) : Ev × Answer :=
  reading (refs .segment (numbersFrom e.segments x.first))
    (fun e =>
      let r := upTo x.count (entriesFrom e.segments x.first)
      (e, .now .accepted (.segments r.1 r.2))) e

/-- READ_SEGMENTS: kind 0x0B (R5). -/
def execReadSegments (q : Port) (tag : Byte) (body : Body ReadRange) (s : State) :
    Host.Outcome State Fault Refusal :=
  answer q 0x0B tag
    (onBody body fun x p =>
      unless_ (readConditions p (rangeOk x 0 Config.segments 64)) (viaCore fun _ e => readSegments x e)
        p) s

/-! ### The roster -/

/-- The places of the sensors bound to an end of a segment. -/
def boundAt (c : Core) (segment : Nat) (side : SensorEnd) : List Nat :=
  entriesWhere c.roster fun r => r.segment == segment && r.side == side

/-- Whether one of the sensors at an end monitors one of the phases. -/
def endOverlaps (c : Core) (x : SensorBinding) : Bool :=
  !(entriesWhere c.roster fun r =>
    r.segment == x.segment && r.side == x.side && phasesMeet r.phases x.phases).isEmpty

/-- The lowest-numbered empty roster place (log 13). -/
def freePlace (c : Core) : Option Nat :=
  (List.range c.roster.length).find? fun n => (entryAt c.roster n).isNone

/-- BIND_SENSOR past the common conditions (R7). The roster is read for the sensors at the end (log 6). -/
def bindSensor (x : SensorBinding) (e : Ev) : Ev × Answer :=
  reading (allRefs e.toCore .roster)
    (fun e =>
      unlessEv
        [((sensorPlace e.toCore x.address).isSome, .inUse), (endOverlaps e.toCore x, .inUse),
         ((freePlace e.toCore).isNone, .tableFull),
         (decide (Config.sensorsPerEnd ≤ (boundAt e.toCore x.segment x.side).length), .tableFull)]
        (fun e =>
          match freePlace e.toCore with
          | none => (e, plain .tableFull)
          | some n =>
            let v := newSensor { address := x.address, segment := x.segment, side := x.side,
                                 phases := x.phases } e.time.now
            ({ e with roster := putAt e.roster n (some v)
                      discovery := e.discovery.filter fun d => d.address != x.address },
              plain .accepted)) e) e

/-- BIND_SENSOR: kind 0x0C (R7). An empty phase set is a code with no meaning (R218). -/
def execBindSensor (q : Port) (tag : Byte) (body : Body SensorBinding) (s : State) :
    Host.Outcome State Fault Refusal :=
  answer q 0x0C tag
    (onBody body fun x p =>
      unless_ ((!phasesNonempty x.phases, .malformed)
          :: editConditions p q (sensorAddress x.address && decide (x.segment < Config.segments)))
        (viaCore fun _ e => bindSensor x e) p) s

/-- UNBIND_SENSOR past the common conditions (R8). -/
def unbindSensor (a : Nat) (e : Ev) : Ev × Answer :=
  match sensorPlace e.toCore a with
  | none => (e, plain .noSuchItem)
  | some n =>
    reading [{ table := .roster, index := n }]
      (fun e =>
        ({ e with roster := putAt e.roster n none, deferred := e.deferred.filter (· != a) },
          plain .accepted)) e

/-- UNBIND_SENSOR: kind 0x0D (R8). -/
def execUnbindSensor (q : Port) (tag : Byte) (body : Body Nat) (s : State) :
    Host.Outcome State Fault Refusal :=
  answer q 0x0D tag
    (onBody body fun a p =>
      unless_ (editConditions p q (sensorAddress a)) (viaCore fun _ e => unbindSensor a e) p) s

/-- The roster's entries from an address on, in ascending address. -/
def sensorsFrom (c : Core) (first : Nat) : List Sensor :=
  (ascending (addressesWhere c fun r => decide (first ≤ r.address))).filterMap fun a =>
    (sensorPlace c a).bind (entryAt c.roster)

/-- READ_ROSTER past its conditions (R9). -/
def readRoster (x : ReadRange) (e : Ev) : Ev × Answer :=
  reading (allRefs e.toCore .roster)
    (fun e =>
      let r := upTo x.count (sensorsFrom e.toCore x.first)
      (e, .now .accepted (.roster r.1 r.2))) e

/-- READ_ROSTER: kind 0x0E (R9). -/
def execReadRoster (q : Port) (tag : Byte) (body : Body ReadRange) (s : State) :
    Host.Outcome State Fault Refusal :=
  answer q 0x0E tag
    (onBody body fun x p =>
      unless_ (readConditions p (rangeOk x 1 65535 32)) (viaCore fun _ e => readRoster x e) p) s

/-! ### Devices -/

/-- Whether a device is reserved. -/
def isReserved (c : Core) (n : Nat) : Bool :=
  match c.reservations[n]? with
  | some (some _) => true
  | _ => false

/-- The numbers of the devices with a link address. -/
def devicesAtLink (c : Core) (link : Nat) : List Nat := entriesWhere c.devices fun d => d.link == link

/-- The run-time fields a device keeps through DEFINE_DEVICE (R11). -/
def keptRun (old : Option Device) (link : Nat) : DeviceRun :=
  match old with
  | some v => if v.link = link then v.run else DeviceRun.powerOn
  | none => DeviceRun.powerOn

/-- DEFINE_DEVICE past the common conditions (R11). The device table is read for other devices at the link address
(log 6). -/
def defineDevice (x : DeviceEdit) (e : Ev) : Ev × Answer :=
  reading (allRefs e.toCore .device)
    (fun e =>
      let old := entryAt e.devices x.number
      unlessEv
        [(!((devicesAtLink e.toCore x.link).filter (· != x.number)).isEmpty, .inUse),
         (old.isSome && (orderOf e.toCore x.number).isSome, .inUse),
         (old.isSome && isReserved e.toCore x.number, .inUse)]
        (fun e =>
          let v : Device :=
            { link := x.link, kind := x.kind, segment := x.segment, run := keptRun old x.link }
          ({ e with devices := putAt e.devices x.number (some v) }, plain .accepted)) e) e

/-- The numbered fields of a DEFINE_DEVICE lie in their ranges (R10). -/
def deviceInRange (x : DeviceEdit) : Bool :=
  decide (x.number < Config.devices) && decide (1 ≤ x.link) && decide (x.link ≤ 254)
    && decide (x.segment < Config.segments)

/-- DEFINE_DEVICE: kind 0x0F (R11). -/
def execDefineDevice (q : Port) (tag : Byte) (body : Body DeviceEdit) (s : State) :
    Host.Outcome State Fault Refusal :=
  answer q 0x0F tag
    (onBody body fun x p =>
      unless_ (editConditions p q (deviceInRange x)) (viaCore fun _ e => defineDevice x e) p) s

/-- DELETE_DEVICE past the common conditions (R12). -/
def deleteDevice (n : Nat) (e : Ev) : Ev × Answer :=
  reading [{ table := .device, index := n }]
    (fun e =>
      unlessEv
        [((entryAt e.devices n).isNone, .noSuchItem), ((orderOf e.toCore n).isSome, .inUse),
         (isReserved e.toCore n, .inUse)]
        (fun e => ({ e with devices := putAt e.devices n none }, plain .accepted)) e) e

/-- DELETE_DEVICE: kind 0x10 (R12). -/
def execDeleteDevice (q : Port) (tag : Byte) (body : Body Nat) (s : State) :
    Host.Outcome State Fault Refusal :=
  answer q 0x10 tag
    (onBody body fun n p =>
      unless_ (editConditions p q (decide (n < Config.devices))) (viaCore fun _ e => deleteDevice n e)
        p) s

/-- READ_DEVICES past its conditions (R13, R151). -/
def readDevices (e : Ev) : Ev × Answer :=
  reading (allRefs e.toCore .device)
    (fun e =>
      (e, .now .accepted (.devices ((entriesFrom e.devices 0).map fun x =>
        (x.1, x.2, orderOf e.toCore x.1))))) e

/-- READ_DEVICES: kind 0x11 (R13, R151). -/
def execReadDevices (q : Port) (tag : Byte) (body : Body Unit) (s : State) :
    Host.Outcome State Fault Refusal :=
  answer q 0x11 tag
    (onBody body fun _ p => unless_ (readConditions p true) (viaCore fun _ e => readDevices e) p) s

/-! ### Discovery -/

/-- READ_DISCOVERY: kind 0x12 (R16), served while RECOVERING. -/
def execReadDiscovery (q : Port) (tag : Byte) (body : Body Unit) (s : State) :
    Host.Outcome State Fault Refusal :=
  answer q 0x12 tag
    (onBody body fun _ p =>
      unless_ [(isHalted p, .wrongMode)]
        (fun p => (p, .now .accepted (.discovery p.core.discovery))) p) s

end Sys2Proof.Machine
end

