-- ==== Sys2Proof/Machine/ClaimCommands.lean ====
section
/-! DEFINITION. The commands of the Claims Unit: reservations (R156, R157), OPERATE (R159 to R161), holds
(R164 to R167) and READ_CLAIMS (R168). -/

namespace Sys2Proof.Machine

/-- The conditions of R155 that need no read, common to the commands that name an item. -/
def claimConditions (p : Part) (inRange : Bool) : List Condition :=
  [(!inRange, .outOfRange), (isHalted p, .wrongMode), (p.core.recovery.recovering, .faultRecovery)]

/-- A claim command is judged on R155, the entry it names read when neither recovery, HALTED nor its range
forbids it (log 34). A mismatch is answered UNAVAILABLE fault-recovery, whatever else holds. -/
def onItem (cs : List Condition) (inRange : Bool) (r : Ref) (isDefined : Core → Bool)
    (f : Ev → Ev × Answer) (e : Ev) : Ev × Answer :=
  if healthy e.toCore && inRange then
    reading [r] (unlessEv ((!isDefined e.toCore, .noSuchItem) :: cs) f) e
  else unlessEv cs f e

/-- The shape of the three commands that name a device. -/
def deviceClaim (n : Nat) (extra : List Condition) (f : Ev → Ev × Answer) (p : Part) : Part × Answer :=
  let inRange := decide (n < Config.devices)
  viaCore (fun _ e =>
    onItem (extra ++ claimConditions p inRange) inRange { table := .device, index := n }
      (fun c => (entryAt c.devices n).isSome) f e) p

/-! ### Reservations -/

/-- The reservation of a device. -/
def reservationOf (c : Core) (n : Nat) : Option Port := (c.reservations[n]?).join

/-- A reservation is set. -/
def setReservation (n : Nat) (r : Option Port) (e : Ev) : Ev :=
  { e with reservations := e.reservations.set n r }

/-- RESERVE past the common conditions (R156). -/
def reserve (q : Port) (n : Nat) (e : Ev) : Ev × Answer :=
  match reservationOf e.toCore n with
  | none => (setReservation n (some q) e, plain .accepted)
  | some h => if h = q then (e, plain .accepted) else (e, .now .otherPortInControl (.holder h))

/-- RESERVE: kind 0x24 (R156). -/
def execReserve (q : Port) (tag : Byte) (body : Body Nat) (s : State) :
    Host.Outcome State Fault Refusal :=
  answer q 0x24 tag (onBody body fun n => deviceClaim n [] (reserve q n)) s

/-- RELEASE past the common conditions (R157). -/
def release (q : Port) (n : Nat) (e : Ev) : Ev × Answer :=
  if reservationOf e.toCore n = some q then (setReservation n none e, plain .accepted)
  else (e, plain .notReserved)

/-- RELEASE: kind 0x25 (R157). -/
def execRelease (q : Port) (tag : Byte) (body : Body Nat) (s : State) :
    Host.Outcome State Fault Refusal :=
  answer q 0x25 tag (onBody body fun n => deviceClaim n [] (release q n)) s

/-! ### OPERATE -/

/-- The bars on a CLOSE of a device: by a WORK hold, and by a case (R160). -/
def closeBars (c : Core) (n : Nat) : Bool × Bool :=
  match entryAt c.devices n with
  | some v => (barredByHold c.segments c.holds v, barredByCase c c.segments v)
  | none => (false, false)

/-- The reads that judge the bars on an OPERATE: none for an OPEN. -/
def operateReads (c : Core) (x : OperateRequest) : List Ref :=
  match x.action, entryAt c.devices x.device with
  | .close, some v => barReads c v
  | _, _ => []

/-- The conditions of OPERATE that need no table read, beside those common to the claim commands (R155,
R159). They are judged while RECOVERING too. -/
def operateBars (p : Part) (q : Port) : List Condition :=
  [(uncontrolled p q, .notPermitted), (p.core.mode != .monitoring, .wrongMode)]

/-- The conditions of R159 past those. -/
def operateConditions (c : Core) (q : Port) (x : OperateRequest) : List Condition :=
  [(reservationOf c x.device != some q, .notReserved),
   (x.action == .close && (closeBars c x.device).1, .segmentHeld),
   (x.action == .close && (closeBars c x.device).2, .caseOnPath),
   (decide (Config.orders ≤ c.orders.length), .orderQueueFull),
   ((orderOf c x.device).isSome, .deviceOrderInFlight)]

/-- OPERATE past the common conditions (R159, R161). -/
def operate (env : Env) (q : Port) (tag : Byte) (x : OperateRequest) (e : Ev) : Ev × Answer :=
  reading (operateReads e.toCore x)
    (unlessEv (operateConditions e.toCore q x)
      (fun e =>
        let e := queueOrder env x.device x.action .manual (.port q tag) e
        (e, .now .accepted (.orderNumber e.orderNumber)))) e

/-- OPERATE: kind 0x26 (R159). An action of QUERY is malformed. -/
def execOperate (q : Port) (tag : Byte) (body : Body OperateRequest) (s : State) :
    Host.Outcome State Fault Refusal :=
  answer q 0x26 tag
    (onBody body fun x p =>
      if x.action = .query then (p, plain .malformed)
      else deviceClaim x.device (operateBars p q) (operate (envOf p) q tag x) p) s

/-! ### Holds -/

/-- The hold on a segment. -/
def holdOf (c : Core) (n : Nat) : Option Hold := (c.holds[n]?).join

/-- The devices of the CLOSE orders in a state that a WORK hold on a segment would bar (R165). -/
def closesBarredBy (c : Core) (state : OrderState) (s : Nat) : List Nat :=
  ((c.orders.filter fun o => o.action == .close && o.state == state).map (·.device)).filter fun d =>
    match entryAt c.devices d with
    | some v => barredBy c.segments v s
    | none => false

/-- Whether a present hold stands in the way of a SET_HOLD (R164). -/
def holdRefuses (h : Option Hold) (q : Port) (conditional : Bool) : Bool :=
  match h with
  | none => false
  | some h => h.holder != q || conditional

/-- The reply of a refused SET_HOLD, with what it carries (R164, R165). -/
def holdReply (c : Core) (n : Nat) (code : ReplyCode) : Answer :=
  match code with
  | .segmentHeld =>
    match holdOf c n with
    | some h => .now code (.presentHold h)
    | none => plain code
  | .closeInFlight =>
    match lowest (closesBarredBy c .sent n) with
    | some d => .now code (.deviceNumber d)
    | none => plain code
  | _ => plain code

/-- The effects of an accepted SET_HOLD, in their order (R165, R166). The withdrawals are announced after them
all (log 44). -/
def applyHold (q : Port) (x : HoldRequest) (e : Ev) : Ev :=
  let e := match x.kind with
    | .work => withdrawEach .workHold (closesBarredBy e.toCore .queued x.segment) e
    | .mute => e
  let h : Hold := { kind := x.kind, holder := q, label := x.label }
  freeWatchOn x.segment { e with holds := e.holds.set x.segment (some h) }

/-- The conditions of R164 and R165. -/
def holdConditions (c : Core) (q : Port) (x : HoldRequest) : List Condition :=
  [(holdRefuses (holdOf c x.segment) q x.conditional, .segmentHeld),
   (x.kind == .work && !(closesBarredBy c .sent x.segment).isEmpty, .closeInFlight)]

/-- SET_HOLD past the common conditions (R164 to R166). A WORK hold reads what the bars on the CLOSE orders
need, and an accepted hold the case table for the WATCH cases it frees (log 6). -/
def setHold (q : Port) (x : HoldRequest) (e : Ev) : Ev × Answer :=
  reading (match x.kind with
      | .work => closeReads e.toCore
      | .mute => [])
    (fun e =>
      match select (holdConditions e.toCore q x) with
      | some code => (e, holdReply e.toCore x.segment code)
      | none =>
        reading (allRefs e.toCore .case)
          (fun e => (applyHold q x e, plain .accepted)) e) e

/-- SET_HOLD: kind 0x27 (R164). -/
def execSetHold (q : Port) (tag : Byte) (body : Body HoldRequest) (s : State) :
    Host.Outcome State Fault Refusal :=
  answer q 0x27 tag
    (onBody body fun x p =>
      let inRange := decide (x.segment < Config.segments) && decide (x.label < 65536)
      viaCore (fun _ e =>
        onItem (claimConditions p inRange) inRange { table := .segment, index := x.segment }
          (fun c => (entryAt c.segments x.segment).isSome) (setHold q x) e) p) s

/-- CLEAR_HOLD past the common conditions (R167). -/
def clearHold (q : Port) (n : Nat) (e : Ev) : Ev × Answer :=
  match holdOf e.toCore n with
  | none => (e, plain .noSuchItem)
  | some h =>
    if h.holder = q then ({ e with holds := e.holds.set n none }, plain .accepted)
    else (e, .now .segmentHeld (.presentHold h))

/-- CLEAR_HOLD: kind 0x28 (R167). The segment's entry is read only when it carries no hold (R155). -/
def execClearHold (q : Port) (tag : Byte) (body : Body Nat) (s : State) :
    Host.Outcome State Fault Refusal :=
  answer q 0x28 tag
    (onBody body fun n p =>
      let inRange := decide (n < Config.segments)
      let cs := claimConditions p inRange
      viaCore (fun _ e =>
        match holdOf e.toCore n with
        | some _ => unlessEv cs (clearHold q n) e
        | none =>
          onItem cs inRange { table := .segment, index := n }
            (fun c => (entryAt c.segments n).isSome) (clearHold q n) e) p) s

/-! ### READ_CLAIMS -/

/-- The items of a list that are present, with their places. -/
def present {α : Type} (l : List (Option α)) : List (Nat × α) :=
  (mapFrom (fun n x => x.map fun y => (n, y)) 0 l).filterMap id

/-- READ_CLAIMS: kind 0x29 (R168), served while RECOVERING. -/
def execReadClaims (q : Port) (tag : Byte) (body : Body Unit) (s : State) :
    Host.Outcome State Fault Refusal :=
  answer q 0x29 tag
    (onBody body fun _ p =>
      unless_ [(isHalted p, .wrongMode)]
        (fun p =>
          (p, .now .accepted (.claims (present p.core.reservations) (present p.core.holds)))) p) s

end Sys2Proof.Machine
end

