-- ==== Sys2Proof/Machine/CounterCommands.lean ====
section
/-! DEFINITION. READ_FAULT_RECORD (R181), the commands on the counters (R204 to R207) and the occupancy
sample (R203). -/

namespace Sys2Proof.Machine

/-! ### READ_FAULT_RECORD -/

/-- What READ_FAULT_RECORD carries (R181). -/
def faultBody (c : Core) : ReplyBody := .faultRecord c.record c.window c.recovery.recovering c.mode

/-- The record and the window are emptied (R170, R171). -/
def emptyRecord (p : Part) : Part :=
  { p with core := { p.core with record := FaultRecord.empty, window := [] } }

/-- READ_FAULT_RECORD: kind 0x2C (R181), served in every mode. -/
def execReadFaultRecord (q : Port) (tag : Byte) (body : Body Bool) (s : State) :
    Host.Outcome State Fault Refusal :=
  answer q 0x2C tag
    (onBody body fun clear p =>
      unless_ [(q == .b && clear, .notPermitted)]
        (fun p =>
          (if clear then emptyRecord p else p, .now .accepted (faultBody p.core))) p) s

/-! ### Counters -/

/-- Whether a scope's number lies in its range (R200). -/
def scopeInRange : Scope → Bool
  | .all => true
  | .segment n => decide (n < Config.segments)
  | .sensor a => sensorAddress a
  | .device n => decide (n < Config.devices)

/-- Whether a select may be scoped by a segment (R201). -/
def bySegment : EventSelect → Bool
  | .evidenceAdmitted => true
  | .evidenceMasked => true
  | .evidenceConfirming => true
  | .casesOpened => true
  | .casesConfirmed => true
  | .casesClosedUnconfirmed => true
  | .casesRefused => true
  | .isolationTime => true
  | _ => false

/-- Whether a select may be scoped by a sensor (R201). -/
def bySensor : EventSelect → Bool
  | .reportsTaken => true
  | .reportsDiscarded => true
  | .evidenceAdmitted => true
  | .evidenceMasked => true
  | _ => false

/-- Whether a select may be scoped by a device (R201). -/
def byDevice : EventSelect → Bool
  | .ordersSent => true
  | .orderRetries => true
  | .ordersFailed => true
  | _ => false

/-- Whether a scope is allowed for a select (R201). -/
def scopeAllowed (select : EventSelect) : Scope → Bool
  | .all => true
  | .segment _ => bySegment select
  | .sensor _ => bySensor select
  | .device _ => byDevice select

/-- The conditions of R204 for the two commands that change a counter. -/
def counterConditions (p : Part) (q : Port) (n : Nat) : List Condition :=
  [(!decide (n < Config.counters), .outOfRange), (ownerOf n != q, .notPermitted),
   (isHalted p, .wrongMode)]

/-- A counter is changed. -/
def setCounter (n : Nat) (f : Counter → Counter) (p : Part) : Part :=
  match p.counters[n]? with
  | some c => { p with counters := p.counters.set n (f c) }
  | none => p

/-- A counter as PROGRAM_COUNTER leaves it (R205). -/
def programmed (x : CounterProgram) : Counter :=
  { select := x.select, scope := x.scope, value := 0, overflow := false, notify := x.notify }

/-- PROGRAM_COUNTER: kind 0x30 (R205). -/
def execProgramCounter (q : Port) (tag : Byte) (body : Body CounterProgram) (s : State) :
    Host.Outcome State Fault Refusal :=
  answer q 0x30 tag
    (onBody body fun x p =>
      unless_ ((!scopeInRange x.scope, .outOfRange) :: (!scopeAllowed x.select x.scope, .outOfRange)
          :: counterConditions p q x.number)
        (fun p => (setCounter x.number (fun _ => programmed x) p, plain .accepted)) p) s

/-- CLEAR_COUNTER: kind 0x31 (R206). -/
def execClearCounter (q : Port) (tag : Byte) (body : Body Nat) (s : State) :
    Host.Outcome State Fault Refusal :=
  answer q 0x31 tag
    (onBody body fun n p =>
      unless_ (counterConditions p q n)
        (fun p => (setCounter n (fun c => { c with value := 0, overflow := false }) p,
          plain .accepted)) p) s

/-- The counters of a range, with their numbers (R207). -/
def countersIn (l : List Counter) (x : ReadRange) : List (Nat × Counter) :=
  ((mapFrom (fun n c => (n, c)) 0 l).drop x.first).take x.count

/-- READ_COUNTERS: kind 0x32 (R207). A count of 0 or above 16, for which R204 names no reply, is answered REFUSED
out-of-range (log 54). -/
def execReadCounters (q : Port) (tag : Byte) (body : Body ReadRange) (s : State) :
    Host.Outcome State Fault Refusal :=
  answer q 0x32 tag
    (onBody body fun x p =>
      unless_
        [(!(decide (x.first < Config.counters) && decide (1 ≤ x.count) && decide (x.count ≤ 16)),
          .outOfRange),
         (q == .b && p.inForce.options.bReadCountersOnly && decide (x.first < 8), .notPermitted),
         (isHalted p, .wrongMode)]
        (fun p => (p, .now .accepted (.counters (countersIn p.counters x)))) p) s

/-! ### The occupancy sample -/

/-- The two occurrences of a sample (R203). -/
def sampleOccupancy (e : Ev) : Ev :=
  countAll .caseTableOccupancy (Config.cases - (caseCounts e.toCore).free : Nat)
    (countAll .orderQueueOccupancy e.orders.length e)

/-- OCCUPANCY_SAMPLE: each 10 ms of elapsed time (R203). -/
def execOccupancySample (s : State) : Host.Outcome State Fault Refusal :=
  act (fun p =>
    if blocksRun p && decide (p.nextSample ≤ p.core.time.elapsed) then
      runEvent (fun _ e => sampleOccupancy e) { p with nextSample := p.nextSample + Config.samplePeriod }
    else p) s

end Sys2Proof.Machine
end

