-- ==== Sys2Proof/Machine/LinkEvents.lean ====
section
/-! DEFINITION. The events of the device link (R130, R135, R137, R140, R144, R146, R148) and of the
Integrity Monitor (R171, R174, R175). -/

namespace Sys2Proof.Machine

/-! ### The device link -/

/-- Characters on the device link pass its receiver, and each good frame it hands on is taken in an event of
its own (R130, R184). -/
def deviceLine (chars : List RxChar) (p : Part) : Part :=
  let x := receiveChars p.core.time.elapsed p.core.deviceRx chars
  x.2.foldl (fun p f => runEvent (fun env e => takeDeviceFrame env f e) p)
    { p with core := { p.core with deviceRx := x.1 } }

/-- ORDER_REPLY: characters on the device link (R130, R137). -/
def execOrderReply (chars : List RxChar) (s : State) : Host.Outcome State Fault Refusal :=
  act (fun p => if blocksRun p then deviceLine chars p else p) s

/-- STATE_REPORT: characters on the device link (R130, R144). -/
def execStateReport (chars : List RxChar) (s : State) : Host.Outcome State Fault Refusal :=
  act (fun p => if blocksRun p then deviceLine chars p else p) s

/-- DEVICE_TRANSMIT_END (R135). A frame that a restart has found in progress ends in start-up too. -/
def execDeviceTransmitEnd (s : State) : Host.Outcome State Fault Refusal :=
  act (fun p =>
    if blocksRun p then runEvent transmitEnd p
    else { p with core := { p.core with linkTx := none } }) s

/-- REPLY_DEADLINE_EXPIRY (R140). -/
def execReplyDeadlineExpiry (device : Nat) (s : State) : Host.Outcome State Fault Refusal :=
  happen (fun env e => replyDeadline env device e) s

/-- SETTLE_EXPIRY (R146). -/
def execSettleExpiry (device : Nat) (s : State) : Host.Outcome State Fault Refusal :=
  happen (fun _ e => settleExpired device e) s

/-- POLL_DUE (R148). -/
def execPollDue (device : Nat) (s : State) : Host.Outcome State Fault Refusal :=
  happen (fun env e => pollFallsDue env device e) s

/-! ### The Integrity Monitor -/

/-- RECOVERY_SWEEP_STEP (R175). `writesOk` says whether the entries a reload writes verify (R176). -/
def execRecoverySweepStep (writesOk : Bool) (s : State) : Host.Outcome State Fault Refusal :=
  act (fun p =>
    if blocksRun p then runEvent (fun env e => sweepStep env p.save.isSome writesOk e) p else p) s

/-- HELD_WINDOW_EXPIRY (R85, R174). -/
def execHeldWindowExpiry (entry : Nat) (s : State) : Host.Outcome State Fault Refusal :=
  happen (fun _ e => heldWindow entry e) s

/-- HELD_AUTHORITY_MOVE (R112, R174). -/
def execHeldAuthorityMove (s : State) : Host.Outcome State Fault Refusal := happen heldAuthority s

/-- HELD_ISOLATION_LATE_NOTICE (R126, R174). -/
def execHeldIsolationLateNotice (entry : Nat) (s : State) : Host.Outcome State Fault Refusal :=
  happen (fun env e => heldLate env entry e) s

/-- HELD_ROOM_LIST_JUDGING (R128, R174). -/
def execHeldRoomListJudging (s : State) : Host.Outcome State Fault Refusal :=
  happen (fun _ e => heldRoom e) s

/-- HELD_POLL_REQUEST (R148, R174). -/
def execHeldPollRequest (s : State) : Host.Outcome State Fault Refusal := happen heldPolls s

/-- FAULT_WINDOW_EXPIRY (R171). -/
def execFaultWindowExpiry (s : State) : Host.Outcome State Fault Refusal :=
  happen (fun _ e => expireFaults e) s

end Sys2Proof.Machine
end

