-- ==== Sys2Proof/Machine/PlanCommands.lean ====
section
/-! DEFINITION. The commands on the plan store (R104 to R106). -/

namespace Sys2Proof.Machine

/-- The entries of the cases whose walks IS holds. -/
def walkedCases (c : Core) : List Nat := c.walks.map (·.entry)

/-- Whether a plan is the plan in use of a case whose walk IS holds (R104). -/
def planHeld (c : Core) (n : Nat) : Bool :=
  (walkedCases c).any fun i =>
    match entryAt c.cases i with
    | some k =>
      match k.isolation with
      | some r => r.plan == some n
      | none => false
    | none => false

/-- The reads of a plan edit. -/
def planReads (c : Core) (n : Nat) : List Ref :=
  { table := .plan, index := n } :: refs .case (walkedCases c)

/-- The steps of a plan entry as it stands. -/
def stepsAt (c : Core) (n : Nat) : Nat :=
  match entryAt c.plans n with
  | some p => p.steps.length
  | none => 0

/-- The pool's count of step entries in use, less those of a plan's entry (R104, R105). -/
def stepsBeside (c : Core) (n : Nat) : Nat := c.stepsInUse - stepsAt c n

/-- DEFINE_PLAN past the common conditions (R104). The pool's count is held beside the entries and adjusted by the
difference, so that no other plan is read for it. -/
def definePlan (x : PlanEdit) (e : Ev) : Ev × Answer :=
  reading (planReads e.toCore x.number)
    (fun e =>
      let total := stepsBeside e.toCore x.number + x.steps.length
      unlessEv [(planHeld e.toCore x.number, .inUse), (decide (Config.stepPool < total), .planStoreFull)]
        (fun e =>
          let v : Plan := { segment := x.segment, steps := x.steps, fallback := x.fallback }
          ({ e with plans := putAt e.plans x.number (some v), stepsInUse := total }, plain .accepted)) e) e

/-- The numbered fields of a DEFINE_PLAN lie in their ranges (R104). -/
def planInRange (x : PlanEdit) : Bool :=
  decide (x.number < Config.plans) && decide (x.segment < Config.segments)
    && x.steps.all (fun d => decide (d < Config.devices)) && optBelow x.fallback Config.plans

/-- Whether a step list is of the length R104 allows. -/
def stepsWellFormed (l : List Nat) : Bool := decide (1 ≤ l.length) && decide (l.length ≤ Config.planSteps)

/-- DEFINE_PLAN: kind 0x20 (R104). -/
def execDefinePlan (q : Port) (tag : Byte) (body : Body PlanEdit) (s : State) :
    Host.Outcome State Fault Refusal :=
  answer q 0x20 tag
    (onBody body fun x p =>
      unless_ ((!stepsWellFormed x.steps, .malformed) :: editConditions p q (planInRange x))
        (viaCore fun _ e => definePlan x e) p) s

/-- DELETE_PLAN past the common conditions (R105). -/
def deletePlan (n : Nat) (e : Ev) : Ev × Answer :=
  reading (planReads e.toCore n)
    (fun e =>
      unlessEv [((entryAt e.plans n).isNone, .noSuchItem), (planHeld e.toCore n, .inUse)]
        (fun e =>
          ({ e with plans := putAt e.plans n none, stepsInUse := stepsBeside e.toCore n },
            plain .accepted)) e) e

/-- DELETE_PLAN: kind 0x21 (R105). -/
def execDeletePlan (q : Port) (tag : Byte) (body : Body Nat) (s : State) :
    Host.Outcome State Fault Refusal :=
  answer q 0x21 tag
    (onBody body fun n p =>
      unless_ (editConditions p q (decide (n < Config.plans))) (viaCore fun _ e => deletePlan n e) p) s

/-- READ_PLANS past its conditions (R106). -/
def readPlans (x : ReadRange) (e : Ev) : Ev × Answer :=
  reading (refs .plan (numbersFrom e.plans x.first))
    (fun e =>
      let r := upTo x.count (entriesFrom e.plans x.first)
      (e, .now .accepted (.plans e.stepsInUse r.1 r.2))) e

/-- READ_PLANS: kind 0x22 (R106). -/
def execReadPlans (q : Port) (tag : Byte) (body : Body ReadRange) (s : State) :
    Host.Outcome State Fault Refusal :=
  answer q 0x22 tag
    (onBody body fun x p =>
      unless_ (readConditions p (rangeOk x 0 Config.plans 16)) (viaCore fun _ e => readPlans x e) p) s

end Sys2Proof.Machine
end

