-- ==== Sys2Proof/Machine/PortCommands.lean ====
section
/-! DEFINITION. The port-level commands (R193, R196 to R199) and the events of a port's line (R184 to R186,
R194). -/

namespace Sys2Proof.Machine

/-! ### IDENTIFY, GET_STATUS -/

/-- IDENTIFY (R196). -/
def identify (p : Part) : Part × Answer :=
  (p, .now .accepted (.identity "Ermija" "LW2240" Config.stepCode p.inForce p.core.mode))

/-- IDENTIFY: kind 0x01 (R217). -/
def execIdentify (q : Port) (tag : Byte) (body : Body Unit) (s : State) :
    Host.Outcome State Fault Refusal :=
  answer q 0x01 tag (onBody body fun _ => identify) s

/-- The status a port is told (R197). -/
def statusFor (q : Port) (p : Part) : Status :=
  let ps := portOf q p
  { mode := p.core.mode, recovering := p.core.recovery.recovering, saving := p.save.isSome
    lock := p.core.time.lock, portAAbsent := p.core.supervision.absent, counts := caseCounts p.core
    orders := p.core.orders.length
    ordersSent := (p.core.orders.filter fun o => o.state == .sent).length
    intake := p.core.intake.length
    notices := ps.notices.length, lostPending := ps.lostPending, masks := ps.categories.map (·.mask)
    latches := ps.categories.map (·.latch), overrun := ps.overrun }

/-- GET_STATUS: kind 0x02 (R197). -/
def execGetStatus (q : Port) (tag : Byte) (body : Body Unit) (s : State) :
    Host.Outcome State Fault Refusal :=
  answer q 0x02 tag (onBody body fun _ p => (p, .now .accepted (.status (statusFor q p)))) s

/-! ### RESET_PORT -/

/-- How many reservations a port holds. -/
def reservedBy (q : Port) (l : List (Option Port)) : Nat := l.count (some q)

/-- A port's reservations are released (R158). -/
def releaseAll (q : Port) (l : List (Option Port)) : List (Option Port) :=
  l.map fun r => if r = some q then none else r

/-- Steps 1 and 2 of R198. -/
def resetNotices (p : PortState) : PortState :=
  { p with notices := [], lostPending := false, sequence := 0
           categories := List.replicate 8 { mask := false, latch := false, withheld := 0 }, overrun := 0 }

/-- RESET_PORT past its conditions (R198). What its frame's arrival has raised on the port is emptied with the queue
(log 56). -/
def resetPort (q : Port) (p : Part) : Part × Answer :=
  let released := reservedBy q p.core.reservations
  let p := setPort q resetNotices p
  let p := { p with core := { p.core with reservations := releaseAll q p.core.reservations } }
  (offerTo (.only (otherPort q)) (.portReset q released p.core.time.now) p, plain .accepted)

/-- RESET_PORT: kind 0x03 (R198). -/
def execResetPort (q : Port) (tag : Byte) (body : Body Unit) (s : State) :
    Host.Outcome State Fault Refusal :=
  answer q 0x03 tag (onBody body fun _ p => unless_ [(isHalted p, .wrongMode)] (resetPort q) p) s

/-! ### RESTART -/

/-- RESTART: kind 0x04 (R199). -/
def execRestart (q : Port) (tag : Byte) (body : Body Unit) (s : State) :
    Host.Outcome State Fault Refusal :=
  answer q 0x04 tag
    (onBody body fun _ => unless_ [(q == .b, .notPermitted)] fun p =>
      ({ p with run := .restartTaken }, plain .accepted)) s

/-! ### SET_NOTICE_MASK -/

/-- A category and its state under a port's new set of masks (R193). -/
def remask (masked : List Category) (c : Category) (x : CategoryState) : CategoryState :=
  if c ∈ masked then { x with mask := true }
  else if x.mask then { mask := false, latch := false, withheld := 0 } else x

/-- The SUMMARY notice of a category that a command unmasks with its latch set (R193). -/
def summaryOf (masked : List Category) (c : Category) (x : CategoryState) : List Notice :=
  if c ∉ masked ∧ x.mask = true ∧ x.latch = true then [.summary c x.withheld] else []

/-- The eight categories, in the order of R192. -/
def categories : List Category := [.case, .device, .order, .sensor, .time, .counter, .fault, .port]

/-- SET_NOTICE_MASK past its conditions (R193). -/
def setMasks (q : Port) (masked : List Category) (p : Part) : Part × Answer :=
  let old := (portOf q p).categories
  let new := List.zipWith (remask masked) categories old
  let summaries := (List.zipWith (summaryOf masked) categories old).flatten
  let p := setPort q (fun s =>
    summaries.foldl (fun s n => joinNotices n s) { s with categories := new }) p
  (p, .now .accepted (.masks new))

/-- SET_NOTICE_MASK: kind 0x05 (R193). -/
def execSetNoticeMask (q : Port) (tag : Byte) (body : Body (List Nat)) (s : State) :
    Host.Outcome State Fault Refusal :=
  answer q 0x05 tag
    (onBody body fun codes p =>
      unless_ [(codes.any fun c => (maskable c).isNone, .malformed), (isHalted p, .wrongMode)]
        (setMasks q (codes.filterMap maskable)) p) s

/-! ### Frames that are no commands -/

/-- A command of a kind that names none (R185). -/
def execUnknownKindCommand (q : Port) (tag : Byte) (kind : Byte) (s : State) :
    Host.Outcome State Fault Refusal :=
  answer q kind.toNat tag (fun p => (p, plain .unknownKind)) s

/-- A good frame of kind 0x80 to 0xFF (R185, R194): discarded, but heard, while the part takes frames. -/
def execNonCommandFrame (q : Port) (_kind : Byte) (s : State) : Host.Outcome State Fault Refusal :=
  act (fun p =>
    match p.run with
    | .running => hearFrame q true p
    | _ => p) s

/-! ### The receiver and the transmitter -/

/-- A frame in progress is abandoned when 20 ms have passed since its latest character (R184). -/
def abandonFrame (now : Nat) (x : PortState) : PortState :=
  match x.rx with
  | .hunt => x
  | .frame _ last => if Config.characterGap ≤ now - last then { x with rx := .hunt } else x

/-- INTER_CHARACTER_TIMEOUT (R184). -/
def execInterCharacterTimeout (q : Port) (s : State) : Host.Outcome State Fault Refusal :=
  act (fun p => setPort q (abandonFrame p.core.time.elapsed) p) s

/-- Whether a frame is the reply of an accepted RESTART (R199). -/
def isRestartReply (f : PortFrame) : Bool :=
  match f with
  | .reply r => r.kind == 0x84 && r.code == .accepted
  | .notice .. => false

/-- The frame a port sends ends. The end of the RESTART reply makes the restart due (R186, R199). -/
def endFrame (q : Port) (p : Part) : Part :=
  match (portOf q p).tx with
  | none => p
  | some f =>
    let p := setPort q (fun s => { s with tx := none }) p
    match p.run with
    | .restartTaken => if isRestartReply f then { p with run := .restartDue } else p
    | _ => p

/-- PORT_TRANSMIT_END (R186). -/
def execPortTransmitEnd (q : Port) (s : State) : Host.Outcome State Fault Refusal :=
  act (endFrame q) s

/-- PORT_A_ABSENT (R194). -/
def execPortAAbsent (s : State) : Host.Outcome State Fault Refusal :=
  happen judgeAbsence s

end Sys2Proof.Machine
end

