-- ==== Sys2Proof/Machine/StartUp.lean ====
section
/-! DEFINITION. Power-on, RESTART and start-up (R20, R199, R215). -/

namespace Sys2Proof.Machine

/-! ### Power-on -/

/-- A save cut short leaves an image whose code does not match (R212), its content left as it was (log 18). -/
def cutSave (p : Part) : Part :=
  match p.save with
  | none => p
  | some _ => { p with save := none, store := { p.store with codeMatches := false } }

/-- A burn cut short leaves the record unburned (R214). -/
def cutBurn (p : Part) : Part :=
  if p.burning then { p with burning := false, options := { burned := false, options := clearOptions } }
  else p

/-- RESET_IN is asserted: IN_SERVICE falls, the ports take no commands, a save or burn is cut short, and
what power-on alone clears is cleared (R20, R170, R189, R200; log 19). -/
def powerOn (p : Part) : Part :=
  let p := cutBurn (cutSave p)
  { p with
    run := .resetAsserted
    staged := none
    portA := PortState.powerOn
    portB := PortState.powerOn
    counters := List.replicate Config.counters Counter.clear
    core := { p.core with record := FaultRecord.empty, window := [], linkTx := none } }

/-- POWER_ON. -/
def execPowerOn (s : State) : Host.Outcome State Fault Refusal := act powerOn s

/-! ### Start-up (R215) -/

/-- A device entry loaded from the image (R129). -/
def loadDevice (d : DeviceDef) : Device :=
  { link := d.link, kind := d.kind, segment := d.segment, run := DeviceRun.powerOn }

/-- The settings loaded from the image, AUTO only where AUTO_PERMITTED allows it (R109, R215). -/
def loadSettings (o : Options) (s : Settings) : Settings :=
  if s.authority = 1 ∧ o.autoPermitted = false then { s with authority := 0 } else s

/-- The tables of start-up: the image's, or empty when the mark is INVALID (R215 step 2). -/
def loadTables (st : Store) (c : Core) : Core :=
  if st.valid then
    { c with
      segments := writeTable st.image.segments
      roster := writeTable (st.image.roster.map fun b => b.map fun b => newSensor b 0)
      devices := writeTable (st.image.devices.map fun d => d.map loadDevice)
      plans := writeTable st.image.plans
      stepsInUse := stepsUsed (writeTable st.image.plans) }
  else
    { c with
      segments := emptyTable Segment Config.segments
      roster := emptyTable Sensor Config.rosterPlaces
      devices := emptyTable Device Config.devices
      plans := emptyTable Plan Config.plans
      stepsInUse := 0 }

/-- The state that start-up clears (R215 step 3): the fault record, the elapsed count and a frame on the
device link are all that is kept. -/
def clearedCore (c : Core) : Core :=
  { Core.reset with
    record := c.record
    linkTx := c.linkTx
    time := { Core.reset.time with elapsed := c.time.elapsed }
    supervision := { absent := false, lastGood := c.time.elapsed } }

/-- The mode start-up chooses (R215 step 4). -/
def startMode (o : Options) (valid : Bool) (c : Core) : Mode :=
  if o.quietStart || !valid then .configuring
  else if (validation c).isNone then .monitoring else .configuring

/-- Steps 2 to 4 of R215, once no save is in progress. -/
def startedPart (p : Part) : Part :=
  let valid := p.store.valid && p.store.codeMatches
  let store := { p.store with valid := valid }
  let core := loadTables store (clearedCore p.core)
  { p with
    store := store
    settings := if valid then loadSettings p.inForce.options p.store.image.settings else Settings.default
    core := { core with mode := startMode p.inForce.options valid core }
    staged := none
    nextSample := p.core.time.elapsed + Config.samplePeriod
    run := .running }

/-- Steps 2 to 4 of R215 and the end of start-up: in MONITORING every device is due for polling, and is polled
(R147, R148), the sends counted and no notice raised (log 50). -/
def finishStart (p : Part) : Part := runQuiet (fun _ e => beginPolling e) (startedPart p)

/-- Step 1 of R215 once no burn is in progress, and the wait of step 2. -/
def startStore (p : Part) : Part :=
  let p := { p with inForce := p.options }
  if p.save.isSome then { p with run := .startingUp .save } else finishStart p

/-- Start-up begins (R215). -/
def beginStart (p : Part) : Part :=
  if p.burning then { p with run := .startingUp .burn } else startStore p

/-- START_UP: RESET_IN is released. -/
def execStartUp (s : State) : Host.Outcome State Fault Refusal :=
  act (fun p =>
    match p.run with
    | .resetAsserted => beginStart p
    | _ => p) s

/-! ### RESTART -/

/-- What the start of a restart does to a port (R199). A frame being sent is sent whole (R186). -/
def restartPort (s : PortState) : PortState := { PortState.powerOn with tx := s.tx }

/-- A restart begins, and start-up with it (R199, R215). -/
def beginRestart (p : Part) : Part :=
  beginStart { p with
    portA := restartPort p.portA
    portB := restartPort p.portB
    core := { p.core with supervision := { p.core.supervision with absent := false } } }

/-- RESTART_BEGIN: once the RESTART reply has been transmitted. -/
def execRestartBegin (s : State) : Host.Outcome State Fault Refusal :=
  act (fun p =>
    match p.run with
    | .restartDue => beginRestart p
    | _ => p) s

end Sys2Proof.Machine
end

