-- ==== Sys2Proof/Machine/StoreCommands.lean ====
section
/-! DEFINITION. The commands on settings (R209, R210), the retained store (R212) and the options (R213,
R214), with the completions of a save and of a burn. -/

namespace Sys2Proof.Machine

/-! ### The settings by group and index (R208) -/

/-- The settings of R208, in the order of their groups and indexes. -/
inductive SettingId where
  | deadLevel | liveLevel | stepLevel | leakageLevel | alignWindow | watchWindow | arcPersistence
  | arcSpread | staleLimit | weightTailDead | weightHeadCurrentDrop | weightHeadLive | weightArcBursts
  | weightGroundCurrent | weightTailRestored | authority | isolationDeadline | replyTimeout | retryLimit
  | settleInterval | pollInterval | silenceInterval | supervisionInterval
deriving DecidableEq, Repr

/-- The setting a group and index name. -/
def settingId (group index : Nat) : Option SettingId :=
  match group, index with
  | 1, 0 => some .deadLevel
  | 1, 1 => some .liveLevel
  | 1, 2 => some .stepLevel
  | 1, 3 => some .leakageLevel
  | 1, 4 => some .alignWindow
  | 1, 5 => some .watchWindow
  | 1, 6 => some .arcPersistence
  | 1, 7 => some .arcSpread
  | 1, 8 => some .staleLimit
  | 1, 9 => some .weightTailDead
  | 1, 10 => some .weightHeadCurrentDrop
  | 1, 11 => some .weightHeadLive
  | 1, 12 => some .weightArcBursts
  | 1, 13 => some .weightGroundCurrent
  | 1, 14 => some .weightTailRestored
  | 2, 0 => some .authority
  | 2, 1 => some .isolationDeadline
  | 3, 0 => some .replyTimeout
  | 3, 1 => some .retryLimit
  | 3, 2 => some .settleInterval
  | 3, 3 => some .pollInterval
  | 4, 0 => some .silenceInterval
  | 5, 0 => some .supervisionInterval
  | _, _ => none

/-- A setting's range, low and high (R208). -/
def SettingId.range : SettingId → Nat × Nat
  | .deadLevel => (0, 1000)
  | .liveLevel => (0, 1000)
  | .stepLevel => (1, 500)
  | .leakageLevel => (1, 500)
  | .alignWindow => (10, 1000)
  | .watchWindow => (500, 30000)
  | .arcPersistence => (2, 32)
  | .arcSpread => (0, 10000)
  | .staleLimit => (100, 10000)
  | .weightTailDead => (0, 255)
  | .weightHeadCurrentDrop => (0, 255)
  | .weightHeadLive => (0, 255)
  | .weightArcBursts => (0, 255)
  | .weightGroundCurrent => (0, 255)
  | .weightTailRestored => (0, 255)
  | .authority => (0, 1)
  | .isolationDeadline => (200, 10000)
  | .replyTimeout => (50, 2000)
  | .retryLimit => (0, 3)
  | .settleInterval => (0, 10000)
  | .pollInterval => (1, 60)
  | .silenceInterval => (5, 600)
  | .supervisionInterval => (2, 120)

/-- A setting's value. -/
def SettingId.get (i : SettingId) (s : Settings) : Nat :=
  match i with
  | .deadLevel => s.deadLevel
  | .liveLevel => s.liveLevel
  | .stepLevel => s.stepLevel
  | .leakageLevel => s.leakageLevel
  | .alignWindow => s.alignWindow
  | .watchWindow => s.watchWindow
  | .arcPersistence => s.arcPersistence
  | .arcSpread => s.arcSpread
  | .staleLimit => s.staleLimit
  | .weightTailDead => s.weightTailDead
  | .weightHeadCurrentDrop => s.weightHeadCurrentDrop
  | .weightHeadLive => s.weightHeadLive
  | .weightArcBursts => s.weightArcBursts
  | .weightGroundCurrent => s.weightGroundCurrent
  | .weightTailRestored => s.weightTailRestored
  | .authority => s.authority
  | .isolationDeadline => s.isolationDeadline
  | .replyTimeout => s.replyTimeout
  | .retryLimit => s.retryLimit
  | .settleInterval => s.settleInterval
  | .pollInterval => s.pollInterval
  | .silenceInterval => s.silenceInterval
  | .supervisionInterval => s.supervisionInterval

/-- A setting takes a value. -/
def SettingId.put (i : SettingId) (v : Nat) (s : Settings) : Settings :=
  match i with
  | .deadLevel => { s with deadLevel := v }
  | .liveLevel => { s with liveLevel := v }
  | .stepLevel => { s with stepLevel := v }
  | .leakageLevel => { s with leakageLevel := v }
  | .alignWindow => { s with alignWindow := v }
  | .watchWindow => { s with watchWindow := v }
  | .arcPersistence => { s with arcPersistence := v }
  | .arcSpread => { s with arcSpread := v }
  | .staleLimit => { s with staleLimit := v }
  | .weightTailDead => { s with weightTailDead := v }
  | .weightHeadCurrentDrop => { s with weightHeadCurrentDrop := v }
  | .weightHeadLive => { s with weightHeadLive := v }
  | .weightArcBursts => { s with weightArcBursts := v }
  | .weightGroundCurrent => { s with weightGroundCurrent := v }
  | .weightTailRestored => { s with weightTailRestored := v }
  | .authority => { s with authority := v }
  | .isolationDeadline => { s with isolationDeadline := v }
  | .replyTimeout => { s with replyTimeout := v }
  | .retryLimit => { s with retryLimit := v }
  | .settleInterval => { s with settleInterval := v }
  | .pollInterval => { s with pollInterval := v }
  | .silenceInterval => { s with silenceInterval := v }
  | .supervisionInterval => { s with supervisionInterval := v }

/-! ### READ_SETTING, WRITE_SETTING -/

/-- What READ_SETTING carries (R209). -/
def settingBody (i : SettingId) (s : Settings) : ReplyBody :=
  .setting (i.get s) i.range.1 i.range.2 (i.get Settings.default)

/-- READ_SETTING: kind 0x34 (R209). -/
def execReadSetting (q : Port) (tag : Byte) (body : Body SettingName) (s : State) :
    Host.Outcome State Fault Refusal :=
  answer q 0x34 tag
    (onBody body fun x p =>
      match settingId x.group x.index with
      | none => (p, plain .noSuchItem)
      | some i =>
        unless_ [(isHalted p, .wrongMode)]
          (fun p => (p, .now .accepted (settingBody i p.settings))) p) s

/-- The result of a write under a mask (R210). -/
def maskedWrite (present : Nat) (value mask : BitVec 16) : Nat :=
  ((value &&& mask) ||| (BitVec.ofNat 16 present &&& ~~~mask)).toNat

/-- Whether a result lies in its setting's range, and leaves LIVE_LEVEL above DEAD_LEVEL (R210). -/
def resultInRange (i : SettingId) (v : Nat) (s : Settings) : Bool :=
  let s' := i.put v s
  decide (i.range.1 ≤ v) && decide (v ≤ i.range.2) && decide (s'.deadLevel < s'.liveLevel)

/-- The conditions of R210 for a setting and its result. -/
def writeConditions (p : Part) (q : Port) (i : SettingId) (v : Nat) : List Condition :=
  [(!resultInRange i v p.settings, .outOfRange), (q == .b, .notPermitted),
   (i == .authority && v == 1 && !p.inForce.options.autoPermitted, .notPermitted),
   (isHalted p, .wrongMode), (p.save.isSome, .saveInProgress)]

/-- Every ISOLATING case's deadline is judged, in ascending entry number: R126 gives no order, and the late notices
are sent in this one (log 53). Every case entry is read to find them; one that does not match is a fault,
after which none is judged in this event (R126, R169; log 6). -/
def judgeDeadlines (env : Env) (e : Ev) : Ev :=
  if healthy e.toCore then
    (entriesWhere e.cases fun k => k.state == .isolating).foldl (fun e n => judgeDeadline env n e)
      (faultsAt (allRefs e.toCore .case) e)
  else e

/-- The effects of a setting that has taken a new value, which is already in force (R44, R110, R126,
R194). -/
def settingEffects (i : SettingId) (env : Env) (e : Ev) : Ev :=
  match i with
  | .authority => if env.settings.authority = 1 then isolateConfirmed .authority e else e
  | .isolationDeadline => judgeDeadlines env e
  | .silenceInterval => silenceAll env e
  | .supervisionInterval => judgeAbsence env e
  | _ => e

/-- WRITE_SETTING past its conditions (R210). -/
def writeSetting (i : SettingId) (v : Nat) (p : Part) : Part × Answer :=
  let before := i.get p.settings
  let p' := { p with settings := i.put v p.settings }
  (if v = before then p else runEvent (settingEffects i) p', .now .accepted (.settingWritten before v))

/-- WRITE_SETTING: kind 0x35 (R210). -/
def execWriteSetting (q : Port) (tag : Byte) (body : Body SettingWrite) (s : State) :
    Host.Outcome State Fault Refusal :=
  answer q 0x35 tag
    (onBody body fun x p =>
      match settingId x.group x.index with
      | none => (p, plain .noSuchItem)
      | some i =>
        let v := maskedWrite (i.get p.settings) x.value x.mask
        unless_ (writeConditions p q i v) (writeSetting i v) p) s

/-! ### SAVE_CONFIGURATION -/

/-- A table's content as the image keeps it. -/
def contents {α β : Type} (f : α → β) (l : List (Checked α)) : List (Option β) :=
  l.map fun c => c.content.map f

/-- The image of the tables and settings as they stand (R211). -/
def imageOf (c : Core) (s : Settings) : Image :=
  { segments := contents id c.segments
    roster := contents (fun v => { address := v.address, segment := v.segment, side := v.side,
                                   phases := v.phases }) c.roster
    devices := contents (fun v => { link := v.link, kind := v.kind, segment := v.segment }) c.devices
    plans := contents id c.plans
    settings := s }

/-- The reads of a save (R212). -/
def saveReads (c : Core) : List Ref :=
  allRefs c .segment ++ allRefs c .roster ++ allRefs c .device ++ allRefs c .plan

/-- The conditions of SAVE_CONFIGURATION (R212). -/
def saveConditions (p : Part) (q : Port) : List Condition :=
  [(q == .b, .notPermitted), (isHalted p, .wrongMode), (p.core.recovery.recovering, .faultRecovery),
   (p.save.isSome, .saveInProgress)]

/-- A save begins, unless one of its reads finds a mismatch (R212). -/
def beginSave (p : Part) : Part × Answer :=
  match firstBad p.core (saveReads p.core) with
  | some r => (runEvent (fun _ e => faultAt r e) p, plain .faultRecovery)
  | none => ({ p with save := some (imageOf p.core p.settings) }, .later .save)

/-- SAVE_CONFIGURATION: kind 0x36 (R212). -/
def execSaveConfiguration (q : Port) (tag : Byte) (body : Body Unit) (s : State) :
    Host.Outcome State Fault Refusal :=
  answer q 0x36 tag (onBody body fun _ p => unless_ (saveConditions p q) beginSave p) s

/-! ### The options -/

/-- Whether the record is burned or a burn is in progress (R213, R214). -/
def burnedOrBurning (p : Part) : Bool := p.options.burned || p.burning

/-- STAGE_OPTIONS: kind 0x37 (R213). -/
def execStageOptions (q : Port) (tag : Byte) (body : Body Options) (s : State) :
    Host.Outcome State Fault Refusal :=
  answer q 0x37 tag
    (onBody body fun x p =>
      unless_ [(q == .b, .notPermitted), (isHalted p, .wrongMode), (burnedOrBurning p, .optionsBurned)]
        (fun p => ({ p with staged := some x }, plain .accepted)) p) s

/-- The conditions of BURN_OPTIONS (R214). -/
def burnConditions (p : Part) (q : Port) : List Condition :=
  [(q == .b, .notPermitted), (p.core.mode != .configuring, .wrongMode),
   (burnedOrBurning p, .optionsBurned), (p.staged.isNone, .nothingStaged),
   (p.save.isSome, .saveInProgress)]

/-- BURN_OPTIONS: kind 0x38 (R214). -/
def execBurnOptions (q : Port) (tag : Byte) (body : Body Unit) (s : State) :
    Host.Outcome State Fault Refusal :=
  answer q 0x38 tag
    (onBody body fun _ p =>
      unless_ (burnConditions p q) (fun p => ({ p with burning := true }, .later .burn)) p) s

/-- READ_OPTIONS: kind 0x39 (R213). -/
def execReadOptions (q : Port) (tag : Byte) (body : Body Unit) (s : State) :
    Host.Outcome State Fault Refusal :=
  answer q 0x39 tag
    (onBody body fun _ p =>
      unless_ [(isHalted p, .wrongMode)]
        (fun p => (p, .now .accepted (.options p.options p.staged p.inForce p.burning))) p) s

/-! ### Completions -/

/-- The reply that waits for an operation becomes ready (R186). -/
def readyWaiting (op : StoreOp) (code : ReplyCode) (s : PortState) : PortState :=
  match s.waiting.find? fun w => w.op == op with
  | none => s
  | some w =>
    { s with
      waiting := s.waiting.filter fun x => x.op != op
      ready := s.ready ++ [{ kind := w.kind, tag := w.tag, code := code, body := .empty }] }

/-- The reply of an operation that has completed, on whichever port asked for it. -/
def replyWaiting (op : StoreOp) (code : ReplyCode) (p : Part) : Part :=
  { p with portA := readyWaiting op code p.portA, portB := readyWaiting op code p.portB }

/-- The code of a store operation's outcome (R212, R214). -/
def storeCode (written : Bool) : ReplyCode := if written then .accepted else .storeFailure

/-- A save completes: the store and its mark, the reply, and a reload that waited for it (R175, R212). -/
def completeSave (written reloadOk : Bool) (img : Image) (p : Part) : Part :=
  let p := { p with
    save := none
    store := { image := img, codeMatches := written, valid := written } }
  let p := replyWaiting .save (storeCode written) p
  match p.run with
  | .startingUp .save => finishStart p
  | .resetAsserted => p
  | .startingUp .burn => p
  | _ => runEvent (fun env e => waitingReload env reloadOk e) p

/-- SAVE_COMPLETION (R212). -/
def execSaveCompletion (written reloadOk : Bool) (s : State) : Host.Outcome State Fault Refusal :=
  act (fun p =>
    match p.save with
    | none => p
    | some img => completeSave written reloadOk img p) s

/-- A burn completes (R214). -/
def completeBurn (written : Bool) (p : Part) : Part :=
  let p := { p with
    burning := false
    options := if written then { burned := true, options := p.staged.getD clearOptions }
      else { burned := false, options := clearOptions }
    staged := if written then none else p.staged }
  let p := replyWaiting .burn (storeCode written) p
  match p.run with
  | .startingUp .burn => startStore p
  | _ => p

/-- BURN_COMPLETION (R214). -/
def execBurnCompletion (written : Bool) (s : State) : Host.Outcome State Fault Refusal :=
  act (fun p => if p.burning then completeBurn written p else p) s

end Sys2Proof.Machine
end

