-- ==== Sys2Proof/Machine/TimeEvents.lean ====
section
/-! DEFINITION. The commands and events of the Time Base (R30 to R35) and of Report Intake and the Evidence
Unit (R37 to R44, R52). -/

namespace Sys2Proof.Machine

/-! ### The Time Base -/

/-- SET_TIME: kind 0x14 (R30). -/
def execSetTime (q : Port) (tag : Byte) (body : Body Nat) (s : State) :
    Host.Outcome State Fault Refusal :=
  answer q 0x14 tag
    (onBody body fun v p =>
      unless_ [(decide (Config.day ≤ v), .outOfRange), (uncontrolled p q, .notPermitted),
          (isHalted p, .wrongMode)]
        (viaCore fun _ e => (setTime v e, plain .accepted)) p) s

/-- What READ_TIME carries (R31). -/
def timeBody (t : TimeBase) : ReplyBody :=
  .time t.now t.lock t.good (t.lastPulse.map fun p => t.elapsed - p)

/-- READ_TIME: kind 0x15 (R31). -/
def execReadTime (q : Port) (tag : Byte) (body : Body Unit) (s : State) :
    Host.Outcome State Fault Refusal :=
  answer q 0x15 tag
    (onBody body fun _ p =>
      unless_ [(isHalted p, .wrongMode)] (fun p => (p, .now .accepted (timeBody p.core.time))) p) s

/-- Time events go on in start-up until its third step (R27), and are held back by RESET_IN alone. While start-up
waits for a save or a burn, pulse supervision that loses the lock raises no TIME notice, since start-up raises
none and leaves the queues empty (R190, R215; log 50). -/
def happenTimed (f : Ev → Ev) (s : State) : Host.Outcome State Fault Refusal :=
  act (fun p =>
    match p.run with
    | .resetAsserted => p
    | .startingUp _ => runQuiet (fun _ e => f e) p
    | _ => runEvent (fun _ e => f e) p) s

/-- TIME_PULSE (R32 to R34). -/
def execTimePulse (s : State) : Host.Outcome State Fault Refusal := happenTimed pulse s

/-- PULSE_MISSING (R35). -/
def execPulseMissing (s : State) : Host.Outcome State Fault Refusal := happenTimed missing s

/-! ### The field link and the intake queue -/

/-- Characters on the field link pass its receiver, and each good frame it hands on arrives (R37, R184). -/
def fieldLine (chars : List RxChar) (p : Part) : Part :=
  let x := receiveChars p.core.time.elapsed p.core.fieldRx chars
  x.2.foldl (fun p f => runEvent (fun _ e => arriveField f e) p)
    { p with core := { p.core with fieldRx := x.1 } }

/-- REPORT_ARRIVAL: characters on the field link (R37, R38). -/
def execReportArrival (chars : List RxChar) (s : State) : Host.Outcome State Fault Refusal :=
  act (fun p => if blocksRun p then fieldLine chars p else p) s

/-- HELLO_ARRIVAL: characters on the field link (R37, R38). -/
def execHelloArrival (chars : List RxChar) (s : State) : Host.Outcome State Fault Refusal :=
  act (fun p => if blocksRun p then fieldLine chars p else p) s

/-- REPORT_TAKING (R39, R40). -/
def execReportTaking (s : State) : Host.Outcome State Fault Refusal := happen takeReport s

/-- HELLO_TAKING (R39, R43). -/
def execHelloTaking (s : State) : Host.Outcome State Fault Refusal := happen (fun _ e => takeHello e) s

/-- SILENCE_EXPIRY (R44). -/
def execSilenceExpiry (address : Nat) (s : State) : Host.Outcome State Fault Refusal :=
  happen (fun env e => silenceExpiry env address e) s

/-- DEFERRED_SILENCE_EXPIRY (R44). -/
def execDeferredSilenceExpiry (address : Nat) (s : State) : Host.Outcome State Fault Refusal :=
  happen (fun env e => deferredSilence env address e) s

/-- EVIDENCE_ITEM_HANDLING (R52). -/
def execEvidenceItemHandling (s : State) : Host.Outcome State Fault Refusal := happen handleItem s

end Sys2Proof.Machine
end

