-- ==== Sys2Proof/Machine/PortLine.lean ====
section
/-! DEFINITION. A port's line as characters (R184, R185): the receiver runs over them, and each good frame it
hands on is the command its kind names. -/

namespace Sys2Proof.Machine

/-- What one meaning leaves goes on to the next. -/
def andThen (o : Host.Outcome State Fault Refusal) (f : State → Host.Outcome State Fault Refusal) :
    Host.Outcome State Fault Refusal :=
  match o with
  | .next t => f t
  | .fault x => .fault x
  | .refused r => .refused r

/-- The command that a frame on a port spells is carried out, by its own meaning. No frame spells an event. -/
def runFramed (i : Instr) (s : State) : Host.Outcome State Fault Refusal :=
  match i with
  | .identify q tag b => execIdentify q tag b s
  | .getStatus q tag b => execGetStatus q tag b s
  | .resetPort q tag b => execResetPort q tag b s
  | .restart q tag b => execRestart q tag b s
  | .setNoticeMask q tag b => execSetNoticeMask q tag b s
  | .setMode q tag b => execSetMode q tag b s
  | .defineSegment q tag b => execDefineSegment q tag b s
  | .deleteSegment q tag b => execDeleteSegment q tag b s
  | .readSegments q tag b => execReadSegments q tag b s
  | .bindSensor q tag b => execBindSensor q tag b s
  | .unbindSensor q tag b => execUnbindSensor q tag b s
  | .readRoster q tag b => execReadRoster q tag b s
  | .defineDevice q tag b => execDefineDevice q tag b s
  | .deleteDevice q tag b => execDeleteDevice q tag b s
  | .readDevices q tag b => execReadDevices q tag b s
  | .readDiscovery q tag b => execReadDiscovery q tag b s
  | .setTime q tag b => execSetTime q tag b s
  | .readTime q tag b => execReadTime q tag b s
  | .dismissCase q tag b => execDismissCase q tag b s
  | .closeCase q tag b => execCloseCase q tag b s
  | .isolateCase q tag b => execIsolateCase q tag b s
  | .listCases q tag b => execListCases q tag b s
  | .readCase q tag b => execReadCase q tag b s
  | .definePlan q tag b => execDefinePlan q tag b s
  | .deletePlan q tag b => execDeletePlan q tag b s
  | .readPlans q tag b => execReadPlans q tag b s
  | .reserve q tag b => execReserve q tag b s
  | .release q tag b => execRelease q tag b s
  | .operate q tag b => execOperate q tag b s
  | .setHold q tag b => execSetHold q tag b s
  | .clearHold q tag b => execClearHold q tag b s
  | .readClaims q tag b => execReadClaims q tag b s
  | .readFaultRecord q tag b => execReadFaultRecord q tag b s
  | .programCounter q tag b => execProgramCounter q tag b s
  | .clearCounter q tag b => execClearCounter q tag b s
  | .readCounters q tag b => execReadCounters q tag b s
  | .readSetting q tag b => execReadSetting q tag b s
  | .writeSetting q tag b => execWriteSetting q tag b s
  | .saveConfiguration q tag b => execSaveConfiguration q tag b s
  | .stageOptions q tag b => execStageOptions q tag b s
  | .burnOptions q tag b => execBurnOptions q tag b s
  | .readOptions q tag b => execReadOptions q tag b s
  | .unknownKindCommand q tag k => execUnknownKindCommand q tag k s
  | .nonCommandFrame q k => execNonCommandFrame q k s
  | _ => .next s

/-- The good frames that a port's receiver hands on, each carried out in its turn (R184, R185). -/
def handFrames (q : Port) : List Frame → State → Host.Outcome State Fault Refusal
  | [], s => .next s
  | f :: fs, s =>
    andThen (runFramed (portCommand q (BitVec.ofNat 8 f.kind) f.tag f.body) s) (handFrames q fs)

/-- Characters on a port's line pass its receiver, and the good frames they complete are handed on; those of a
frame that fails its check, declares too long a body or meets a framing error have no other effect (R184,
R216; log 24). -/
def portLine (q : Port) (chars : List RxChar) (s : State) : Host.Outcome State Fault Refusal :=
  let x := receiveChars s.part.core.time.elapsed (portOf q s.part).rx chars
  andThen (handFrames q x.2 s) (act (setPort q fun p => { p with rx := x.1 }))

/-- PORT_FRAME_DROPPED: characters on a port's line (R184). The receiver does not run while RESET_IN is
asserted (log 24). -/
def execPortFrameDropped (q : Port) (chars : List RxChar) (s : State) :
    Host.Outcome State Fault Refusal :=
  match s.part.run with
  | .resetAsserted => act id s
  | _ => portLine q chars s

end Sys2Proof.Machine
end

