-- ==== Sys2Proof/Machine/Dispatch.lean ====
section
/-! DEFINITION. One arm per command or event: the meaning each calls. -/

namespace Sys2Proof.Machine

/-- The effect of a command or event on everything but the waiting commands. -/
def exec (i : Instr) (s : State) : Host.Outcome State Fault Refusal :=
  match i with
  | .powerOn => Sys2Proof.Machine.execPowerOn s
  | .startUp => Sys2Proof.Machine.execStartUp s
  | .restartBegin => Sys2Proof.Machine.execRestartBegin s
  | .identify port tag body => Sys2Proof.Machine.execIdentify port tag body s
  | .getStatus port tag body => Sys2Proof.Machine.execGetStatus port tag body s
  | .resetPort port tag body => Sys2Proof.Machine.execResetPort port tag body s
  | .restart port tag body => Sys2Proof.Machine.execRestart port tag body s
  | .setNoticeMask port tag body => Sys2Proof.Machine.execSetNoticeMask port tag body s
  | .setMode port tag body => Sys2Proof.Machine.execSetMode port tag body s
  | .defineSegment port tag body => Sys2Proof.Machine.execDefineSegment port tag body s
  | .deleteSegment port tag body => Sys2Proof.Machine.execDeleteSegment port tag body s
  | .readSegments port tag body => Sys2Proof.Machine.execReadSegments port tag body s
  | .bindSensor port tag body => Sys2Proof.Machine.execBindSensor port tag body s
  | .unbindSensor port tag body => Sys2Proof.Machine.execUnbindSensor port tag body s
  | .readRoster port tag body => Sys2Proof.Machine.execReadRoster port tag body s
  | .defineDevice port tag body => Sys2Proof.Machine.execDefineDevice port tag body s
  | .deleteDevice port tag body => Sys2Proof.Machine.execDeleteDevice port tag body s
  | .readDevices port tag body => Sys2Proof.Machine.execReadDevices port tag body s
  | .readDiscovery port tag body => Sys2Proof.Machine.execReadDiscovery port tag body s
  | .setTime port tag body => Sys2Proof.Machine.execSetTime port tag body s
  | .readTime port tag body => Sys2Proof.Machine.execReadTime port tag body s
  | .dismissCase port tag body => Sys2Proof.Machine.execDismissCase port tag body s
  | .closeCase port tag body => Sys2Proof.Machine.execCloseCase port tag body s
  | .isolateCase port tag body => Sys2Proof.Machine.execIsolateCase port tag body s
  | .listCases port tag body => Sys2Proof.Machine.execListCases port tag body s
  | .readCase port tag body => Sys2Proof.Machine.execReadCase port tag body s
  | .definePlan port tag body => Sys2Proof.Machine.execDefinePlan port tag body s
  | .deletePlan port tag body => Sys2Proof.Machine.execDeletePlan port tag body s
  | .readPlans port tag body => Sys2Proof.Machine.execReadPlans port tag body s
  | .reserve port tag body => Sys2Proof.Machine.execReserve port tag body s
  | .release port tag body => Sys2Proof.Machine.execRelease port tag body s
  | .operate port tag body => Sys2Proof.Machine.execOperate port tag body s
  | .setHold port tag body => Sys2Proof.Machine.execSetHold port tag body s
  | .clearHold port tag body => Sys2Proof.Machine.execClearHold port tag body s
  | .readClaims port tag body => Sys2Proof.Machine.execReadClaims port tag body s
  | .readFaultRecord port tag body => Sys2Proof.Machine.execReadFaultRecord port tag body s
  | .programCounter port tag body => Sys2Proof.Machine.execProgramCounter port tag body s
  | .clearCounter port tag body => Sys2Proof.Machine.execClearCounter port tag body s
  | .readCounters port tag body => Sys2Proof.Machine.execReadCounters port tag body s
  | .readSetting port tag body => Sys2Proof.Machine.execReadSetting port tag body s
  | .writeSetting port tag body => Sys2Proof.Machine.execWriteSetting port tag body s
  | .saveConfiguration port tag body => Sys2Proof.Machine.execSaveConfiguration port tag body s
  | .stageOptions port tag body => Sys2Proof.Machine.execStageOptions port tag body s
  | .burnOptions port tag body => Sys2Proof.Machine.execBurnOptions port tag body s
  | .readOptions port tag body => Sys2Proof.Machine.execReadOptions port tag body s
  | .unknownKindCommand port tag kind => Sys2Proof.Machine.execUnknownKindCommand port tag kind s
  | .nonCommandFrame port kind => Sys2Proof.Machine.execNonCommandFrame port kind s
  | .portFrameDropped port chars => Sys2Proof.Machine.execPortFrameDropped port chars s
  | .interCharacterTimeout port => Sys2Proof.Machine.execInterCharacterTimeout port s
  | .portTransmitEnd port => Sys2Proof.Machine.execPortTransmitEnd port s
  | .portAAbsent => Sys2Proof.Machine.execPortAAbsent s
  | .timePulse => Sys2Proof.Machine.execTimePulse s
  | .pulseMissing => Sys2Proof.Machine.execPulseMissing s
  | .reportArrival chars => Sys2Proof.Machine.execReportArrival chars s
  | .helloArrival chars => Sys2Proof.Machine.execHelloArrival chars s
  | .reportTaking => Sys2Proof.Machine.execReportTaking s
  | .helloTaking => Sys2Proof.Machine.execHelloTaking s
  | .silenceExpiry address => Sys2Proof.Machine.execSilenceExpiry address s
  | .deferredSilenceExpiry address => Sys2Proof.Machine.execDeferredSilenceExpiry address s
  | .evidenceItemHandling => Sys2Proof.Machine.execEvidenceItemHandling s
  | .windowExpiry entry => Sys2Proof.Machine.execWindowExpiry entry s
  | .isolationDeadlineReached entry => Sys2Proof.Machine.execIsolationDeadlineReached entry s
  | .orderReply chars => Sys2Proof.Machine.execOrderReply chars s
  | .stateReport chars => Sys2Proof.Machine.execStateReport chars s
  | .deviceTransmitEnd => Sys2Proof.Machine.execDeviceTransmitEnd s
  | .replyDeadlineExpiry device => Sys2Proof.Machine.execReplyDeadlineExpiry device s
  | .settleExpiry device => Sys2Proof.Machine.execSettleExpiry device s
  | .pollDue device => Sys2Proof.Machine.execPollDue device s
  | .recoverySweepStep writesOk => Sys2Proof.Machine.execRecoverySweepStep writesOk s
  | .heldWindowExpiry entry => Sys2Proof.Machine.execHeldWindowExpiry entry s
  | .heldAuthorityMove => Sys2Proof.Machine.execHeldAuthorityMove s
  | .heldIsolationLateNotice entry => Sys2Proof.Machine.execHeldIsolationLateNotice entry s
  | .heldRoomListJudging => Sys2Proof.Machine.execHeldRoomListJudging s
  | .heldPollRequest => Sys2Proof.Machine.execHeldPollRequest s
  | .faultWindowExpiry => Sys2Proof.Machine.execFaultWindowExpiry s
  | .occupancySample => Sys2Proof.Machine.execOccupancySample s
  | .saveCompletion written reloadOk => Sys2Proof.Machine.execSaveCompletion written reloadOk s
  | .burnCompletion written => Sys2Proof.Machine.execBurnCompletion written s

end Sys2Proof.Machine
end

