-- ==== Sys2Proof/WellFormed.lean ====
section
/-! DEFINITION. When a command or event is well formed: each of its fields fits the characters a frame
carries it in, and it is of its row's kind. A field of the right size whose value lies outside its stated
range is well formed: the meaning refuses it. -/

namespace Sys2Proof

/-- A number of one character, absent being all ones (R218). -/
def fitsChar (n : Nat) : Bool := decide (n < 256)

/-- A number of two characters (R218). -/
def fitsTwo (n : Nat) : Bool := decide (n < 65536)

/-- A time of four characters (R218). -/
def fitsFour (n : Nat) : Bool := decide (n < 4294967296)

/-- A number of one character that may be absent: 0xFF is the mark of an absent field (R218). -/
def fitsOptChar (n : Option Nat) : Bool :=
  match n with
  | some x => decide (x < 255)
  | none => true

/-- The fields of a body satisfy a predicate; a malformed body is well formed as an arrival. -/
def Body.allOk {α : Type} (f : α → Bool) : Body α → Bool
  | .ok x => f x
  | .malformed => true

/-- A first number of a size, and a count of one character. -/
def rangeFits (first : Nat → Bool) (x : ReadRange) : Bool := first x.first && fitsChar x.count

/-- A scope's number fits its characters (R200). -/
def scopeFits : Scope → Bool
  | .all => true
  | .segment n => fitsChar n
  | .sensor a => fitsTwo a
  | .device n => fitsChar n

/-- The kinds of R217 that name a port command. -/
def commandKinds : List Nat :=
  [0x01, 0x02, 0x03, 0x04, 0x05]
    ++ [0x08, 0x09, 0x0A, 0x0B, 0x0C, 0x0D, 0x0E, 0x0F, 0x10, 0x11, 0x12]
    ++ [0x14, 0x15]
    ++ [0x18, 0x19, 0x1A, 0x1B, 0x1C]
    ++ [0x20, 0x21, 0x22]
    ++ [0x24, 0x25, 0x26, 0x27, 0x28, 0x29]
    ++ [0x2C]
    ++ [0x30, 0x31, 0x32]
    ++ [0x34, 0x35, 0x36, 0x37, 0x38, 0x39]

/-- Whether a command or event is well formed. -/
def wellFormed : Instr → Bool
  | .powerOn => true
  | .startUp => true
  | .restartBegin => true
  | .identify _ _ _ => true
  | .getStatus _ _ _ => true
  | .resetPort _ _ _ => true
  | .restart _ _ _ => true
  | .setNoticeMask _ _ b => b.allOk fun l => l.all fitsChar
  | .setMode _ _ _ => true
  | .defineSegment _ _ b => b.allOk fun x =>
      fitsChar x.number && fitsOptChar x.parent && fitsOptChar x.plan && fitsTwo x.label
  | .deleteSegment _ _ b => b.allOk fitsChar
  | .readSegments _ _ b => b.allOk (rangeFits fitsChar)
  | .bindSensor _ _ b => b.allOk fun x => fitsTwo x.address && fitsChar x.segment
  | .unbindSensor _ _ b => b.allOk fitsTwo
  | .readRoster _ _ b => b.allOk (rangeFits fitsTwo)
  | .defineDevice _ _ b => b.allOk fun x => fitsChar x.number && fitsChar x.link && fitsChar x.segment
  | .deleteDevice _ _ b => b.allOk fitsChar
  | .readDevices _ _ _ => true
  | .readDiscovery _ _ _ => true
  | .setTime _ _ b => b.allOk fitsFour
  | .readTime _ _ _ => true
  | .dismissCase _ _ b => b.allOk fun x => fitsChar x.entry && fitsTwo x.serial
  | .closeCase _ _ b => b.allOk fun x => fitsChar x.entry && fitsTwo x.serial
  | .isolateCase _ _ b => b.allOk fun x => fitsChar x.entry && fitsTwo x.serial
  | .listCases _ _ _ => true
  | .readCase _ _ b => b.allOk fun x => fitsChar x.entry && fitsTwo x.serial
  | .definePlan _ _ b => b.allOk fun x =>
      fitsChar x.number && fitsChar x.segment && x.steps.all fitsChar && fitsOptChar x.fallback
        && fitsChar x.steps.length
  | .deletePlan _ _ b => b.allOk fitsChar
  | .readPlans _ _ b => b.allOk (rangeFits fitsChar)
  | .reserve _ _ b => b.allOk fitsChar
  | .release _ _ b => b.allOk fitsChar
  | .operate _ _ b => b.allOk fun x => fitsChar x.device
  | .setHold _ _ b => b.allOk fun x => fitsChar x.segment && fitsTwo x.label
  | .clearHold _ _ b => b.allOk fitsChar
  | .readClaims _ _ _ => true
  | .readFaultRecord _ _ _ => true
  | .programCounter _ _ b => b.allOk fun x => fitsChar x.number && scopeFits x.scope
  | .clearCounter _ _ b => b.allOk fitsChar
  | .readCounters _ _ b => b.allOk (rangeFits fitsChar)
  | .readSetting _ _ b => b.allOk fun x => fitsTwo x.group && fitsTwo x.index
  | .writeSetting _ _ b => b.allOk fun x => fitsTwo x.group && fitsTwo x.index
  | .saveConfiguration _ _ _ => true
  | .stageOptions _ _ _ => true
  | .burnOptions _ _ _ => true
  | .readOptions _ _ _ => true
  | .unknownKindCommand _ _ k => decide (k.toNat < 0x80) && !commandKinds.contains k.toNat
  | .nonCommandFrame _ k => decide (0x80 ≤ k.toNat)
  | .portFrameDropped _ cs => !cs.isEmpty
  | .interCharacterTimeout _ => true
  | .portTransmitEnd _ => true
  | .portAAbsent => true
  | .timePulse => true
  | .pulseMissing => true
  | .reportArrival _ => true
  | .helloArrival _ => true
  | .reportTaking => true
  | .helloTaking => true
  | .silenceExpiry a => fitsTwo a
  | .deferredSilenceExpiry a => fitsTwo a
  | .evidenceItemHandling => true
  | .windowExpiry n => decide (n < Config.cases)
  | .isolationDeadlineReached n => decide (n < Config.cases)
  | .orderReply _ => true
  | .stateReport _ => true
  | .deviceTransmitEnd => true
  | .replyDeadlineExpiry d => decide (d < Config.devices)
  | .settleExpiry d => decide (d < Config.devices)
  | .pollDue d => decide (d < Config.devices)
  | .recoverySweepStep _ => true
  | .heldWindowExpiry n => decide (n < Config.cases)
  | .heldAuthorityMove => true
  | .heldIsolationLateNotice n => decide (n < Config.cases)
  | .heldRoomListJudging => true
  | .heldPollRequest => true
  | .faultWindowExpiry => true
  | .occupancySample => true
  | .saveCompletion _ _ => true
  | .burnCompletion _ => true

end Sys2Proof
end

