-- ==== Sys2Proof/Safety.lean ====
section
/-! DEFINITION. The words of the statements: what a port has still to say, when a command is taken, what an
event leaves alone, and the invariants of the part. -/

namespace Sys2Proof.Machine

/-! ### What a port has to say -/

/-- The replies a port still owes its line, in order: the one being sent, then the ready ones (R186). -/
def outgoing (p : PortState) : List Reply :=
  (match p.tx with
    | some (.reply r) => [r]
    | _ => []) ++ p.ready

/-- The notices a port still owes its line, in order: the one being sent, then the queue (R190, R191). -/
def noticeStream (p : PortState) : List Notice :=
  (match p.tx with
    | some (.notice n _ _) => [n]
    | _ => []) ++ p.notices

/-! ### When a command is taken -/

/-- A command arriving on a port is taken: the part takes frames and the reply queue has room (R185, R189). -/
abbrev Takes (q : Port) (s : State) : Prop :=
  s.part.run = .running ∧ repliesFull (portOf q s.part) = false

/-- The part as a good frame on a port leaves it before its command acts (R194). -/
def heard (q : Port) (s : State) : Part := hearFrame q true s.part

/-- The port may control the feeder: Port A, or Port B with PORT_B_CONTROL (R188). -/
abbrev Controls (q : Port) (s : State) : Prop := q = .a ∨ s.part.inForce.options.portBControl = true

/-- The blocks are at work: the mode is not HALTED and IM is not RECOVERING. -/
abbrev Healthy (s : State) : Prop := s.part.core.mode ≠ .halted ∧ s.part.core.recovery.recovering = false

/-- A topology or plan edit passes the conditions of R2 but for its ranges. -/
abbrev MayEdit (q : Port) (s : State) : Prop :=
  Takes q s ∧ Controls q s ∧ s.part.core.mode = .configuring
    ∧ s.part.core.recovery.recovering = false ∧ s.part.save = none

/-- Every entry of a checked table matches its code (R169). -/
def Sound {α : Type} (l : List (Checked α)) : Prop := ∀ n, badAt l n = false

/-- Every entry of the five checked tables matches its code (R169). -/
def AllSound (c : Core) : Prop :=
  Sound c.segments ∧ Sound c.roster ∧ Sound c.devices ∧ Sound c.plans ∧ Sound c.cases

/-- No order waits in the queue for CLOSE. -/
abbrev NoCloses (c : Core) : Prop := ∀ o ∈ c.orders, o.action ≠ .close

/-- A request for due polls would queue none: in MONITORING the device entries, which it reads, match, and of the
devices that are UNKNOWN or unreachable none has reached its next poll (R147, R148, R169). -/
def NoPolls (c : Core) : Prop :=
  c.mode = .monitoring →
    Sound c.devices
      ∧ ∀ n v t, entryAt c.devices n = some v → v.run.state = .unknown ∨ v.run.reachable = false →
          v.run.nextPoll = some t → reached c.time.now t = false

/-! ### How an event ends -/

/-- The part after an event that leaves its blocks as `c` and gives out notices and occurrences in an order: the
occurrences are counted (R201), and the notices join the queues in that order (R190), the COUNTER notices of
wraps where their occurrences stand (R202; log 11). With nothing given out, only the blocks change. -/
def outcome (xs : List Emit) (c : Core) (p : Part) : Part := deliver c.time.now xs { p with core := c }

/-- The state after an event that leaves the part as `p`: the pin follows and free transmitters take their
frames; the waiting commands stand. -/
def ended (p : Part) (s : State) : State := { s with part := finish p }

/-- The state after a command that leaves the part as `p` and is answered with a reply (R186). -/
def replied (q : Port) (kind : Nat) (tag : Byte) (code : ReplyCode) (body : ReplyBody) (p : Part)
    (s : State) : State :=
  ended (setPort q (enqueue kind tag (.now code body)) p) s

/-- The state after a command that is refused with a class and substatus alone: nothing has changed but what
its frame's arrival changes, and its reply. -/
def refused (q : Port) (kind : Nat) (tag : Byte) (code : ReplyCode) (s : State) : State :=
  replied q kind tag code .empty (heard q s) s

/-- The waiting commands are unchanged, and nothing outside the blocks and the ports has changed: the
settings, store, options, counters, next sample and run state. -/
def KeepsRest (s t : State) : Prop :=
  t.pending = s.pending
    ∧ t.part = { s.part with core := t.part.core, portA := t.part.portA, portB := t.part.portB
                             inService := t.part.inService }

/-- The same, but for the counters. -/
def KeepsRestButCounters (s t : State) : Prop :=
  t.pending = s.pending
    ∧ t.part = { s.part with core := t.part.core, portA := t.part.portA, portB := t.part.portB
                             counters := t.part.counters, inService := t.part.inService }

/-- A port has been given exactly one more reply, at the end, and the other none (R186). -/
def Answered (q : Port) (kind : Nat) (tag : Byte) (code : ReplyCode) (body : ReplyBody) (s t : State) :
    Prop :=
  outgoing (portOf q t.part)
      = outgoing (portOf q s.part) ++ [{ kind := kind + 0x80, tag := tag, code := code, body := body }]
    ∧ outgoing (portOf (otherPort q) t.part) = outgoing (portOf (otherPort q) s.part)

/-- Neither port has been given a reply. -/
def Unanswered (s t : State) : Prop :=
  ∀ q, outgoing (portOf q t.part) = outgoing (portOf q s.part)

/-- The blocks with the time base at a value, and every time of day they hold moved by the same amount (R29). -/
def timesMoved (now : Nat) (c : Core) : Core :=
  let d : Int := (now : Int) - (c.time.now : Int)
  { c with
    time := { c.time with now := now }
    cases := mapContents (moveCase d) c.cases
    devices := mapContents (moveDevice d) c.devices
    roster := mapContents (fun r => { r with lastHeard := moveTime d r.lastHeard }) c.roster
    discovery := c.discovery.map fun x => { x with firstHeard := moveTime d x.firstHeard }
    intake := c.intake.map fun x => { x with arrival := moveTime d x.arrival }
    orders := c.orders.map fun o => { o with deadline := o.deadline.map (moveTime d) }
    window := c.window.map (moveTime d) }

/-- The whole second nearest a time of day (R32). -/
def nearestSecond (now : Nat) : Nat :=
  (if now % 1000 < 500 then now - now % 1000 else now + 1000 - now % 1000) % 86400000

/-- The blocks with a case entry free: its content and code, the state counted for it, and what IS holds for
it (R84, R113, R197). -/
def freed (n : Nat) (c : Core) : Core :=
  { c with
    cases := c.cases.set n { content := none, check := 0 }
    counted := c.counted.set n none
    opened := c.opened.filter (· != n)
    walks := c.walks.filter (fun w => w.entry != n)
    room := c.room.filter (· != n) }

/-- The blocks with a case entry written, its code with it, and the state counted for it (R169, R197). -/
def withCase (n : Nat) (k : Case) (c : Core) : Core :=
  { c with
    cases := c.cases.set n { content := some k, check := 0 }
    counted := c.counted.set n (some k.state) }

/-- The CASE notice of a case whose fields read in their ranges (R101). -/
def caseTold (n : Nat) (k : Case) (old new : Option CaseState) (reason : CaseReason) (device : Option Nat)
    (now : Nat) : Emit :=
  .tell .both (.caseChange
    { entry := n, serial := k.serial, segment := some k.segment, phase := some k.phase, old := old
      new := new, finding := k.finding, reason := reason, device := device, time := now })

/-- An occurrence that names at most a segment. -/
def segmentCount (sel : EventSelect) (segment : Option Nat) (amount : Int) : Emit :=
  .count { select := sel, amount := amount, segment := segment, sensor := none, device := none }

/-- WATCH cases merged in turn into the case of an entry: what it tells and counts, and what it leaves (R87, R88). -/
def mergesInto (n : Nat) : List Nat → Core → List Emit × Core
  | [], c => ([], c)
  | z :: rest, c =>
    match entryAt c.cases n, entryAt c.cases z with
    | some kx, some kz =>
      let others := mergesInto n rest (freed z (withCase n (merged kx kz) c))
      (caseTold z kz (some .watch) none .merged none c.time.now
        :: segmentCount .casesClosedUnconfirmed (some kz.segment) 1 :: others.1, others.2)
    | _, _ => mergesInto n rest c

/-- What the loss of a case tells and counts (R180): its CASE notice, in which a field that reads outside its range is
absent, and a case closed unconfirmed where its state reads as WATCH. -/
def lossTold (n : Nat) (k : Case) (now : Nat) : List Emit :=
  let bad := fun f : CaseField => f ∈ k.unreadable
  let segment := if bad .segment then none else some k.segment
  .tell .both (.caseChange
    { entry := n, serial := k.serial, segment := segment
      phase := if bad .phase then none else some k.phase
      old := if bad .state then none else some k.state
      new := none
      finding := if bad .finding then none else k.finding
      reason := .lost, device := none, time := now })
    :: if ¬ bad .state ∧ k.state = .watch then [segmentCount .casesClosedUnconfirmed segment 1] else []

/-- The blocks after the loss of a case (R170, R180): the entry is free, the case is in the sweep's count of the lost,
and it stands in the record's list of them, which holds 8 and is marked when it has no place for it. -/
def afterLoss (n : Nat) (k : Case) (c : Core) : Core :=
  let lost : LostCase :=
    { entry := n, serial := k.serial
      segment := if .segment ∈ k.unreadable then none else some k.segment
      phase := if .phase ∈ k.unreadable then none else some k.phase }
  { freed n c with
    record := if c.record.lost.length < 8 then { c.record with lost := c.record.lost ++ [lost] }
      else { c.record with lostUnlisted := true }
    recovery := { c.recovery with lost := c.recovery.lost + 1 } }

/-- Bad entries of the case table lost in turn: what it tells and counts, and what it leaves. One that reads as free
is rewritten, and tells nothing (R180). -/
def losesInto : List Nat → Core → List Emit × Core
  | [], c => ([], c)
  | n :: rest, c =>
    match entryAt c.cases n with
    | none => losesInto rest (freed n c)
    | some k =>
      let others := losesInto rest (afterLoss n k c)
      (lossTold n k c.time.now ++ others.1, others.2)

/-- A table without its bad entries, which become undefined (R178). -/
def badUndefined {α : Type} (l : List (Checked α)) : List (Checked α) :=
  l.map fun x => if x.check = 0 then x else { content := none, check := 0 }

/-- The blocks with the bad entries of a table undefined (R178): with the plan store the pool's count of step entries
in use is that of the plans left (R103), a sensor that leaves the roster waits for no expiry (R44), and a device number
left undefined loses its reservation (R177). -/
def withoutBad (t : Table) (c : Core) : Core :=
  match t with
  | .segment => { c with segments := badUndefined c.segments }
  | .plan =>
    { c with
      plans := badUndefined c.plans
      stepsInUse := ((badUndefined c.plans).map fun x => (x.content.map (·.steps.length)).getD 0).sum }
  | .roster =>
    { c with
      roster := badUndefined c.roster
      deferred := c.deferred.filter fun a =>
        (badUndefined c.roster).any fun x => x.content.any fun v => v.address == a }
  | .device =>
    { c with
      devices := badUndefined c.devices
      reservations := mapFrom (fun n x =>
        if n < c.devices.length ∧ entryAt (badUndefined c.devices) n = none then none else x) 0 c.reservations }
  | .case => c
  | .store => c

/-- What the end of a sweep step adds to what the step has told and left. With tables still listed it adds nothing.
With none left the recovery ends: its FAULT notice tells what the sweep has done and the mode (R175, R182), and the
work it held back is marked to be done (R174): the window ends reached, the moves for authority, the late notices, the
room list and the polls. -/
def sweepEnded (s : Settings) (xs : List Emit) (c : Core) : List Emit × Core :=
  let r := c.recovery
  if r.sweep = [] then
    (xs ++ [.tell .both (.recoveryEnded r.repaired r.reloaded r.lost c.mode r.failedCheck)],
      { c with
        recovery := Recovery.idle
        held :=
          { windows := entriesWhere c.cases fun k => k.state == .watch && reached c.time.now k.windowEnd
            authority := true
            late := entriesWhere c.cases fun k =>
              k.state == .isolating && k.isolation.any fun i =>
                !i.late && reached c.time.now ((i.confirmedAt + s.isolationDeadline) % 86400000)
            room := true, polls := true } })
  else (xs, c)

/-- An occurrence that names a device. -/
def deviceCount (sel : EventSelect) (device : Nat) : Emit :=
  .count { select := sel, amount := 1, segment := none, sensor := none, device := some device }

/-- The devices polled at an event in MONITORING: those due and without an order, in ascending number while the
queue has room (R147, R148). -/
def pollsTaken (c : Core) : List Nat :=
  ((List.range 24).filter fun d =>
    match entryAt c.devices d with
    | some v => (v.run.state == .unknown || !v.run.reachable) && v.run.nextPoll.any (reached c.time.now)
        && (orderOf c d).isNone
    | none => false).take (16 - c.orders.length)

/-- The blocks with those polls queued under the next numbers in turn. A device polled holds its order's number
and its next poll (R132, R147, R148). -/
def pollsQueued (s : Settings) (c : Core) : Core :=
  let ds := pollsTaken c
  let number := fun d : Nat => (c.orderNumber + 1 + ds.idxOf d) % 256
  let polled := fun (n : Nat) (v : Device) =>
    if n ∈ ds then
      { v with run := { v.run with
          nextPoll := some ((c.time.now + 1000 * s.pollInterval) % 86400000)
          currentOrder := some (number n) } }
    else v
  { c with
    orderNumber := if ds = [] then c.orderNumber else (c.orderNumber + ds.length) % 256
    orders := c.orders ++ ds.map fun d =>
      { number := number d, device := d, action := .query, cls := .poll, origin := .none
        state := .queued, resend := false, sends := none, deadline := none, left := false }
    devices := mapFrom (fun n x => { x with content := x.content.map (polled n) }) 0 c.devices }

/-- What a request for the polls due leaves of the blocks, and the occurrences it counts: the polls are queued, and
over a free link the first of them is sent (R135, R136, R148). -/
def pollsRequested (s : Settings) (c : Core) : List Emit × Core :=
  match c.linkTx, pollsTaken c with
  | none, d :: _ =>
    ([deviceCount .ordersSent d],
      { pollsQueued s c with
        orders := (pollsQueued s c).orders.map fun o =>
          if o.device = d then
            { o with state := .sent, sends := some 1
                     deadline := some ((c.time.now + s.replyTimeout) % 86400000) }
          else o
        linkTx := (entryAt c.devices d).map fun v =>
          orderFrame v.link ((c.orderNumber + 1) % 256) .query })
  | _, _ => ([], pollsQueued s c)

/-- What entering MONITORING leaves of the blocks, and the occurrences it counts: every device that is UNKNOWN or
unreachable falls due at once, and the polls due are requested (R147, R148). -/
def pollsBegun (s : Settings) (c : Core) : List Emit × Core :=
  let fallDue := fun v : Device =>
    if v.run.state = .unknown ∨ v.run.reachable = false then
      { v with run := { v.run with nextPoll := some c.time.now } }
    else v
  pollsRequested s { c with devices := mapContents fallDue c.devices }

/-- An occurrence that names a sensor, and a segment where it has one. -/
def sensorCount (sel : EventSelect) (segment : Option Nat) (sensor : Nat) : Emit :=
  .count { select := sel, amount := 1, segment := segment, sensor := some sensor, device := none }

/-! ### Start-up -/

/-- What start-up leaves of the part (R215). The options it has taken are in force; the settings and the tables are
those of a valid image, or the defaults and empty tables without one; the blocks' state is cleared, the serial and
order counters, the work a recovery held back, the waiting expiries and the links' receivers with it, and Port A's
supervision time starts; the mode is MONITORING, outside QUIET_START, exactly when the loaded tables pass the
checks; a loaded sensor is WAITING, heard at time 0 and without a sequence; a loaded device has its power-on fields;
and in MONITORING its polls are begun. -/
def StartedAs (taken : OptionsRecord) (s t : State) : Prop :=
  let valid := s.part.store.valid && s.part.store.codeMatches
  let img := s.part.store.image
  ∃ c : Core,
    t.pending = s.pending ∧ t.part.run = .running
    ∧ t.part.options = s.part.options ∧ t.part.inForce = taken ∧ t.part.staged = none
    ∧ t.part.save = none ∧ t.part.burning = false
    ∧ t.part.store = { s.part.store with valid := valid }
    ∧ t.part.nextSample = s.part.core.time.elapsed + 10
    ∧ (c.mode = .configuring → t.part.core = c ∧ t.part.counters = s.part.counters)
    ∧ (c.mode = .monitoring →
        let begun := pollsBegun t.part.settings c
        t.part.core = begun.2 ∧ t.part.counters = (emissions 0 begun.1 s.part.counters).1)
    ∧ c.time = { now := 0, lock := .unset, good := 0, lastPulse := none
                 elapsed := s.part.core.time.elapsed }
    ∧ (∀ n, entryAt c.cases n = none) ∧ c.serial = 0 ∧ c.counted = List.replicate 32 none ∧ c.opened = []
    ∧ c.orders = [] ∧ c.orderNumber = 0 ∧ c.items = [] ∧ c.intake = [] ∧ c.deferred = []
    ∧ c.walks = [] ∧ c.room = [] ∧ c.discovery = [] ∧ c.held = Held.none
    ∧ c.fieldRx = .hunt ∧ c.deviceRx = .hunt
    ∧ (∀ r ∈ c.reservations, r = none) ∧ (∀ h ∈ c.holds, h = none)
    ∧ c.record = s.part.core.record ∧ c.window = [] ∧ c.recovery = Recovery.idle
    ∧ c.linkTx = s.part.core.linkTx
    ∧ c.supervision = { absent := false, lastGood := s.part.core.time.elapsed }
    ∧ (c.mode = .configuring ∨ c.mode = .monitoring)
    ∧ (valid = false →
        t.part.settings = Settings.default ∧ c.mode = .configuring ∧ c.stepsInUse = 0
        ∧ (∀ n, entryAt c.segments n = none) ∧ (∀ n, entryAt c.roster n = none)
        ∧ (∀ n, entryAt c.devices n = none) ∧ ∀ n, entryAt c.plans n = none)
    ∧ (valid = true →
        c.segments = img.segments.map (fun x => { content := x, check := 0 })
        ∧ c.plans = img.plans.map (fun x => { content := x, check := 0 })
        ∧ c.stepsInUse = (img.plans.map fun x => (x.map (·.steps.length)).getD 0).sum
        ∧ c.roster = img.roster.map (fun x =>
            { content := x.map fun b =>
                { address := b.address, segment := b.segment, side := b.side, phases := b.phases
                  state := .waiting, lastSequence := none, lastHeard := 0 }
              check := 0 })
        ∧ c.devices = img.devices.map (fun x =>
            { content := x.map fun d =>
                { link := d.link, kind := d.kind, segment := d.segment
                  run := { state := .unknown, reachable := true, settleUntil := none, currentOrder := none
                           lastRefusal := none, nextPoll := none } }
              check := 0 })
        ∧ AllSound c
        ∧ t.part.settings = (if img.settings.authority = 1 ∧ taken.options.autoPermitted = false
            then { img.settings with authority := 0 } else img.settings)
        ∧ (taken.options.quietStart = true → c.mode = .configuring)
        ∧ (taken.options.quietStart = false →
            (c.mode = .monitoring ↔ validation c = none)))

/-! ### Lines -/

/-- Characters each received with its stop bit. -/
def clean (cs : List Byte) : List RxChar := cs.map fun c => { value := c, framingError := false }

/-! ### The checks of a description (R23, R107) -/

/-- A search finds the lowest number that satisfies a predicate, as an item, and nothing when none does. -/
def Finds (r : Option FailingItem) (item : Nat → FailingItem) (P : Nat → Prop) : Prop :=
  (r = none ↔ ∀ n, ¬ P n) ∧ ∀ n, P n → (∀ m, m < n → ¬ P m) → r = some (item n)

/-- The segment so many parents up from a defined one, each on the way defined. -/
def upBy (segs : List (Checked Segment)) : Nat → Nat → Option Nat
  | 0, s => (entryAt segs s).map fun _ => s
  | k + 1, s => ((entryAt segs s).bind (·.parent)).bind (upBy segs k)

/-- The plan so many fallbacks on from a plan. -/
def fallbackAfter (plans : List (Checked Plan)) : Nat → Nat → Option Nat
  | 0, p => some p
  | k + 1, p => ((entryAt plans p).bind (·.fallback)).bind (fallbackAfter plans k)

/-- A defined segment without a parent. -/
def IsRoot (c : Core) (n : Nat) : Prop := ∃ r, entryAt c.segments n = some r ∧ r.parent = none

/-- A segment is defined and its phases contain a set. -/
def Carries (c : Core) (n : Nat) (ps : PhaseSet) : Prop :=
  ∃ r, entryAt c.segments n = some r ∧ phasesWithin ps r.phases = true

/-- The eight checks of R23, each with its condition and the failing item it reports. -/
def ChecksAsStated (c : Core) : Prop :=
  (check1 c = none ↔ ∃ n, IsRoot c n ∧ ∀ m, IsRoot c m → m = n)
  ∧ (check1 c = some .none ↔ ∀ n, ¬ IsRoot c n)
  ∧ (∀ n, check1 c = some (.segment n) ↔
      IsRoot c n ∧ ∃ m, m < n ∧ IsRoot c m ∧ ∀ x, x < n → IsRoot c x → x = m)
  ∧ Finds (check2 c) .segment (fun n =>
      ∃ r p, entryAt c.segments n = some r ∧ r.parent = some p ∧ entryAt c.segments p = none)
  ∧ Finds (check3 c) .segment (fun n =>
      (entryAt c.segments n).isSome = true
        ∧ ¬ ∃ k t, k < 16 ∧ upBy c.segments k n = some t ∧ IsRoot c t)
  ∧ Finds (check4 c) .segment (fun n =>
      ∃ r p, entryAt c.segments n = some r ∧ r.parent = some p ∧ ¬ Carries c p r.phases)
  ∧ Finds (check5 c) .sensor (fun a =>
      ∃ n v, entryAt c.roster n = some v ∧ v.address = a ∧ ¬ Carries c v.segment v.phases)
  ∧ Finds (check6 c) .sensor (fun a =>
      ∃ n v m u, entryAt c.roster n = some v ∧ v.address = a ∧ entryAt c.roster m = some u
        ∧ u.address < a ∧ u.segment = v.segment ∧ u.side = v.side ∧ phasesMeet u.phases v.phases = true)
  ∧ Finds (check7 c) .device (fun n =>
      ∃ v, entryAt c.devices n = some v
        ∧ (entryAt c.segments v.segment = none
          ∨ (v.kind = .sectionalizing ∧ ∃ m u, m < n ∧ entryAt c.devices m = some u
              ∧ u.kind = .sectionalizing ∧ u.segment = v.segment)))
  ∧ (let unplanned := fun n =>
        ∃ r p, entryAt c.segments n = some r ∧ r.plan = some p ∧ entryAt c.plans p = none
     ((∃ n, unplanned n) → Finds (check8 c) .segment unplanned)
     ∧ ((∀ n, ¬ unplanned n) → Finds (check8 c) .plan (fun n =>
          ∃ p, entryAt c.plans n = some p ∧ planPasses c n p = false)))

/-- The plan checks of R107 for a defined plan. The chain ends within 4 links at a plan whose fallback is none; one
that reaches a plan twice never ends, and one that runs into an undefined plan ends at none (log 42). -/
def PlanChecksAsStated (c : Core) : Prop :=
  ∀ n p, entryAt c.plans n = some p →
    (planPasses c n p = true ↔
      (entryAt c.segments p.segment).isSome = true
        ∧ (∀ d ∈ p.steps, (entryAt c.devices d).isSome = true)
        ∧ (∃ d ∈ p.steps, d ∈ pathDevices c p.segment)
        ∧ p.steps.Nodup
        ∧ (∀ f, p.fallback = some f → (entryAt c.plans f).isSome = true)
        ∧ ∃ links last v, links ≤ 4 ∧ fallbackAfter c.plans links n = some last
            ∧ entryAt c.plans last = some v ∧ v.fallback = none)

/-! ### The tree, and the bars on CLOSE (R17, R18, R160) -/

/-- The relations of a segment on the tree. Its path starts at it and steps to each parent, ends where the parent is
none or undefined, and holds at most 16 segments; its ancestors are the other segments of its path; its path devices
are the defined SECTIONALIZING devices whose segment lies on the path, nearest first where no segment stands on it
twice (R17). It lies in the downstream set of a SECTIONALIZING device whose own segment is defined when it is that
segment or a descendant of it, and in no other (R18). -/
def TreeAsStated (c : Core) (s : Nat) : Prop :=
  let segs := c.segments
  let path := pathOf segs s
  path[0]? = some s
  ∧ (∀ i x y, path[i]? = some x →
      (path[i + 1]? = some y ↔
        i + 1 < 16 ∧ ∃ r, entryAt segs x = some r ∧ r.parent = some y ∧ (entryAt segs y).isSome = true))
  ∧ (∀ t, isAncestor segs t s = true ↔ t ≠ s ∧ t ∈ path)
  ∧ (∀ d, d ∈ pathDevices c s ↔
      ∃ v, entryAt c.devices d = some v ∧ v.kind = .sectionalizing ∧ v.segment ∈ path)
  ∧ (path.Nodup → (pathDevices c s).Pairwise fun d e => ∀ v w,
      entryAt c.devices d = some v → entryAt c.devices e = some w →
        path.idxOf v.segment ≤ path.idxOf w.segment)
  ∧ ∀ v : Device, inDownstream segs v s = true ↔
      v.kind = .sectionalizing ∧ (entryAt segs v.segment).isSome = true
        ∧ (s = v.segment ∨ isAncestor segs v.segment s = true)

/-- The bars on a CLOSE of a device (R160). A segment bars a SECTIONALIZING device whose own segment is defined
(log 65) and lies on the segment's path, and a TIE on the segment, on an ancestor or on a descendant of it. A WORK
hold bars by the segment that carries it, and a case in ISOLATING, ISOLATED or BLOCKED by its own. -/
def BarsAsStated (c : Core) (v : Device) : Prop :=
  (∀ segs s, barredBy segs v s = true ↔
      v.kind = .sectionalizing ∧ (entryAt segs v.segment).isSome = true ∧ v.segment ∈ pathOf segs s
      ∨ v.kind = .tie
        ∧ (s = v.segment ∨ isAncestor segs s v.segment = true ∨ isAncestor segs v.segment s = true))
  ∧ (∀ segs holds, barredByHold segs holds v = true ↔
      ∃ (s : Nat) (h : Hold), holds[s]? = some (some h) ∧ h.kind = .work ∧ barredBy segs v s = true)
  ∧ ∀ segs, barredByCase c segs v = true ↔
      ∃ n k, entryAt c.cases n = some k
        ∧ (k.state = .isolating ∨ k.state = .isolated ∨ k.state = .blocked)
        ∧ barredBy segs v k.segment = true

/-- The devices of the CLOSE orders in a state that a WORK hold on a segment would bar (R165). -/
def ClosesAsStated (c : Core) (state : OrderState) (s : Nat) : Prop :=
  ∀ d, d ∈ closesBarredBy c state s ↔
    ∃ o v, o ∈ c.orders ∧ o.action = .close ∧ o.state = state ∧ o.device = d
      ∧ entryAt c.devices d = some v ∧ barredBy c.segments v s = true

/-! ### Walks (R116 to R124) -/

/-- The walk of an entry stands at a step of its plan in use: its case, its record, its plan and the device the
step names, as the tables give them. -/
structure AtStep (n : Nat) (w : Walk) (k : Case) (r : IsolationRecord) (pl : Plan) (d : Nat) (e : Ev) :
    Prop where
  running : e.mode ≠ .halted
  walk : walkOf e.toCore n = some w
  place : w.entry = n
  occupied : entryAt e.cases n = some k
  caseMatches : badAt e.cases n = false
  readable : k.unreadable = []
  record : k.isolation = some r
  stored : ∃ i, r.plan = some i ∧ badAt e.plans i = false ∧ entryAt e.plans i = some pl
  names : pl.steps[r.step]? = some d

/-- The other walks. -/
def othersThan (n : Nat) (ws : List Walk) : List Walk := ws.filter fun w => w.entry != n

/-- The event with a case's isolation record written. -/
def recorded (n : Nat) (k : Case) (r : IsolationRecord) (e : Ev) : Ev :=
  { e with
    cases := e.cases.set n { content := some { k with isolation := some r }, check := 0 }
    counted := e.counted.set n (some k.state) }

/-- A step is left for the next of the record, which is judged in the same event. -/
def movedOn (n : Nat) (k : Case) (r : IsolationRecord) (e : Ev) : Ev :=
  { recorded n k r e with room := e.room.filter (· != n), todo := e.todo ++ [.judge n] }

/-- IS holds no further progress for an entry. -/
def walkEnded (n : Nat) (e : Ev) : Ev :=
  { e with walks := othersThan n e.walks, room := e.room.filter (· != n) }

/-- The step of a walk has been done by a device (R119, R122, R124): the next step is judged; after the last a
MAIN walk is complete, its case ISOLATED and its time counted, and a REMAINDER walk ends. -/
def afterDone (w : Walk) (k : Case) (r : IsolationRecord) (pl : Plan) (d : Nat) (e : Ev) : Ev :=
  if r.step + 1 < pl.steps.length then movedOn w.entry k { r with step := r.step + 1 } e
  else if w.phase = .remainder then walkEnded w.entry e
  else
    let k' : Case := { k with state := .isolated }
    walkEnded w.entry
      { recorded w.entry k' { r with isolatedBy := some d } e with
        out := e.out ++
          [caseTold w.entry k (some k.state) (some .isolated) .planComplete (some d) e.time.now,
           segmentCount .isolationTime (some k.segment) (diffTime e.time.now r.confirmedAt)] }

/-- The step of a walk has failed: a MAIN walk takes the fallback of its plan (R121), or its case is BLOCKED and
the steps that follow are its REMAINDER (R123); a REMAINDER walk passes over the step (R124). -/
def afterFailure (w : Walk) (k : Case) (r : IsolationRecord) (pl : Plan) (e : Ev) : Ev :=
  let next := r.step + 1
  if w.phase = .remainder then
    if next < pl.steps.length then movedOn w.entry k { r with step := next } e else walkEnded w.entry e
  else
    match pl.fallback, decide (r.depth < 4) with
    | some f, true => movedOn w.entry k { r with plan := some f, depth := r.depth + 1, step := 0 } e
    | _, _ =>
      let k' : Case := { k with state := .blocked }
      let e' : Ev := { e with
        out := e.out ++ [caseTold w.entry k (some k.state) (some .blocked) .planFailed none e.time.now] }
      if next < pl.steps.length then
        movedOn w.entry k' { r with step := next }
          { e' with walks := othersThan w.entry e.walks ++ [{ w with phase := .remainder }] }
      else walkEnded w.entry (recorded w.entry k' r e')

/-- An ISOLATION order for a walk's step is queued under the next number, behind a busy link, and the step
becomes ORDERED; a port that has reserved the device is told (R116). -/
def stepOrdered (w : Walk) (d : Nat) (v : Device) (e : Ev) : Ev :=
  let number := (e.orderNumber + 1) % 256
  { e with
    orderNumber := number
    orders := e.orders ++
      [{ number := number, device := d, action := .open_, cls := .isolation, origin := .case w.serial
         state := .queued, resend := false, sends := none, deadline := none, left := false }]
    devices := putAt e.devices d (some { v with run := { v.run with currentOrder := some number } })
    walks := othersThan w.entry e.walks ++ [{ w with cond := .ordered number d }]
    room := e.room.filter (· != w.entry)
    out := e.out ++ match reservationOf e.toCore d with
      | some q => [.tell (.only q) (.isolationOverride d number w.serial)]
      | none => [] }

/-- A walk waits with its step in ROOM: on the list, at the newest end unless it stands there (R120). -/
def stepInRoom (w : Walk) (d : Nat) (e : Ev) : Ev :=
  { e with
    walks := othersThan w.entry e.walks ++ [{ w with cond := .room (some d) }]
    room := if w.entry ∈ e.room then e.room else e.room ++ [w.entry] }

/-- A QUEUED order leaves the queue: its device holds no order, a MANUAL one is told of to its port, and the
withdrawal is still to be announced (R134). -/
def orderWithdrawn (reason : WithdrawReason) (o : Order) (v : Device) (e : Ev) : Ev :=
  { e with
    orders := e.orders.filter fun x => x.device != o.device
    devices := putAt e.devices o.device (some { v with run := { v.run with currentOrder := none } })
    out := e.out ++ match o.cls, o.origin with
      | .manual, .port q tag =>
        [.tell (.only q) (.order
          { tag := tag, number := o.number, device := o.device, action := o.action, outcome := .withdrawn
            state := v.run.state, retries := o.sends.getD 0 - 1, refusal := none
            withdrawal := some reason, time := e.time.now })]
      | _, _ => []
    todo := e.todo ++ [.announce o.device] }

/-! ### Intake and evidence (R40 to R89) -/

/-- A REPORT of a bound sensor passes the tests past the first of R40: its sequence is newer than the last, if
there is one; while LOCKED its timestamp lies within STALE_LIMIT of the time base, before and after (R42); and it
names no phase that the sensor does not monitor. -/
def AdmissionAsStated (env : Env) (t : TimeBase) (v : Sensor) (r : Report) : Prop :=
  reportPasses env t v r = true ↔
    (∀ l, v.lastSequence = some l → newer r.sequence l = true)
    ∧ (t.lock = .locked → diffTime t.now r.timestamp ≤ env.settings.staleLimit
        ∧ diffTime r.timestamp t.now ≤ env.settings.staleLimit)
    ∧ ∀ p ∈ r.records, phaseIn p.phase v.phases = true

/-- The items of a report (R47 to R51): record by record in frame order, and kind by kind in the order of R47. A
TAIL record yields by its voltage, unless the report shows the outage pattern; a HEAD record below DEAD_LEVEL
yields nothing; and either end yields by its arc bursts and its leakage. -/
def DerivationAsStated (s : Settings) (v : Sensor) (stamp : Nat) (records : List PhaseRecord) : Prop :=
  let outage := outagePattern s v.side records
  let item := fun (kind : EvidenceKind) (p : PhaseRecord) =>
    ({ kind := kind, sensor := v.address, segment := v.segment, side := v.side, phase := p.phase
       timestamp := stamp, arcs := if kind = .arcBursts then some p.arcs else none } : Item)
  (outage = true ↔ v.side = .tail ∧ 2 ≤ records.length ∧ ∀ p ∈ records, p.voltage < s.deadLevel)
  ∧ derivedItems s v stamp records = records.flatMap fun p =>
      let used := v.side = .tail ∨ s.deadLevel ≤ p.voltage
      (if v.side = .tail ∧ p.voltage < s.deadLevel ∧ outage = false then [item .tailDead p] else [])
      ++ (if v.side = .head ∧ s.deadLevel ≤ p.voltage ∧ s.stepLevel ≤ p.stepDown then
            [item .headCurrentDrop p] else [])
      ++ (if used ∧ 1 ≤ p.arcs then [item .arcBursts p] else [])
      ++ (if v.side = .tail ∧ s.liveLevel ≤ p.voltage then [item .tailRestored p] else [])
      ++ (if v.side = .head ∧ s.deadLevel ≤ p.voltage ∧ s.liveLevel ≤ p.voltage then
            [item .headLive p] else [])
      ++ (if used ∧ s.leakageLevel ≤ p.leakage then [item .groundCurrent p] else [])

/-- A case on a segment and phase, by its entry and its content, that matches its code. -/
abbrev CaseAt (c : Core) (segment : Nat) (phase : Phase) (n : Nat) (k : Case) : Prop :=
  caseOn c segment phase = some n ∧ entryAt c.cases n = some k ∧ badAt c.cases n = false

/-- The confirmation test of a case, made now, would change nothing: neither condition holds, or the case has
left WATCH (R82). -/
def StaysUnconfirmed (p : Part) (k : Case) : Prop :=
  k.state = .confirmed ∨ (k.state = .watch ∧ isBroken p.settings p.core.time.lock k = false
    ∧ isDowned p.settings k = false)

/-- The confirmation test of a case in WATCH, made now, confirms it with a finding (R80 to R82). -/
def Confirms (p : Part) (k : Case) (f : Finding) : Prop :=
  let broken := isBroken p.settings p.core.time.lock k
  let downed := isDowned p.settings k
  k.state = .watch ∧ k.unreadable = []
    ∧ (broken = true ∧ downed = true ∧ f = .brokenAndDowned ∨ broken = true ∧ downed = false ∧ f = .broken
      ∨ broken = false ∧ downed = true ∧ f = .downed)

/-- What masks an item (R53 to R55): a path device of its segment that is OPEN, RECLOSING, LOCKED_OUT or
settling, a hold on its segment, or CONFIGURING. Whether such a device masks while it is unreachable is left open, for
R53 and R129 disagree (log 57). -/
def MaskedAsStated (c : Core) (it : Item) : Prop :=
  isMasked c it = true ↔
    (∃ d v, d ∈ pathDevices c it.segment ∧ entryAt c.devices d = some v
      ∧ (v.run.reachable = true ∨ Config.unreachableMasks = true)
      ∧ (v.run.state = .open_ ∨ v.run.state = .reclosing ∨ v.run.state = .lockedOut
        ∨ ∃ t, v.run.settleUntil = some t ∧ reached c.time.now t = false))
    ∨ (∃ h, c.holds[it.segment]? = some (some h)) ∨ c.mode = .configuring

/-- The record of a case after an admission (R65, R66, R70 to R72, R76 to R79): the weight, with 0 for a
duplicate; the ring and the score; the item's list, with the earliest of nine removed; the contributors and the
arc fields; and nothing else. Of two arc times exactly half a day apart, which R28 puts in no one order, the new
one is kept as the first (log 61). -/
def AdmittedAsStated (s : Settings) (k : Case) (it : Item) : Prop :=
  let k' := admitted s k it
  let old := presentOf k it.kind
  let entry : Present := { sensor := it.sensor, timestamp := it.timestamp }
  let held := ∃ q ∈ old, q.sensor = it.sensor
  let listed := it.kind ≠ .arcBursts ∧ it.kind ≠ .tailRestored
  let w := weightOf s k it
  (listed → held → w = 0)
  ∧ (¬ held → (it.kind = .tailDead → w = s.weightTailDead)
      ∧ (it.kind = .headCurrentDrop → w = s.weightHeadCurrentDrop)
      ∧ (it.kind = .headLive → w = s.weightHeadLive) ∧ (it.kind = .groundCurrent → w = s.weightGroundCurrent))
  ∧ (it.kind = .arcBursts → w = s.weightArcBursts)
  ∧ (it.kind = .tailRestored →
      ((∃ q ∈ k.tailDead, q.sensor = it.sensor) → w = -(s.weightTailRestored : Int))
      ∧ (¬ (∃ q ∈ k.tailDead, q.sensor = it.sensor) → w = 0)
      ∧ k'.tailDead = k.tailDead.filter (fun q => q.sensor != it.sensor)
      ∧ k'.contributors = k.contributors ∧ k'.unlisted = k.unlisted)
  ∧ (let ring := k.ring ++ [{ kind := it.kind, sensor := it.sensor, segment := it.segment
                              timestamp := it.timestamp, weight := w, arcs := it.arcs }]
     k'.ring = ring.drop (ring.length - 16))
  ∧ (k'.score : Int) = max 0 (min 4095 (k.score + w))
  ∧ k'.admitted = min 65535 (k.admitted + 1)
  ∧ (listed → held →
      presentOf k' it.kind = old.map fun q => if q.sensor = it.sensor then entry else q)
  ∧ (listed → ¬ held → old.length < 8 → presentOf k' it.kind = old ++ [entry])
  ∧ (listed → ¬ held → 8 ≤ old.length →
      ∀ x ∈ old ++ [entry], (∀ y ∈ old ++ [entry], y ≠ x →
          diffTime x.timestamp y.timestamp < 0 ∧ 0 ≤ diffTime y.timestamp x.timestamp) →
        presentOf k' it.kind = (old ++ [entry]).erase x)
  ∧ (∀ kind, kind ≠ it.kind → (it.kind = .tailRestored → kind ≠ .tailDead) →
      presentOf k' kind = presentOf k kind)
  ∧ (it.kind ≠ .tailRestored →
      (it.sensor ∈ k.contributors → k'.contributors = k.contributors ∧ k'.unlisted = k.unlisted)
      ∧ (it.sensor ∉ k.contributors → k.contributors.length < 8 →
          k'.contributors = k.contributors ++ [it.sensor] ∧ k'.unlisted = k.unlisted)
      ∧ (it.sensor ∉ k.contributors → 8 ≤ k.contributors.length →
          k'.contributors = k.contributors ∧ k'.unlisted = true))
  ∧ (it.kind = .arcBursts →
      k'.arcCount = min 255 (k.arcCount + it.arcs.getD 0)
      ∧ (k.firstArc = none → k'.firstArc = some it.timestamp ∧ k'.lastArc = some it.timestamp)
      ∧ ∀ a b, k.firstArc = some a → k.lastArc = some b →
          k'.firstArc = some (if diffTime it.timestamp a < 0 then it.timestamp else a)
          ∧ k'.lastArc = some (if 0 < diffTime it.timestamp b then it.timestamp else b))
  ∧ (it.kind ≠ .arcBursts →
      k'.arcCount = k.arcCount ∧ k'.firstArc = k.firstArc ∧ k'.lastArc = k.lastArc)
  ∧ k' = { k with
      ring := k'.ring, score := k'.score, admitted := k'.admitted, tailDead := k'.tailDead
      headCurrentDrop := k'.headCurrentDrop, headLive := k'.headLive, groundCurrent := k'.groundCurrent
      contributors := k'.contributors, unlisted := k'.unlisted, arcCount := k'.arcCount
      firstArc := k'.firstArc, lastArc := k'.lastArc }

/-- The record of a case after another has been merged into it (R88): its ring has the other's entries at its
end, in ascending time wherever their timestamps span less than half a day, equals in the order they had; the
other's TAIL_DEAD entries and contributors join in turn, its score and count are added, and nothing else changes.
Where R28 puts timestamps in no one order the choice is the model's: two ring entries exactly half a day apart keep
their order, and of two such TAIL_DEAD timestamps of one sensor the present one is replaced only by a later
(log 61). -/
def MergedAsStated (x z : Case) : Prop :=
  let k := merged x z
  (∃ l : List RingEntry, List.Perm l z.ring
      ∧ (∀ r s : RingEntry, z.ring = [r, s] →
          l = if 0 < diffTime r.timestamp s.timestamp then [s, r] else [r, s])
      ∧ (∀ first : Nat, (∀ r ∈ z.ring, 0 ≤ diffTime r.timestamp first) →
          l.Pairwise (fun r s => diffTime r.timestamp s.timestamp ≤ 0)
          ∧ ∀ t, l.filter (fun r => r.timestamp == t) = z.ring.filter (fun r => r.timestamp == t))
      ∧ k.ring = (x.ring ++ l).drop ((x.ring ++ l).length - 16))
  ∧ k.tailDead = z.tailDead.foldl mergeTailDead x.tailDead
  ∧ (∀ (l : List Present) (p : Present),
      ((∃ q ∈ l, q.sensor = p.sensor) → mergeTailDead l p = l.map fun q =>
          if q.sensor = p.sensor ∧ 0 < diffTime p.timestamp q.timestamp then p else q)
      ∧ (¬ (∃ q ∈ l, q.sensor = p.sensor) → mergeTailDead l p = joinPresent l p)
      ∧ (l.length < 8 → joinPresent l p = l ++ [p]))
  ∧ (let all := z.contributors.foldl contribute x
     k.contributors = all.contributors ∧ k.unlisted = (all.unlisted || z.unlisted))
  ∧ (∀ (y : Case) (a : Nat),
      (a ∈ y.contributors → contribute y a = y)
      ∧ (a ∉ y.contributors → y.contributors.length < 8 →
          contribute y a = { y with contributors := y.contributors ++ [a] })
      ∧ (a ∉ y.contributors → 8 ≤ y.contributors.length → contribute y a = { y with unlisted := true }))
  ∧ k.score = min 4095 (x.score + z.score) ∧ k.admitted = min 65535 (x.admitted + z.admitted)
  ∧ k = { x with
      ring := k.ring, tailDead := k.tailDead, contributors := k.contributors, unlisted := k.unlisted
      score := k.score, admitted := k.admitted }

/-- The head coverage of a segment on a phase (R19): the defined segments that carry the phase, on whose path the
segment lies with no other HEAD sensor on the phase before it. -/
def CoverageAsStated (c : Core) (y : Nat) (ph : Phase) : Prop :=
  ∀ z, z ∈ headCoverage c y ph ↔
    z < 96 ∧ (∃ r, entryAt c.segments z = some r ∧ phaseIn ph r.phases = true) ∧ y ∈ pathOf c.segments z
      ∧ ∀ t ∈ (pathOf c.segments z).takeWhile (· != y),
          ¬ ∃ n v, entryAt c.roster n = some v ∧ v.segment = t ∧ v.side = .head ∧ phaseIn ph v.phases = true

/-- The case that makes room (R74): a WATCH case of the lowest score, of equals the one opened first; none when
no case is in WATCH. -/
def EvicteeAsStated (c : Core) : Prop :=
  let order := c.opened ++ List.range c.cases.length
  (evictee c = none ↔ ∀ n k, entryAt c.cases n = some k → k.state ≠ .watch)
  ∧ ∀ n, evictee c = some n →
      ∃ k, entryAt c.cases n = some k ∧ k.state = .watch
        ∧ ∀ m x, entryAt c.cases m = some x → x.state = .watch →
            k.score < x.score ∨ (k.score = x.score ∧ order.idxOf n ≤ order.idxOf m)

/-! ### The commands of the ports -/

/-- A body is malformed. -/
def isMalformed {α : Type} : Body α → Bool
  | .ok _ => false
  | .malformed => true

/-- A port command as its frame presents it: its port, its kind (R217), its tag, and whether its body is
malformed. -/
structure Sent where
  port : Port
  kind : Nat
  tag : Byte
  malformed : Bool
deriving DecidableEq, Repr

/-- The frame of a port command; none for the events. -/
def sentBy : Instr → Option Sent
  | .identify q tag b => some ⟨q, 0x01, tag, isMalformed b⟩
  | .getStatus q tag b => some ⟨q, 0x02, tag, isMalformed b⟩
  | .resetPort q tag b => some ⟨q, 0x03, tag, isMalformed b⟩
  | .restart q tag b => some ⟨q, 0x04, tag, isMalformed b⟩
  | .setNoticeMask q tag b => some ⟨q, 0x05, tag, isMalformed b⟩
  | .setMode q tag b => some ⟨q, 0x08, tag, isMalformed b⟩
  | .defineSegment q tag b => some ⟨q, 0x09, tag, isMalformed b⟩
  | .deleteSegment q tag b => some ⟨q, 0x0A, tag, isMalformed b⟩
  | .readSegments q tag b => some ⟨q, 0x0B, tag, isMalformed b⟩
  | .bindSensor q tag b => some ⟨q, 0x0C, tag, isMalformed b⟩
  | .unbindSensor q tag b => some ⟨q, 0x0D, tag, isMalformed b⟩
  | .readRoster q tag b => some ⟨q, 0x0E, tag, isMalformed b⟩
  | .defineDevice q tag b => some ⟨q, 0x0F, tag, isMalformed b⟩
  | .deleteDevice q tag b => some ⟨q, 0x10, tag, isMalformed b⟩
  | .readDevices q tag b => some ⟨q, 0x11, tag, isMalformed b⟩
  | .readDiscovery q tag b => some ⟨q, 0x12, tag, isMalformed b⟩
  | .setTime q tag b => some ⟨q, 0x14, tag, isMalformed b⟩
  | .readTime q tag b => some ⟨q, 0x15, tag, isMalformed b⟩
  | .dismissCase q tag b => some ⟨q, 0x18, tag, isMalformed b⟩
  | .closeCase q tag b => some ⟨q, 0x19, tag, isMalformed b⟩
  | .isolateCase q tag b => some ⟨q, 0x1A, tag, isMalformed b⟩
  | .listCases q tag b => some ⟨q, 0x1B, tag, isMalformed b⟩
  | .readCase q tag b => some ⟨q, 0x1C, tag, isMalformed b⟩
  | .definePlan q tag b => some ⟨q, 0x20, tag, isMalformed b⟩
  | .deletePlan q tag b => some ⟨q, 0x21, tag, isMalformed b⟩
  | .readPlans q tag b => some ⟨q, 0x22, tag, isMalformed b⟩
  | .reserve q tag b => some ⟨q, 0x24, tag, isMalformed b⟩
  | .release q tag b => some ⟨q, 0x25, tag, isMalformed b⟩
  | .operate q tag b => some ⟨q, 0x26, tag, isMalformed b⟩
  | .setHold q tag b => some ⟨q, 0x27, tag, isMalformed b⟩
  | .clearHold q tag b => some ⟨q, 0x28, tag, isMalformed b⟩
  | .readClaims q tag b => some ⟨q, 0x29, tag, isMalformed b⟩
  | .readFaultRecord q tag b => some ⟨q, 0x2C, tag, isMalformed b⟩
  | .programCounter q tag b => some ⟨q, 0x30, tag, isMalformed b⟩
  | .clearCounter q tag b => some ⟨q, 0x31, tag, isMalformed b⟩
  | .readCounters q tag b => some ⟨q, 0x32, tag, isMalformed b⟩
  | .readSetting q tag b => some ⟨q, 0x34, tag, isMalformed b⟩
  | .writeSetting q tag b => some ⟨q, 0x35, tag, isMalformed b⟩
  | .saveConfiguration q tag b => some ⟨q, 0x36, tag, isMalformed b⟩
  | .stageOptions q tag b => some ⟨q, 0x37, tag, isMalformed b⟩
  | .burnOptions q tag b => some ⟨q, 0x38, tag, isMalformed b⟩
  | .readOptions q tag b => some ⟨q, 0x39, tag, isMalformed b⟩
  | .unknownKindCommand q tag k => some ⟨q, k.toNat, tag, false⟩
  | _ => none

/-- The options in force let a command come from its port (R188), and a write of AUTHORITY make it AUTO (R210). -/
def portAllows (o : Options) (s : Settings) : Instr → Bool
  | .setMode q _ _ | .setTime q _ _ | .defineSegment q _ _ | .deleteSegment q _ _ | .bindSensor q _ _
  | .unbindSensor q _ _ | .defineDevice q _ _ | .deleteDevice q _ _ | .definePlan q _ _ | .deletePlan q _ _
  | .dismissCase q _ _ | .closeCase q _ _ | .isolateCase q _ _ | .operate q _ _ => q == .a || o.portBControl
  | .writeSetting q _ (.ok x) =>
    q == .a && !(settingId x.group x.index == some .authority
      && maskedWrite s.authority x.value x.mask == 1 && !o.autoPermitted)
  | .writeSetting q _ .malformed | .saveConfiguration q _ _ | .stageOptions q _ _ | .burnOptions q _ _
  | .restart q _ _ => q == .a
  | .readFaultRecord q _ (.ok clear) => q == .a || !clear
  | .programCounter q _ (.ok x) => (q == .a) == decide (x.number < 8)
  | .clearCounter q _ (.ok n) => (q == .a) == decide (n < 8)
  | .readCounters q _ (.ok x) => q == .a || !o.bReadCountersOnly || decide (8 ≤ x.first)
  | _ => true

/-- A command's fields are in their ranges and name things that its form can name: of the conditions on the body
alone, none holds. No command of an unknown kind is such. -/
def fieldsOk (s : Settings) : Instr → Bool
  | .setNoticeMask _ _ (.ok codes) => codes.all fun n => decide (1 ≤ n) && decide (n ≤ 8)
  | .setMode _ _ (.ok m) => m != .halted
  | .setTime _ _ (.ok v) => decide (v < 86400000)
  | .defineSegment _ _ (.ok x) =>
    decide (x.number < 96) && decide (x.parent.getD 0 < 96) && phasesNonempty x.phases
      && decide (x.plan.getD 0 < 48) && decide (x.label < 65536)
  | .deleteSegment _ _ (.ok n) => decide (n < 96)
  | .readSegments _ _ (.ok x) => decide (x.first < 96) && decide (1 ≤ x.count) && decide (x.count ≤ 64)
  | .bindSensor _ _ (.ok x) =>
    decide (1 ≤ x.address) && decide (x.address ≤ 65534) && decide (x.segment < 96) && phasesNonempty x.phases
  | .unbindSensor _ _ (.ok a) => decide (1 ≤ a) && decide (a ≤ 65534)
  | .readRoster _ _ (.ok x) =>
    decide (1 ≤ x.first) && decide (x.first ≤ 65534) && decide (1 ≤ x.count) && decide (x.count ≤ 32)
  | .defineDevice _ _ (.ok x) =>
    decide (x.number < 24) && decide (1 ≤ x.link) && decide (x.link ≤ 254) && decide (x.segment < 96)
  | .deleteDevice _ _ (.ok n) | .reserve _ _ (.ok n) | .release _ _ (.ok n) => decide (n < 24)
  | .definePlan _ _ (.ok x) =>
    decide (x.number < 48) && decide (x.segment < 96) && x.steps.all (fun d => decide (d < 24))
      && decide (1 ≤ x.steps.length) && decide (x.steps.length ≤ 8) && decide (x.fallback.getD 0 < 48)
  | .deletePlan _ _ (.ok n) => decide (n < 48)
  | .readPlans _ _ (.ok x) => decide (x.first < 48) && decide (1 ≤ x.count) && decide (x.count ≤ 16)
  | .dismissCase _ _ (.ok x) | .closeCase _ _ (.ok x) | .isolateCase _ _ (.ok x)
  | .readCase _ _ (.ok x) => decide (x.entry < 32)
  | .operate _ _ (.ok x) => decide (x.device < 24) && x.action != .query
  | .setHold _ _ (.ok x) => decide (x.segment < 96) && decide (x.label < 65536)
  | .clearHold _ _ (.ok n) => decide (n < 96)
  | .programCounter _ _ (.ok x) =>
    decide (x.number < 16) && scopeInRange x.scope && scopeAllowed x.select x.scope
  | .clearCounter _ _ (.ok n) => decide (n < 16)
  | .readCounters _ _ (.ok x) => decide (x.first < 16) && decide (1 ≤ x.count) && decide (x.count ≤ 16)
  | .readSetting _ _ (.ok x) => (settingId x.group x.index).isSome
  | .writeSetting _ _ (.ok x) =>
    match settingId x.group x.index with
    | none => false
    | some i => resultInRange i (maskedWrite (i.get s) x.value x.mask) s
  | .unknownKindCommand _ _ _ => false
  | _ => true

/-- The body has a form that its command can have, and names a setting where it must: what is judged before the
ranges of its fields (R2, R155, R187, R193, R210). No command of an unknown kind is such. -/
def formOk : Instr → Bool
  | .setNoticeMask _ _ (.ok codes) => codes.all fun n => decide (1 ≤ n) && decide (n ≤ 8)
  | .defineSegment _ _ (.ok x) => phasesNonempty x.phases
  | .bindSensor _ _ (.ok x) => phasesNonempty x.phases
  | .definePlan _ _ (.ok x) => decide (1 ≤ x.steps.length) && decide (x.steps.length ≤ 8)
  | .operate _ _ (.ok x) => x.action != .query
  | .readSetting _ _ (.ok x) => (settingId x.group x.index).isSome
  | .writeSetting _ _ (.ok x) => (settingId x.group x.index).isSome
  | .unknownKindCommand _ _ _ => false
  | _ => true

/-- A topology or plan edit (R2, R104, R105). -/
def isEdit : Instr → Bool
  | .defineSegment .. | .deleteSegment .. | .bindSensor .. | .unbindSensor .. | .defineDevice ..
  | .deleteDevice .. | .definePlan .. | .deletePlan .. => true
  | _ => false

/-- A mode serves a command (R2, R159, R189, R214). -/
def modeServes (m : Mode) : Instr → Bool
  | .identify .. | .getStatus .. | .restart .. | .readFaultRecord .. => true
  | .operate .. => m == .monitoring
  | .burnOptions .. => m == .configuring
  | c => if isEdit c then m == .configuring else m != .halted

/-- A command that reads or writes a checked table, or changes the mode, which IM does not let run while it is
recovering (R2, R21, R95, R155, R189, R212). -/
def usesTables : Instr → Bool
  | .setMode .. | .readSegments .. | .readRoster .. | .readDevices .. | .readPlans .. | .listCases ..
  | .readCase .. | .dismissCase .. | .closeCase .. | .isolateCase .. | .reserve .. | .release .. | .operate ..
  | .setHold .. | .clearHold .. | .saveConfiguration .. => true
  | c => isEdit c

/-- A command that a save in progress holds off (R2, R210, R212, R214). -/
def heldBySave : Instr → Bool
  | .writeSetting .. | .saveConfiguration .. | .burnOptions .. => true
  | c => isEdit c

/-- The entry that a case command or an OPERATE names, which it reads before its port is judged, holds what it
names and matches its code (R95, R155, R187). -/
def itemThere (c : Core) : Instr → Bool
  | .dismissCase _ _ (.ok x) | .closeCase _ _ (.ok x) | .isolateCase _ _ (.ok x) =>
    !badAt c.cases x.entry && (entryAt c.cases x.entry).any fun k => k.serial == x.serial
  | .operate _ _ (.ok x) => !badAt c.devices x.device && (entryAt c.devices x.device).isSome
  | _ => true

/-! ### Invariants -/

/-- IN_SERVICE is high exactly when the mode is MONITORING and IM is not recovering, and low in reset and
start-up (R20). -/
def PinAgrees (s : State) : Prop :=
  s.part.inService = true ↔
    s.part.core.mode = .monitoring ∧ s.part.core.recovery.recovering = false
      ∧ s.part.run ≠ .resetAsserted ∧ ∀ w, s.part.run ≠ .startingUp w

/-- A setting lies in its range (R208). -/
def SettingsOk (s : Settings) : Prop :=
  (∀ i : SettingId, i.range.1 ≤ i.get s ∧ i.get s ≤ i.range.2) ∧ s.deadLevel < s.liveLevel

/-- The settings in force, those of the image and those of an image being written lie in their ranges
(R208). -/
def SettingsHeld (s : State) : Prop :=
  SettingsOk s.part.settings ∧ SettingsOk s.part.store.image.settings
    ∧ ∀ img, s.part.save = some img → SettingsOk img.settings

/-- A port's queues and counts keep their capacities (R185, R190, R191, R192). -/
def PortBounded (p : PortState) : Prop :=
  p.ready.length + p.waiting.length ≤ Config.replies ∧ p.notices.length ≤ Config.notices
    ∧ p.overrun ≤ 255 ∧ p.sequence < 256 ∧ p.categories.length = 8
    ∧ ∀ c ∈ p.categories, c.withheld ≤ 255

/-- Both ports keep their capacities. -/
def PortsBounded (s : State) : Prop := PortBounded s.part.portA ∧ PortBounded s.part.portB

/-- There are sixteen counters, and every value is one of 32 bits (R200). -/
def CountersBounded (s : State) : Prop :=
  s.part.counters.length = Config.counters ∧ ∀ c ∈ s.part.counters, c.value < 4294967296

/-- The time base and the good-pulse count lie in their ranges (R27). -/
def TimeBounded (s : State) : Prop :=
  s.part.core.time.now < Config.day ∧ s.part.core.time.good ≤ 3

/-- The fault window holds at most 3 times, fewer than 3 unless the mode is HALTED, and a HALTED part is
not RECOVERING (R171, R172, R180). -/
def WindowBounded (s : State) : Prop :=
  s.part.core.window.length ≤ Config.faultLimit
    ∧ (s.part.core.mode ≠ .halted → s.part.core.window.length < Config.faultLimit)
    ∧ (s.part.core.mode = .halted → s.part.core.recovery.recovering = false)

/-- The intake queue, the discovery list and the order queue keep their capacities, and no two orders are
for one device (R14, R38, R133). -/
def QueuesBounded (s : State) : Prop :=
  s.part.core.intake.length ≤ Config.intake ∧ s.part.core.discovery.length ≤ Config.discovery
    ∧ s.part.core.orders.length ≤ Config.orders ∧ (s.part.core.orders.map (·.device)).Nodup

end Sys2Proof.Machine
end

