-- ==== Sys2Proof/Certificates/Slice0/Obligations.lean ====
section
/-! DEFINITION. The statements put to the provers, one Prop each. -/

open Sys2Proof Sys2Proof.Machine

/-! ### The queue, and what every command shares -/

/-- A step with a command at the front of the queue is that command's execution with the queue's rest. -/
def Obligations.StepRunsFrontCommand : Prop :=
  ∀ (c : Instr) (rest : List Instr) (s : State),
    s.pending = c :: rest → step s = exec c { s with pending := rest }

/-- On an empty queue a step passes one millisecond: the time base wraps at the end of the day, the elapsed
count goes on, and nothing else changes. The idle step is the model's choice (log 2). -/
def Obligations.IdleStepPassesMillisecond : Prop :=
  ∀ s : State, s.pending = [] →
    step s = .next { s with part := { s.part with core := { s.part.core with
      time := { s.part.core.time with
        now := (s.part.core.time.now + 1) % 86400000, elapsed := s.part.core.time.elapsed + 1 } } } }

/-- Every command and event answers a next state, and leaves the waiting commands as they are. -/
def Obligations.ExecAnswersNext : Prop :=
  ∀ (c : Instr) (s : State), ∃ t, exec c s = .next t ∧ t.pending = s.pending

/-- Every command taken gets exactly one reply, of its kind plus 0x80 and with its tag: ready at once, or kept
in its place until its operation completes. The other port gets none. Rests on R186. -/
def Obligations.TakenCommandGetsOneReply : Prop :=
  ∀ (c : Instr) (x : Sent) (s : State), sentBy c = some x → Takes x.port s →
    ∃ t, exec c s = .next t
      ∧ ((∃ code body,
            outgoing (portOf x.port t.part) = outgoing (portOf x.port s.part)
              ++ [{ kind := x.kind + 0x80, tag := x.tag, code := code, body := body }]
            ∧ (portOf x.port t.part).waiting = (portOf x.port s.part).waiting)
        ∨ (∃ op,
            outgoing (portOf x.port t.part) = outgoing (portOf x.port s.part)
            ∧ (portOf x.port t.part).waiting = (portOf x.port s.part).waiting
                ++ [{ op := op, kind := x.kind + 0x80, tag := x.tag }]))
      ∧ outgoing (portOf (otherPort x.port) t.part) = outgoing (portOf (otherPort x.port) s.part)
      ∧ (portOf (otherPort x.port) t.part).waiting = (portOf (otherPort x.port) s.part).waiting

/-- While the part is not running (reset, start-up, or a RESTART taken), a command is discarded and changes
nothing. A command that finds its port's reply queue full is discarded: its port's overrun count increases
by 1, saturating at 255, and its frame is heard without making an ABSENT Port A PRESENT (the last point is
log 9); nothing else changes. -/
def Obligations.CommandDiscarded : Prop :=
  ∀ (c : Instr) (x : Sent) (s : State), sentBy c = some x →
    (s.part.run ≠ .running → exec c s = .next (ended s.part s))
    ∧ (s.part.run = .running → repliesFull (portOf x.port s.part) = true →
        exec c s = .next (ended
          (setPort x.port (fun p => { p with overrun := min 255 (p.overrun + 1) })
            (hearFrame x.port false s.part)) s))

/-- A taken command whose body is malformed is refused REFUSED malformed and changes nothing. -/
def Obligations.MalformedBodyRefused : Prop :=
  ∀ (c : Instr) (x : Sent) (s : State), sentBy c = some x → x.malformed = true → Takes x.port s →
    exec c s = .next (refused x.port x.kind x.tag .malformed s)

/-- The reply selected among the conditions that hold is one of them and has the least rank; there is none
exactly when no condition holds. A lower rank is a class higher in the order of R187, or the same class
and an earlier substatus. Each of the 25 replies has the class that R187 lists it in, by the codes of R218, and the
substatus of its place in that class's list, from 1. ACCEPTED, the lowest class, has substatus 0. Rests on R187,
R218. -/
def Obligations.PriorityRuleSelectsHighest : Prop :=
  (∀ cs : List Condition,
    (select cs = none ↔ ∀ x ∈ cs, x.1 = false)
      ∧ ∀ c, select cs = some c →
          (true, c) ∈ cs ∧ ∀ d, (true, d) ∈ cs → c.rank ≤ d.rank)
  ∧ (∀ c d : ReplyCode, c.rank < d.rank ↔
      (d.cls = 0 ∧ c.cls ≠ 0)
        ∨ (d.cls ≠ 0 ∧ c.cls ≠ 0 ∧ (c.cls < d.cls ∨ (c.cls = d.cls ∧ c.sub < d.sub))))
  ∧ (let listed := fun (k : Nat) (l : List ReplyCode) =>
        ∀ (i : Nat) (c : ReplyCode), l[i]? = some c ↔ c.cls = k ∧ c.sub = i + 1
     listed 1 [.malformed, .unknownKind, .noSuchItem, .outOfRange, .notPermitted, .wrongMode]
     ∧ listed 2 [.notReserved, .segmentHeld, .caseOnPath, .wrongCaseState, .topologyInvalid, .inUse,
         .optionsBurned, .nothingStaged]
     ∧ listed 3 [.tableFull, .orderQueueFull, .planStoreFull]
     ∧ listed 4 [.faultRecovery, .storeFailure]
     ∧ listed 5 [.otherPortInControl, .deviceOrderInFlight, .isolationInProgress, .closeInFlight,
         .saveInProgress]
     ∧ ∀ c : ReplyCode, c.cls = 0 ↔ c = .accepted)
  ∧ ReplyCode.accepted.sub = 0

/-- The end of an event sets the pin by R20 and, while the ports send, gives each port's free transmitter its
frame; it changes nothing else: neither the replies and notices a port owes nor their order, nor its receiver,
waiting replies, masks or overrun count. That frames are taken at the end of an event is log 10. A free
transmitter takes a ready reply before any notice, and the notice it takes carries the next sequence number and
the lost-pending flag, which is cleared. A notice frame has kind 0xE0, the sequence as its tag, and its header
first; a reply frame its own kind and tag, and its class and substatus first. Rests on R20, R186, R191, R217. -/
def Obligations.EndOfEventKeepsStreams : Prop :=
  (∀ (q : Port) (p : Part),
    portOf q (finish p) = (if portsSend p then pump (portOf q p) else portOf q p)
      ∧ (portsSend p = true ↔ p.run = .running ∨ p.run = .restartTaken)
      ∧ (finish p).inService = serviceHigh p
      ∧ (serviceHigh p = true ↔ p.core.mode = .monitoring ∧ p.core.recovery.recovering = false
          ∧ p.run ≠ .resetAsserted ∧ ∀ w, p.run ≠ .startingUp w)
      ∧ outgoing (portOf q (finish p)) = outgoing (portOf q p)
      ∧ noticeStream (portOf q (finish p)) = noticeStream (portOf q p)
      ∧ (portOf q (finish p)).rx = (portOf q p).rx
      ∧ (portOf q (finish p)).waiting = (portOf q p).waiting
      ∧ (portOf q (finish p)).categories = (portOf q p).categories
      ∧ (portOf q (finish p)).overrun = (portOf q p).overrun
      ∧ finish p = { p with
          inService := (finish p).inService, portA := (finish p).portA, portB := (finish p).portB })
  ∧ (∀ (p : PortState) (r : Reply) (rest : List Reply), p.tx = none → p.ready = r :: rest →
      pump p = { p with tx := some (.reply r), ready := rest })
  ∧ (∀ (p : PortState) (n : Notice) (rest : List Notice), p.tx = none → p.ready = [] →
      p.notices = n :: rest →
      pump p = { p with
        tx := some (.notice n ((p.sequence + 1) % 256) p.lostPending)
        notices := rest
        sequence := (p.sequence + 1) % 256
        lostPending := false })
  ∧ (∀ (p : PortState) (f : PortFrame), p.tx = some f → pump p = p)
  ∧ (∀ p : PortState, p.tx = none → p.ready = [] → p.notices = [] → pump p = p)
  ∧ (∀ (n : Notice) (seq : Nat) (lost : Bool), ∃ rest : List Byte,
      portFrameChars (.notice n seq lost) = frameChars 0xE0 (BitVec.ofNat 8 seq)
        (BitVec.ofNat 8 n.category.code :: (if lost then 1#8 else 0#8) :: BitVec.ofNat 8 n.form :: rest))
  ∧ ∀ r : Reply, ∃ rest : List Byte,
      portFrameChars (.reply r) = frameChars r.kind r.tag
        (BitVec.ofNat 8 r.code.cls :: BitVec.ofNat 8 r.code.sub :: rest)

/-- A notice offered to a port that does not mask its category joins the queue at the newest end; at 32
notices the oldest is removed and lost-pending is set. When the category is masked it is not queued: the
latch is set and the withheld count increases by 1, saturating at 255. Rests on R190, R192. -/
def Obligations.NoticeOfferedUnderMask : Prop :=
  ∀ (n : Notice) (p : PortState), p.categories.length = 8 →
    (n.category = .summary ∨ (∃ c, p.categories[n.category.code - 1]? = some c ∧ c.mask = false) →
      (p.notices.length < 32 → offer n p = { p with notices := p.notices ++ [n] })
      ∧ (32 ≤ p.notices.length →
          offer n p = { p with notices := p.notices.drop 1 ++ [n], lostPending := true }))
    ∧ ∀ c, n.category ≠ .summary → p.categories[n.category.code - 1]? = some c → c.mask = true →
        let c' : CategoryState := { mask := true, latch := true, withheld := min 255 (c.withheld + 1) }
        offer n p = { p with categories := p.categories.set (n.category.code - 1) c' }

/-- The refusals that many commands share. Each changes nothing, and each is shown for every command with a well
formed body. A command with a field outside its range is refused out-of-range in every mode, on either port, in
recovery and during a save (R2, R5, R9, R21, R30, R95, R106, R155, R204, R210; for the count of READ_COUNTERS it is
log 54). A command that its port may not send is refused not-permitted: on Port B without PORT_B_CONTROL every command
that controls the feeder, whatever the options the clear of the fault record, the writes of settings, RESTART and
the store and options commands, on either port a change of a counter of the other's group, and with
B_READ_COUNTERS_ONLY a Port B read of Port A's counters (R188), and a write that would make AUTHORITY AUTO while
AUTO_PERMITTED is clear (R210). In HALTED every other command but IDENTIFY, GET_STATUS, READ_FAULT_RECORD and
RESTART is refused wrong-mode (R189), as is an edit or a BURN_OPTIONS outside CONFIGURING and an OPERATE outside
MONITORING (R2, R159, R214). In recovery a command on a checked table is answered UNAVAILABLE fault-recovery (R2,
R21, R95, R155, R189, R212). During a save an edit, a write of a setting, a second save and a burn are answered BUSY
save-in-progress (R2, R210, R212, R214). Where an edit names an item that is not there, or conflicts with the state
of the part, that these conditions are judged before that is log 8; a case command or an OPERATE is shown with the
item there, or where no entry is read, in recovery and HALTED; that a case or claim command reads no entry there, so
that one of an item that is not there gives these replies, is log 34. -/
def Obligations.PortAndModeRefusals : Prop :=
  ∀ (c : Instr) (x : Sent) (s : State), sentBy c = some x → x.malformed = false → Takes x.port s →
    let p := s.part
    let refusedAs := fun code : ReplyCode => exec c s = .next (refused x.port x.kind x.tag code s)
    let allowed := portAllows p.inForce.options p.settings c = true
    (formOk c = true → fieldsOk p.settings c = false → refusedAs .outOfRange)
    ∧ (fieldsOk p.settings c = true →
      (portAllows p.inForce.options p.settings c = false → itemThere p.core c = true ∨ ¬ Healthy s →
        refusedAs .notPermitted)
      ∧ (p.core.mode = .halted → allowed → x.kind ∉ [0x01, 0x02, 0x04, 0x2C] → refusedAs .wrongMode)
      ∧ (allowed → modeServes p.core.mode c = false → itemThere p.core c = true ∨ ¬ Healthy s →
        refusedAs .wrongMode)
      ∧ (allowed → modeServes p.core.mode c = true → p.core.recovery.recovering = true →
        usesTables c = true → refusedAs .faultRecovery)
      ∧ (allowed → modeServes p.core.mode c = true → p.save.isSome = true → heldBySave c = true →
        usesTables c = false ∨ p.core.recovery.recovering = false →
        (x.kind = 0x38 → p.options.burned = false ∧ p.burning = false ∧ p.staged.isSome = true) →
        refusedAs .saveInProgress))

/-! ### Invariants -/

/-- The part right after reset: never saved or burned, CONFIGURING, IN_SERVICE low, time UNSET at 0, every
table and queue empty, no counter programmed, and no command waiting. That this is the state of reset is
the model's choice (log 5). The invariants hold there. -/
def Obligations.ResetState : Prop :=
  State.reset.pending = [] ∧ State.reset.part.run = .running
    ∧ State.reset.part.core.mode = .configuring ∧ State.reset.part.inService = false
    ∧ State.reset.part.core.time
        = { now := 0, lock := .unset, good := 0, lastPulse := none, elapsed := 0 }
    ∧ (∀ n, entryAt State.reset.part.core.segments n = none)
    ∧ (∀ n, entryAt State.reset.part.core.roster n = none)
    ∧ (∀ n, entryAt State.reset.part.core.devices n = none)
    ∧ (∀ n, entryAt State.reset.part.core.plans n = none)
    ∧ (∀ n, entryAt State.reset.part.core.cases n = none)
    ∧ AllSound State.reset.part.core
    ∧ State.reset.part.core.orders = [] ∧ State.reset.part.core.intake = []
    ∧ State.reset.part.core.items = [] ∧ State.reset.part.core.walks = []
    ∧ State.reset.part.core.record = FaultRecord.empty ∧ State.reset.part.core.window = []
    ∧ (∀ c ∈ State.reset.part.counters, c = Counter.clear)
    ∧ State.reset.part.settings = Settings.default ∧ State.reset.part.store.valid = false
    ∧ State.reset.part.portA = PortState.powerOn ∧ State.reset.part.portB = PortState.powerOn
    ∧ PinAgrees State.reset ∧ SettingsHeld State.reset ∧ PortsBounded State.reset
    ∧ CountersBounded State.reset ∧ TimeBounded State.reset ∧ WindowBounded State.reset
    ∧ QueuesBounded State.reset

/-- Every command and event leaves IN_SERVICE high exactly when the mode is MONITORING and the Integrity
Monitor is not recovering, and low in reset and start-up, whatever it was before; and a step keeps it so
(R20). -/
def Obligations.PinFollowsModeAndRecovery : Prop :=
  (∀ (c : Instr) (s t : State), exec c s = .next t → PinAgrees t)
    ∧ ∀ s t : State, PinAgrees s → step s = .next t → PinAgrees t

/-- Every step keeps every setting, in force, in the store and in an image being written, in its range, and
LIVE_LEVEL above DEAD_LEVEL. Rests on R208. -/
def Obligations.SettingsStayInRange : Prop :=
  ∀ s t : State, SettingsHeld s → step s = .next t → SettingsHeld t

/-- Every step keeps each port's reply queue within 8, its notice queue within 32, and its counts in their
ranges. Rests on R185, R190, R191, R192. -/
def Obligations.PortQueuesStayBounded : Prop :=
  ∀ s t : State, PortsBounded s → step s = .next t → PortsBounded t

/-- Every step keeps sixteen counters of 32-bit values (R200, R202), and the time base below the length of the
day and the good-pulse count within 3. Rests on R27. -/
def Obligations.CountersAndTimeStayInRange : Prop :=
  (∀ s t : State, CountersBounded s → step s = .next t → CountersBounded t)
    ∧ ∀ s t : State, TimeBounded s → step s = .next t → TimeBounded t

/-- Every step keeps the fault window within 3 times, fewer outside HALTED, and a HALTED part out of recovery.
Rests on R171, R172, R180. -/
def Obligations.FaultWindowHaltsPart : Prop :=
  ∀ s t : State, WindowBounded s → step s = .next t → WindowBounded t

/-- Every step keeps the intake queue within 24, the discovery list within 8 and the order queue within 16,
with at most one order for each device. Rests on R14, R38, R133. -/
def Obligations.BlockQueuesStayBounded : Prop :=
  ∀ s t : State, QueuesBounded s → step s = .next t → QueuesBounded t

/-! ### Operations -/

/-- Times of day are combined with wrap at midnight, and their difference lies between minus half a day and
just under half a day. Rests on R28. -/
def Obligations.TimesOfDayWrap : Prop :=
  (∀ t d : Nat, addTime t d = (t + d) % 86400000)
    ∧ (∀ (t : Nat) (d : Int), ((moveTime d t : Nat) : Int) = ((t : Int) + d) % 86400000)
    ∧ (∀ a b : Nat,
        diffTime a b = (if ((a : Int) - b) % 86400000 < 43200000 then ((a : Int) - b) % 86400000
          else ((a : Int) - b) % 86400000 - 86400000)
        ∧ -43200000 ≤ diffTime a b ∧ diffTime a b ≤ 43199999)
    ∧ (∀ now e : Nat, reached now e = true ↔ 0 ≤ diffTime now e)
    ∧ diffTime 50 86399900 = 150

/-- A sequence is newer than a last sequence when their difference modulo 65536 lies in 1–32767; without a
last sequence the test is not applied (R41). -/
def Obligations.SequenceNewerWraps : Prop :=
  (∀ s l : Nat, s < 65536 → l < 65536 →
    (newer s l = true ↔ (((s : Int) - l) % 65536 ≠ 0 ∧ ((s : Int) - l) % 65536 ≤ 32767)))
    ∧ newer 0 65535 = true ∧ newer 65535 65535 = false
    ∧ ∀ (env : Env) (t : TimeBase) (v : Sensor) (r : Report) (x : Nat), v.lastSequence = none →
        reportPasses env t v r = reportPasses env t v { r with sequence := x }

/-- Every frame the layouts make, of a kind of one character and a body of at most 480, is read back as the
kind, tag and body it was made of (R183), and a receiver in HUNT that takes its characters hands on that one
frame and is in HUNT again. The check of the characters 1 to 9 is the one the polynomial 0x1021 from 0xFFFF
gives. The codes of phases, phase sets, actions, device states, refusal reasons and selects are read back as what
they code (R201, R218). On the ports these codes are those of the fields, wherever a body holds them: shown for
DEFINE_SEGMENT, whose parent and plan are absent as 0xFF, OPERATE, the fields of an ORDER, a CASE, a DEVICE and a
COUNTER notice, and those of a listed segment. Which characters of a command are a field's, and how fields make a
body, is left open (log 7, log 28). Rests on R183, R184, R201, R216, R218. -/
def Obligations.FrameReadBack : Prop :=
  (∀ (kind : Nat) (tag : Byte) (body : List Byte), kind < 256 → body.length ≤ 480 →
    parseFrame (frameChars kind tag body) = some { kind := kind, tag := tag, body := body })
  ∧ (∀ (now kind : Nat) (tag : Byte) (body : List Byte), kind < 256 → body.length ≤ 480 →
    receiveChars now .hunt (clean (frameChars kind tag body))
      = (.hunt, [{ kind := kind, tag := tag, body := body }]))
  ∧ (∀ p : Phase, phaseOfCode (phaseCode p) = some p)
  ∧ (∀ s : PhaseSet, phasesNonempty s = true → phasesOfCode (phasesCode s) = some s)
  ∧ (∀ a : Action, actionOfCode (actionCode a) = some a)
  ∧ (∀ s : DeviceState, s ≠ .unknown → reportedState (deviceStateCode s) = some s)
  ∧ deviceStateCode .unknown = 0
  ∧ (∀ r : RefusalReason, refusalOfCode (refusalCode r) = some r)
  ∧ (∀ x : EventSelect, selectOfCode (selectCode x) = some x)
  ∧ (∀ number parent phases plan l0 l1 : Byte,
      let read := segmentEditOf [[number], [parent], [phases], [plan], [l0, l1]]
      (phasesOfCode phases.toNat = none → read = none)
      ∧ ∀ ps, phasesOfCode phases.toNat = some ps → read = some
          { number := number.toNat, phases := ps, label := l0.toNat + 256 * l1.toNat
            parent := if parent = 0xFF#8 then none else some parent.toNat
            plan := if plan = 0xFF#8 then none else some plan.toNat })
  ∧ (∀ device action : Byte,
      operateRequestOf [[device], [action]]
        = (actionOfCode action.toNat).map fun a => { device := device.toNat, action := a })
  ∧ (∀ n : OrderNotice,
      (noticeFields (.order n))[3]? = some [BitVec.ofNat 8 (actionCode n.action)]
      ∧ (noticeFields (.order n))[5]? = some [BitVec.ofNat 8 (deviceStateCode n.state)]
      ∧ (noticeFields (.order n))[7]? = some [match n.refusal with
          | some r => BitVec.ofNat 8 (refusalCode r)
          | none => 0xFF#8])
  ∧ (∀ n : CaseNotice,
      (noticeFields (.caseChange n))[2]? = some [BitVec.ofNat 8 (n.segment.getD 0xFF)]
      ∧ (noticeFields (.caseChange n))[3]? = some [match n.phase with
          | some p => BitVec.ofNat 8 (phaseCode p)
          | none => 0xFF#8]
      ∧ (noticeFields (.caseChange n))[8]? = some [BitVec.ofNat 8 (n.device.getD 0xFF)])
  ∧ (∀ device link old new cause reachable time,
      (noticeFields (.deviceState device link old new cause reachable time)).take 4
        = [[BitVec.ofNat 8 device], [BitVec.ofNat 8 link], [BitVec.ofNat 8 (deviceStateCode old)],
           [BitVec.ofNat 8 (deviceStateCode new)]])
  ∧ (∀ number select scope value time,
      (noticeFields (.counter number select scope value time))[1]? = some [BitVec.ofNat 8 (selectCode select)])
  ∧ (∀ (n : Nat) (v : Segment),
      (segmentFields (n, v))[1]? = some [BitVec.ofNat 8 (v.parent.getD 0xFF)]
      ∧ (segmentFields (n, v))[2]? = some [BitVec.ofNat 8 (phasesCode v.phases)])
  ∧ frameCheck [0x31#8, 0x32#8, 0x33#8, 0x34#8, 0x35#8, 0x36#8, 0x37#8, 0x38#8, 0x39#8] = 0x29B1#16
  ∧ frameCheck [] = 0xFFFF#16

/-- The BROKEN condition of a case (R80). -/
def Obligations.BrokenCondition : Prop :=
  ∀ (s : Settings) (lock : LockState) (k : Case),
    isBroken s lock k = true ↔
      k.tailDead ≠ []
        ∧ (∃ d ∈ k.headCurrentDrop, ∃ t ∈ k.tailDead,
            diffTime d.timestamp t.timestamp ≤ s.alignWindow
              ∧ diffTime t.timestamp d.timestamp ≤ s.alignWindow)
        ∧ k.headLive ≠ [] ∧ 2 ≤ k.contributors.length ∧ lock = .locked

/-- The DOWNED condition of a case (R81). -/
def Obligations.DownedCondition : Prop :=
  ∀ (s : Settings) (k : Case),
    isDowned s k = true ↔
      s.arcPersistence ≤ k.arcCount
        ∧ (∃ first last, k.firstArc = some first ∧ k.lastArc = some last
            ∧ (s.arcSpread : Int) ≤ diffTime last first)
        ∧ k.groundCurrent ≠ []

/-- The confirmation test of a case that stands in WATCH: with neither condition it stays as it is; with
either it is CONFIRMED with its finding, its isolation record is made, its CASE notice is sent, its
confirmation and its admitted count are counted, and it is to be passed to IS. Rests on R82, R83. -/
def Obligations.ConfirmationTest : Prop :=
  ∀ (env : Env) (n : Nat) (k : Case) (e : Ev), entryAt e.cases n = some k → k.state = .watch →
    k.unreadable = [] →
    let b := isBroken env.settings e.time.lock k
    let d := isDowned env.settings k
    (b = false → d = false → confirmTest env n e = e)
    ∧ ∀ f : Finding,
        (b = true ∧ d = true ∧ f = .brokenAndDowned ∨ b = true ∧ d = false ∧ f = .broken
          ∨ b = false ∧ d = true ∧ f = .downed) →
        let k' : Case := { k with
          state := .confirmed, finding := some f
          isolation := some { confirmedAt := e.time.now, plan := none, step := 0, depth := 0,
                              late := false, isolatedBy := none } }
        confirmTest env n e = { e with
          cases := e.cases.set n { content := some k', check := 0 }
          counted := e.counted.set n (some .confirmed)
          out := e.out ++ [.tell .both (.caseChange
            { entry := n, serial := k.serial, segment := some k.segment, phase := some k.phase
              old := some .watch, new := some .confirmed, finding := some f, reason := .confirmed
              device := none, time := e.time.now }),
            .count { select := .casesConfirmed, amount := 1, segment := some k.segment, sensor := none
                     device := none },
            .count { select := .evidenceConfirming, amount := k.admitted, segment := some k.segment
                     sensor := none, device := none }]
          confirmedNow := e.confirmedNow ++ [n] }

/-- An occurrence adds its amount to every counter whose select and scope match, modulo 2 to the 32; a sum
that reaches that number sets overflow. Every other counter stands. A wrap with notice on overflow set raises
a COUNTER notice to the owning port alone, with the counter's number, select and scope, its value after the
wrap and the time; the notices of one occurrence ascend in counter number, and stand among the event's notices
where the occurrence stands. Where one event wraps several counters of a group, their notices ascend among
the places where they stand, and every other notice keeps its place; these places are log 11. Rests on R201,
R202. -/
def Obligations.OccurrenceAddsToMatchingCounters : Prop :=
  (∀ (now : Nat) (o : Occurrence) (cs : List Counter) (n : Nat) (c : Counter), cs[n]? = some c →
    let matching := c.select ≠ .none ∧ c.select = o.select
      ∧ (c.scope = .all ∨ (∃ x, c.scope = .segment x ∧ o.segment = some x)
        ∨ (∃ x, c.scope = .sensor x ∧ o.sensor = some x)
        ∨ (∃ x, c.scope = .device x ∧ o.device = some x))
    (follows c o = true ↔ matching)
    ∧ (matching → (countOccurrence now o cs).1[n]? = some { c with
      value := (((c.value : Int) + o.amount) % 4294967296).toNat
      overflow := c.overflow || decide (4294967296 ≤ (c.value : Int) + o.amount) })
    ∧ (¬ matching → (countOccurrence now o cs).1[n]? = some c))
  ∧ (∀ (now : Nat) (o : Occurrence) (xs : List Emit) (cs : List Counter),
    let wrapTold := fun n : Nat => (cs[n]?).bind fun c =>
      if follows c o && c.notify && decide (4294967296 ≤ (c.value : Int) + o.amount) then
        some (Dest.only (if n < 8 then .a else .b),
          Notice.counter n c.select c.scope (((c.value : Int) + o.amount) % 4294967296).toNat now)
      else none
    emissions now (.count o :: xs) cs =
      ((emissions now xs (countOccurrence now o cs).1).1,
        (List.range cs.length).filterMap wrapTold ++ (emissions now xs (countOccurrence now o cs).1).2))
  ∧ (∀ (now : Nat) (d : Dest) (n : Notice) (xs : List Emit) (cs : List Counter),
    emissions now (.tell d n :: xs) cs = ((emissions now xs cs).1, (d, n) :: (emissions now xs cs).2))
  ∧ (∀ (now : Nat) (cs : List Counter), emissions now [] cs = (cs, []))
  ∧ ∀ l : List (Dest × Notice),
    List.Perm (inOrder l) l
      ∧ (∀ (i : Nat) (x : Dest × Notice), l[i]? = some x → (∀ q, wrapOf q x = none) →
          (inOrder l)[i]? = some x)
      ∧ ∀ q, List.Pairwise (· ≤ ·) ((inOrder l).filterMap (wrapOf q))

/-! ### The commands of the ports -/

/-- IDENTIFY, GET_STATUS and READ_FAULT_RECORD are served in every mode and during recovery. The first two
change nothing; READ_FAULT_RECORD with its clear field, on Port A, empties the record and the window,
after the reply has taken them. Rests on R181, R196, R197. -/
def Obligations.CommandsServedInEveryMode : Prop :=
  ∀ (q : Port) (tag : Byte) (s : State), Takes q s →
    let p := heard q s
    let c := p.core
    let record : ReplyBody := .faultRecord c.record c.window c.recovery.recovering c.mode
    exec (.identify q tag (.ok ())) s = .next (replied q 0x01 tag .accepted
      (.identity "Ermija" "LW2240" Config.stepCode p.inForce c.mode) p s)
    ∧ exec (.getStatus q tag (.ok ())) s = .next (replied q 0x02 tag .accepted
        (.status
          { mode := c.mode, recovering := c.recovery.recovering, saving := p.save.isSome
            lock := c.time.lock, portAAbsent := c.supervision.absent, counts := caseCounts c
            orders := c.orders.length
            ordersSent := (c.orders.filter fun o => o.state == .sent).length
            intake := c.intake.length
            notices := (portOf q p).notices.length, lostPending := (portOf q p).lostPending
            masks := (portOf q p).categories.map (·.mask)
            latches := (portOf q p).categories.map (·.latch), overrun := (portOf q p).overrun }) p s)
    ∧ exec (.readFaultRecord q tag (.ok false)) s = .next (replied q 0x2C tag .accepted record p s)
    ∧ (q = .a → exec (.readFaultRecord q tag (.ok true)) s = .next (replied q 0x2C tag .accepted record
        { p with core := { c with record := FaultRecord.empty, window := [] } } s))

/-- RESET_PORT empties its port's notice queue, clears lost-pending, the sequence, the masks and the overrun
count, releases the port's reservations and tells the other port alone. When its own frame has made an ABSENT Port
A PRESENT, that the PRESENT notice is emptied on Port A with the queue is log 56. SET_NOTICE_MASK masks the
categories named; one it unmasks with its latch set has its SUMMARY notice queued and its latch and count cleared,
several SUMMARY notices in the order of their categories. Rests on R158, R190, R193, R194, R198. -/
def Obligations.PortNoticeCommands : Prop :=
  ∀ (q : Port) (tag : Byte) (s : State), Takes q s → s.part.core.mode ≠ .halted →
    let p := heard q s
    let c := p.core
    exec (.resetPort q tag (.ok ())) s = .next (replied q 0x03 tag .accepted .empty
      (offerTo (.only (otherPort q)) (.portReset q (c.reservations.count (some q)) c.time.now)
        (setPort q (fun x => { x with
            notices := [], lostPending := false, sequence := 0, overrun := 0
            categories := List.replicate 8 { mask := false, latch := false, withheld := 0 } })
          { p with core := { c with
              reservations := c.reservations.map fun r => if r = some q then none else r } })) s)
    ∧ ∀ codes : List Nat, (∀ n ∈ codes, 1 ≤ n ∧ n ≤ 8) →
        let old := (portOf q p).categories
        let new := List.zipWith (fun (n : Nat) (x : CategoryState) =>
          if n ∈ codes then { x with mask := true }
          else if x.mask then { mask := false, latch := false, withheld := 0 } else x)
          [1, 2, 3, 4, 5, 6, 7, 8] old
        ∃ t, exec (.setNoticeMask q tag (.ok codes)) s = .next t
          ∧ Answered q 0x05 tag .accepted (.masks new) s t ∧ KeepsRest s t
          ∧ t.part.core = c
          ∧ (portOf q t.part).categories = new
          ∧ noticeStream (portOf (otherPort q) t.part) = noticeStream (portOf (otherPort q) p)
          ∧ ((∀ x ∈ old, x.mask = true → x.latch = false) →
              noticeStream (portOf q t.part) = noticeStream (portOf q p))
          ∧ (∀ i x cat, old[i]? = some x → x.mask = true → x.latch = true → maskable (i + 1) = some cat →
              i + 1 ∉ codes → (portOf q p).notices.length + 8 ≤ 32 →
              Notice.summary cat x.withheld ∈ noticeStream (portOf q t.part))
          ∧ ((portOf q p).notices.length + 8 ≤ 32 →
              noticeStream (portOf q t.part) = noticeStream (portOf q p) ++
                ((List.range 8).filterMap fun i =>
                  match old[i]?, maskable (i + 1) with
                  | some x, some cat =>
                    if x.mask ∧ x.latch ∧ i + 1 ∉ codes then some (Notice.summary cat x.withheld) else none
                  | _, _ => none))

/-- RESTART is accepted on Port A and the part takes no more commands. The end of a frame frees its port's
transmitter; the end of the RESTART reply makes the restart due, and it then begins. Both ports are as after
power-on, but for a frame being sent: queues emptied, waiting replies discarded, masks, latches, counts, sequences
and lost-pending flags cleared, receivers in HUNT, and Port A is PRESENT. The options of the record come into force,
the tables and the settings are loaded and the mode is chosen as at power-on, the counters, but for the sends they
count, and the fault record are kept, the window is emptied, and the part runs again with no notice queued. A burn
or a save in progress is not stopped, and start-up waits for it, the options taken before the save is waited for. At
any other time RESTART_BEGIN changes nothing. That a start-up that need not wait is one event is log 20, that a frame
being sent is kept over the restart is log 19, that the elapsed count goes on is log 2, and that the polls of its
start-up count their sends and raise no notice is log 50. Rests on R148, R184, R186, R199, R212, R214, R215. -/
def Obligations.RestartSequence : Prop :=
  (∀ (tag : Byte) (s : State), Takes .a s →
    exec (.restart .a tag (.ok ())) s = .next
      (replied .a 0x04 tag .accepted .empty { heard .a s with run := .restartTaken } s))
  ∧ (∀ (q : Port) (s : State), (portOf q s.part).tx = none →
      exec (.portTransmitEnd q) s = .next (ended s.part s))
  ∧ (∀ (q : Port) (f : PortFrame) (s : State), (portOf q s.part).tx = some f →
      let p := setPort q (fun x => { x with tx := none }) s.part
      let isReply := ∃ r, f = .reply r ∧ r.kind = 0x84 ∧ r.code = .accepted
      (s.part.run = .restartTaken → isReply →
        exec (.portTransmitEnd q) s = .next (ended { p with run := .restartDue } s))
      ∧ (s.part.run ≠ .restartTaken ∨ ¬ isReply →
        exec (.portTransmitEnd q) s = .next (ended p s)))
  ∧ ∀ s : State,
    let begun : Part :=
      { s.part with
        portA := { PortState.powerOn with tx := s.part.portA.tx }
        portB := { PortState.powerOn with tx := s.part.portB.tx }
        core := { s.part.core with supervision := { s.part.core.supervision with absent := false } } }
    (s.part.run = .restartDue → s.part.burning = false → s.part.save = none →
      ∃ t, exec .restartBegin s = .next t ∧ StartedAs s.part.options s t
        ∧ ∀ q, portOf q t.part = { PortState.powerOn with tx := (portOf q s.part).tx })
    ∧ (s.part.run = .restartDue → s.part.burning = true →
      exec .restartBegin s = .next (ended { begun with run := .startingUp .burn } s))
    ∧ (s.part.run = .restartDue → s.part.burning = false → s.part.save.isSome = true →
      exec .restartBegin s = .next
        (ended { begun with inForce := s.part.options, run := .startingUp .save } s))
    ∧ (s.part.run ≠ .restartDue → exec .restartBegin s = .next (ended s.part s))

/-- POWER_ON holds the part in reset from any state: a save or a burn in progress is cut short, and the ports, the
counters, the fault record and the window are cleared. START_UP then takes the options of the record, loads the
tables from a valid store and empties them without one, clears the blocks' state and chooses the mode: MONITORING,
outside QUIET_START, exactly when the loaded tables pass the checks. A loaded sensor is WAITING, heard at time 0 and
without a sequence; a loaded device has its power-on fields; in MONITORING every device is due at the time base 0,
and as many are polled as the queue takes; that their sends are counted and raise no notice is log 50. With RESET_IN
not asserted START_UP changes nothing. A start-up that waits for a burn goes on at its completion, with the record
it has written, and one that waits for a save at the save's, with the store it has written and the options taken
before; a save that completes while the burn is still waited for ends there, and no reply is sent for either when
none waits. What the assertion of RESET_IN clears is log 19, that a save cut short leaves the image's content is log
18, that start-up, or what is left of it after a wait, is one event is log 20, and that the elapsed count goes on is
log 2. Rests on R20, R26, R129, R147, R148, R184, R194, R200, R212, R214, R215. -/
def Obligations.PowerOnAndStartUp : Prop :=
  (∀ s : State, ∃ t, exec .powerOn s = .next t ∧ t.pending = s.pending
    ∧ t.part.run = .resetAsserted ∧ t.part.inService = false
    ∧ t.part.save = none ∧ t.part.burning = false ∧ t.part.staged = none
    ∧ t.part.store = (if s.part.save.isSome then { s.part.store with codeMatches := false } else s.part.store)
    ∧ t.part.options = (if s.part.burning then { burned := false, options := clearOptions }
        else s.part.options)
    ∧ t.part.portA = PortState.powerOn ∧ t.part.portB = PortState.powerOn
    ∧ t.part.counters = List.replicate 16 Counter.clear
    ∧ t.part.core.record = FaultRecord.empty ∧ t.part.core.window = [])
  ∧ (∀ s : State, s.part.run = .resetAsserted → s.part.burning = false → s.part.save = none →
      ∃ t, exec .startUp s = .next t ∧ StartedAs s.part.options s t)
  ∧ (∀ s : State, s.part.run ≠ .resetAsserted → exec .startUp s = .next (ended s.part s))
  ∧ (∀ (written : Bool) (s : State), s.part.burning = true → s.part.run = .startingUp .burn →
      let record : OptionsRecord :=
        if written then { burned := true, options := s.part.staged.getD clearOptions }
        else { burned := false, options := clearOptions }
      let burned : Part := { s.part with
        burning := false, options := record, staged := if written then none else s.part.staged }
      (s.part.save = none → ∃ t, exec (.burnCompletion written) s = .next t
        ∧ StartedAs record { s with part := burned } t)
      ∧ (s.part.save.isSome = true → exec (.burnCompletion written) s = .next
          (ended (replyWaiting .burn (if written then .accepted else .storeFailure)
            { burned with inForce := record, run := .startingUp .save }) s)))
  ∧ (∀ (written reloadOk : Bool) (img : Image) (s : State), s.part.save = some img →
      let stored : Part := { s.part with
        save := none, store := { image := img, codeMatches := written, valid := written } }
      (s.part.run = .startingUp .save → s.part.burning = false →
        ∃ t, exec (.saveCompletion written reloadOk) s = .next t
          ∧ StartedAs s.part.inForce { s with part := stored } t)
      ∧ (s.part.run = .startingUp .burn → exec (.saveCompletion written reloadOk) s = .next
          (ended (replyWaiting .save (if written then .accepted else .storeFailure) stored) s)))
  ∧ ∀ (op : StoreOp) (code : ReplyCode) (p : Part), (∀ q, (portOf q p).waiting = []) →
      replyWaiting op code p = p

/-! ### The Feeder Description -/

/-- SET_MODE to the present mode changes nothing. SET_MODE MONITORING in CONFIGURING runs the validation: with a
failing check it is refused with the check and its item, else the mode changes, every device whose state is UNKNOWN
or that is unreachable becomes due for polling at once, and in the same event those without an order are polled in
ascending number while the queue has room, the first of them sent when the link is free. A bad entry matters only
where the checks meet it: with check 1 failing the other tables are not read (log 6). The checks are those of R23,
the first that fails reported, and a plan is judged on the plan checks of R107; that one whose chain runs into an
undefined plan fails them is log 42. Rests on R21, R22, R23, R107, R135, R136, R147, R148. -/
def Obligations.SetModeMonitoring : Prop :=
  (∀ (q : Port) (tag : Byte) (s : State), Takes q s → Controls q s →
    s.part.core.recovery.recovering = false →
    let p := heard q s
    let c := p.core
    (∀ m, m = c.mode → m ≠ .halted →
      exec (.setMode q tag (.ok m)) s = .next (replied q 0x08 tag .accepted .empty p s))
    ∧ (c.mode = .configuring → Sound c.segments →
        (∀ item, check1 c = some item →
          exec (.setMode q tag (.ok .monitoring)) s = .next
            (replied q 0x08 tag .topologyInvalid (.validation 1 item) p s)))
    ∧ (c.mode = .configuring → Sound c.segments → Sound c.roster → Sound c.devices → Sound c.plans →
        (∀ check item, validation c = some (check, item) →
          exec (.setMode q tag (.ok .monitoring)) s = .next
            (replied q 0x08 tag .topologyInvalid (.validation check item) p s))
        ∧ (validation c = none → c.linkTx.isSome = true ∨ c.orders = [] →
          let begun := pollsBegun p.settings { c with mode := .monitoring }
          exec (.setMode q tag (.ok .monitoring)) s = .next
            (replied q 0x08 tag .accepted .empty (outcome begun.1 begun.2 p) s))))
  ∧ ∀ c : Core,
    let checks := [check1 c, check2 c, check3 c, check4 c, check5 c, check6 c, check7 c, check8 c]
    (validation c = none ↔ ∀ r ∈ checks, r = none)
      ∧ (∀ check item, validation c = some (check, item) ↔
          1 ≤ check ∧ checks[check - 1]? = some (some item)
            ∧ ∀ i, i < check - 1 → checks[i]? = some none)
      ∧ ChecksAsStated c ∧ PlanChecksAsStated c

/-- SET_MODE CONFIGURING in MONITORING is BUSY while a case is CONFIRMED or ISOLATING. Otherwise the mode
changes, every WATCH case is freed WITHDRAWN with its notice and counted as closed unconfirmed, in ascending
entry number, every other case stands, no device waits for a poll any more, and nothing else changes but that a
QUEUED POLL order is withdrawn, without a notice. That its device entry is read before the mode changes, so that
one which does not match turns the command away UNAVAILABLE fault-recovery, the fault being handled and the mode,
the cases and the orders left as they were but for HALTED, is log 33. Rests on R2, R24, R84, R134, R147, R169. -/
def Obligations.SetModeConfiguring : Prop :=
  ∀ (q : Port) (tag : Byte) (s : State), Takes q s → Controls q s →
    s.part.core.recovery.recovering = false → s.part.core.mode = .monitoring →
    let p := heard q s
    let c := p.core
    Sound c.cases → (∀ n k, entryAt c.cases n = some k → k.unreadable = []) →
    ((∃ n k, entryAt c.cases n = some k ∧ (k.state = .confirmed ∨ k.state = .isolating)) →
      exec (.setMode q tag (.ok .configuring)) s = .next
        (refused q 0x08 tag .isolationInProgress s))
    ∧ ((∀ n k, entryAt c.cases n = some k → k.state ≠ .confirmed ∧ k.state ≠ .isolating) →
        let watch := entriesWhere c.cases fun k => k.state == .watch
        let told := watch.flatMap fun n =>
          match entryAt c.cases n with
          | some k =>
            [caseTold n k (some .watch) none .withdrawn none c.time.now,
             segmentCount .casesClosedUnconfirmed (some k.segment) 1]
          | none => []
        let idle := fun v : Device => { v with run := { v.run with nextPoll := none } }
        let left : Core := { watch.foldl (fun c n => freed n c) c with mode := .configuring }
        (∀ n, entryAt left.cases n = (entryAt c.cases n).filter fun k => decide (k.state ≠ .watch))
        ∧ ((∀ o ∈ c.orders, o.cls = .poll → o.state = .sent) →
          exec (.setMode q tag (.ok .configuring)) s = .next (replied q 0x08 tag .accepted .empty
            (outcome told { left with devices := mapContents idle c.devices } p) s))
        ∧ (∀ d o v, queuedPolls c = [d] → orderOf c d = some o → o.cls = .poll → o.state = .queued →
            entryAt c.devices d = some v → badAt c.devices d = false → c.walks = [] → c.room = [] →
            let v' : Device := { v with run := { v.run with currentOrder := none } }
            exec (.setMode q tag (.ok .configuring)) s = .next (replied q 0x08 tag .accepted .empty
              (outcome told { left with
                orders := c.orders.filter fun x => x.device != d
                devices := mapContents idle (putAt c.devices d (some v')) } p) s))
        ∧ ∀ d ∈ queuedPolls c, badAt c.devices d = true → ∃ t,
            exec (.setMode q tag (.ok .configuring)) s = .next t
              ∧ Answered q 0x08 tag .faultRecovery .empty s t ∧ t.part.core.cases = c.cases
              ∧ t.part.core.orders = c.orders
              ∧ t.part.core.record.total = min 255 (c.record.total + 1)
              ∧ t.part.core.window = c.window ++ [c.time.now]
              ∧ (c.window.length < 2 →
                  t.part.core.mode = .monitoring ∧ t.part.core.recovery.recovering = true)
              ∧ (2 ≤ c.window.length →
                  t.part.core.mode = .halted ∧ t.part.core.recovery.recovering = false))

/-- The edits of segments and plans in CONFIGURING: a definition replaces the whole entry, a deletion makes it
undefined, the pool's count of step entries in use follows a plan's edit, and nothing else changes where no CLOSE
order waits; each is refused on the conditions its rule gives
past the common ones. A QUEUED MANUAL CLOSE whose device the edited table bars is withdrawn, with reason work
hold when a WORK hold bars it and else isolation override, and its port is told; a definition that brings a
device with a SENT CLOSE under a WORK hold's bar is refused BUSY close-in-flight (what brings it there is log
23), and the record stands. Rests on R3, R4, R104, R105, R134, R162. -/
def Obligations.SegmentAndPlanEdits : Prop :=
  ∀ (q : Port) (tag : Byte) (s : State), MayEdit q s →
    let p := heard q s
    let c := p.core
    (NoCloses c → Sound c.segments → Sound c.cases →
    (∀ x : SegmentEdit, x.number < 96 → (∀ n, x.parent = some n → n < 96) → (∀ n, x.plan = some n → n < 48) →
      x.label < 65536 → phasesNonempty x.phases = true →
      let stranded := (entryAt c.segments x.number).isSome = true
        ∧ ∃ n k, entryAt c.cases n = some k ∧ k.segment = x.number ∧ phaseIn k.phase x.phases = false
      (stranded → exec (.defineSegment q tag (.ok x)) s = .next (refused q 0x09 tag .inUse s))
      ∧ (¬ stranded →
          let v : Segment := { parent := x.parent, phases := x.phases, plan := x.plan, label := x.label }
          exec (.defineSegment q tag (.ok x)) s = .next (replied q 0x09 tag .accepted .empty
            (outcome [] { c with segments := putAt c.segments x.number (some v) } p) s)))
    ∧ ∀ n, n < 96 →
      let used := (∃ m k, entryAt c.cases m = some k ∧ k.segment = n) ∨ (∃ h, c.holds[n]? = some (some h))
      (entryAt c.segments n = none →
        exec (.deleteSegment q tag (.ok n)) s = .next (refused q 0x0A tag .noSuchItem s))
      ∧ ((entryAt c.segments n).isSome = true → used →
        exec (.deleteSegment q tag (.ok n)) s = .next (refused q 0x0A tag .inUse s))
      ∧ ((entryAt c.segments n).isSome = true → ¬ used →
        exec (.deleteSegment q tag (.ok n)) s = .next (replied q 0x0A tag .accepted .empty
          (outcome [] { c with segments := putAt c.segments n none } p) s)))
    ∧ (Sound c.plans → Sound c.cases →
    (∀ x : PlanEdit, x.number < 48 → x.segment < 96 → (∀ d ∈ x.steps, d < 24) →
      (∀ n, x.fallback = some n → n < 48) → 1 ≤ x.steps.length → x.steps.length ≤ 8 →
      let old := (entryAt c.plans x.number).map (·.steps.length)
      let total := c.stepsInUse - old.getD 0 + x.steps.length
      (planHeld c x.number = true →
        exec (.definePlan q tag (.ok x)) s = .next (refused q 0x20 tag .inUse s))
      ∧ (planHeld c x.number = false → 192 < total →
        exec (.definePlan q tag (.ok x)) s = .next (refused q 0x20 tag .planStoreFull s))
      ∧ (planHeld c x.number = false → total ≤ 192 →
        let v : Plan := { segment := x.segment, steps := x.steps, fallback := x.fallback }
        exec (.definePlan q tag (.ok x)) s = .next (replied q 0x20 tag .accepted .empty
          (outcome [] { c with plans := putAt c.plans x.number (some v), stepsInUse := total } p) s)))
    ∧ ∀ n, n < 48 →
      (entryAt c.plans n = none →
        exec (.deletePlan q tag (.ok n)) s = .next (refused q 0x21 tag .noSuchItem s))
      ∧ ((entryAt c.plans n).isSome = true → planHeld c n = true →
        exec (.deletePlan q tag (.ok n)) s = .next (refused q 0x21 tag .inUse s))
      ∧ (∀ v, entryAt c.plans n = some v → planHeld c n = false →
        exec (.deletePlan q tag (.ok n)) s = .next (replied q 0x21 tag .accepted .empty
          (outcome [] { c with
            plans := putAt c.plans n none, stepsInUse := c.stepsInUse - v.steps.length } p) s)))
    ∧ ∀ (o : Order) (v : Device) (r : Port) (t : Byte), c.orders = [o] → o.action = .close → o.cls = .manual →
      o.origin = .port r t → entryAt c.devices o.device = some v → badAt c.devices o.device = false →
      Sound c.segments → Sound c.cases → c.walks = [] → c.room = [] →
      let v' : Device := { v with run := { v.run with currentOrder := none } }
      let edited := fun segments : List (Checked Segment) =>
        let barred := barredByHold segments c.holds v = true ∨ barredByCase c segments v = true
        let told := Emit.tell (.only r) (.order
          { tag := t, number := o.number, device := o.device, action := .close, outcome := .withdrawn
            state := v.run.state, retries := o.sends.getD 0 - 1, refusal := none
            withdrawal := some
              (if barredByHold segments c.holds v then .workHold else .isolationOverride)
            time := c.time.now })
        fun kind : Nat => fun f : Instr =>
        (o.state = .queued → barred → exec f s = .next (replied q kind tag .accepted .empty
          (outcome [told] { c with
            segments := segments, orders := [], devices := putAt c.devices o.device (some v') } p) s))
        ∧ (o.state = .sent ∨ ¬ barred → exec f s = .next (replied q kind tag .accepted .empty
          (outcome [] { c with segments := segments } p) s))
      (∀ x : SegmentEdit, x.number < 96 → (∀ n, x.parent = some n → n < 96) → (∀ n, x.plan = some n → n < 48) →
        x.label < 65536 → phasesNonempty x.phases = true →
        (∀ n k, entryAt c.cases n = some k → k.segment = x.number → phaseIn k.phase x.phases = true) →
        let segments := putAt c.segments x.number
          (some { parent := x.parent, phases := x.phases, plan := x.plan, label := x.label })
        let brought := barredByHold segments c.holds v = true ∧ barredByHold c.segments c.holds v = false
        (o.state = .sent → brought →
          exec (.defineSegment q tag (.ok x)) s = .next (refused q 0x09 tag .closeInFlight s))
        ∧ (o.state = .queued ∨ ¬ brought → edited segments 0x09 (.defineSegment q tag (.ok x))))
      ∧ ∀ n, n < 96 → (entryAt c.segments n).isSome = true →
        (∀ m k, entryAt c.cases m = some k → k.segment ≠ n) → (∀ h, c.holds[n]? ≠ some (some h)) →
        edited (putAt c.segments n none) 0x0A (.deleteSegment q tag (.ok n))

/-- The bindings of sensors in CONFIGURING. BIND_SENSOR makes an entry WAITING, heard at the present time and
without a sequence, and takes the address off the discovery list (its place, the lowest free one, is log
13); UNBIND_SENSOR removes the entry. Nothing else changes but that an expiry which waited for the sensor waits no
more: its address leaves the list of deferred expiries (log 26). Rests on R7, R8. -/
def Obligations.SensorBindings : Prop :=
  ∀ (q : Port) (tag : Byte) (s : State), MayEdit q s →
    let p := heard q s
    let c := p.core
    Sound c.roster →
    (∀ x : SensorBinding, 1 ≤ x.address → x.address ≤ 65534 → x.segment < 96 →
      phasesNonempty x.phases = true →
      let there := ∃ n v, entryAt c.roster n = some v ∧ v.address = x.address
      let overlap := ∃ n v, entryAt c.roster n = some v ∧ v.segment = x.segment ∧ v.side = x.side
        ∧ phasesMeet v.phases x.phases = true
      (there ∨ overlap → exec (.bindSensor q tag (.ok x)) s = .next (refused q 0x0C tag .inUse s))
      ∧ (¬ there → ¬ overlap → freePlace c = none ∨ 3 ≤ (boundAt c x.segment x.side).length →
        exec (.bindSensor q tag (.ok x)) s = .next (refused q 0x0C tag .tableFull s))
      ∧ ∀ n, ¬ there → ¬ overlap → freePlace c = some n → (boundAt c x.segment x.side).length < 3 →
        let v : Sensor := { address := x.address, segment := x.segment, side := x.side, phases := x.phases
                            state := .waiting, lastSequence := none, lastHeard := c.time.now }
        exec (.bindSensor q tag (.ok x)) s = .next (replied q 0x0C tag .accepted .empty
          (outcome [] { c with
            roster := putAt c.roster n (some v)
            discovery := c.discovery.filter fun d => d.address != x.address } p) s))
    ∧ ∀ a, 1 ≤ a → a ≤ 65534 →
      (sensorPlace c a = none →
        exec (.unbindSensor q tag (.ok a)) s = .next (refused q 0x0D tag .noSuchItem s))
      ∧ ∀ n, sensorPlace c a = some n →
        exec (.unbindSensor q tag (.ok a)) s = .next (replied q 0x0D tag .accepted .empty
          (outcome [] { c with
            roster := putAt c.roster n none, deferred := c.deferred.filter (· != a) } p) s)

/-- The device definitions in CONFIGURING. DEFINE_DEVICE replaces the definition, and keeps the run-time
fields only when the entry was defined with the same link address; DELETE_DEVICE makes the entry
undefined. A link address of another device, an order or a reservation refuses them in-use. Rests on R11,
R12. -/
def Obligations.DeviceDefinitions : Prop :=
  ∀ (q : Port) (tag : Byte) (s : State), MayEdit q s →
    let p := heard q s
    let c := p.core
    Sound c.devices →
    (∀ x : DeviceEdit, x.number < 24 → 1 ≤ x.link → x.link ≤ 254 → x.segment < 96 →
      let used := (∃ n v, entryAt c.devices n = some v ∧ v.link = x.link ∧ n ≠ x.number)
        ∨ ((entryAt c.devices x.number).isSome = true
            ∧ ((orderOf c x.number).isSome = true ∨ isReserved c x.number = true))
      (used → exec (.defineDevice q tag (.ok x)) s = .next (refused q 0x0F tag .inUse s))
      ∧ ∀ run, ¬ used →
          ((∃ v, entryAt c.devices x.number = some v ∧ v.link = x.link ∧ run = v.run)
            ∨ ((∀ v, entryAt c.devices x.number = some v → v.link ≠ x.link) ∧ run = DeviceRun.powerOn)) →
          let v : Device := { link := x.link, kind := x.kind, segment := x.segment, run := run }
          exec (.defineDevice q tag (.ok x)) s = .next (replied q 0x0F tag .accepted .empty
            (outcome [] { c with devices := putAt c.devices x.number (some v) } p) s))
    ∧ ∀ n, n < 24 →
      let used := (orderOf c n).isSome = true ∨ isReserved c n = true
      (entryAt c.devices n = none →
        exec (.deleteDevice q tag (.ok n)) s = .next (refused q 0x10 tag .noSuchItem s))
      ∧ ((entryAt c.devices n).isSome = true → used →
        exec (.deleteDevice q tag (.ok n)) s = .next (refused q 0x10 tag .inUse s))
      ∧ ((entryAt c.devices n).isSome = true → ¬ used →
        exec (.deleteDevice q tag (.ok n)) s = .next (replied q 0x10 tag .accepted .empty
          (outcome [] { c with devices := putAt c.devices n none } p) s))

/-- The reads of the checked tables list the defined entries and change nothing: those of a table from the first
number on, in ascending number, and those of the roster in ascending address, each the entry that a look-up of its
address finds. LIST_CASES gives each case's score, as R79 says (log 39). Rests on R5, R9, R13, R79, R99, R100, R106,
R151. -/
def Obligations.TableReads : Prop :=
  ∀ (q : Port) (tag : Byte) (s : State), Takes q s → Healthy s →
    let p := heard q s
    let c := p.core
    AllSound c →
    (∀ x : ReadRange, x.first < 96 → 1 ≤ x.count → x.count ≤ 64 →
      let l := entriesFrom c.segments x.first
      exec (.readSegments q tag (.ok x)) s = .next (replied q 0x0B tag .accepted
        (.segments (l.take x.count) (decide (x.count < l.length))) p s))
    ∧ (∀ x : ReadRange, 1 ≤ x.first → x.first ≤ 65534 → 1 ≤ x.count → x.count ≤ 32 →
      let l := sensorsFrom c x.first
      exec (.readRoster q tag (.ok x)) s = .next (replied q 0x0E tag .accepted
        (.roster (l.take x.count) (decide (x.count < l.length))) p s))
    ∧ exec (.readDevices q tag (.ok ())) s = .next (replied q 0x11 tag .accepted
        (.devices ((entriesFrom c.devices 0).map fun x => (x.1, x.2, orderOf c x.1))) p s)
    ∧ (∀ x : ReadRange, x.first < 48 → 1 ≤ x.count → x.count ≤ 16 →
      let l := entriesFrom c.plans x.first
      exec (.readPlans q tag (.ok x)) s = .next (replied q 0x22 tag .accepted
        (.plans c.stepsInUse (l.take x.count) (decide (x.count < l.length))) p s))
    ∧ (let l := entriesFrom c.cases 0
       exec (.listCases q tag (.ok ())) s = .next (replied q 0x1B tag .accepted
        (.cases l.length (l.map fun x =>
          { entry := x.1, serial := x.2.serial, segment := x.2.segment, phase := x.2.phase
            state := x.2.state, score := x.2.score, finding := x.2.finding })) p s))
    ∧ (∀ (x : CaseName) (k : Case), x.entry < 32 → entryAt c.cases x.entry = some k → k.serial = x.serial →
      exec (.readCase q tag (.ok x)) s = .next (replied q 0x1C tag .accepted (.caseRecord x.entry k) p s))
    ∧ (∀ x : CaseName, x.entry < 32 → (∀ k, entryAt c.cases x.entry = some k → k.serial ≠ x.serial) →
      exec (.readCase q tag (.ok x)) s = .next (refused q 0x1C tag .noSuchItem s))
    ∧ (∀ (α : Type) (l : List (Checked α)) (first : Nat),
      (∀ n v, (n, v) ∈ entriesFrom l first ↔ first ≤ n ∧ entryAt l n = some v)
      ∧ (entriesFrom l first).Pairwise fun x y => x.1 < y.1)
    ∧ ∀ first : Nat,
      let l := sensorsFrom c first
      (∀ v ∈ l, first ≤ v.address
        ∧ ∃ n, sensorPlace c v.address = some n ∧ entryAt c.roster n = some v)
      ∧ (∀ n v, entryAt c.roster n = some v → first ≤ v.address → ∃ u ∈ l, u.address = v.address)
      ∧ l.Pairwise (fun u v => u.address ≤ v.address)
      ∧ l.length = (entriesWhere c.roster fun v => decide (first ≤ v.address)).length

/-- The reads that read no checked table are served outside HALTED, during recovery too, and change nothing. The
claims listed are the devices reserved and the segments held, in ascending number, and the counters those of the
range, in ascending number. Rests on R16, R31, R168, R207, R209, R213. -/
def Obligations.ReadsServedInRecovery : Prop :=
  ∀ (q : Port) (tag : Byte) (s : State), Takes q s → s.part.core.mode ≠ .halted →
    let p := heard q s
    let c := p.core
    exec (.readDiscovery q tag (.ok ())) s = .next
      (replied q 0x12 tag .accepted (.discovery c.discovery) p s)
    ∧ exec (.readClaims q tag (.ok ())) s = .next
      (replied q 0x29 tag .accepted (.claims (present c.reservations) (present c.holds)) p s)
    ∧ exec (.readOptions q tag (.ok ())) s = .next
      (replied q 0x39 tag .accepted (.options p.options p.staged p.inForce p.burning) p s)
    ∧ (∀ (x : SettingName) (i : SettingId), settingId x.group x.index = some i →
      exec (.readSetting q tag (.ok x)) s = .next (replied q 0x34 tag .accepted
        (.setting (i.get p.settings) i.range.1 i.range.2 (i.get Settings.default)) p s))
    ∧ (∀ x : SettingName, settingId x.group x.index = none →
      exec (.readSetting q tag (.ok x)) s = .next (refused q 0x34 tag .noSuchItem s))
    ∧ (∀ x : ReadRange, x.first < 16 → 1 ≤ x.count → x.count ≤ 16 →
      (q = .a ∨ p.inForce.options.bReadCountersOnly = false ∨ 8 ≤ x.first) →
      exec (.readCounters q tag (.ok x)) s = .next
        (replied q 0x32 tag .accepted (.counters (countersIn p.counters x)) p s))
    ∧ (∀ x : ReadRange, x.first < 8 → 1 ≤ x.count → x.count ≤ 16 →
      q = .b → p.inForce.options.bReadCountersOnly = true →
      exec (.readCounters q tag (.ok x)) s = .next (refused q 0x32 tag .notPermitted s))
    ∧ (∀ (x : ReadRange) n r, (n, r) ∈ countersIn p.counters x ↔
      x.first ≤ n ∧ n < x.first + x.count ∧ p.counters[n]? = some r)
    ∧ (∀ x : ReadRange, (countersIn p.counters x).Pairwise fun a b => a.1 < b.1)
    ∧ ∀ (α : Type) (l : List (Option α)),
      (∀ n v, (n, v) ∈ present l ↔ l[n]? = some (some v)) ∧ (present l).Pairwise fun a b => a.1 < b.1

/-- READ_TIME is accepted from either port and carries the time base, the lock state, the good-pulse count and
the elapsed milliseconds since the last pulse, absent with none; in HALTED it is refused wrong-mode; it is
served during recovery (R31). -/
def Obligations.ReadTimeReply : Prop :=
  ∀ (q : Port) (tag : Byte) (s : State), Takes q s →
    let p := heard q s
    (p.core.mode = .halted → exec (.readTime q tag (.ok ())) s = .next (refused q 0x15 tag .wrongMode s))
    ∧ (p.core.mode ≠ .halted → p.core.time.lastPulse = none →
        exec (.readTime q tag (.ok ())) s = .next (replied q 0x15 tag .accepted
          (.time p.core.time.now p.core.time.lock p.core.time.good none) p s))
    ∧ ∀ m, p.core.mode ≠ .halted → p.core.time.lastPulse = some m →
        exec (.readTime q tag (.ok ())) s = .next (replied q 0x15 tag .accepted
          (.time p.core.time.now p.core.time.lock p.core.time.good (some (p.core.time.elapsed - m))) p s)

/-- SET_TIME sets the time base and moves every time of day the blocks hold by the same amount; the times carried
by the replies and notices queued at the ports stay as they were (log 38). The lock state is FREE with no good
pulses and no last pulse, and a TIME notice tells the loss of LOCKED. Rests on R29, R30, R35. -/
def Obligations.SetTimeMovesTimes : Prop :=
  ∀ (q : Port) (tag : Byte) (v : Nat) (s : State), Takes q s → Controls q s →
    s.part.core.mode ≠ .halted →
    let p := heard q s
    let c := p.core
    (v < 86400000 → exec (.setTime q tag (.ok v)) s = .next (replied q 0x14 tag .accepted .empty
      (outcome (if c.time.lock = .locked then [.tell .both (.time .locked .free .setTime v)] else [])
        { timesMoved v c with
          time := { now := v, lock := .free, good := 0, lastPulse := none, elapsed := c.time.elapsed } }
        p) s))
    ∧ (86400000 ≤ v → exec (.setTime q tag (.ok v)) s = .next (refused q 0x14 tag .outOfRange s))

/-! ### Cases -/

/-- DISMISS_CASE frees a case in WATCH or CONFIRMED and CLOSE_CASE one in ISOLATED or BLOCKED, each with its
CASE notice; a WATCH case freed is counted as closed unconfirmed. In any other state they are refused
wrong-case-state, and a name that no case has no-such-item; the case then stands. Rests on R84, R95, R96,
R97. -/
def Obligations.DismissAndCloseCase : Prop :=
  ∀ (q : Port) (tag : Byte) (x : CaseName) (s : State), Takes q s → Healthy s → Controls q s →
    x.entry < 32 →
    let p := heard q s
    let c := p.core
    badAt c.cases x.entry = false →
    ((∀ k, entryAt c.cases x.entry = some k → k.serial ≠ x.serial) →
      exec (.dismissCase q tag (.ok x)) s = .next (refused q 0x18 tag .noSuchItem s)
      ∧ exec (.closeCase q tag (.ok x)) s = .next (refused q 0x19 tag .noSuchItem s))
    ∧ ∀ k, entryAt c.cases x.entry = some k → k.serial = x.serial → k.unreadable = [] →
      let told := fun reason => caseTold x.entry k (some k.state) none reason none c.time.now
      (k.state = .watch → exec (.dismissCase q tag (.ok x)) s = .next (replied q 0x18 tag .accepted .empty
        (outcome [told .dismissed, segmentCount .casesClosedUnconfirmed (some k.segment) 1]
          (freed x.entry c) p) s))
      ∧ (k.state = .confirmed → exec (.dismissCase q tag (.ok x)) s = .next
          (replied q 0x18 tag .accepted .empty (outcome [told .dismissed] (freed x.entry c) p) s))
      ∧ (k.state = .isolating ∨ k.state = .isolated ∨ k.state = .blocked →
          exec (.dismissCase q tag (.ok x)) s = .next (refused q 0x18 tag .wrongCaseState s))
      ∧ (k.state = .isolated ∨ k.state = .blocked → exec (.closeCase q tag (.ok x)) s = .next
          (replied q 0x19 tag .accepted .empty (outcome [told .closed] (freed x.entry c) p) s))
      ∧ (k.state = .watch ∨ k.state = .confirmed ∨ k.state = .isolating →
          exec (.closeCase q tag (.ok x)) s = .next (refused q 0x19 tag .wrongCaseState s))

/-- ISOLATE_CASE sends a CONFIRMED case to ISOLATING. A case in any other state is refused wrong-case-state, whatever
its isolation record, and a case that the entry does not hold no-such-item. With no plan on its segment it is BLOCKED in the same
event, with both notices. With a plan whose first step is a device that stands closed and has no order,
and the link busy, an ISOLATION order to open that device is queued and the walk waits for it. A QUEUED CLOSE
that the case's segment bars is withdrawn at the start, and its announcement made before step 0 (log 44). The
walk then goes step by step: a step whose device stands open is done, as is one whose own order completes with
the device open, and the next is judged, or the walk is complete; a failure takes the fallback, or blocks the
case and leaves the steps that follow as its remainder; an order in flight is awaited, a QUEUED MANUAL or POLL
order is taken over, and without room the step waits on the room list, which is judged oldest first. That a step
whose own order's device a reload has replaced is judged by that device is log 47, and that the room list's
judging ends when the same walk's next step joins it is log 48. Rests on R98, R114 to R124, R134, R162. -/
def Obligations.IsolateCaseStarts : Prop :=
  (∀ (q : Port) (tag : Byte) (x : CaseName) (s : State), Takes q s → Healthy s → Controls q s → x.entry < 32 →
    let c := (heard q s).core
    badAt c.cases x.entry = false →
    ((∀ k, entryAt c.cases x.entry = some k → k.serial ≠ x.serial) →
      exec (.isolateCase q tag (.ok x)) s = .next (refused q 0x1A tag .noSuchItem s))
    ∧ ∀ k, entryAt c.cases x.entry = some k → k.serial = x.serial → k.state ≠ .confirmed →
      exec (.isolateCase q tag (.ok x)) s = .next (refused q 0x1A tag .wrongCaseState s))
  ∧ (∀ (q : Port) (tag : Byte) (x : CaseName) (k : Case) (r : IsolationRecord) (s : State),
    Takes q s → Healthy s → Controls q s → x.entry < 32 →
    let p := heard q s
    let c := p.core
    AllSound c → NoCloses c → entryAt c.cases x.entry = some k → k.serial = x.serial → k.unreadable = [] →
    k.isolation = some r →
    (k.state = .confirmed → (∀ sg, entryAt c.segments k.segment = some sg → sg.plan = none) →
        let k' : Case := { k with
          state := .blocked, isolation := some { r with plan := none, step := 0, depth := 0 } }
        exec (.isolateCase q tag (.ok x)) s = .next (replied q 0x1A tag .accepted .empty
          (outcome
            [caseTold x.entry k (some .confirmed) (some .isolating) .command none c.time.now,
             caseTold x.entry k (some .isolating) (some .blocked) .noPlan none c.time.now]
            (withCase x.entry k' c) p) s))
    ∧ ∀ sg i pl d rest v, k.state = .confirmed → entryAt c.segments k.segment = some sg → sg.plan = some i →
        entryAt c.plans i = some pl → pl.steps = d :: rest → entryAt c.devices d = some v →
        standsOpen v.run.state = false → c.orders = [] → c.linkTx.isSome = true →
        let number := (c.orderNumber + 1) % 256
        ∃ t, exec (.isolateCase q tag (.ok x)) s = .next t
          ∧ Answered q 0x1A tag .accepted .empty s t ∧ KeepsRest s t
          ∧ (∃ late, entryAt t.part.core.cases x.entry = some { k with
              state := .isolating
              isolation := some { r with plan := some i, step := 0, depth := 0, late := late } })
          ∧ t.part.core.orders =
              [{ number := number, device := d, action := .open_, cls := .isolation
                 origin := .case k.serial, state := .queued, resend := false, sends := none
                 deadline := none, left := false }]
          ∧ t.part.core.orderNumber = number
          ∧ walkOf t.part.core x.entry = some
              { entry := x.entry, serial := k.serial, phase := .main, cond := .ordered number d }
          ∧ entryAt t.part.core.devices d = some { v with run := { v.run with currentOrder := some number } }
          ∧ (∀ m, m ≠ d → entryAt t.part.core.devices m = entryAt c.devices m)
          ∧ (∀ m, m ≠ x.entry → entryAt t.part.core.cases m = entryAt c.cases m)
          ∧ t.part.core.segments = c.segments ∧ t.part.core.plans = c.plans
          ∧ t.part.core.roster = c.roster ∧ t.part.core.linkTx = c.linkTx
          ∧ t.part.core.mode = c.mode ∧ t.part.core.time = c.time
          ∧ t.part.core.reservations = c.reservations ∧ t.part.core.holds = c.holds)
  ∧ (∀ (n : Nat) (reason : CaseReason) (k : Case) (r : IsolationRecord) (o : Order) (v : Device) (e : Ev),
      e.mode ≠ .halted → e.recovery.recovering = false → AllSound e.toCore → entryAt e.cases n = some k →
      k.state = .confirmed → k.unreadable = [] → k.isolation = some r → e.orders = [o] → o.action = .close →
      entryAt e.devices o.device = some v →
      let plan := (entryAt e.segments k.segment).bind (·.plan)
      let k' : Case := { k with
        state := .isolating, isolation := some { r with plan := plan, step := 0, depth := 0 } }
      let told : Ev := { e with
        cases := e.cases.set n { content := some k', check := 0 }
        counted := e.counted.set n (some .isolating)
        out := e.out ++ [caseTold n k (some .confirmed) (some .isolating) reason none e.time.now] }
      let begun := fun x : Ev => { x with todo := x.todo ++ [Work.begin n] }
      let withdrawn := o.state = .queued ∧ barredBy e.segments v k.segment = true
      (withdrawn → isolate n reason e = begun (orderWithdrawn .isolationOverride o v told))
      ∧ (¬ withdrawn → isolate n reason e = begun told))
  ∧ (∀ (env : Env) (n : Nat) (w : Walk) (k : Case) (r : IsolationRecord) (pl : Plan) (d : Nat) (e : Ev),
      AtStep n w k r pl d e →
      (∀ m, ownDone n m e
        = if deviceOpen e.toCore m then afterDone w k r pl m e else afterFailure w k r pl e)
      ∧ (badAt e.devices d = false → entryAt e.devices d = none →
          judgeWalk env n e = afterFailure w k r pl e)
      ∧ ∀ v, badAt e.devices d = false → entryAt e.devices d = some v →
        (standsOpen v.run.state = true → judgeWalk env n e = afterDone w k r pl d e)
        ∧ (standsOpen v.run.state = false →
          (∀ o, orderOf e.toCore d = some o →
            let taken := o.state = .queued ∧ o.cls ≠ .isolation
            (¬ taken → judgeWalk env n e = { e with
              walks := othersThan n e.walks ++ [{ w with cond := .awaiting d }]
              room := e.room.filter (· != n) })
            ∧ (taken → e.recovery.recovering = true → judgeWalk env n e = stepInRoom w d e)
            ∧ (taken → e.recovery.recovering = false → e.linkTx.isSome = true →
              judgeWalk env n e = stepOrdered w d v (orderWithdrawn .isolationOverride o v e)))
          ∧ (orderOf e.toCore d = none →
            (e.recovery.recovering = true ∨ 16 ≤ e.orders.length → judgeWalk env n e = stepInRoom w d e)
            ∧ (e.recovery.recovering = false → e.orders.length < 16 → e.linkTx.isSome = true →
              judgeWalk env n e = stepOrdered w d v e))))
  ∧ (∀ (env : Env) (n d : Nat) (w : Walk) (e : Ev), e.mode ≠ .halted → n < 32 → walkOf e.toCore n = some w →
      (w.cond = .awaiting d →
        Work.rejudge n ∈ (announce d e).todo ∧ Work.rejudge n ∈ (deviceOpened d e).todo
          ∧ rejudge env n e = judgeWalk env n e)
      ∧ (w.cond = .room (some d) →
        Work.rejudge n ∈ (deviceOpened d e).todo ∧ rejudge env n e = judgeWalk env n e)
      ∧ ∀ number, w.cond = .ordered number d → rejudge env n e = e)
  ∧ ∀ (d n : Nat) (rest : List Nat) (e : Ev), e.mode ≠ .halted →
      [Work.room, Work.polls] <:+ (announce d e).todo
        ∧ (e.room = n :: rest → judgeRoom e = { e with todo := e.todo ++ [.rejudge n, .roomNext n] })
        ∧ (e.room = [] → judgeRoom e = e)
        ∧ (n ∈ e.room → judgeRoomNext n e = e)
        ∧ (n ∉ e.room → judgeRoomNext n e = { e with todo := e.todo ++ [.room] })

/-! ### Claims -/

/-- RESERVE takes a free reservation for its port, leaves its own, and is BUSY with the other port's, which
the reply names. RELEASE gives up the sending port's own and is refused not-reserved otherwise. No order,
case or hold changes. Rests on R156, R157. -/
def Obligations.ReserveAndRelease : Prop :=
  ∀ (q : Port) (tag : Byte) (n : Nat) (s : State), Takes q s → Healthy s → n < 24 →
    let p := heard q s
    let c := p.core
    badAt c.devices n = false → (entryAt c.devices n).isSome = true →
    (reservationOf c n = none →
      exec (.reserve q tag (.ok n)) s = .next (replied q 0x24 tag .accepted .empty
        (outcome [] { c with reservations := c.reservations.set n (some q) } p) s)
      ∧ exec (.release q tag (.ok n)) s = .next (refused q 0x25 tag .notReserved s))
    ∧ (reservationOf c n = some q →
      exec (.reserve q tag (.ok n)) s = .next (replied q 0x24 tag .accepted .empty p s)
      ∧ exec (.release q tag (.ok n)) s = .next (replied q 0x25 tag .accepted .empty
        (outcome [] { c with reservations := c.reservations.set n none } p) s))
    ∧ (reservationOf c n = some (otherPort q) →
      exec (.reserve q tag (.ok n)) s = .next
        (replied q 0x24 tag .otherPortInControl (.holder (otherPort q)) p s)
      ∧ exec (.release q tag (.ok n)) s = .next (refused q 0x25 tag .notReserved s))

/-- OPERATE in MONITORING on a device reserved by the sending port, without an order and with room in the queue: an
OPEN, or a CLOSE that nothing bars, is queued as a MANUAL order under the next number, which the reply carries, and
waits while the link is busy; with the queue empty and the link free it is sent at once. A CLOSE barred by a WORK
hold is refused segment-held, one barred by a case alone case-on-path. The bars are as R160 says them: by a segment,
by a WORK hold, by a case, and on the CLOSE orders a WORK hold meets; the path, the ancestors, the path devices and
the downstream set they rest on are those of R17 and R18, in every description, valid or not. That a SECTIONALIZING
device whose own segment is undefined is barred by nothing is log 65. Rests on R17, R18, R132, R133, R136, R159,
R160, R161, R165. -/
def Obligations.OperateQueuesOrder : Prop :=
  (∀ (c : Core) (s : Nat), TreeAsStated c s)
  ∧ (∀ (c : Core) (v : Device), BarsAsStated c v)
  ∧ (∀ (c : Core) (state : OrderState) (s : Nat), ClosesAsStated c state s)
  ∧ ∀ (q : Port) (tag : Byte) (x : OperateRequest) (v : Device) (s : State),
    Takes q s → Healthy s → Controls q s → s.part.core.mode = .monitoring → x.device < 24 →
    let p := heard q s
    let c := p.core
    entryAt c.devices x.device = some v → badAt c.devices x.device = false →
    reservationOf c x.device = some q → orderOf c x.device = none → c.orders.length < 16 →
    let number := (c.orderNumber + 1) % 256
    let o : Order := { number := number, device := x.device, action := x.action, cls := .manual
                       origin := .port q tag, state := .queued, resend := false, sends := none
                       deadline := none, left := false }
    let devices := c.devices.set x.device
      { content := some { v with run := { v.run with currentOrder := some number } }, check := 0 }
    ((x.action = .open_ ∨ (x.action = .close ∧ firstBad c (barReads c v) = none
        ∧ barredByHold c.segments c.holds v = false ∧ barredByCase c c.segments v = false)) →
      (c.linkTx.isSome = true →
        exec (.operate q tag (.ok x)) s = .next (replied q 0x26 tag .accepted (.orderNumber number)
          (outcome [] { c with orderNumber := number, orders := c.orders ++ [o], devices := devices } p) s))
      ∧ (c.linkTx = none → c.orders = [] →
        let sent : Order := { o with
          state := .sent, sends := some 1
          deadline := some ((c.time.now + p.settings.replyTimeout) % 86400000) }
        exec (.operate q tag (.ok x)) s = .next (replied q 0x26 tag .accepted (.orderNumber number)
          (outcome [deviceCount .ordersSent x.device]
            { c with orderNumber := number, orders := [sent], devices := devices
                     linkTx := some (orderFrame v.link number x.action) } p) s)))
    ∧ (x.action = .close → firstBad c (barReads c v) = none →
      (barredByHold c.segments c.holds v = true →
        exec (.operate q tag (.ok x)) s = .next (refused q 0x26 tag .segmentHeld s))
      ∧ (barredByHold c.segments c.holds v = false → barredByCase c c.segments v = true →
        exec (.operate q tag (.ok x)) s = .next (refused q 0x26 tag .caseOnPath s)))

/-- SET_HOLD places a hold on a segment that carries none, or replaces the sending port's own when it is not
conditional, and frees the WATCH cases on the segment; a hold of the other port, or any hold for a
conditional one, refuses it with the hold. CLEAR_HOLD removes the sending port's own hold alone. A WORK hold
is shown first where no CLOSE order waits; it then has a QUEUED MANUAL CLOSE that it would bar withdrawn before
it is set, with its ORDER notice, and is refused BUSY close-in-flight, with the lowest device, while such a
CLOSE is SENT. That the withdrawal is announced after the hold is set is log 44. Rests on R93, R134, R164, R165,
R166, R167. -/
def Obligations.HoldsSetAndCleared : Prop :=
  ∀ (q : Port) (tag : Byte) (s : State), Takes q s → Healthy s →
    let p := heard q s
    let c := p.core
    Sound c.segments → Sound c.cases →
    (∀ x : HoldRequest, x.segment < 96 → x.label < 65536 → (entryAt c.segments x.segment).isSome = true →
      x.kind = .mute ∨ NoCloses c →
      let new : Hold := { kind := x.kind, holder := q, label := x.label }
      (∀ h, holdOf c x.segment = some h → (h.holder ≠ q ∨ x.conditional = true) →
        exec (.setHold q tag (.ok x)) s = .next (replied q 0x27 tag .segmentHeld (.presentHold h) p s))
      ∧ ((∀ h, holdOf c x.segment = some h → h.holder = q ∧ x.conditional = false) →
        ((∀ n k, entryAt c.cases n = some k → k.segment = x.segment → k.state ≠ .watch) →
          exec (.setHold q tag (.ok x)) s = .next (replied q 0x27 tag .accepted .empty
            (outcome [] { c with holds := c.holds.set x.segment (some new) } p) s))
        ∧ ∃ t, exec (.setHold q tag (.ok x)) s = .next t
          ∧ Answered q 0x27 tag .accepted .empty s t ∧ KeepsRestButCounters s t
          ∧ t.part.core.holds = c.holds.set x.segment (some new)
          ∧ (∀ n, entryAt t.part.core.cases n = (entryAt c.cases n).filter fun k =>
              !(k.segment == x.segment && k.state == .watch))
          ∧ t.part.core.segments = c.segments ∧ t.part.core.devices = c.devices
          ∧ t.part.core.orders = c.orders ∧ t.part.core.reservations = c.reservations))
    ∧ (∀ n, n < 96 →
      (∀ h, holdOf c n = some h → h.holder = q →
        exec (.clearHold q tag (.ok n)) s = .next (replied q 0x28 tag .accepted .empty
          (outcome [] { c with holds := c.holds.set n none } p) s))
      ∧ (∀ h, holdOf c n = some h → h.holder ≠ q →
        exec (.clearHold q tag (.ok n)) s = .next (replied q 0x28 tag .segmentHeld (.presentHold h) p s))
      ∧ (holdOf c n = none →
        exec (.clearHold q tag (.ok n)) s = .next (refused q 0x28 tag .noSuchItem s)))
    ∧ ∀ x : HoldRequest, x.segment < 96 → x.label < 65536 → (entryAt c.segments x.segment).isSome = true →
      x.kind = .work → (∀ h, holdOf c x.segment = some h → h.holder = q ∧ x.conditional = false) →
      Sound c.devices →
      (∀ d, d ∈ closesBarredBy c .sent x.segment → (∀ m ∈ closesBarredBy c .sent x.segment, d ≤ m) →
        exec (.setHold q tag (.ok x)) s = .next
          (replied q 0x27 tag .closeInFlight (.deviceNumber d) p s))
      ∧ ∀ o v r t, c.orders = [o] → o.action = .close → o.state = .queued → o.cls = .manual →
          o.origin = .port r t → entryAt c.devices o.device = some v →
          barredBy c.segments v x.segment = true → c.walks = [] → c.room = [] → NoPolls c →
          (∀ n k, entryAt c.cases n = some k → k.segment = x.segment → k.state ≠ .watch) →
          let v' : Device := { v with run := { v.run with currentOrder := none } }
          exec (.setHold q tag (.ok x)) s = .next (replied q 0x27 tag .accepted .empty
            (outcome
              [.tell (.only r) (.order
                { tag := t, number := o.number, device := o.device, action := .close, outcome := .withdrawn
                  state := v.run.state, retries := o.sends.getD 0 - 1, refusal := none
                  withdrawal := some .workHold, time := c.time.now })]
              { c with
                orders := [], devices := putAt c.devices o.device (some v')
                holds := c.holds.set x.segment (some { kind := .work, holder := q, label := x.label }) } p) s)

/-! ### Counters, settings, store and options -/

/-- PROGRAM_COUNTER sets a counter of the sending port's group to its select, scope and notice field, with
value 0 and overflow clear; CLEAR_COUNTER sets value 0 and overflow clear and keeps the rest; a counter of
the other group refuses both not-permitted. Rests on R204, R205, R206. -/
def Obligations.CounterCommands : Prop :=
  ∀ (q : Port) (tag : Byte) (s : State), Takes q s → s.part.core.mode ≠ .halted →
    let p := heard q s
    (∀ (x : CounterProgram) (old : Counter), x.number < 16 → scopeInRange x.scope = true →
      scopeAllowed x.select x.scope = true → p.counters[x.number]? = some old →
      let new : Counter := { select := x.select, scope := x.scope, value := 0, overflow := false
                             notify := x.notify }
      ((x.number < 8 ↔ q = .a) → exec (.programCounter q tag (.ok x)) s = .next
        (replied q 0x30 tag .accepted .empty { p with counters := p.counters.set x.number new } s))
      ∧ (¬ (x.number < 8 ↔ q = .a) →
        exec (.programCounter q tag (.ok x)) s = .next (refused q 0x30 tag .notPermitted s)))
    ∧ (∀ x : CounterProgram, scopeAllowed x.select x.scope = false →
      exec (.programCounter q tag (.ok x)) s = .next (refused q 0x30 tag .outOfRange s))
    ∧ ∀ (n : Nat) (old : Counter), n < 16 → p.counters[n]? = some old →
      let new : Counter := { old with value := 0, overflow := false }
      ((n < 8 ↔ q = .a) → exec (.clearCounter q tag (.ok n)) s = .next
        (replied q 0x31 tag .accepted .empty { p with counters := p.counters.set n new } s))
      ∧ (¬ (n < 8 ↔ q = .a) →
        exec (.clearCounter q tag (.ok n)) s = .next (refused q 0x31 tag .notPermitted s))

/-- WRITE_SETTING on Port A takes the masked value when it lies in range, with LIVE_LEVEL left above
DEAD_LEVEL and AUTO permitted; the reply carries the values before and after. A write that leaves the value as it
was, and one of a setting without a further effect, changes nothing else; a result out of range is refused. A
change of AUTHORITY to AUTO sends the CONFIRMED cases to ISOLATING, shown for none and for one without a plan; a
new ISOLATION_DEADLINE has the late notice of every ISOLATING case past it sent, in ascending entry number (log
53); a new SILENCE_INTERVAL has the sensors it has passed expire, shown for none and for one, which waits on the
list of log 26 while a frame from it is queued; and a new SUPERVISION_INTERVAL is judged from the write's own
frame, and changes nothing else. The entries these writes read are log 6. Rests on R44, R110, R114, R126, R194,
R208, R209, R210. -/
def Obligations.WriteSettingUnderMask : Prop :=
  (∀ (old : Nat) (value mask : BitVec 16),
    maskedWrite old value mask < 65536
      ∧ ∀ j, j < 16 → (maskedWrite old value mask).testBit j
          = (if mask.getLsbD j then value.getLsbD j else old.testBit j))
  ∧ ∀ (tag : Byte) (x : SettingWrite) (i : SettingId) (s : State), Takes .a s → s.part.core.mode ≠ .halted →
    s.part.save = none → settingId x.group x.index = some i →
    let p := heard .a s
    let before := i.get p.settings
    let v := maskedWrite before x.value x.mask
    let new := i.put v p.settings
    let ok := i.range.1 ≤ v ∧ v ≤ i.range.2 ∧ new.deadLevel < new.liveLevel
    (¬ ok → exec (.writeSetting .a tag (.ok x)) s = .next (refused .a 0x35 tag .outOfRange s))
    ∧ (ok → (i = .authority → v = 1 → p.inForce.options.autoPermitted = false →
        exec (.writeSetting .a tag (.ok x)) s = .next (refused .a 0x35 tag .notPermitted s))
      ∧ ((i = .authority → v = 1 → p.inForce.options.autoPermitted = true) →
        (∃ t, exec (.writeSetting .a tag (.ok x)) s = .next t ∧ t.part.settings = new
          ∧ Answered .a 0x35 tag .accepted (.settingWritten before v) s t ∧ t.part.save = none
          ∧ t.part.options = p.options ∧ t.part.inForce = p.inForce ∧ t.part.staged = p.staged)
        ∧ (v = before ∨ i ≠ .authority ∧ i ≠ .isolationDeadline ∧ i ≠ .silenceInterval →
          exec (.writeSetting .a tag (.ok x)) s = .next (replied .a 0x35 tag .accepted
            (.settingWritten before v) { p with settings := new } s))
        ∧ (v ≠ before →
          let c := p.core
          let writes := fun (xs : List Emit) (c : Core) =>
            exec (.writeSetting .a tag (.ok x)) s = .next (replied .a 0x35 tag .accepted
              (.settingWritten before v) (outcome xs c { p with settings := new }) s)
          (i = .authority →
            (v = 0 ∨ ¬ Healthy s ∨ (Sound c.cases ∧ confirmedCases c = []) → writes [] c)
            ∧ ∀ n k r, v = 1 → Healthy s → AllSound c → NoCloses c → confirmedCases c = [n] →
              entryAt c.cases n = some k → k.unreadable = [] → k.isolation = some r →
              (∀ sg, entryAt c.segments k.segment = some sg → sg.plan = none) →
              let k' : Case := { k with
                state := .blocked, isolation := some { r with plan := none, step := 0, depth := 0 } }
              writes
                [caseTold n k (some .confirmed) (some .isolating) .authority none c.time.now,
                 caseTold n k (some .isolating) (some .blocked) .noPlan none c.time.now]
                (withCase n k' c))
          ∧ (i = .isolationDeadline → ¬ Healthy s → writes [] c)
          ∧ (i = .isolationDeadline → Healthy s → Sound c.cases →
            let late := entriesWhere c.cases fun k =>
              k.state == .isolating && k.isolation.any fun r =>
                !r.late && reached c.time.now ((r.confirmedAt + v) % 86400000)
            let told := late.flatMap fun n =>
              match entryAt c.cases n with
              | some k => k.isolation.toList.map fun r => Emit.tell .both
                  (.isolationLate n k.serial k.segment k.phase r.confirmedAt r.plan r.step r.depth c.time.now)
              | none => []
            let marked := fun (c : Core) (n : Nat) =>
              match entryAt c.cases n with
              | some k =>
                withCase n { k with isolation := k.isolation.map fun r => { r with late := true } } c
              | none => c
            writes told (late.foldl marked c))
          ∧ (i = .silenceInterval → c.mode ≠ .halted → Sound c.roster →
            let due := fun u : Sensor => u.state ≠ .silent
              ∧ reached c.time.now ((u.lastHeard + 1000 * v) % 86400000) = true
            ((∀ m u, entryAt c.roster m = some u → ¬ due u) → writes [] c)
            ∧ ∀ n u, sensorPlace c u.address = some n → entryAt c.roster n = some u → due u →
              (∀ m w, m ≠ n → entryAt c.roster m = some w → w.address ≠ u.address ∧ ¬ due w) →
              u.address ∉ c.deferred →
              let waits := ∃ f ∈ c.intake, f.address = u.address
              (waits → writes [] { c with deferred := c.deferred ++ [u.address] })
              ∧ (¬ waits → writes
                  [.tell .both (.sensor u.address u.segment u.side u.state .silent u.lastHeard
                    u.lastSequence)]
                  { c with roster := putAt c.roster n (some { u with state := .silent }) })))))

/-- SAVE_CONFIGURATION on Port A starts writing the description and the settings as they stand, and its reply
keeps its place until the save completes; the completion puts them in the store, marked valid when they
were written, and answers ACCEPTED or UNAVAILABLE store-failure. That a failed write leaves the new content in
the image, its code not matching, is log 18. Rests on R186, R211, R212. -/
def Obligations.SaveAndCompletion : Prop :=
  (∀ (tag : Byte) (s : State), Takes .a s → Healthy s → s.part.save = none →
    let p := heard .a s
    let c := p.core
    Sound c.segments → Sound c.roster → Sound c.devices → Sound c.plans →
    let img : Image :=
      { segments := c.segments.map (·.content)
        roster := c.roster.map fun x => x.content.map fun v =>
          { address := v.address, segment := v.segment, side := v.side, phases := v.phases }
        devices := c.devices.map fun x => x.content.map fun v =>
          { link := v.link, kind := v.kind, segment := v.segment }
        plans := c.plans.map (·.content)
        settings := p.settings }
    exec (.saveConfiguration .a tag (.ok ())) s = .next (ended
      (setPort .a (fun x => { x with
          waiting := x.waiting ++ [{ op := .save, kind := 0xB6, tag := tag }] })
        { p with save := some img }) s))
  ∧ (∀ (written reloadOk : Bool) (img : Image) (w : WaitingReply) (rest : List WaitingReply) (s : State),
      s.part.save = some img → s.part.run = .running → s.part.core.recovery.waiting = none →
      s.part.portA.waiting = w :: rest → w.op = .save → (∀ x ∈ rest, x.op = .burn) →
      (∀ x ∈ s.part.portB.waiting, x.op = .burn) →
      let code : ReplyCode := if written then .accepted else .storeFailure
      let store : Store := { image := img, codeMatches := written, valid := written }
      exec (.saveCompletion written reloadOk) s = .next (ended
        (setPort .a (fun x => { x with
            waiting := rest
            ready := x.ready ++ [{ kind := w.kind, tag := w.tag, code := code, body := .empty }] })
          { s.part with save := none, store := store }) s))
  ∧ ∀ (written reloadOk : Bool) (s : State), s.part.save = none →
      exec (.saveCompletion written reloadOk) s = .next (ended s.part s)

/-- STAGE_OPTIONS and BURN_OPTIONS on Port A: the options are staged, the burn starts in CONFIGURING and its
reply waits, and the completion burns the staged options into the record or leaves it unburned; the
options in force stand. A burned record refuses both. Rests on R186, R213, R214. -/
def Obligations.OptionsStagedAndBurned : Prop :=
  (∀ (tag : Byte) (x : Options) (s : State), Takes .a s → s.part.core.mode ≠ .halted →
    let p := heard .a s
    (s.part.options.burned = false → s.part.burning = false →
      exec (.stageOptions .a tag (.ok x)) s = .next
        (replied .a 0x37 tag .accepted .empty { p with staged := some x } s))
    ∧ (s.part.options.burned = true ∨ s.part.burning = true →
      exec (.stageOptions .a tag (.ok x)) s = .next (refused .a 0x37 tag .optionsBurned s)))
  ∧ (∀ (tag : Byte) (s : State), Takes .a s → s.part.core.mode = .configuring →
    let p := heard .a s
    (s.part.options.burned = false → s.part.burning = false → s.part.staged.isSome = true →
      s.part.save = none →
      exec (.burnOptions .a tag (.ok ())) s = .next (ended
        (setPort .a (fun x => { x with
            waiting := x.waiting ++ [{ op := .burn, kind := 0xB8, tag := tag }] })
          { p with burning := true }) s))
    ∧ (s.part.options.burned = true ∨ s.part.burning = true →
      exec (.burnOptions .a tag (.ok ())) s = .next (refused .a 0x38 tag .optionsBurned s))
    ∧ (s.part.options.burned = false → s.part.burning = false → s.part.staged = none →
      exec (.burnOptions .a tag (.ok ())) s = .next (refused .a 0x38 tag .nothingStaged s)))
  ∧ (∀ (written : Bool) (x : Options) (w : WaitingReply) (rest : List WaitingReply) (s : State),
      s.part.burning = true → s.part.run = .running → s.part.staged = some x →
      s.part.portA.waiting = w :: rest → w.op = .burn → (∀ x ∈ rest, x.op = .save) →
      (∀ x ∈ s.part.portB.waiting, x.op = .save) →
      let code : ReplyCode := if written then .accepted else .storeFailure
      let record : OptionsRecord := if written then { burned := true, options := x }
        else { burned := false, options := clearOptions }
      exec (.burnCompletion written) s = .next (ended
        (setPort .a (fun x => { x with
            waiting := rest
            ready := x.ready ++ [{ kind := w.kind, tag := w.tag, code := code, body := .empty }] })
          { s.part with
            burning := false, options := record, staged := if written then none else some x }) s))
  ∧ ∀ (written : Bool) (s : State), s.part.burning = false →
      exec (.burnCompletion written) s = .next (ended s.part s)

/-! ### The lines of the ports, and the time -/

/-- A command of no known kind is refused unknown-kind; a good frame that is no command is discarded, but heard:
that its kind of 0x80 to 0xFF also makes an ABSENT Port A PRESENT is log 9. Characters on a port's line pass its
receiver; where they complete no good frame they touch the receiver alone, and where they complete one the
command that its kind names is carried out. They are taken in one moment (log 24). A frame that fails its check,
declares too long a body or meets a framing error leaves the receiver in HUNT, as does a character that is no
start; a 0x5A without its stop bit begins no frame (log 24). A frame in progress is abandoned after 20 ms. A
supervised Port A becomes ABSENT when its interval has passed, with its PORT notice to both ports; with
UNATTENDED_ISOLATE, outside recovery and HALTED, the CONFIRMED cases then go to ISOLATING, shown for one without a
plan, which is BLOCKED; that one still CONFIRMED under AUTO takes the reason UNATTENDED too is log 49, and the
entries read to find them are log 6. Rests on R111, R114, R184, R185, R194, R195,
R216, R217. -/
def Obligations.PortLineEvents : Prop :=
  (∀ (q : Port) (tag kind : Byte) (s : State), Takes q s →
    exec (.unknownKindCommand q tag kind) s = .next (refused q kind.toNat tag .unknownKind s))
  ∧ (∀ (q : Port) (kind : Byte) (s : State),
    (s.part.run = .running →
      exec (.nonCommandFrame q kind) s = .next (ended (hearFrame q true s.part) s))
    ∧ (s.part.run ≠ .running → exec (.nonCommandFrame q kind) s = .next (ended s.part s)))
  ∧ (∀ (q : Port) (cs : List RxChar) (rx : Receiver) (s : State), s.part.run ≠ .resetAsserted →
    (receiveChars s.part.core.time.elapsed (portOf q s.part).rx cs = (rx, []) →
      exec (.portFrameDropped q cs) s = .next (ended (setPort q (fun x => { x with rx := rx }) s.part) s))
    ∧ ∀ f, receiveChars s.part.core.time.elapsed (portOf q s.part).rx cs = (rx, [f]) →
      ∃ t, exec (portCommand q (BitVec.ofNat 8 f.kind) f.tag f.body) s = .next t
        ∧ exec (.portFrameDropped q cs) s = .next (ended (setPort q (fun x => { x with rx := rx }) t.part) t))
  ∧ (∀ (q : Port) (kind tag : Byte) (cs : List Byte),
    (∀ x, sentBy (portCommand q kind tag cs) = some x → x.port = q ∧ x.kind = kind.toNat ∧ x.tag = tag)
    ∧ (kind.toNat < 0x80 → (sentBy (portCommand q kind tag cs)).isSome = true)
    ∧ (0x80 ≤ kind.toNat → portCommand q kind tag cs = .nonCommandFrame q kind))
  ∧ (∀ (now : Nat) (rx : Receiver) (ch : RxChar),
    (ch.framingError = true → receiveChar now rx ch = (.hunt, none))
    ∧ (rx = .hunt → ch.value ≠ 0x5A#8 → receiveChar now rx ch = (.hunt, none))
    ∧ (rx = .hunt → ch.value = 0x5A#8 → ch.framingError = false →
        receiveChar now rx ch = (.frame [0x5A#8] now, none))
    ∧ ∀ cs last, rx = .frame cs last → ch.framingError = false →
      let all := cs ++ [ch.value]
      let declared := leValue ((all.drop 1).take 2)
      (20 ≤ now - last → ch.value ≠ 0x5A#8 → receiveChar now rx ch = (.hunt, none))
      ∧ (now - last < 20 → cs.length < 2 → receiveChar now rx ch = (.frame all now, none))
      ∧ (now - last < 20 → 2 ≤ cs.length → 480 < declared → receiveChar now rx ch = (.hunt, none))
      ∧ (now - last < 20 → 2 ≤ cs.length → declared ≤ 480 → all.length < declared + 7 →
          receiveChar now rx ch = (.frame all now, none))
      ∧ (now - last < 20 → 2 ≤ cs.length → declared ≤ 480 → all.length = declared + 7 →
          receiveChar now rx ch = (.hunt, parseFrame all)))
  ∧ (∀ (q : Port) (s : State),
    (∀ cs last, (portOf q s.part).rx = .frame cs last → 20 ≤ s.part.core.time.elapsed - last →
      exec (.interCharacterTimeout q) s = .next
        (ended (setPort q (fun x => { x with rx := .hunt }) s.part) s))
    ∧ ((portOf q s.part).rx = .hunt → exec (.interCharacterTimeout q) s = .next (ended s.part s)))
  ∧ ∀ s : State, blocksRun s.part = true →
    let c := s.part.core
    let due := s.part.inForce.options.supervisePortA = true ∧ c.supervision.absent = false
      ∧ 1000 * s.part.settings.supervisionInterval ≤ c.time.elapsed - c.supervision.lastGood
    (¬ due → exec .portAAbsent s = .next (ended s.part s))
    ∧ (due →
      let told : Emit := .tell .both (.supervision false true s.part.settings.supervisionInterval c.time.now)
      let absent := fun c : Core => { c with supervision := { c.supervision with absent := true } }
      let unattended := s.part.inForce.options.unattendedIsolate = true ∧ Healthy s
      (¬ unattended ∨ (Sound c.cases ∧ confirmedCases c = []) →
        exec .portAAbsent s = .next (ended (outcome [told] (absent c) s.part) s))
      ∧ ∀ n k r, unattended → AllSound c → NoCloses c → confirmedCases c = [n] →
          entryAt c.cases n = some k → k.unreadable = [] → k.isolation = some r →
          (∀ sg, entryAt c.segments k.segment = some sg → sg.plan = none) →
        let k' : Case := { k with
          state := .blocked, isolation := some { r with plan := none, step := 0, depth := 0 } }
        exec .portAAbsent s = .next (ended (outcome
          [told, caseTold n k (some .confirmed) (some .isolating) .unattended none c.time.now,
           caseTold n k (some .isolating) (some .blocked) .noPlan none c.time.now]
          (withCase n k' (absent c)) s.part) s))

/-- A time pulse in UNSET changes nothing. In FREE and LOCKED an early pulse loses the count, or the lock; any
other pulse snaps the time base to the nearest second, moves every time of day the blocks hold with it and
becomes the last pulse: within 2 ms it counts in FREE, the third count in a row gaining LOCKED, and beyond 5 ms
it loses LOCKED. 1,500 ms after the last pulse the count, or the lock, is lost. The times carried by the replies
and notices queued at the ports stay as they were (log 38), and the times of the fault window are moved in HALTED
too (log 40). While start-up waits for a save or a burn, no notice is raised (log 50). Rests on R27, R29, R32,
R33, R34, R35. -/
def Obligations.PulsesAndLock : Prop :=
  ∀ s : State, s.part.run ≠ .resetAsserted →
    let p := s.part
    let c := p.core
    let t := c.time
    let early := ∃ m, t.lastPulse = some m ∧ t.elapsed - m < 500
    let v := nearestSecond t.now
    let offset : Int := if t.now % 1000 < 500 then (t.now % 1000 : Nat) else ((t.now % 1000 : Nat) : Int) - 1000
    let snapped := fun (lock : LockState) (good : Nat) => { timesMoved v c with
      time := { now := v, lock := lock, good := good, lastPulse := some t.elapsed, elapsed := t.elapsed } }
    let at_ := fun (lock : LockState) (good : Nat) =>
      { c with time := { t with lock := lock, good := good } }
    let told := fun (old new : LockState) (cause : TimeCause) (now : Nat) =>
      match p.run with
      | .startingUp _ => []
      | _ => [Emit.tell .both (.time old new cause now)]
    (t.lock = .unset → exec .timePulse s = .next (ended p s))
    ∧ (t.lock = .free →
      (early → exec .timePulse s = .next (ended (outcome [] (at_ .free 0) p) s))
      ∧ (¬ early → (offset < -2 ∨ 2 < offset) →
        exec .timePulse s = .next (ended (outcome [] (snapped .free 0) p) s))
      ∧ (¬ early → -2 ≤ offset → offset ≤ 2 → t.good < 2 →
        exec .timePulse s = .next (ended (outcome [] (snapped .free (t.good + 1)) p) s))
      ∧ (¬ early → -2 ≤ offset → offset ≤ 2 → 2 ≤ t.good →
        exec .timePulse s = .next (ended
          (outcome (told .free .locked .thirdGoodPulse v) (snapped .locked 3) p) s)))
    ∧ (t.lock = .locked →
      (early → exec .timePulse s = .next (ended
        (outcome (told .locked .free .earlyPulse t.now) (at_ .free 0) p) s))
      ∧ (¬ early → -5 ≤ offset → offset ≤ 5 →
        exec .timePulse s = .next (ended (outcome [] (snapped .locked t.good) p) s))
      ∧ (¬ early → (offset < -5 ∨ 5 < offset) →
        exec .timePulse s = .next (ended
          (outcome (told .locked .free .pulseOff v) (snapped .free 0) p) s)))
    ∧ (∀ m, t.lastPulse = some m → 1500 ≤ t.elapsed - m →
      (t.lock = .unset → exec .pulseMissing s = .next (ended p s))
      ∧ (t.lock = .free → exec .pulseMissing s = .next (ended (outcome [] (at_ .free 0) p) s))
      ∧ (t.lock = .locked → exec .pulseMissing s = .next (ended
          (outcome (told .locked .free .pulseMissing t.now) (at_ .free 0) p) s)))
    ∧ ((∀ m, t.lastPulse = some m → t.elapsed - m < 1500) →
      exec .pulseMissing s = .next (ended p s))

/-! ### Intake and evidence -/

/-- Characters on the field link pass its receiver, which keeps the frame so far. A good frame that passes R37's
checks joins the intake queue with the present time; one that fails them, and characters that complete no good
frame, change nothing else. At a full queue a REPORT is discarded and counted under its address, or in ALL scope
alone when its address lies outside 1 to 65534; that a body too short for an address counts in ALL scope alone is
log 60, and that a HELLO is not counted there, and any other kind is, log 12. Both arrivals are judged by the
frame's own characters, taken in one moment (log 24). Rests on R37, R38, R184, R201. -/
def Obligations.FieldFrameArrival : Prop :=
  ∀ (chars : List RxChar) (rx : Receiver) (frames : List Frame) (s : State), blocksRun s.part = true →
    receiveChars s.part.core.time.elapsed s.part.core.fieldRx chars = (rx, frames) →
    let p := s.part
    let c : Core := { p.core with fieldRx := rx }
    let both := fun t : State => exec (.reportArrival chars) s = .next t ∧ exec (.helloArrival chars) s = .next t
    (frames = [] → both (ended (outcome [] c p) s))
    ∧ ∀ f, frames = [f] →
      (c.intake.length < 24 → decodeField f = none → both (ended (outcome [] c p) s))
      ∧ (∀ a x, c.intake.length < 24 → decodeField f = some (a, x) →
        both (ended (outcome [] { c with
          intake := c.intake ++ [{ address := a, frame := x, arrival := c.time.now }] } p) s))
      ∧ (24 ≤ c.intake.length → f.kind = 0x41 → both (ended (outcome [] c p) s))
      ∧ (∀ a, 24 ≤ c.intake.length → f.kind ≠ 0x41 → frameAddress f = some a →
        both (ended (outcome [sensorCount .reportsDiscarded none a] c p) s))
      ∧ (24 ≤ c.intake.length → f.kind ≠ 0x41 → frameAddress f = none →
        both (ended (outcome [segmentCount .reportsDiscarded none 1] c p) s))

/-- The taking of the oldest entry of the intake queue. A REPORT of a bound sensor that passes its tests
records its sequence and arrival, makes the sensor REPORTING and in MONITORING yields its items; one that
fails is discarded; one of an unknown address is discarded. A HELLO of a bound sensor records its arrival. Either
frame of an unknown address brings it to the discovery list: a new entry at the newest end, the oldest of 8 making
room, or the entry already there, which a HELLO gives its phases. The tests and the items are as their rules say.
Rests on R15, R39, R40, R41, R42, R43, R45, R46, R47, R48, R49, R50, R51. -/
def Obligations.IntakeTaking : Prop :=
  (∀ (a arrival : Nat) (rest : List IntakeEntry) (s : State), blocksRun s.part = true → Healthy s →
    s.part.core.items = [] →
    let p := s.part
    let c := p.core
    let taken := sensorCount .reportsTaken none a
    let lost := sensorCount .reportsDiscarded none a
    let unlisted := ∀ x ∈ c.discovery, x.address ≠ a
    let found := fun phases : Option PhaseSet =>
      (if c.discovery.length < 8 then c.discovery else c.discovery.drop 1)
        ++ [({ address := a, firstHeard := c.time.now, phases := phases } : DiscoveryEntry)]
    (∀ r, c.intake = { address := a, frame := .report r, arrival := arrival } :: rest →
      (∀ n v, sensorPlace c a = some n → badAt c.roster n = false → entryAt c.roster n = some v →
        (reportPasses (envOf p) c.time v r = false →
          exec .reportTaking s = .next (ended (outcome [taken, lost] { c with intake := rest } p) s))
        ∧ (reportPasses (envOf p) c.time v r = true →
          let v' : Sensor := { v with
            lastSequence := some r.sequence, lastHeard := arrival, state := .reporting }
          let told := if v.state = .reporting then []
            else [Emit.tell .both (.sensor v.address v.segment v.side v.state .reporting arrival
              (some r.sequence))]
          let outage := outagePattern p.settings v.side r.records
          let stamp := if c.time.lock = .locked then r.timestamp else arrival
          exec .reportTaking s = .next (ended
            (if c.mode = .monitoring then
              outcome
                (taken :: told ++
                  if outage then [sensorCount .evidenceMasked (some v.segment) v.address] else [])
                { c with intake := rest, roster := putAt c.roster n (some v')
                         items := derivedItems p.settings v stamp r.records } p
            else outcome (taken :: told)
              { c with intake := rest, roster := putAt c.roster n (some v') } p) s)))
      ∧ (sensorPlace c a = none →
        (unlisted → exec .reportTaking s = .next (ended (outcome [taken, lost]
          { c with intake := rest, discovery := found none } p) s))
        ∧ (¬ unlisted → exec .reportTaking s = .next (ended (outcome [taken, lost]
          { c with intake := rest } p) s))))
    ∧ (∀ ps, c.intake = { address := a, frame := .hello ps, arrival := arrival } :: rest →
      (∀ n v, sensorPlace c a = some n → badAt c.roster n = false → entryAt c.roster n = some v →
        exec .helloTaking s = .next (ended (outcome []
          { c with intake := rest, roster := putAt c.roster n (some { v with lastHeard := arrival }) } p) s))
      ∧ (sensorPlace c a = none →
        (unlisted → exec .helloTaking s = .next (ended (outcome []
          { c with intake := rest, discovery := found (some ps) } p) s))
        ∧ (¬ unlisted →
          let announced := c.discovery.map fun x => if x.address = a then { x with phases := some ps } else x
          exec .helloTaking s = .next (ended (outcome []
            { c with intake := rest, discovery := announced } p) s)))))
  ∧ (∀ (env : Env) (t : TimeBase) (v : Sensor) (r : Report), AdmissionAsStated env t v r)
  ∧ ∀ (s : Settings) (v : Sensor) (stamp : Nat) (records : List PhaseRecord),
      DerivationAsStated s v stamp records

/-- A sensor not heard for SILENCE_INTERVAL becomes SILENT with its SENSOR notice; while a frame from it waits
in the intake queue the expiry is deferred, and is judged again when none waits. That a deferred expiry is kept
on a list of addresses, which its own event takes it off, is log 26. Rests on R44. -/
def Obligations.SensorSilence : Prop :=
  ∀ (a n : Nat) (v : Sensor) (s : State), blocksRun s.part = true → s.part.core.mode ≠ .halted →
    let p := s.part
    let c := p.core
    sensorPlace c a = some n → entryAt c.roster n = some v → badAt c.roster n = false →
    let due := v.state ≠ .silent
      ∧ reached c.time.now (addTime v.lastHeard (1000 * p.settings.silenceInterval)) = true
    let waits := ∃ x ∈ c.intake, x.address = a
    let silent := fun c : Core => outcome
      [.tell .both (.sensor v.address v.segment v.side v.state .silent v.lastHeard v.lastSequence)]
      { c with roster := putAt c.roster n (some { v with state := .silent }) } p
    let resumed : Core := { c with deferred := c.deferred.filter (· != a) }
    (a ∉ c.deferred →
      (¬ due → exec (.silenceExpiry a) s = .next (ended p s))
      ∧ (due → waits → exec (.silenceExpiry a) s = .next
          (ended (outcome [] { c with deferred := c.deferred ++ [a] } p) s))
      ∧ (due → ¬ waits → exec (.silenceExpiry a) s = .next (ended (silent c) s)))
    ∧ (a ∈ c.deferred → waits → exec (.deferredSilenceExpiry a) s = .next (ended p s))
    ∧ (a ∈ c.deferred → ¬ waits →
      (¬ due → exec (.deferredSilenceExpiry a) s = .next (ended (outcome [] resumed p) s))
      ∧ (due → exec (.deferredSilenceExpiry a) s = .next (ended (silent resumed) s)))

/-- The handling of the oldest item. In HALTED or recovery every item is dropped. An item masked by a path device,
settling, a hold or CONFIGURING is counted. Else it is attributed: ARC_BURSTS, GROUND_CURRENT and TAIL_RESTORED to
their own segment's case, TAIL_DEAD to the first case along its path, with the WATCH cases of descendants, one or
several, merged into its own segment's one at a time in ascending segment number, and one test after them all, a head
item to its own case and then to those of its coverage. It is admitted to a case in WATCH or CONFIRMED and counted,
dropped at one in another state; a case that an admission or the merges confirm is passed to IS at the end of the
event: under ADVISE it waits in CONFIRMED, and under AUTO, or when unattended isolation applies, it goes to ISOLATING
in the same event, two of one item in the order of their confirmations, shown where the segment names no plan, so
that each ends BLOCKED; ARC_BURSTS, TAIL_DEAD and HEAD_CURRENT_DROP open a case where none stands, in the lowest free
entry, else in the place of the WATCH case of the lowest score, else they are refused. A TAIL_RESTORED that leaves no
dead tail frees the case by R86. The records an admission and a merge leave, the coverage and the choice of the case
to evict are as their rules say. The entries the handling reads are log 6; whether an unreachable device masks by its
state and settling, on which R53 and R129 disagree, is left open (log 57). Where timestamps lie half a day apart, R28
puts them in no one order: the order of two such ring entries in a merge, which of two such TAIL_DEAD timestamps of a
sensor is kept, and such arc times are the model's choice (log 61). Rests on R19, R52 to R79, R82 to R84, R86 to R89,
R112, R114, R115. -/
def Obligations.EvidenceHandling : Prop :=
  (∀ (it : Item) (rest : List Item) (s : State), blocksRun s.part = true → s.part.core.items = it :: rest →
    let p := s.part
    let c : Core := { p.core with items := rest }
    let ends := fun (xs : List Emit) (c : Core) =>
      exec .evidenceItemHandling s = .next (ended (outcome xs c p) s)
    let counted := fun segment : Nat => sensorCount .evidenceAdmitted (some segment) it.sensor
    (¬ Healthy s → ends [] { c with items := [] })
    ∧ (Healthy s → Sound c.segments → Sound c.devices →
      ((c.mode = .configuring ∨ ∃ h, c.holds[it.segment]? = some (some h)) →
        ends [sensorCount .evidenceMasked (some it.segment) it.sensor] c)
      ∧ (isMasked c it = true → ends [sensorCount .evidenceMasked (some it.segment) it.sensor] c)
      ∧ ∀ arcs n, it.kind = .arcBursts → it.arcs = some arcs → isMasked c it = false →
        caseOn c it.segment it.phase = none → freeEntry c = some n → badAt c.cases n = false →
        let w := p.settings.weightArcBursts
        let serial := (c.serial + 1) % 65536
        let k : Case :=
          { serial := serial, segment := it.segment, phase := it.phase, state := .watch
            openedAt := c.time.now, windowEnd := (c.time.now + p.settings.watchWindow) % 86400000
            score := min 4095 w, tailDead := [], headCurrentDrop := [], headLive := [], groundCurrent := []
            arcCount := min 255 arcs, firstArc := some it.timestamp, lastArc := some it.timestamp
            contributors := [it.sensor], unlisted := false
            ring := [{ kind := .arcBursts, sensor := it.sensor, segment := it.segment
                       timestamp := it.timestamp, weight := w, arcs := some arcs }]
            admitted := 1, finding := none, isolation := none, unreadable := [] }
        ends
          [caseTold n k none (some .watch) .opened none c.time.now,
           segmentCount .casesOpened (some it.segment) 1, counted it.segment]
          (withCase n k { c with serial := serial, opened := c.opened ++ [n] }))
    ∧ (Healthy s → AllSound c → isMasked c it = false →
      let admittedTo := fun (n : Nat) (k : Case) =>
        ends [counted k.segment] (withCase n (admitted p.settings k it) c)
      let here := fun (n : Nat) (k : Case) => CaseAt c it.segment it.phase n k
      let taking := fun k : Case => StaysUnconfirmed p (admitted p.settings k it)
      let past := fun k : Case => k.state = .isolating ∨ k.state = .isolated ∨ k.state = .blocked
      let path := pathOf c.segments it.segment
      let beyond := (headCoverage c it.segment it.phase).filter (· != it.segment)
      let descendantsQuiet := ∀ z n k, isAncestor c.segments it.segment z = true →
        caseOn c z it.phase = some n → entryAt c.cases n = some k → k.state ≠ .watch
      let isHead := it.kind = .headCurrentDrop ∨ it.kind = .headLive
      let opensHere :=
        it.kind = .arcBursts ∧ caseOn c it.segment it.phase = none
          ∨ it.kind = .headCurrentDrop ∧ caseOn c it.segment it.phase = none
            ∧ (∀ z ∈ beyond, caseOn c z it.phase = none)
          ∨ it.kind = .tailDead ∧ (∀ x ∈ path, caseOn c x it.phase = none) ∧ descendantsQuiet
      let stays := p.settings.authority ≠ 1
        ∧ ¬ (p.inForce.options.unattendedIsolate = true ∧ c.supervision.absent = true)
      let moves := fun r : CaseReason => p.settings.authority = 1 ∧ r = .authority
        ∨ p.settings.authority ≠ 1 ∧ p.inForce.options.unattendedIsolate = true
          ∧ c.supervision.absent = true ∧ r = .unattended
      let unplanned := fun k : Case => ∀ sg, entryAt c.segments k.segment = some sg → sg.plan = none
      let confirmed := fun (k : Case) (f : Finding) => { k with
        state := .confirmed, finding := some f
        isolation := some { confirmedAt := c.time.now, plan := none, step := 0, depth := 0, late := false
                            isolatedBy := none } }
      let blocked := fun (k : Case) (f : Finding) => { confirmed k f with state := .blocked }
      let confirming := fun (n : Nat) (k : Case) (f : Finding) =>
        [caseTold n (confirmed k f) (some .watch) (some .confirmed) .confirmed none c.time.now,
         segmentCount .casesConfirmed (some k.segment) 1,
         segmentCount .evidenceConfirming (some k.segment) k.admitted]
      let isolating := fun (n : Nat) (k : Case) (f : Finding) (r : CaseReason) =>
        [caseTold n (confirmed k f) (some .confirmed) (some .isolating) r none c.time.now,
         caseTold n (confirmed k f) (some .isolating) (some .blocked) .noPlan none c.time.now]
      let confirmsAt := fun (n : Nat) (k : Case) =>
        let k' := admitted p.settings k it
        ∀ f, Confirms p k' f →
          (stays → ends (counted k.segment :: confirming n k' f) (withCase n (confirmed k' f) c))
          ∧ ∀ r, moves r → unplanned k → NoCloses c →
            ends (counted k.segment :: confirming n k' f ++ isolating n k' f r)
              (withCase n (blocked k' f) c)
      (it.kind = .arcBursts ∨ it.kind = .groundCurrent →
        ∀ n k, here n k → (taking k → admittedTo n k) ∧ confirmsAt n k ∧ (past k → ends [] c))
      ∧ (it.kind = .groundCurrent ∨ it.kind = .tailRestored →
        caseOn c it.segment it.phase = none → ends [] c)
      ∧ (it.kind = .tailRestored → ∀ n k, here n k → k.unreadable = [] →
        let k' := admitted p.settings k it
        let emptied := (∃ q ∈ k.tailDead, q.sensor = it.sensor) ∧ k'.tailDead = []
        let freedNow := emptied
          ∧ (k.state = .watch ∧ k.arcCount = 0 ∨ k.state = .confirmed ∧ k.finding = some .broken)
        (past k → ends [] c)
        ∧ (k.state = .watch ∨ k.state = .confirmed → ¬ freedNow → admittedTo n k)
        ∧ (freedNow → ends
            ([counted k.segment, caseTold n k' (some k.state) none .restored none c.time.now]
              ++ if k.state = .watch then [segmentCount .casesClosedUnconfirmed (some k.segment) 1] else [])
            (freed n c)))
      ∧ (it.kind = .tailDead →
        (∀ pre t post n k, path = pre ++ t :: post → (∀ x ∈ pre, caseOn c x it.phase = none) →
          CaseAt c t it.phase n k →
          (past k → ends [] c)
          ∧ (taking k → t ≠ it.segment → admittedTo n k)
          ∧ (taking k → t = it.segment → descendantsQuiet → admittedTo n k)
          ∧ (t ≠ it.segment ∨ descendantsQuiet → confirmsAt n k)
          ∧ (∀ z kz f, t = it.segment → n ≠ z → entryAt c.cases z = some kz → kz.unreadable = [] →
            let k' := admitted p.settings k it
            let gone := [caseTold z kz (some .watch) none .merged none c.time.now,
              segmentCount .casesClosedUnconfirmed (some kz.segment) 1]
            -- confirmed at the item's own admission, and then merged into
            (Confirms p k' f → stays →
              mergeable (withCase n (confirmed k' f) c) it.segment it.phase = [z] →
              ends (counted k.segment :: confirming n k' f ++ gone)
                (freed z (withCase n (merged (confirmed k' f) kz) c)))
            -- confirmed by the test after the merge
            ∧ (StaysUnconfirmed p k' → mergeable (withCase n k' c) it.segment it.phase = [z] →
              Confirms p (merged k' kz) f →
              (stays → ends (counted k.segment :: gone ++ confirming n (merged k' kz) f)
                (withCase n (confirmed (merged k' kz) f) (freed z c)))
              ∧ ∀ r, moves r → unplanned k → NoCloses c →
                ends (counted k.segment :: gone ++ confirming n (merged k' kz) f
                    ++ isolating n (merged k' kz) f r)
                  (withCase n (blocked (merged k' kz) f) (freed z c))))
          ∧ ∀ z kz, taking k → t = it.segment → n ≠ z →
            let k' := admitted p.settings k it
            mergeable (withCase n k' c) it.segment it.phase = [z] → entryAt c.cases z = some kz →
            kz.unreadable = [] → StaysUnconfirmed p (merged k' kz) →
            ends
              [counted k.segment, caseTold z kz (some .watch) none .merged none c.time.now,
               segmentCount .casesClosedUnconfirmed (some kz.segment) 1]
              (freed z (withCase n (merged k' kz) c)))
        -- any number of descendants, merged in turn
        ∧ ∀ n k, here n k →
          let k' := admitted p.settings k it
          let merging := fun k1 : Case => mergeable (withCase n k1 c) it.segment it.phase
          let into := fun k1 : Case => mergesInto n (merging k1) (withCase n k1 c)
          let all := fun k1 : Case => merging k1 ≠ [] ∧ n ∉ merging k1
            ∧ ∀ z ∈ merging k1, ∀ kz, entryAt c.cases z = some kz → kz.unreadable = []
          (∀ f k2, Confirms p k' f → all (confirmed k' f) →
            entryAt (into (confirmed k' f)).2.cases n = some k2 →
            let told := counted k.segment :: confirming n k' f ++ (into (confirmed k' f)).1
            (stays → ends told (into (confirmed k' f)).2)
            ∧ ∀ r, moves r → unplanned k → NoCloses c →
              ends (told ++ isolating n k' f r)
                (withCase n { k2 with state := .blocked } (into (confirmed k' f)).2))
          ∧ (taking k → all k' → ∀ k2, entryAt (into k').2.cases n = some k2 →
            (StaysUnconfirmed p k2 → ends (counted k.segment :: (into k').1) (into k').2)
            ∧ ∀ f, Confirms p k2 f →
              let told := counted k.segment :: (into k').1 ++ confirming n k2 f
              (stays → ends told (withCase n (confirmed k2 f) (into k').2))
              ∧ ∀ r, moves r → unplanned k → NoCloses c →
                ends (told ++ isolating n k2 f r) (withCase n (blocked k2 f) (into k').2))
        -- into a case that the item opens, which stays in WATCH
        ∧ ∀ n, (∀ x ∈ path, caseOn c x it.phase = none) → freeEntry c = some n →
          let serial := (c.serial + 1) % 65536
          let k := newCase (envOf p) serial it.segment it.phase c.time.now
          let c1 := withCase n (admitted p.settings k it) { c with serial := serial, opened := c.opened ++ [n] }
          let zs := mergeable c1 it.segment it.phase
          let m := mergesInto n zs c1
          zs ≠ [] → n ∉ zs → (∀ z ∈ zs, ∀ kz, entryAt c.cases z = some kz → kz.unreadable = []) →
          ends
            ([caseTold n k none (some .watch) .opened none c.time.now,
              segmentCount .casesOpened (some it.segment) 1, counted it.segment] ++ m.1) m.2)
      ∧ (isHead →
        (∀ n k, here n k → (∀ z ∈ beyond, caseOn c z it.phase = none) →
          (taking k → admittedTo n k) ∧ confirmsAt n k ∧ (past k → ends [] c))
        ∧ (∀ n k z m x f g, here n k → z ∈ beyond → (∀ y ∈ beyond, y ≠ z → caseOn c y it.phase = none) →
          CaseAt c z it.phase m x → Confirms p (admitted p.settings k it) f →
          Confirms p (admitted p.settings x it) g →
          let k' := admitted p.settings k it
          let x' := admitted p.settings x it
          let both := counted k.segment :: confirming n k' f ++ counted x.segment :: confirming m x' g
          (stays → ends both (withCase m (confirmed x' g) (withCase n (confirmed k' f) c)))
          ∧ ∀ r, moves r → unplanned k → unplanned x → NoCloses c →
            ends (both ++ isolating n k' f r ++ isolating m x' g r)
              (withCase m (blocked x' g) (withCase n (blocked k' f) c)))
        ∧ (it.kind = .headLive → caseOn c it.segment it.phase = none →
          (∀ z ∈ beyond, caseOn c z it.phase = none) → ends [] c)
        ∧ ∀ z n k, z ∈ beyond → (∀ y ∈ beyond, y ≠ z → caseOn c y it.phase = none) →
          CaseAt c z it.phase n k →
          (it.kind = .headLive ∧ caseOn c it.segment it.phase = none ∨ ∃ m x, here m x ∧ past x) →
          (taking k → admittedTo n k) ∧ confirmsAt n k ∧ (past k → ends [] c))
      ∧ (opensHere →
        let serial := (c.serial + 1) % 65536
        let k := newCase (envOf p) serial it.segment it.phase c.time.now
        (∀ n, freeEntry c = some n → ends
          [caseTold n k none (some .watch) .opened none c.time.now,
           segmentCount .casesOpened (some it.segment) 1, counted it.segment]
          (withCase n (admitted p.settings k it) { c with serial := serial, opened := c.opened ++ [n] }))
        ∧ (freeEntry c = none → evictee c = none → ends
          [segmentCount .casesRefused (some it.segment) 1,
           .tell .both (.tableExhausted it.kind it.sensor it.segment it.phase c.time.now)] c)
        ∧ ∀ z gone, freeEntry c = none → evictee c = some z → entryAt c.cases z = some gone →
          gone.unreadable = [] → ends
            [caseTold z gone (some .watch) none .evicted none c.time.now,
             segmentCount .casesClosedUnconfirmed (some gone.segment) 1,
             caseTold z k none (some .watch) .opened none c.time.now,
             segmentCount .casesOpened (some it.segment) 1, counted it.segment]
            (withCase z (admitted p.settings k it)
              { freed z c with serial := serial, opened := (freed z c).opened ++ [z] }))))
  ∧ (∀ (env : Env) (n x : Nat) (ph : Phase) (e : Ev), AllSound e.toCore →
      (mergeable e.toCore x ph = [] → mergeDescendants env n x ph e = e)
      ∧ (∀ z kx kz, mergeable e.toCore x ph = [z] → n ≠ z → entryAt e.cases n = some kx →
          entryAt e.cases z = some kz → kz.unreadable = [] →
          mergeDescendants env n x ph e = confirmTest env n
            { e with
              toCore := freed z (withCase n (merged kx kz) e.toCore)
              out := e.out ++
                [caseTold z kz (some .watch) none .merged none e.time.now,
                 segmentCount .casesClosedUnconfirmed (some kz.segment) 1] })
      ∧ (∀ zs kx, mergeable e.toCore x ph = zs → zs ≠ [] → n ∉ zs → entryAt e.cases n = some kx →
          (∀ z ∈ zs, ∀ kz, entryAt e.cases z = some kz → kz.unreadable = []) →
          let m := mergesInto n zs e.toCore
          mergeDescendants env n x ph e = confirmTest env n { e with toCore := m.2, out := e.out ++ m.1 })
      ∧ (mergeable e.toCore x ph).Pairwise (fun a b => ∀ ka kb, entryAt e.cases a = some ka →
          entryAt e.cases b = some kb → ka.segment < kb.segment)
      ∧ ∀ m, m ∈ mergeable e.toCore x ph ↔ ∃ z k, z < 96 ∧ isAncestor e.segments x z = true
          ∧ caseOn e.toCore z ph = some m ∧ entryAt e.cases m = some k ∧ k.state = .watch)
  ∧ (∀ (c : Core) (it : Item), MaskedAsStated c it)
  ∧ (∀ (s : Settings) (k : Case) (it : Item), AdmittedAsStated s k it)
  ∧ (∀ x z : Case, MergedAsStated x z)
  ∧ (∀ (c : Core) (y : Nat) (ph : Phase), CoverageAsStated c y ph)
  ∧ ∀ c : Core, EvicteeAsStated c

/-- A WATCH case whose window end is reached is freed EXPIRED and counted as closed unconfirmed, by its own
event and by the one that a recovery held back; any other case stands. That a held expiry stands on a list of
entries until its own event takes it is log 17. Rests on R85, R174. -/
def Obligations.WatchWindowExpires : Prop :=
  ∀ (n : Nat) (k : Case) (s : State), blocksRun s.part = true → Healthy s →
    let p := s.part
    let c := p.core
    let c' : Core := { c with held := { c.held with windows := c.held.windows.filter (· != n) } }
    entryAt c.cases n = some k → badAt c.cases n = false → k.unreadable = [] →
    let due := k.state = .watch ∧ reached c.time.now k.windowEnd = true
    let expired := fun c : Core => outcome
      [caseTold n k (some .watch) none .expired none c.time.now,
       segmentCount .casesClosedUnconfirmed (some k.segment) 1] (freed n c) p
    (due → exec (.windowExpiry n) s = .next (ended (expired c) s))
    ∧ (¬ due → exec (.windowExpiry n) s = .next (ended p s))
    ∧ (due → n ∈ c.held.windows → exec (.heldWindowExpiry n) s = .next (ended (expired c') s))
    ∧ (¬ due → n ∈ c.held.windows → exec (.heldWindowExpiry n) s = .next (ended (outcome [] c' p) s))
    ∧ (n ∉ c.held.windows → exec (.heldWindowExpiry n) s = .next (ended p s))

/-- An ISOLATING case past its deadline has one late notice sent, to both ports, and its late field set, by
the deadline's own event and by the one that a recovery held back; the walk goes on. That a held notice stands on
a list of entries until its own event takes it, due or not, is log 17. Rests on R126, R174. -/
def Obligations.IsolationDeadlineNotice : Prop :=
  ∀ (n : Nat) (k : Case) (r : IsolationRecord) (s : State), blocksRun s.part = true → Healthy s →
    let p := s.part
    let c := p.core
    let c' : Core := { c with held := { c.held with late := c.held.late.filter (· != n) } }
    entryAt c.cases n = some k → badAt c.cases n = false → k.isolation = some r →
    let due := k.state = .isolating ∧ r.late = false
      ∧ reached c.time.now (addTime r.confirmedAt p.settings.isolationDeadline) = true
    let late := fun c : Core => outcome
      [.tell .both
        (.isolationLate n k.serial k.segment k.phase r.confirmedAt r.plan r.step r.depth c.time.now)]
      (withCase n { k with isolation := some { r with late := true } } c) p
    (due → exec (.isolationDeadlineReached n) s = .next (ended (late c) s))
    ∧ (¬ due → exec (.isolationDeadlineReached n) s = .next (ended p s))
    ∧ (due → n ∈ c.held.late → exec (.heldIsolationLateNotice n) s = .next (ended (late c') s))
    ∧ (¬ due → n ∈ c.held.late → exec (.heldIsolationLateNotice n) s = .next (ended (outcome [] c' p) s))
    ∧ (n ∉ c.held.late → exec (.heldIsolationLateNotice n) s = .next (ended p s))

/-! ### The device link -/

/-- Characters on the device link pass its receiver; those that complete no good frame, frames R130 drops and
undefined link addresses change nothing else. Shown where no poll is due and, but for the last clause, no walk
waits. A DONE reply of the SENT order, of any class, removes it, clears the device's current order,
records a new state with its DEVICE notice and tells the port that the order came from; a REFUSED one records its
reason; a REFUSED reply that matches nothing changes nothing, and a stale DONE one records its state, as a state
report does, with the settle time of R146 and no further poll. Any frame from an unreachable device first makes it
reachable, with its DEVICE notice, and ends its polling where its state is known (for a REFUSED reply to a POLL that
is log 62). A device that enters OPEN or LOCKED_OUT over a case frees it from WATCH, or makes it ISOLATED from
CONFIRMED or BLOCKED; one that enters RECLOSING frees it from WATCH. A DONE reply of the order of a walk's last step,
the device open, completes the walk; where a reload has since put another device at the step's index, that the step
is done by the order's device is log 47. The characters are taken in one moment (log 24). Rests on R90, R92, R119,
R122, R130, R137 to R139, R141 to R149, R150, R184. -/
def Obligations.DeviceFrames : Prop :=
  ∀ (chars : List RxChar) (rx : Receiver) (frames : List Frame) (s : State), blocksRun s.part = true →
    receiveChars s.part.core.time.elapsed s.part.core.deviceRx chars = (rx, frames) →
    let p := s.part
    let c : Core := { p.core with deviceRx := rx }
    let ends := fun (xs : List Emit) (c : Core) =>
      exec (.orderReply chars) s = .next (ended (outcome xs c p) s)
        ∧ exec (.stateReport chars) s = .next (ended (outcome xs c p) s)
    (frames = [] → ends [] c)
    ∧ ∀ f, frames = [f] →
      (decodeDevice f = none → ends [] c)
      ∧ (∀ link df, decodeDevice f = some (link, df) → deviceAtLink c link = none → ends [] c)
      ∧ ∀ link df d v, decodeDevice f = some (link, df) → deviceAtLink c link = some d →
        entryAt c.devices d = some v → badAt c.devices d = false → c.room = [] → NoPolls c →
        let others := c.orders.filter fun o => o.device != d
        let notice := fun (o : Order) (q : Port) (tag : Byte) (st : DeviceState) (out : OrderOutcome)
            (r : Option RefusalReason) =>
          Emit.tell (.only q) (.order
            { tag := tag, number := o.number, device := d, action := o.action, outcome := out
              state := st, retries := o.sends.getD 0 - 1, refusal := r, withdrawal := none
              time := c.time.now })
        let settle := fun new : DeviceState =>
          if new = .closed then
            if v.run.state = .reclosing then
              if p.settings.settleInterval = 0 then none
              else some ((c.time.now + p.settings.settleInterval) % 86400000)
            else v.run.settleUntil
          else none
        let became := fun (new : DeviceState) (cause : RecordingCause) =>
          Emit.tell .both (.deviceState d v.link v.run.state new cause true c.time.now)
        let withRun := fun (run : DeviceRun) (c : Core) =>
          { c with devices := putAt c.devices d (some { v with run := run }) }
        let recordedRun := fun new : DeviceState =>
          { v.run with state := new, settleUntil := settle new, nextPoll := none, reachable := true }
        -- what the frame makes of an unreachable device, before its content acts
        let met : DeviceRun :=
          if v.run.reachable then v.run
          else
            { v.run with
              reachable := true, nextPoll := if v.run.state = .unknown then v.run.nextPoll else none }
        let hailed := if v.run.reachable then c else withRun met c
        let hail :=
          if v.run.reachable then [] else [Emit.tell .both (.deviceReach d v.link true .frameReceived c.time.now)]
        let told := fun (o : Order) (st : DeviceState) (out : OrderOutcome) (r : Option RefusalReason) =>
          match o.origin with
          | .port q tag => [notice o q tag st out r]
          | _ => []
        (c.walks = [] →
          (∀ number o, df = .orderReply number (.done v.run.state) → matching c d number = some o →
            ends (hail ++ told o v.run.state .done none)
              (withRun { met with currentOrder := none } { c with orders := others }))
          ∧ (∀ number reason o, df = .orderReply number (.refused reason) → matching c d number = some o →
            ends (hail ++ told o v.run.state .refused (some reason))
              (withRun { met with currentOrder := none, lastRefusal := some reason }
                { c with orders := others }))
          ∧ (∀ number reason, df = .orderReply number (.refused reason) → matching c d number = none →
            ends hail hailed)
          ∧ (∀ number, df = .orderReply number (.done v.run.state) → matching c d number = none →
            ends hail hailed)
          ∧ (df = .stateReport v.run.state → ends hail hailed)
          ∧ (∀ new, new ≠ v.run.state → Sound c.cases → (∀ n, entryAt c.cases n = none) →
            (∀ cause, (df = .stateReport new ∧ cause = .stateReport
                ∨ ∃ number, df = .orderReply number (.done new) ∧ matching c d number = none
                  ∧ cause = .staleReply number) →
              ends (hail ++ [became new cause]) (withRun (recordedRun new) c))
            ∧ ∀ number o, df = .orderReply number (.done new) → matching c d number = some o →
              ends (hail ++ became new (.orderReply number) :: told o new .done none)
                (withRun { recordedRun new with currentOrder := none } { c with orders := others }))
          ∧ ∀ new n k, df = .stateReport new → new ≠ v.run.state → c.mode ≠ .halted → AllSound c →
            NoCloses c → (∀ o ∈ c.orders, o.cls = .isolation → o.state = .sent) →
            (∀ m, m ≠ n → entryAt c.cases m = none) → entryAt c.cases n = some k → k.unreadable = [] →
            let c' := withRun (recordedRun new) c
            let first := hail ++ [became new .stateReport]
            let below := inDownstream c.segments v k.segment = true
            let opens := new = .open_ ∨ new = .lockedOut
            let isolated : Case := { k with
              state := .isolated, isolation := k.isolation.map fun i => { i with isolatedBy := some d } }
            (below → opens ∨ new = .reclosing → k.state = .watch → ends
              (first ++ [caseTold n k (some .watch) none .masked (some d) c.time.now,
                segmentCount .casesClosedUnconfirmed (some k.segment) 1]) (freed n c'))
            ∧ (below → opens → k.state = .confirmed ∨ k.state = .blocked → ends
              (first ++ [caseTold n k (some k.state) (some .isolated) .deviceOpened (some d) c.time.now])
              (withCase n isolated c'))
            ∧ (¬ below ∨ k.state = .isolating ∨ k.state = .isolated ∨ ¬ (opens ∨ new = .reclosing)
                ∨ new = .reclosing ∧ k.state ≠ .watch →
              ends first c'))
        ∧ ∀ number o new w k r pl, df = .orderReply number (.done new) →
          standsOpen new = true → new ≠ v.run.state → matching c d number = some o →
          o.origin = .case w.serial → c.walks = [w] → w.cond = .ordered number d → w.phase = .main →
          c.mode ≠ .halted → AllSound c → (∀ m, m ≠ w.entry → entryAt c.cases m = none) →
          entryAt c.cases w.entry = some k → k.unreadable = [] → k.state = .isolating →
          k.isolation = some r → (∃ i, r.plan = some i ∧ entryAt c.plans i = some pl) →
          r.step + 1 = pl.steps.length →
          let k' : Case := { k with state := .isolated, isolation := some { r with isolatedBy := some d } }
          ends
            (hail ++
              [became new (.orderReply number),
               caseTold w.entry k (some .isolating) (some .isolated) .planComplete (some d) c.time.now,
               segmentCount .isolationTime (some k.segment) (diffTime c.time.now r.confirmedAt)])
            (withCase w.entry k'
              (withRun { recordedRun new with currentOrder := none }
                { c with orders := others, walks := [] }))

/-- The end of an ORDER frame frees the link, and the arbiter sends its choice: the order is SENT with its deadline,
its frame is on the link, and the send is counted, a re-send also as a retry. The choice is by class, ISOLATION
before MANUAL before POLL, and then by queuing position, among the QUEUED orders outside HALTED and those with a
re-send pending; orders left to the sweep, which carry a mark for it (log 25), are passed over. A reply deadline
marks the order for re-sending while retries are left, and with the link free the arbiter's choice is sent at once;
otherwise, or for a POLL, it completes the order FAILED, counts it and tells its origin port, and a device that was
reachable is unreachable from then on, with its DEVICE notice and, in MONITORING with a known state, its next poll.
Rests on R135, R136, R140, R141, R147, R149, R150, R152. -/
def Obligations.SendingAndDeadlines : Prop :=
  (∀ s : State, blocksRun s.part = true →
    let p := s.part
    let c := p.core
    let sentAs := fun (o : Order) (c : Core) (v : Device) =>
      let sends := o.sends.getD 0 + 1
      { c with
        linkTx := some (orderFrame v.link o.number o.action)
        orders := c.orders.map fun x =>
          if x.device = o.device then
            { x with state := .sent, resend := false, sends := some sends
                     deadline := some ((c.time.now + p.settings.replyTimeout) % 86400000) }
          else x }
    let counts := fun o : Order =>
      if 2 ≤ o.sends.getD 0 + 1 then
        [deviceCount .ordersSent o.device, deviceCount .orderRetries o.device]
      else [deviceCount .ordersSent o.device]
    (c.linkTx = none → exec .deviceTransmitEnd s = .next (ended p s))
    ∧ (∀ frame, c.linkTx = some frame →
      (chooseOrder c = none → exec .deviceTransmitEnd s = .next
        (ended (outcome [] { c with linkTx := none } p) s))
      ∧ ∀ o v, chooseOrder c = some o → badAt c.devices o.device = false →
          entryAt c.devices o.device = some v →
        exec .deviceTransmitEnd s = .next (ended (outcome (counts o) (sentAs o c v) p) s))
    ∧ ∀ (d : Nat) (o : Order) (v : Device) (t : Nat), orderOf c d = some o → o.state = .sent →
        o.resend = false → o.left = false → o.deadline = some t → badAt c.devices d = false →
        entryAt c.devices d = some v →
      let marked : Core := { c with
        orders := c.orders.map fun x => if x.device = d then { x with resend := true } else x }
      (reached c.time.now t = false → exec (.replyDeadlineExpiry d) s = .next (ended p s))
      ∧ (reached c.time.now t = true → o.cls ≠ .poll → o.sends.getD 0 - 1 < p.settings.retryLimit →
        (c.linkTx.isSome = true → exec (.replyDeadlineExpiry d) s = .next (ended (outcome [] marked p) s))
        ∧ ∀ x u, c.linkTx = none → chooseOrder marked = some x → badAt c.devices x.device = false →
          entryAt c.devices x.device = some u →
          exec (.replyDeadlineExpiry d) s = .next (ended (outcome (counts x) (sentAs x marked u) p) s))
      ∧ (reached c.time.now t = true → o.cls = .poll ∨ p.settings.retryLimit ≤ o.sends.getD 0 - 1 →
          c.walks = [] → c.room = [] → NoPolls c →
          1 ≤ p.settings.pollInterval → p.settings.pollInterval ≤ 60 →
        let polled := c.mode = .monitoring ∧ v.run.state ≠ .unknown
        let run : DeviceRun :=
          if v.run.reachable then
            { v.run with
              currentOrder := none, reachable := false
              nextPoll :=
                if polled then some ((c.time.now + 1000 * p.settings.pollInterval) % 86400000)
                else v.run.nextPoll }
          else { v.run with currentOrder := none }
        let c' : Core := { c with
          orders := c.orders.filter (fun x => x.device != d)
          devices := putAt c.devices d (some { v with run := run }) }
        let lost :=
          (if v.run.reachable then
            [Emit.tell .both (.deviceReach d v.link false (.orderFailed o.number) c.time.now)] else [])
          ++ [deviceCount .ordersFailed d]
        (o.origin = .none → exec (.replyDeadlineExpiry d) s = .next (ended (outcome lost c' p) s))
        ∧ ∀ q tag, o.origin = .port q tag → exec (.replyDeadlineExpiry d) s = .next
          (ended (outcome
            (lost ++ [.tell (.only q) (.order
              { tag := tag, number := o.number, device := d, action := o.action, outcome := .failed
                state := v.run.state, retries := o.sends.getD 0 - 1, refusal := none, withdrawal := none
                time := c.time.now })]) c' p) s)))
  ∧ ∀ c : Core,
    let waits := fun x : Order =>
      x.left = false ∧ (x.state = .queued ∧ c.mode ≠ .halted ∨ x.state = .sent ∧ x.resend = true)
    let place := fun k : OrderClass => match k with
      | .isolation => 0
      | .manual => 1
      | .poll => 2
    (chooseOrder c = none ↔ ∀ x ∈ c.orders, ¬ waits x)
      ∧ ∀ o, chooseOrder c = some o →
        waits o ∧ ∃ pre post, c.orders = pre ++ o :: post
          ∧ (∀ x ∈ pre, waits x → place o.cls < place x.cls)
          ∧ ∀ x ∈ post, waits x → place o.cls ≤ place x.cls

/-- When a device falls due its poll is queued, when the queue grants it, under the next number, and its next poll
is set; it waits while the link is busy, and is sent at once over a free one. The polls of all the devices then due
are requested in that event, in ascending number while the queue has room (that one POLL_DUE serves them all is log
37); without room none is, and no entry is read (log 6). A device that is not due is not polled. The work that a
recovery held back is done after its end: the polls due, in the same way, and none without room; the moves for
authority, none in ADVISE
with Port A present, and in AUTO a CONFIRMED case without a plan BLOCKED; and the judging of the steps in ROOM,
the one step's order queued when its device stands closed. That each kind of held-back work is marked until its
event takes it is log 17. Rests on R112, R120, R128, R147, R148, R174. -/
def Obligations.PollsAndHeldWork : Prop :=
  ∀ s : State, blocksRun s.part = true → Healthy s →
    let p := s.part
    let c := p.core
    let number := (c.orderNumber + 1) % 256
    let order := fun (d : Nat) (a : Action) (cls : OrderClass) (origin : OrderOrigin) =>
      ({ number := number, device := d, action := a, cls := cls, origin := origin, state := .queued
         resend := false, sends := none, deadline := none, left := false } : Order)
    let polled := fun (d : Nat) (v : Device) (c : Core) => ({ c with
      orderNumber := number, orders := c.orders ++ [order d .query .poll .none]
      devices := putAt c.devices d (some { v with run := { v.run with
        nextPoll := some ((c.time.now + 1000 * p.settings.pollInterval) % 86400000)
        currentOrder := some number } }) } : Core)
    let due := fun v : Device => c.mode = .monitoring ∧ (v.run.state = .unknown ∨ v.run.reachable = false)
      ∧ ∃ t, v.run.nextPoll = some t ∧ reached c.time.now t = true
    let alone := fun d : Nat => ∀ m u, m ≠ d → entryAt c.devices m = some u → ¬ due u
    let requested := c.mode = .monitoring ∧ c.orders.length < 16 ∧ Sound c.devices
      ∧ (c.linkTx.isSome = true ∨ c.orders = [])
    (∀ d v, d < 24 → entryAt c.devices d = some v →
      (¬ due v → exec (.pollDue d) s = .next (ended p s))
      ∧ (due v → 16 ≤ c.orders.length → exec (.pollDue d) s = .next (ended p s))
      ∧ (due v → requested →
        let asked := pollsRequested p.settings c
        exec (.pollDue d) s = .next (ended (outcome asked.1 asked.2 p) s))
      ∧ (due v → alone d → orderOf c d = none → c.orders.length < 16 → Sound c.devices →
        c.linkTx.isSome = true →
        exec (.pollDue d) s = .next (ended (outcome [] (polled d v c) p) s)))
    ∧ (c.held.polls = true →
      let c' : Core := { c with held := { c.held with polls := false } }
      (NoPolls c → exec .heldPollRequest s = .next (ended (outcome [] c' p) s))
      ∧ (16 ≤ c.orders.length → exec .heldPollRequest s = .next (ended (outcome [] c' p) s))
      ∧ (requested →
        let asked := pollsRequested p.settings c'
        exec .heldPollRequest s = .next (ended (outcome asked.1 asked.2 p) s))
      ∧ ∀ d v, d < 24 → entryAt c.devices d = some v → due v → alone d → orderOf c d = none →
        c.orders.length < 16 → Sound c.devices → c.linkTx.isSome = true →
        exec .heldPollRequest s = .next (ended (outcome [] (polled d v c') p) s))
    ∧ (c.held.authority = true →
      let c' : Core := { c with held := { c.held with authority := false } }
      (p.settings.authority ≠ 1 → c.supervision.absent = false →
        exec .heldAuthorityMove s = .next (ended (outcome [] c' p) s))
      ∧ ∀ n k r, p.settings.authority = 1 → AllSound c → NoCloses c → confirmedCases c = [n] →
        entryAt c.cases n = some k → k.unreadable = [] → k.isolation = some r →
        (∀ sg, entryAt c.segments k.segment = some sg → sg.plan = none) →
        let k' : Case := { k with
          state := .blocked, isolation := some { r with plan := none, step := 0, depth := 0 } }
        exec .heldAuthorityMove s = .next (ended (outcome
          [caseTold n k (some .confirmed) (some .isolating) .authority none c.time.now,
           caseTold n k (some .isolating) (some .blocked) .noPlan none c.time.now]
          (withCase n k' c') p) s))
    ∧ (c.held.room = true →
      (c.room = [] → exec .heldRoomListJudging s = .next
        (ended (outcome [] { c with held := { c.held with room := false } } p) s))
      ∧ ∀ n w k r i pl d v old, c.room = [n] → walkOf c n = some w → w.entry = n → w.cond = .room old →
          badAt c.cases n = false → entryAt c.cases n = some k → k.isolation = some r → r.plan = some i →
          badAt c.plans i = false → entryAt c.plans i = some pl → pl.steps[r.step]? = some d →
          badAt c.devices d = false → entryAt c.devices d = some v → standsOpen v.run.state = false →
          orderOf c d = none → c.orders.length < 16 → c.linkTx.isSome = true →
          reservationOf c d = none →
        let v' : Device := { v with run := { v.run with currentOrder := some number } }
        exec .heldRoomListJudging s = .next (ended (outcome []
          { c with
            held := { c.held with room := false }, room := []
            walks := c.walks.filter (fun x => x.entry != n) ++ [{ w with cond := .ordered number d }]
            orderNumber := number
            orders := c.orders ++ [order d .open_ .isolation (.case w.serial)]
            devices := putAt c.devices d (some v') } p) s))

/-! ### Table integrity, and what runs on time -/

/-- The recovery sweep takes the table at the head of its list, the last one or another: with the last dealt with,
the recovery ends in the same event, with its FAULT notice last and the held-back work still to be done. A table with
no bad entry leaves the list, a device table then showing its orders to the arbiter again. The reload of a bad table
waits for a save in progress, and is made at its completion as a step makes one; without a save it is made at once,
from a valid store whose writes verify: the plan store, the segment table, the roster and the device table with the
run-time fields each entry keeps or takes; a sensor that leaves the roster waits for no expiry any more (its place on
the list is log 26). In MONITORING the validation follows. The bad entries of the case table, one or several, are
freed LOST in ascending entry number, each with its notice and its place in the record while 8 are not listed, and
one that reads as free is rewritten; a field that reads outside its range is absent from both. A failed reload is a
store failure: the store is marked, the further fault recorded, and the table's bad entries become undefined, or with
the third fault in the window the part is HALTED. A store failure or a failed validation in MONITORING leads to the
forced fall, whose effect on a case of each state, on the orders and on the polls is given; where the failure's own
work has halted the part, its notice tells that no fall followed (log 51). Rests on R103, R104, R152, R162, R170,
R172 to R180, R182. That a reload waits for a save in progress although the store is marked invalid is log 29; the
marks that hold work back are log 17, and the marks of the orders left to the sweep, which a swept device table
clears, log 25; that the sweep's validation, its bars and its fall read the tables without a further fault is log 31;
that the bad entries are counted as they are dealt with is log 52; that a table reloaded again joins the tables
reloaded again is log 64; the outcome of a reload's writes is the command's operand by log 18. -/
def Obligations.RecoverySweep : Prop :=
  (∀ (ok : Bool) (t : Table) (rest : List Table) (s : State), blocksRun s.part = true →
    s.part.core.recovery.recovering = true → s.part.core.recovery.waiting = none →
    s.part.core.recovery.sweep = t :: rest →
    let p := s.part
    let c := p.core
    let r := c.recovery
    let img := p.store.image
    let bad := (badOf c t).length
    let counted := fun n : Nat => { c.record with repaired := min 65535 (c.record.repaired + n) }
    let sound := ok = true ∧ p.store.valid = true ∧ p.store.codeMatches = true
    let reloaded : Recovery :=
      { r with sweep := rest, reloaded := r.reloaded ++ [t], repaired := r.repaired + bad }
    let idle := fun v : Device => { v with run := { v.run with nextPoll := none } }
    let passed := fun o : Order => { o with left := false }
    -- the step tells `xs` and leaves the blocks as `c'`, but for the end of the recovery after the last table
    let leaves := fun (xs : List Emit) (c' : Core) (p' : Part) =>
      exec (.recoverySweepStep ok) s = .next
        (ended (outcome (sweepEnded p.settings xs c').1 (sweepEnded p.settings xs c').2 p') s)
    -- a reload leaves the blocks as `c'`; in MONITORING the validation follows, and a failed check the fall
    let validated := fun (xs : List Emit) (c' : Core) =>
      (c.mode = .configuring ∨ c.mode = .monitoring ∧ validation c' = none → leaves xs c' p)
      ∧ ∀ check item, c.mode = .monitoring → validation c' = some (check, item) →
          (∀ n, entryAt c.cases n = none) → (∀ o ∈ c'.orders, o.cls = .poll → o.state = .sent) →
        leaves xs
          { c' with mode := .configuring, devices := mapContents idle c'.devices
                    recovery := { reloaded with failedCheck := some check } } p
    let reloads := badOf c t ≠ [] ∧ p.save = none ∧ sound
    -- a table with no bad entry, the last one or another
    (badOf c t = [] → t ≠ .device → leaves [] { c with recovery := { r with sweep := rest } } p)
    ∧ (badOf c t = [] → t = .device →
      (c.linkTx.isSome = true ∨ c.orders = [] →
        leaves [] { c with recovery := { r with sweep := rest }, orders := c.orders.map passed } p)
      ∧ ∀ o v, c.linkTx = none → c.mode ≠ .halted → c.orders = [o] → o.state = .queued → o.sends = none →
          entryAt c.devices o.device = some v →
        let due := (c.time.now + p.settings.replyTimeout) % 86400000
        leaves [deviceCount .ordersSent o.device]
          { c with
            recovery := { r with sweep := rest }
            orders := [{ o with left := false, state := .sent, resend := false, sends := some 1
                                deadline := some due }]
            linkTx := some (orderFrame v.link o.number o.action) } p)
    ∧ (badOf c t ≠ [] → t ≠ .case → p.save.isSome = true →
      exec (.recoverySweepStep ok) s = .next (ended (outcome []
        { c with recovery := { r with sweep := rest, waiting := some t } } p) s))
    -- a reload: the plan store
    ∧ (reloads → t = .plan →
      validated [] { c with
        plans := img.plans.map fun x => { content := x, check := 0 }
        stepsInUse := (img.plans.map fun x => (x.map (·.steps.length)).getD 0).sum
        record := counted bad, recovery := reloaded })
    -- the segment table, with the withdrawal of a CLOSE it places under a bar
    ∧ (reloads → t = .segment →
      let segs := img.segments.map fun x => ({ content := x, check := 0 } : Checked Segment)
      (NoCloses c → validated [] { c with segments := segs, record := counted bad, recovery := reloaded })
      ∧ ∀ o v q tag, c.orders = [o] → o.action = .close → o.state = .queued → o.cls = .manual →
          o.origin = .port q tag → o.sends = none → entryAt c.devices o.device = some v →
          badAt c.devices o.device = false → barredByHold segs c.holds v = true →
          c.walks = [] → c.room = [] → c.mode ≠ .halted →
        validated
          [.tell (.only q) (.order
            { tag := tag, number := o.number, device := o.device, action := .close, outcome := .withdrawn
              state := v.run.state, retries := 0, refusal := none, withdrawal := some .workHold
              time := c.time.now })]
          { c with
            segments := segs, orders := []
            devices := putAt c.devices o.device (some { v with run := { v.run with currentOrder := none } })
            record := counted bad, recovery := reloaded })
    -- the roster
    ∧ (reloads → t = .roster →
      let bound := img.roster.filterMap fun b => b.map (·.address)
      validated [] { c with
        roster := img.roster.map fun b => { content := b.map (reloadSensor c.roster c.time.now), check := 0 }
        discovery := c.discovery.filter fun x => !bound.contains x.address
        deferred := c.deferred.filter fun a => bound.contains a
        record := counted bad, recovery := reloaded })
    -- the device table
    ∧ (reloads → t = .device → c.orders = [] →
      let devices := (mapFrom (fun n d => d.map (reloadDevice c n)) 0 img.devices).map fun x =>
        ({ content := x, check := 0 } : Checked Device)
      validated [] { c with
        devices := devices
        reservations := mapFrom (fun n x =>
          if n < devices.length ∧ entryAt devices n = none then none else x) 0 c.reservations
        record := counted bad, recovery := reloaded })
    -- lost cases, one bad entry or several
    ∧ (badOf c t ≠ [] → t = .case →
      let lost := losesInto (badOf c t)
        { c with record := counted bad, recovery := { r with sweep := rest, repaired := r.repaired + bad } }
      leaves lost.1 lost.2 p)
    -- store failure
    ∧ (t ≠ .case → badOf c t ≠ [] → p.save = none → ¬ sound → c.mode ≠ .halted →
        (t = .device → c.orders = []) →
      let record : FaultRecord :=
        { c.record with
          first := some (c.record.first.getD
            { table := .store, entry := none, time := c.time.now, mode := c.mode })
          total := min 255 (c.record.total + 1), storeFailed := true }
      let window := c.window ++ [c.time.now]
      let marked : Part := { p with store := { p.store with valid := false } }
      let told := fun (out : FaultOutcome) (fall : Bool) =>
        [Emit.tell .both (.faultFound .store none c.time.now record.total window.length out (some fall))]
      let stored : Core :=
        { withoutBad t c with
          record := { record with repaired := min 65535 (c.record.repaired + bad) }, window := window
          recovery := { r with sweep := rest, repaired := r.repaired + bad } }
      (window.length < 3 → c.mode = .configuring → leaves (told .furtherFault false) stored marked)
      ∧ (window.length < 3 → c.mode = .monitoring → (∀ n, entryAt c.cases n = none) →
          (∀ o ∈ c.orders, o.cls = .poll → o.state = .sent) →
        leaves (told .furtherFault true)
          { stored with mode := .configuring, devices := mapContents idle stored.devices } marked)
      ∧ (3 ≤ window.length →
        exec (.recoverySweepStep ok) s = .next (ended (outcome (told .halted false)
          { c with mode := .halted, record := record, window := window, recovery := Recovery.idle
                   devices := mapContents idle c.devices } marked) s))))
  -- a reload that waited for a save is made at its completion as a step of the sweep makes one
  ∧ (∀ (written ok : Bool) (img : Image) (t : Table) (s : State), blocksRun s.part = true →
    s.part.save = some img → s.part.core.recovery.recovering = true →
    s.part.core.recovery.waiting = some t → t ≠ .case → badOf s.part.core t ≠ [] →
    let r := s.part.core.recovery
    let stored := replyWaiting .save (if written then .accepted else .storeFailure)
      { s.part with save := none, store := { image := img, codeMatches := written, valid := written } }
    exec (.saveCompletion written ok) s = exec (.recoverySweepStep ok)
      { s with part := { stored with core := { s.part.core with
          recovery := { r with waiting := none, sweep := t :: r.sweep } } } })
  -- the run-time fields a reloaded sensor or device keeps or takes
  ∧ (∀ (old : List (Checked Sensor)) (now : Nat) (b : Binding),
    let same := fun v : Sensor =>
      v.address = b.address ∧ v.segment = b.segment ∧ v.side = b.side ∧ v.phases = b.phases
    (∀ n v, entryAt old n = some v → badAt old n = false → same v →
        (∀ m u, entryAt old m = some u → badAt old m = false → u.address = b.address → m = n) →
      reloadSensor old now b = v)
    ∧ ((∀ n v, entryAt old n = some v → badAt old n = false → ¬ same v) →
      reloadSensor old now b =
        { address := b.address, segment := b.segment, side := b.side, phases := b.phases
          state := .waiting, lastSequence := none, lastHeard := now }))
  ∧ (∀ (c : Core) (n : Nat) (d : DeviceDef),
    let same := fun v : Device => v.link = d.link ∧ v.kind = d.kind ∧ v.segment = d.segment
    (∀ v, entryAt c.devices n = some v → badAt c.devices n = false → same v → reloadDevice c n d = v)
    ∧ ((∀ v, entryAt c.devices n = some v → badAt c.devices n = false → ¬ same v) →
      reloadDevice c n d =
        { link := d.link, kind := d.kind, segment := d.segment
          run := { DeviceRun.powerOn with
            currentOrder := (orderOf c n).map (·.number)
            nextPoll := if c.mode = .monitoring then some c.time.now else none } }))
  ∧ (∀ (e : Ev) (d : Nat) (o : Order), orderOf e.toCore d = some o → entryAt e.devices d = none →
    failLost d e =
      { e with
        orders := e.orders.filter fun x => x.device != d
        out := e.out ++ [deviceCount .ordersFailed d]
        todo := e.todo ++ [.handOver o .failed none, .announce d] })
  -- a store failure whose own work has halted the part
  ∧ (∀ (e : Ev) (d : Dest) (entry : Option Nat) (now total inWindow : Nat) (outcome : FaultOutcome) (fall : Bool)
      (pre post : List Emit), e.mode = .halted →
      (∀ x ∈ pre ++ post, ∀ d t n now total w o f, x ≠ .tell d (.faultFound t n now total w o (some f))) →
      e.out = pre ++ .tell d (.faultFound .store entry now total inWindow outcome (some fall)) :: post →
      fallInMonitoring e = { e with
        out := pre ++ .tell d (.faultFound .store entry now total inWindow outcome (some false)) :: post })
  -- the forced fall
  ∧ ∀ e : Ev, e.mode = .monitoring →
    let idle := fun v : Device => { v with run := { v.run with nextPoll := none } }
    let polled := fun x : Ev => { x with devices := mapContents idle x.devices }
    let fallen : Ev := { e with mode := .configuring }
    (∀ o v, (∀ n, entryAt e.cases n = none) → e.orders = [o] → o.state = .queued →
        entryAt e.devices o.device = some v → badAt e.devices o.device = false →
      forcedFall e =
        if o.cls = .poll then polled (orderWithdrawn .isolationOverride o v fallen) else polled fallen)
    ∧ ∀ n k, (entriesWhere e.cases fun _ => true) = [n] → entryAt e.cases n = some k →
        badAt e.cases n = false → k.unreadable = [] →
      let k' : Case := { k with state := .blocked }
      let blocked : Ev :=
        { fallen with
          cases := e.cases.set n { content := some k', check := 0 }
          counted := e.counted.set n (some .blocked)
          out := e.out ++ [caseTold n k (some k.state) (some .blocked) .storeFailure none e.time.now] }
      (e.orders = [] →
        (k.state = .watch → forcedFall e = polled
          { fallen with
            toCore := { freed n e.toCore with mode := .configuring }
            out := e.out ++ [caseTold n k (some .watch) none .withdrawn none e.time.now,
                             segmentCount .casesClosedUnconfirmed (some k.segment) 1] })
        ∧ (k.state = .confirmed → forcedFall e = polled blocked)
        ∧ (k.state = .isolating → forcedFall e = polled (walkEnded n blocked))
        ∧ (k.state = .isolated ∨ k.state = .blocked → forcedFall e = polled fallen))
      ∧ ∀ o v, e.orders = [o] → o.state = .queued → entryAt e.devices o.device = some v →
          badAt e.devices o.device = false →
        (k.state = .isolating → o.cls = .isolation → o.action = .open_ → o.origin = .case k.serial →
          forcedFall e = polled (orderWithdrawn .isolationOverride o v (walkEnded n blocked)))
        ∧ (k.state = .confirmed → o.cls = .manual → o.action = .close →
            firstBad e.toCore (closeBarReads e.toCore o.device) = none →
            barredBy e.segments v k.segment = true →
          forcedFall e = polled (orderWithdrawn .isolationOverride o v blocked))

/-- A READ_DEVICES that finds a mismatch in the device table is an internal fault, that of the lowest entry (the
entries a command reads, and their order, are log 6): the command is answered UNAVAILABLE fault-recovery, the
fault is recorded, joins the fault window and is told to both ports. With fewer than 3 times in the window
the sweep begins with all five tables; with 3 the part is HALTED and no device waits for a poll. Rests on
R169, R170, R171, R172, R180, R182. -/
def Obligations.MismatchIsInternalFault : Prop :=
  ∀ (q : Port) (tag : Byte) (n : Nat) (s : State), Takes q s → Healthy s →
    let p := heard q s
    let c := p.core
    n < c.devices.length → badAt c.devices n = true → (∀ m, m < n → badAt c.devices m = false) →
    let first : FirstFault := c.record.first.getD
      { table := .device, entry := some n, time := c.time.now, mode := c.mode }
    let record : FaultRecord := { c.record with first := some first, total := min 255 (c.record.total + 1) }
    let window := c.window ++ [c.time.now]
    let told := fun outcome : FaultOutcome =>
      [Emit.tell .both (.faultFound .device (some n) c.time.now record.total window.length outcome none)]
    (window.length < 3 →
      exec (.readDevices q tag (.ok ())) s = .next (replied q 0x11 tag .faultRecovery .empty
        (outcome (told .recovering)
          { c with record := record, window := window
                   recovery := { Recovery.idle with
                     recovering := true, sweep := [.segment, .device, .roster, .plan, .case] } } p) s))
    ∧ (3 ≤ window.length →
      let idle := fun v : Device => { v with run := { v.run with nextPoll := none } }
      exec (.readDevices q tag (.ok ())) s = .next (replied q 0x11 tag .faultRecovery .empty
        (outcome (told .halted)
          { c with record := record, window := window, mode := .halted, recovery := Recovery.idle
                   devices := mapContents idle c.devices } p) s))

/-- What runs on time: a settle time that is reached becomes none, outside HALTED; a fault time leaves the
window when 60,000 ms have passed, outside HALTED; and each 10 ms an occupancy sample counts the orders in
the queue and the occupied case entries; that a late sample is taken then, and the next falls due 10 ms after
the one that was due, is log 27. Rests on R146, R152, R171, R203. -/
def Obligations.TimedEvents : Prop :=
  ∀ s : State, blocksRun s.part = true →
    let p := s.part
    let c := p.core
    (∀ d v t, entryAt c.devices d = some v → badAt c.devices d = false → v.run.settleUntil = some t →
      (c.mode ≠ .halted → reached c.time.now t = true →
        exec (.settleExpiry d) s = .next (ended (outcome [] { c with
          devices := putAt c.devices d
            (some { v with run := { v.run with settleUntil := none } }) } p) s))
      ∧ (c.mode = .halted ∨ reached c.time.now t = false →
        exec (.settleExpiry d) s = .next (ended p s)))
    ∧ (c.mode ≠ .halted → exec .faultWindowExpiry s = .next (ended (outcome []
        { c with window := c.window.filter fun t => decide (diffTime c.time.now ((t + 60000) % 86400000) < 0) }
        p) s))
    ∧ (c.mode = .halted → exec .faultWindowExpiry s = .next (ended p s))
    ∧ (p.nextSample ≤ c.time.elapsed →
      exec .occupancySample s = .next (ended (outcome
        [segmentCount .orderQueueOccupancy none c.orders.length,
         segmentCount .caseTableOccupancy none ((32 - c.counted.count none : Nat) : Int)] c
        { p with nextSample := p.nextSample + 10 }) s))
    ∧ (c.time.elapsed < p.nextSample → exec .occupancySample s = .next (ended p s))
end

