-- ==== Sys2Proof/Laws/Ends.lean ====
section
/-! SUPPORT. What the shared operations do, said once: the end of an event, the taking of a command, its
body and its conditions, an event of the blocks run and placed in the part, and the reads an event makes. -/

namespace Sys2Proof.Machine

/-! ### The end of an event -/

theorem finish_core (p : Part) : (finish p).core = p.core := by
  unfold finish; simp only []; split <;> rfl

theorem finish_rest (p : Part) : finish p = { p with
    inService := serviceHigh p, portA := (finish p).portA, portB := (finish p).portB } := by
  unfold finish; simp only []; split <;> rfl

theorem finish_ports (q : Port) (p : Part) :
    portOf q (finish p) = if portsSend p then pump (portOf q p) else portOf q p := by
  have h : portsSend { p with inService := serviceHigh p } = portsSend p := rfl
  unfold finish; simp only [h]; cases q <;> by_cases g : portsSend p <;> simp [g, portOf]

/-- A busy transmitter takes nothing. -/
theorem pump_busy {p : PortState} {f : PortFrame} (h : p.tx = some f) : pump p = p := by
  unfold pump; rw [h]

/-- A free transmitter takes the first ready reply. -/
theorem pump_reply {p : PortState} {r : Reply} {rest : List Reply} (h : p.tx = none)
    (g : p.ready = r :: rest) : pump p = { p with ready := rest, tx := some (.reply r) } := by
  unfold pump; rw [h]; simp only [g]

/-- A free transmitter without a ready reply takes the oldest notice. -/
theorem pump_notice {p : PortState} {n : Notice} {rest : List Notice} (h : p.tx = none)
    (g : p.ready = []) (k : p.notices = n :: rest) :
    pump p = { p with notices := rest, sequence := (p.sequence + 1) % 256
                      tx := some (.notice n ((p.sequence + 1) % 256) p.lostPending)
                      lostPending := false } := by
  unfold pump; rw [h]; simp only [g, k]

/-- A free transmitter of a port that owes nothing takes nothing. -/
theorem pump_idle {p : PortState} (h : p.tx = none) (g : p.ready = []) (k : p.notices = []) :
    pump p = p := by
  unfold pump; rw [h]; simp only [g, k]

/-- A transmitter takes its frame from what the port owes, and leaves the rest as it is. -/
theorem pump_keeps (p : PortState) :
    outgoing (pump p) = outgoing p ∧ noticeStream (pump p) = noticeStream p ∧ (pump p).rx = p.rx
      ∧ (pump p).waiting = p.waiting ∧ (pump p).categories = p.categories
      ∧ (pump p).overrun = p.overrun := by
  cases h : p.tx with
  | some f => rw [pump_busy h]; exact ⟨rfl, rfl, rfl, rfl, rfl, rfl⟩
  | none =>
    cases g : p.ready with
    | cons r rest => rw [pump_reply h g]; simp [outgoing, noticeStream, h, g]
    | nil =>
      cases k : p.notices with
      | cons n rest => rw [pump_notice h g k]; simp [outgoing, noticeStream, h, g, k]
      | nil => rw [pump_idle h g k]; exact ⟨rfl, rfl, rfl, rfl, rfl, rfl⟩

theorem outgoing_pump (p : PortState) : outgoing (pump p) = outgoing p := (pump_keeps p).1

theorem noticeStream_pump (p : PortState) : noticeStream (pump p) = noticeStream p := (pump_keeps p).2.1

theorem outgoing_finish (q : Port) (p : Part) :
    outgoing (portOf q (finish p)) = outgoing (portOf q p) := by
  rw [finish_ports]; split
  · exact outgoing_pump _
  · rfl

theorem noticeStream_finish (q : Port) (p : Part) :
    noticeStream (portOf q (finish p)) = noticeStream (portOf q p) := by
  rw [finish_ports]; split
  · exact noticeStream_pump _
  · rfl

theorem act_eq (f : Part → Part) (s : State) : act f s = .next (ended (f s.part) s) := rfl

@[simp] theorem ended_pending (p : Part) (s : State) : (ended p s).pending = s.pending := rfl
@[simp] theorem ended_core (p : Part) (s : State) : (ended p s).part.core = p.core := finish_core p

/-! ### Notices and counters -/

theorem countOccurrence_keeps (now : Nat) (o : Occurrence) (cs : List Counter) :
    (countOccurrence now o cs).1.length = cs.length := by
  have h : ∀ (f : Nat → Counter → Counter × Option (Nat × Notice)) (n : Nat) (l : List Counter),
      (mapFrom f n l).length = l.length := by
    intro f n l
    induction l generalizing n with
    | nil => rfl
    | cons x xs ih => simp [mapFrom, ih]
  simp [countOccurrence, h]

theorem offerTo_core (d : Dest) (n : Notice) (p : Part) : (offerTo d n p).core = p.core := by
  cases d with
  | both => rfl
  | only q => cases q <;> rfl

/-- Offering notices changes the two ports alone. -/
theorem offerAll_rest (ns : List (Dest × Notice)) (p : Part) :
    offerAll ns p = { p with portA := (offerAll ns p).portA, portB := (offerAll ns p).portB } := by
  induction ns generalizing p with
  | nil => rfl
  | cons x xs ih =>
    have h : offerAll (x :: xs) p = offerAll xs (offerTo x.1 x.2 p) := rfl
    rw [h, ih (offerTo x.1 x.2 p)]
    obtain ⟨d, n⟩ := x
    cases d with
    | both => rfl
    | only q => cases q <;> rfl

theorem offer_keeps (n : Notice) (p : PortState) :
    (offer n p).ready = p.ready ∧ (offer n p).waiting = p.waiting ∧ (offer n p).tx = p.tx
      ∧ (offer n p).rx = p.rx ∧ (offer n p).overrun = p.overrun := by
  have h : ∀ p : PortState, (joinNotices n p).ready = p.ready ∧ (joinNotices n p).waiting = p.waiting
      ∧ (joinNotices n p).tx = p.tx ∧ (joinNotices n p).rx = p.rx
      ∧ (joinNotices n p).overrun = p.overrun := by
    intro p; unfold joinNotices; split <;> simp
  unfold offer; split
  · split
    · simp
    · exact h p
  · exact h p

theorem outgoing_offer (n : Notice) (p : PortState) : outgoing (offer n p) = outgoing p := by
  obtain ⟨h1, _, h3, _⟩ := offer_keeps n p
  simp [outgoing, h1, h3]

/-- Offering notices gives no port a reply. -/
theorem outgoing_offerAll (q : Port) (ns : List (Dest × Notice)) (p : Part) :
    outgoing (portOf q (offerAll ns p)) = outgoing (portOf q p) := by
  induction ns generalizing p with
  | nil => rfl
  | cons x xs ih =>
    have h : offerAll (x :: xs) p = offerAll xs (offerTo x.1 x.2 p) := rfl
    rw [h, ih]
    obtain ⟨d, n⟩ := x
    cases d with
    | both => cases q <;> exact outgoing_offer _ _
    | only r => cases r <;> cases q <;> first | rfl | exact outgoing_offer _ _

/-- What an event gives out reaches the counters and the ports alone. -/
theorem deliver_rest (now : Nat) (xs : List Emit) (p : Part) :
    deliver now xs p = { p with
      counters := (deliver now xs p).counters
      portA := (deliver now xs p).portA, portB := (deliver now xs p).portB } := by
  unfold deliver; simp only []; rw [offerAll_rest]

/-- What an event gives out gives no port a reply. -/
theorem outgoing_deliver (q : Port) (now : Nat) (xs : List Emit) (p : Part) :
    outgoing (portOf q (deliver now xs p)) = outgoing (portOf q p) := by
  unfold deliver; rw [outgoing_offerAll]; cases q <;> rfl

@[simp] theorem inOrder_nil : inOrder [] = [] := rfl

@[simp] theorem outcome_nil (c : Core) (p : Part) : outcome [] c p = { p with core := c } := rfl

@[simp] theorem outcome_core (xs : List Emit) (c : Core) (p : Part) : (outcome xs c p).core = c := by
  unfold outcome; rw [deliver_rest]

/-! ### An event of the blocks -/

/-- An event placed in the part, when it has not found the store failed. -/
theorem commit_eq (e : Ev) (p : Part) (h : e.storeFailed = false) :
    commit e p = outcome e.out e.toCore p := by
  simp [commit, outcome, h]

theorem runWork_nil (env : Env) (n : Nat) (e : Ev) : runWork env n [] e = e := by
  cases n <;> rfl

/-- An event that leaves no work is settled as it stands. -/
theorem settle_nil (env : Env) (e : Ev) (h : e.todo = []) : settle env e = e := by
  unfold settle; rw [h, runWork_nil]; cases e; simp_all

theorem runWork_cons (env : Env) (n : Nat) (w : Work) (rest : List Work) (e : Ev) :
    runWork env (n + 1) (w :: rest) e
      = runWork env n ((doWork env w { e with todo := [] }).todo ++ rest)
          { doWork env w { e with todo := [] } with todo := [] } := rfl

/-- The first piece of an event's work is done, and what it calls for before the rest. -/
theorem settle_cons (env : Env) (w : Work) (rest : List Work) (e : Ev) (h : e.todo = w :: rest) :
    settle env e = runWork env 65535 ((doWork env w { e with todo := [] }).todo ++ rest)
      { doWork env w { e with todo := [] } with todo := [] } := by
  unfold settle; rw [h]; rfl

theorem runEvent_eq (f : Env → Ev → Ev) (p : Part) :
    runEvent f p = commit (settle (envOf p) (f (envOf p) (startEvent p.core))) p := rfl

theorem happen_eq (f : Env → Ev → Ev) (s : State) (h : blocksRun s.part = true) :
    happen f s = .next (ended (runEvent f s.part) s) := by
  simp [happen, act_eq, h]

@[simp] theorem startEvent_core (c : Core) : (startEvent c).toCore = c := rfl

/-- An event that changes nothing leaves the part as it is. -/
theorem commit_start (env : Env) (p : Part) : commit (settle env (startEvent p.core)) p = p := by
  rw [settle_nil _ _ rfl, commit_eq _ _ rfl]
  exact outcome_nil p.core p

/-! ### A frame heard on a port -/

/-- The receiver of the port is in HUNT. -/
theorem hearFrame_b (b : Bool) (p : Part) :
    hearFrame .b b p = { p with portB := { p.portB with rx := .hunt } } := rfl

/-- On Port A without supervision no more happens. -/
theorem hearFrame_a_free (b : Bool) (p : Part) (h : p.inForce.options.supervisePortA = false) :
    hearFrame .a b p = { p with portA := { p.portA with rx := .hunt } } := by
  simp [hearFrame, setPort, h]

/-- On a supervised Port A the time starts again. -/
theorem hearFrame_a_timed (b : Bool) (p : Part) (h : p.inForce.options.supervisePortA = true)
    (g : (p.core.supervision.absent && b) = false) :
    hearFrame .a b p = { p with
      portA := { p.portA with rx := .hunt }
      core := { p.core with
        supervision := { p.core.supervision with lastGood := p.core.time.elapsed } } } := by
  simp [hearFrame, setPort, h, g]

/-- An ABSENT Port A becomes PRESENT, with its PORT notice to both ports. -/
theorem hearFrame_a_present (p : Part) (h : p.inForce.options.supervisePortA = true)
    (g : p.core.supervision.absent = true) :
    hearFrame .a true p =
      let n := Notice.supervision true false p.settings.supervisionInterval p.core.time.now
      { p with
        portA := offer n { p.portA with rx := .hunt }, portB := offer n p.portB
        core := { p.core with supervision := { absent := false, lastGood := p.core.time.elapsed } } } := by
  simp [hearFrame, setPort, h, g, makePresent, offerTo]

/-- Hearing a frame changes the ports and the supervision of Port A alone. -/
theorem hearFrame_rest (q : Port) (b : Bool) (p : Part) :
    hearFrame q b p = { p with
      core := { p.core with supervision := (hearFrame q b p).core.supervision }
      portA := (hearFrame q b p).portA, portB := (hearFrame q b p).portB } := by
  cases q
  · by_cases h : p.inForce.options.supervisePortA = true
    · cases g : (p.core.supervision.absent && b)
      · rw [hearFrame_a_timed b p h g]
      · obtain ⟨g1, rfl⟩ := Bool.and_eq_true_iff.1 g
        rw [hearFrame_a_present p h g1]
    · rw [hearFrame_a_free b p (by simpa using h)]
  · rfl

/-- Hearing a frame gives no port a reply. -/
theorem outgoing_hearFrame (r q : Port) (b : Bool) (p : Part) :
    outgoing (portOf r (hearFrame q b p)) = outgoing (portOf r p)
      ∧ (portOf r (hearFrame q b p)).waiting = (portOf r p).waiting
      ∧ (portOf r (hearFrame q b p)).overrun = (portOf r p).overrun := by
  cases q
  · by_cases h : p.inForce.options.supervisePortA = true
    · cases g : (p.core.supervision.absent && b)
      · rw [hearFrame_a_timed b p h g]; cases r <;> exact ⟨rfl, rfl, rfl⟩
      · obtain ⟨g1, rfl⟩ := Bool.and_eq_true_iff.1 g
        rw [hearFrame_a_present p h g1]
        cases r
        · exact ⟨outgoing_offer _ _, (offer_keeps _ _).2.1, (offer_keeps _ _).2.2.2.2⟩
        · exact ⟨outgoing_offer _ _, (offer_keeps _ _).2.1, (offer_keeps _ _).2.2.2.2⟩
    · rw [hearFrame_a_free b p (by simpa using h)]; cases r <;> exact ⟨rfl, rfl, rfl⟩
  · cases r <;> exact ⟨rfl, rfl, rfl⟩

theorem heard_core (q : Port) (s : State) :
    (heard q s).core = { s.part.core with supervision := (heard q s).core.supervision } := by
  unfold heard; rw [hearFrame_rest]

@[simp] theorem heard_mode (q : Port) (s : State) : (heard q s).core.mode = s.part.core.mode := by
  rw [heard_core]
@[simp] theorem heard_recovery (q : Port) (s : State) :
    (heard q s).core.recovery = s.part.core.recovery := by rw [heard_core]
@[simp] theorem heard_time (q : Port) (s : State) : (heard q s).core.time = s.part.core.time := by
  rw [heard_core]
@[simp] theorem heard_settings (q : Port) (s : State) : (heard q s).settings = s.part.settings := by
  unfold heard; rw [hearFrame_rest]
@[simp] theorem heard_inForce (q : Port) (s : State) : (heard q s).inForce = s.part.inForce := by
  unfold heard; rw [hearFrame_rest]
@[simp] theorem heard_options (q : Port) (s : State) : (heard q s).options = s.part.options := by
  unfold heard; rw [hearFrame_rest]
@[simp] theorem heard_staged (q : Port) (s : State) : (heard q s).staged = s.part.staged := by
  unfold heard; rw [hearFrame_rest]
@[simp] theorem heard_burning (q : Port) (s : State) : (heard q s).burning = s.part.burning := by
  unfold heard; rw [hearFrame_rest]
@[simp] theorem heard_save (q : Port) (s : State) : (heard q s).save = s.part.save := by
  unfold heard; rw [hearFrame_rest]
@[simp] theorem heard_store (q : Port) (s : State) : (heard q s).store = s.part.store := by
  unfold heard; rw [hearFrame_rest]
@[simp] theorem heard_counters (q : Port) (s : State) : (heard q s).counters = s.part.counters := by
  unfold heard; rw [hearFrame_rest]
@[simp] theorem heard_run (q : Port) (s : State) : (heard q s).run = s.part.run := by
  unfold heard; rw [hearFrame_rest]

/-! ### A command taken -/

/-- A command that is taken acts on the part as its frame leaves it, and its answer joins its port. -/
theorem answer_taken (q : Port) (kind : Nat) (tag : Byte) (f : Part → Part × Answer) (s : State)
    (h : Takes q s) :
    answer q kind tag f s
      = .next (ended (setPort q (enqueue kind tag (f (heard q s)).2) (f (heard q s)).1) s) := by
  obtain ⟨h1, h2⟩ := h
  simp [answer, act_eq, takeCommand, h1, h2, heard]

/-- A command whose reply queue is full. -/
theorem answer_full (q : Port) (kind : Nat) (tag : Byte) (f : Part → Part × Answer) (s : State)
    (h1 : s.part.run = .running) (h2 : repliesFull (portOf q s.part) = true) :
    answer q kind tag f s = .next (ended
      (setPort q (fun x => { x with overrun := min 255 (x.overrun + 1) }) (hearFrame q false s.part)) s) := by
  simp [answer, act_eq, takeCommand, h1, h2]

/-- A command while the part is not running. -/
theorem answer_notRunning (q : Port) (kind : Nat) (tag : Byte) (f : Part → Part × Answer) (s : State)
    (h : s.part.run ≠ .running) : answer q kind tag f s = .next (ended s.part s) := by
  have g : takeCommand q kind tag f s.part = s.part := by
    unfold takeCommand; split
    · contradiction
    · rfl
  simp [answer, act_eq, g]

/-- What a command through the blocks leaves and answers. -/
theorem viaCore_eq (f : Env → Ev → Ev × Answer) (p : Part) :
    viaCore f p = (commit (settle (envOf p) (f (envOf p) (startEvent p.core)).1) p,
      (f (envOf p) (startEvent p.core)).2) := rfl

/-! ### Reads -/

theorem firstBad_none_iff (c : Core) (rs : List Ref) :
    firstBad c rs = none ↔ ∀ r ∈ rs, isBad c r = false := by
  simp [firstBad, List.find?_eq_none]

/-- A read of entries that all match goes on. -/
theorem reading_sound (rs : List Ref) (f : Ev → Ev × Answer) (e : Ev)
    (h : ∀ r ∈ rs, isBad e.toCore r = false) : reading rs f e = f e := by
  unfold reading; rw [(firstBad_none_iff _ _).2 h]

/-- A read that finds a mismatch answers UNAVAILABLE fault-recovery, and is a fault. -/
theorem reading_bad (rs : List Ref) (f : Ev → Ev × Answer) (e : Ev) (r : Ref)
    (h : firstBad e.toCore rs = some r) : reading rs f e = (faultAt r e, plain .faultRecovery) := by
  unfold reading; rw [h]

/-- Reads of every entry of a table are reads of that table. -/
theorem table_of_mem_allRefs {c : Core} {t : Table} {r : Ref} (h : r ∈ allRefs c t) : r.table = t := by
  unfold allRefs refs at h
  cases t
  all_goals first
    | (obtain ⟨n, _, rfl⟩ := List.mem_map.1 h; rfl)
    | cases h

/-- A search of a table whose every entry matches finds no mismatch (R169). -/
theorem allRefs_devices_sound {c : Core} (h : Sound c.devices) : ∀ r ∈ allRefs c .device, isBad c r = false := by
  intro r hr
  have g := table_of_mem_allRefs hr
  obtain ⟨t, n⟩ := r
  subst g
  exact h n

theorem allRefs_cases_sound {c : Core} (h : Sound c.cases) : ∀ r ∈ allRefs c .case, isBad c r = false := by
  intro r hr
  have g := table_of_mem_allRefs hr
  obtain ⟨t, n⟩ := r
  subst g
  exact h n

theorem allRefs_roster_sound {c : Core} (h : Sound c.roster) : ∀ r ∈ allRefs c .roster, isBad c r = false := by
  intro r hr
  have g := table_of_mem_allRefs hr
  obtain ⟨t, n⟩ := r
  subst g
  exact h n

theorem allRefs_segments_sound {c : Core} (h : Sound c.segments) : ∀ r ∈ allRefs c .segment, isBad c r = false := by
  intro r hr
  have g := table_of_mem_allRefs hr
  obtain ⟨t, n⟩ := r
  subst g
  exact h n

theorem isBad_of_allSound {c : Core} (h : AllSound c) (r : Ref) : isBad c r = false := by
  obtain ⟨h1, h2, h3, h4, h5⟩ := h
  unfold isBad
  split
  · exact h1 _
  · exact h3 _
  · exact h2 _
  · exact h4 _
  · exact h5 _
  · rfl

/-! ### Checked tables -/

theorem badAt_check {α : Type} {l : List (Checked α)} {n : Nat} {x : α}
    (h : entryAt l n = some x) (g : badAt l n = false) : l[n]? = some { content := some x, check := 0 } := by
  unfold entryAt at h; unfold badAt at g
  cases e : l[n]? with
  | none => simp [e] at h
  | some c =>
    obtain ⟨content, check⟩ := c
    simp_all

theorem entryAt_lt {α : Type} {l : List (Checked α)} {n : Nat} {x : α} (h : entryAt l n = some x) :
    n < l.length := by
  unfold entryAt at h
  cases e : l[n]? with
  | none => simp [e] at h
  | some c => exact (List.getElem?_eq_some_iff.1 e).1

/-- A defined entry that matches is changed. -/
theorem updateAt_sound {α : Type} {l : List (Checked α)} {n : Nat} {x : α} (f : α → α)
    (h : entryAt l n = some x) (g : badAt l n = false) : updateAt l n f = putAt l n (some (f x)) := by
  unfold updateAt; rw [badAt_check h g]; simp

theorem entryAt_putAt {α : Type} (l : List (Checked α)) (n m : Nat) (x : Option α) (h : n < l.length) :
    entryAt (putAt l n x) m = if m = n then x else entryAt l m := by
  unfold entryAt putAt
  by_cases e : m = n
  · subst e; simp [List.getElem?_set_self h]
  · simp [List.getElem?_set_ne (Ne.symm e), e]

theorem badAt_putAt {α : Type} (l : List (Checked α)) (n m : Nat) (x : Option α) :
    badAt (putAt l n x) m = if m = n then false else badAt l m := by
  unfold badAt putAt
  by_cases e : m = n
  · subst e
    by_cases h : m < l.length
    · simp [List.getElem?_set_self h]
    · simp [List.getElem?_eq_none (by simpa using h : (l.set m _).length ≤ m)]
  · simp [List.getElem?_set_ne (Ne.symm e), e]

theorem putAt_putAt {α : Type} (l : List (Checked α)) (n : Nat) (x y : Option α) :
    putAt (putAt l n x) n y = putAt l n y := by
  simp [putAt]

theorem mem_entriesWhere {α : Type} (l : List (Checked α)) (f : α → Bool) (n : Nat) :
    n ∈ entriesWhere l f ↔ ∃ x, entryAt l n = some x ∧ f x = true := by
  unfold entriesWhere
  simp only [List.mem_filter, List.mem_range]
  constructor
  · rintro ⟨_, h⟩
    cases e : entryAt l n with
    | none => simp [e] at h
    | some x => exact ⟨x, rfl, by simpa [e] using h⟩
  · rintro ⟨x, e, h⟩
    exact ⟨entryAt_lt e, by simpa [e] using h⟩

theorem mem_occupied {α : Type} (l : List (Checked α)) (n : Nat) :
    n ∈ occupied l ↔ ∃ x, entryAt l n = some x := by
  unfold occupied
  rw [mem_entriesWhere]
  exact ⟨fun ⟨x, h, _⟩ => ⟨x, h⟩, fun ⟨x, h⟩ => ⟨x, h, rfl⟩⟩

end Sys2Proof.Machine
end

