-- ==== Sys2Proof/Laws/State.lean ====
section
/-! SUPPORT. One lemma for each field and each update of the state, so that no proof unfolds a record update;
and the decidable forms of the predicates over whole tables. -/

namespace Sys2Proof.Machine

/-! ### The queue -/

@[simp] theorem front_pending (s : State) (c : Instr) : (s.front c).pending = c :: s.pending := rfl
@[simp] theorem front_part (s : State) (c : Instr) : (s.front c).part = s.part := rfl
@[simp] theorem idle_pending (s : State) : (idle s).pending = s.pending := rfl
@[simp] theorem idle_time (s : State) :
    (idle s).part.core.time = passMillisecond s.part.core.time := rfl

/-! ### A port -/

@[simp] theorem portOf_setPort (q : Port) (f : PortState → PortState) (p : Part) :
    portOf q (setPort q f p) = f (portOf q p) := by cases q <;> rfl
@[simp] theorem portOf_setPort_other (q : Port) (f : PortState → PortState) (p : Part) :
    portOf (otherPort q) (setPort q f p) = portOf (otherPort q) p := by cases q <;> rfl
@[simp] theorem setPort_core (q : Port) (f : PortState → PortState) (p : Part) :
    (setPort q f p).core = p.core := by cases q <;> rfl
@[simp] theorem setPort_settings (q : Port) (f : PortState → PortState) (p : Part) :
    (setPort q f p).settings = p.settings := by cases q <;> rfl
@[simp] theorem setPort_store (q : Port) (f : PortState → PortState) (p : Part) :
    (setPort q f p).store = p.store := by cases q <;> rfl
@[simp] theorem setPort_save (q : Port) (f : PortState → PortState) (p : Part) :
    (setPort q f p).save = p.save := by cases q <;> rfl
@[simp] theorem setPort_options (q : Port) (f : PortState → PortState) (p : Part) :
    (setPort q f p).options = p.options := by cases q <;> rfl
@[simp] theorem setPort_inForce (q : Port) (f : PortState → PortState) (p : Part) :
    (setPort q f p).inForce = p.inForce := by cases q <;> rfl
@[simp] theorem setPort_staged (q : Port) (f : PortState → PortState) (p : Part) :
    (setPort q f p).staged = p.staged := by cases q <;> rfl
@[simp] theorem setPort_burning (q : Port) (f : PortState → PortState) (p : Part) :
    (setPort q f p).burning = p.burning := by cases q <;> rfl
@[simp] theorem setPort_counters (q : Port) (f : PortState → PortState) (p : Part) :
    (setPort q f p).counters = p.counters := by cases q <;> rfl
@[simp] theorem setPort_nextSample (q : Port) (f : PortState → PortState) (p : Part) :
    (setPort q f p).nextSample = p.nextSample := by cases q <;> rfl
@[simp] theorem setPort_run (q : Port) (f : PortState → PortState) (p : Part) :
    (setPort q f p).run = p.run := by cases q <;> rfl
@[simp] theorem setPort_inService (q : Port) (f : PortState → PortState) (p : Part) :
    (setPort q f p).inService = p.inService := by cases q <;> rfl

/-! ### The end of an event -/

@[simp] theorem finish_settings (p : Part) : (finish p).settings = p.settings := by
  unfold finish; simp only []; split <;> rfl
@[simp] theorem finish_store (p : Part) : (finish p).store = p.store := by
  unfold finish; simp only []; split <;> rfl
@[simp] theorem finish_save (p : Part) : (finish p).save = p.save := by
  unfold finish; simp only []; split <;> rfl
@[simp] theorem finish_options (p : Part) : (finish p).options = p.options := by
  unfold finish; simp only []; split <;> rfl
@[simp] theorem finish_inForce (p : Part) : (finish p).inForce = p.inForce := by
  unfold finish; simp only []; split <;> rfl
@[simp] theorem finish_staged (p : Part) : (finish p).staged = p.staged := by
  unfold finish; simp only []; split <;> rfl
@[simp] theorem finish_burning (p : Part) : (finish p).burning = p.burning := by
  unfold finish; simp only []; split <;> rfl
@[simp] theorem finish_counters (p : Part) : (finish p).counters = p.counters := by
  unfold finish; simp only []; split <;> rfl
@[simp] theorem finish_nextSample (p : Part) : (finish p).nextSample = p.nextSample := by
  unfold finish; simp only []; split <;> rfl
@[simp] theorem finish_run (p : Part) : (finish p).run = p.run := by
  unfold finish; simp only []; split <;> rfl
@[simp] theorem finish_inService (p : Part) : (finish p).inService = serviceHigh p := by
  unfold finish; simp only []; split <;> rfl

/-! ### The event under way -/

@[simp] theorem raise_core (d : Dest) (n : Notice) (e : Ev) : (raise d n e).toCore = e.toCore := rfl
@[simp] theorem raise_out (d : Dest) (n : Notice) (e : Ev) : (raise d n e).out = e.out ++ [.tell d n] := rfl
@[simp] theorem raise_met (d : Dest) (n : Notice) (e : Ev) : (raise d n e).met = e.met := rfl
@[simp] theorem raise_confirmedNow (d : Dest) (n : Notice) (e : Ev) : (raise d n e).confirmedNow = e.confirmedNow := rfl
@[simp] theorem raise_todo (d : Dest) (n : Notice) (e : Ev) : (raise d n e).todo = e.todo := rfl
@[simp] theorem raise_storeFailed (d : Dest) (n : Notice) (e : Ev) : (raise d n e).storeFailed = e.storeFailed := rfl
@[simp] theorem occur_core (o : Occurrence) (e : Ev) : (occur o e).toCore = e.toCore := rfl
@[simp] theorem occur_out (o : Occurrence) (e : Ev) : (occur o e).out = e.out ++ [.count o] := rfl
@[simp] theorem occur_met (o : Occurrence) (e : Ev) : (occur o e).met = e.met := rfl
@[simp] theorem occur_confirmedNow (o : Occurrence) (e : Ev) : (occur o e).confirmedNow = e.confirmedNow := rfl
@[simp] theorem occur_todo (o : Occurrence) (e : Ev) : (occur o e).todo = e.todo := rfl
@[simp] theorem occur_storeFailed (o : Occurrence) (e : Ev) : (occur o e).storeFailed = e.storeFailed := rfl
@[simp] theorem later_core (ws : List Work) (e : Ev) : (later ws e).toCore = e.toCore := rfl
@[simp] theorem later_out (ws : List Work) (e : Ev) : (later ws e).out = e.out := rfl
@[simp] theorem later_met (ws : List Work) (e : Ev) : (later ws e).met = e.met := rfl
@[simp] theorem later_confirmedNow (ws : List Work) (e : Ev) : (later ws e).confirmedNow = e.confirmedNow := rfl
@[simp] theorem later_todo (ws : List Work) (e : Ev) : (later ws e).todo = e.todo ++ ws := rfl
@[simp] theorem later_storeFailed (ws : List Work) (e : Ev) : (later ws e).storeFailed = e.storeFailed := rfl
@[simp] theorem startEvent_toCore (c : Core) : (startEvent c).toCore = c := rfl
@[simp] theorem startEvent_out (c : Core) : (startEvent c).out = [] := rfl
@[simp] theorem startEvent_met (c : Core) : (startEvent c).met = [] := rfl
@[simp] theorem startEvent_confirmedNow (c : Core) : (startEvent c).confirmedNow = [] := rfl
@[simp] theorem startEvent_todo (c : Core) : (startEvent c).todo = [] := rfl
@[simp] theorem startEvent_storeFailed (c : Core) : (startEvent c).storeFailed = false := rfl

/-! ### The order queue and the devices -/

@[simp] theorem setRun_mode (n : Nat) (f : DeviceRun → DeviceRun) (e : Ev) :
    (setRun n f e).mode = e.mode := rfl
@[simp] theorem setRun_segments (n : Nat) (f : DeviceRun → DeviceRun) (e : Ev) :
    (setRun n f e).segments = e.segments := rfl
@[simp] theorem setRun_roster (n : Nat) (f : DeviceRun → DeviceRun) (e : Ev) :
    (setRun n f e).roster = e.roster := rfl
@[simp] theorem setRun_devices (n : Nat) (f : DeviceRun → DeviceRun) (e : Ev) :
    (setRun n f e).devices = updateAt e.devices n fun d => { d with run := f d.run } := rfl
@[simp] theorem setRun_discovery (n : Nat) (f : DeviceRun → DeviceRun) (e : Ev) :
    (setRun n f e).discovery = e.discovery := rfl
@[simp] theorem setRun_time (n : Nat) (f : DeviceRun → DeviceRun) (e : Ev) :
    (setRun n f e).time = e.time := rfl
@[simp] theorem setRun_intake (n : Nat) (f : DeviceRun → DeviceRun) (e : Ev) :
    (setRun n f e).intake = e.intake := rfl
@[simp] theorem setRun_deferred (n : Nat) (f : DeviceRun → DeviceRun) (e : Ev) :
    (setRun n f e).deferred = e.deferred := rfl
@[simp] theorem setRun_items (n : Nat) (f : DeviceRun → DeviceRun) (e : Ev) :
    (setRun n f e).items = e.items := rfl
@[simp] theorem setRun_cases (n : Nat) (f : DeviceRun → DeviceRun) (e : Ev) :
    (setRun n f e).cases = e.cases := rfl
@[simp] theorem setRun_serial (n : Nat) (f : DeviceRun → DeviceRun) (e : Ev) :
    (setRun n f e).serial = e.serial := rfl
@[simp] theorem setRun_counted (n : Nat) (f : DeviceRun → DeviceRun) (e : Ev) :
    (setRun n f e).counted = e.counted := rfl
@[simp] theorem setRun_opened (n : Nat) (f : DeviceRun → DeviceRun) (e : Ev) :
    (setRun n f e).opened = e.opened := rfl
@[simp] theorem setRun_plans (n : Nat) (f : DeviceRun → DeviceRun) (e : Ev) :
    (setRun n f e).plans = e.plans := rfl
@[simp] theorem setRun_stepsInUse (n : Nat) (f : DeviceRun → DeviceRun) (e : Ev) :
    (setRun n f e).stepsInUse = e.stepsInUse := rfl
@[simp] theorem setRun_walks (n : Nat) (f : DeviceRun → DeviceRun) (e : Ev) :
    (setRun n f e).walks = e.walks := rfl
@[simp] theorem setRun_room (n : Nat) (f : DeviceRun → DeviceRun) (e : Ev) :
    (setRun n f e).room = e.room := rfl
@[simp] theorem setRun_orders (n : Nat) (f : DeviceRun → DeviceRun) (e : Ev) :
    (setRun n f e).orders = e.orders := rfl
@[simp] theorem setRun_orderNumber (n : Nat) (f : DeviceRun → DeviceRun) (e : Ev) :
    (setRun n f e).orderNumber = e.orderNumber := rfl
@[simp] theorem setRun_linkTx (n : Nat) (f : DeviceRun → DeviceRun) (e : Ev) :
    (setRun n f e).linkTx = e.linkTx := rfl
@[simp] theorem setRun_fieldRx (n : Nat) (f : DeviceRun → DeviceRun) (e : Ev) :
    (setRun n f e).fieldRx = e.fieldRx := rfl
@[simp] theorem setRun_deviceRx (n : Nat) (f : DeviceRun → DeviceRun) (e : Ev) :
    (setRun n f e).deviceRx = e.deviceRx := rfl
@[simp] theorem setRun_reservations (n : Nat) (f : DeviceRun → DeviceRun) (e : Ev) :
    (setRun n f e).reservations = e.reservations := rfl
@[simp] theorem setRun_holds (n : Nat) (f : DeviceRun → DeviceRun) (e : Ev) :
    (setRun n f e).holds = e.holds := rfl
@[simp] theorem setRun_record (n : Nat) (f : DeviceRun → DeviceRun) (e : Ev) :
    (setRun n f e).record = e.record := rfl
@[simp] theorem setRun_window (n : Nat) (f : DeviceRun → DeviceRun) (e : Ev) :
    (setRun n f e).window = e.window := rfl
@[simp] theorem setRun_recovery (n : Nat) (f : DeviceRun → DeviceRun) (e : Ev) :
    (setRun n f e).recovery = e.recovery := rfl
@[simp] theorem setRun_held (n : Nat) (f : DeviceRun → DeviceRun) (e : Ev) :
    (setRun n f e).held = e.held := rfl
@[simp] theorem setRun_supervision (n : Nat) (f : DeviceRun → DeviceRun) (e : Ev) :
    (setRun n f e).supervision = e.supervision := rfl
@[simp] theorem setRun_out (n : Nat) (f : DeviceRun → DeviceRun) (e : Ev) :
    (setRun n f e).out = e.out := rfl
@[simp] theorem setRun_met (n : Nat) (f : DeviceRun → DeviceRun) (e : Ev) :
    (setRun n f e).met = e.met := rfl
@[simp] theorem setRun_confirmedNow (n : Nat) (f : DeviceRun → DeviceRun) (e : Ev) :
    (setRun n f e).confirmedNow = e.confirmedNow := rfl
@[simp] theorem setRun_todo (n : Nat) (f : DeviceRun → DeviceRun) (e : Ev) :
    (setRun n f e).todo = e.todo := rfl
@[simp] theorem setRun_storeFailed (n : Nat) (f : DeviceRun → DeviceRun) (e : Ev) :
    (setRun n f e).storeFailed = e.storeFailed := rfl
@[simp] theorem setOrder_mode (d : Nat) (f : Order → Order) (e : Ev) :
    (setOrder d f e).mode = e.mode := rfl
@[simp] theorem setOrder_segments (d : Nat) (f : Order → Order) (e : Ev) :
    (setOrder d f e).segments = e.segments := rfl
@[simp] theorem setOrder_roster (d : Nat) (f : Order → Order) (e : Ev) :
    (setOrder d f e).roster = e.roster := rfl
@[simp] theorem setOrder_devices (d : Nat) (f : Order → Order) (e : Ev) :
    (setOrder d f e).devices = e.devices := rfl
@[simp] theorem setOrder_discovery (d : Nat) (f : Order → Order) (e : Ev) :
    (setOrder d f e).discovery = e.discovery := rfl
@[simp] theorem setOrder_time (d : Nat) (f : Order → Order) (e : Ev) :
    (setOrder d f e).time = e.time := rfl
@[simp] theorem setOrder_intake (d : Nat) (f : Order → Order) (e : Ev) :
    (setOrder d f e).intake = e.intake := rfl
@[simp] theorem setOrder_deferred (d : Nat) (f : Order → Order) (e : Ev) :
    (setOrder d f e).deferred = e.deferred := rfl
@[simp] theorem setOrder_items (d : Nat) (f : Order → Order) (e : Ev) :
    (setOrder d f e).items = e.items := rfl
@[simp] theorem setOrder_cases (d : Nat) (f : Order → Order) (e : Ev) :
    (setOrder d f e).cases = e.cases := rfl
@[simp] theorem setOrder_serial (d : Nat) (f : Order → Order) (e : Ev) :
    (setOrder d f e).serial = e.serial := rfl
@[simp] theorem setOrder_counted (d : Nat) (f : Order → Order) (e : Ev) :
    (setOrder d f e).counted = e.counted := rfl
@[simp] theorem setOrder_opened (d : Nat) (f : Order → Order) (e : Ev) :
    (setOrder d f e).opened = e.opened := rfl
@[simp] theorem setOrder_plans (d : Nat) (f : Order → Order) (e : Ev) :
    (setOrder d f e).plans = e.plans := rfl
@[simp] theorem setOrder_stepsInUse (d : Nat) (f : Order → Order) (e : Ev) :
    (setOrder d f e).stepsInUse = e.stepsInUse := rfl
@[simp] theorem setOrder_walks (d : Nat) (f : Order → Order) (e : Ev) :
    (setOrder d f e).walks = e.walks := rfl
@[simp] theorem setOrder_room (d : Nat) (f : Order → Order) (e : Ev) :
    (setOrder d f e).room = e.room := rfl
@[simp] theorem setOrder_orders (d : Nat) (f : Order → Order) (e : Ev) :
    (setOrder d f e).orders = e.orders.map fun o => if o.device = d then f o else o := rfl
@[simp] theorem setOrder_orderNumber (d : Nat) (f : Order → Order) (e : Ev) :
    (setOrder d f e).orderNumber = e.orderNumber := rfl
@[simp] theorem setOrder_linkTx (d : Nat) (f : Order → Order) (e : Ev) :
    (setOrder d f e).linkTx = e.linkTx := rfl
@[simp] theorem setOrder_fieldRx (d : Nat) (f : Order → Order) (e : Ev) :
    (setOrder d f e).fieldRx = e.fieldRx := rfl
@[simp] theorem setOrder_deviceRx (d : Nat) (f : Order → Order) (e : Ev) :
    (setOrder d f e).deviceRx = e.deviceRx := rfl
@[simp] theorem setOrder_reservations (d : Nat) (f : Order → Order) (e : Ev) :
    (setOrder d f e).reservations = e.reservations := rfl
@[simp] theorem setOrder_holds (d : Nat) (f : Order → Order) (e : Ev) :
    (setOrder d f e).holds = e.holds := rfl
@[simp] theorem setOrder_record (d : Nat) (f : Order → Order) (e : Ev) :
    (setOrder d f e).record = e.record := rfl
@[simp] theorem setOrder_window (d : Nat) (f : Order → Order) (e : Ev) :
    (setOrder d f e).window = e.window := rfl
@[simp] theorem setOrder_recovery (d : Nat) (f : Order → Order) (e : Ev) :
    (setOrder d f e).recovery = e.recovery := rfl
@[simp] theorem setOrder_held (d : Nat) (f : Order → Order) (e : Ev) :
    (setOrder d f e).held = e.held := rfl
@[simp] theorem setOrder_supervision (d : Nat) (f : Order → Order) (e : Ev) :
    (setOrder d f e).supervision = e.supervision := rfl
@[simp] theorem setOrder_out (d : Nat) (f : Order → Order) (e : Ev) :
    (setOrder d f e).out = e.out := rfl
@[simp] theorem setOrder_met (d : Nat) (f : Order → Order) (e : Ev) :
    (setOrder d f e).met = e.met := rfl
@[simp] theorem setOrder_confirmedNow (d : Nat) (f : Order → Order) (e : Ev) :
    (setOrder d f e).confirmedNow = e.confirmedNow := rfl
@[simp] theorem setOrder_todo (d : Nat) (f : Order → Order) (e : Ev) :
    (setOrder d f e).todo = e.todo := rfl
@[simp] theorem setOrder_storeFailed (d : Nat) (f : Order → Order) (e : Ev) :
    (setOrder d f e).storeFailed = e.storeFailed := rfl

/-! ### Case entries -/

@[simp] theorem putCase_mode (n : Nat) (k : Case) (e : Ev) :
    (putCase n k e).mode = e.mode := rfl
@[simp] theorem putCase_segments (n : Nat) (k : Case) (e : Ev) :
    (putCase n k e).segments = e.segments := rfl
@[simp] theorem putCase_roster (n : Nat) (k : Case) (e : Ev) :
    (putCase n k e).roster = e.roster := rfl
@[simp] theorem putCase_devices (n : Nat) (k : Case) (e : Ev) :
    (putCase n k e).devices = e.devices := rfl
@[simp] theorem putCase_discovery (n : Nat) (k : Case) (e : Ev) :
    (putCase n k e).discovery = e.discovery := rfl
@[simp] theorem putCase_time (n : Nat) (k : Case) (e : Ev) :
    (putCase n k e).time = e.time := rfl
@[simp] theorem putCase_intake (n : Nat) (k : Case) (e : Ev) :
    (putCase n k e).intake = e.intake := rfl
@[simp] theorem putCase_deferred (n : Nat) (k : Case) (e : Ev) :
    (putCase n k e).deferred = e.deferred := rfl
@[simp] theorem putCase_items (n : Nat) (k : Case) (e : Ev) :
    (putCase n k e).items = e.items := rfl
@[simp] theorem putCase_cases (n : Nat) (k : Case) (e : Ev) :
    (putCase n k e).cases = putAt e.cases n (some k) := rfl
@[simp] theorem putCase_serial (n : Nat) (k : Case) (e : Ev) :
    (putCase n k e).serial = e.serial := rfl
@[simp] theorem putCase_counted (n : Nat) (k : Case) (e : Ev) :
    (putCase n k e).counted = e.counted.set n (some k.state) := rfl
@[simp] theorem putCase_opened (n : Nat) (k : Case) (e : Ev) :
    (putCase n k e).opened = e.opened := rfl
@[simp] theorem putCase_plans (n : Nat) (k : Case) (e : Ev) :
    (putCase n k e).plans = e.plans := rfl
@[simp] theorem putCase_stepsInUse (n : Nat) (k : Case) (e : Ev) :
    (putCase n k e).stepsInUse = e.stepsInUse := rfl
@[simp] theorem putCase_walks (n : Nat) (k : Case) (e : Ev) :
    (putCase n k e).walks = e.walks := rfl
@[simp] theorem putCase_room (n : Nat) (k : Case) (e : Ev) :
    (putCase n k e).room = e.room := rfl
@[simp] theorem putCase_orders (n : Nat) (k : Case) (e : Ev) :
    (putCase n k e).orders = e.orders := rfl
@[simp] theorem putCase_orderNumber (n : Nat) (k : Case) (e : Ev) :
    (putCase n k e).orderNumber = e.orderNumber := rfl
@[simp] theorem putCase_linkTx (n : Nat) (k : Case) (e : Ev) :
    (putCase n k e).linkTx = e.linkTx := rfl
@[simp] theorem putCase_fieldRx (n : Nat) (k : Case) (e : Ev) :
    (putCase n k e).fieldRx = e.fieldRx := rfl
@[simp] theorem putCase_deviceRx (n : Nat) (k : Case) (e : Ev) :
    (putCase n k e).deviceRx = e.deviceRx := rfl
@[simp] theorem putCase_reservations (n : Nat) (k : Case) (e : Ev) :
    (putCase n k e).reservations = e.reservations := rfl
@[simp] theorem putCase_holds (n : Nat) (k : Case) (e : Ev) :
    (putCase n k e).holds = e.holds := rfl
@[simp] theorem putCase_record (n : Nat) (k : Case) (e : Ev) :
    (putCase n k e).record = e.record := rfl
@[simp] theorem putCase_window (n : Nat) (k : Case) (e : Ev) :
    (putCase n k e).window = e.window := rfl
@[simp] theorem putCase_recovery (n : Nat) (k : Case) (e : Ev) :
    (putCase n k e).recovery = e.recovery := rfl
@[simp] theorem putCase_held (n : Nat) (k : Case) (e : Ev) :
    (putCase n k e).held = e.held := rfl
@[simp] theorem putCase_supervision (n : Nat) (k : Case) (e : Ev) :
    (putCase n k e).supervision = e.supervision := rfl
@[simp] theorem putCase_out (n : Nat) (k : Case) (e : Ev) :
    (putCase n k e).out = e.out := rfl
@[simp] theorem putCase_met (n : Nat) (k : Case) (e : Ev) :
    (putCase n k e).met = e.met := rfl
@[simp] theorem putCase_confirmedNow (n : Nat) (k : Case) (e : Ev) :
    (putCase n k e).confirmedNow = e.confirmedNow := rfl
@[simp] theorem putCase_todo (n : Nat) (k : Case) (e : Ev) :
    (putCase n k e).todo = e.todo := rfl
@[simp] theorem putCase_storeFailed (n : Nat) (k : Case) (e : Ev) :
    (putCase n k e).storeFailed = e.storeFailed := rfl
@[simp] theorem withCase_mode (n : Nat) (k : Case) (c : Core) :
    (withCase n k c).mode = c.mode := rfl
@[simp] theorem withCase_segments (n : Nat) (k : Case) (c : Core) :
    (withCase n k c).segments = c.segments := rfl
@[simp] theorem withCase_roster (n : Nat) (k : Case) (c : Core) :
    (withCase n k c).roster = c.roster := rfl
@[simp] theorem withCase_devices (n : Nat) (k : Case) (c : Core) :
    (withCase n k c).devices = c.devices := rfl
@[simp] theorem withCase_discovery (n : Nat) (k : Case) (c : Core) :
    (withCase n k c).discovery = c.discovery := rfl
@[simp] theorem withCase_time (n : Nat) (k : Case) (c : Core) :
    (withCase n k c).time = c.time := rfl
@[simp] theorem withCase_intake (n : Nat) (k : Case) (c : Core) :
    (withCase n k c).intake = c.intake := rfl
@[simp] theorem withCase_deferred (n : Nat) (k : Case) (c : Core) :
    (withCase n k c).deferred = c.deferred := rfl
@[simp] theorem withCase_items (n : Nat) (k : Case) (c : Core) :
    (withCase n k c).items = c.items := rfl
@[simp] theorem withCase_cases (n : Nat) (k : Case) (c : Core) :
    (withCase n k c).cases = c.cases.set n { content := some k, check := 0 } := rfl
@[simp] theorem withCase_serial (n : Nat) (k : Case) (c : Core) :
    (withCase n k c).serial = c.serial := rfl
@[simp] theorem withCase_counted (n : Nat) (k : Case) (c : Core) :
    (withCase n k c).counted = c.counted.set n (some k.state) := rfl
@[simp] theorem withCase_opened (n : Nat) (k : Case) (c : Core) :
    (withCase n k c).opened = c.opened := rfl
@[simp] theorem withCase_plans (n : Nat) (k : Case) (c : Core) :
    (withCase n k c).plans = c.plans := rfl
@[simp] theorem withCase_stepsInUse (n : Nat) (k : Case) (c : Core) :
    (withCase n k c).stepsInUse = c.stepsInUse := rfl
@[simp] theorem withCase_walks (n : Nat) (k : Case) (c : Core) :
    (withCase n k c).walks = c.walks := rfl
@[simp] theorem withCase_room (n : Nat) (k : Case) (c : Core) :
    (withCase n k c).room = c.room := rfl
@[simp] theorem withCase_orders (n : Nat) (k : Case) (c : Core) :
    (withCase n k c).orders = c.orders := rfl
@[simp] theorem withCase_orderNumber (n : Nat) (k : Case) (c : Core) :
    (withCase n k c).orderNumber = c.orderNumber := rfl
@[simp] theorem withCase_linkTx (n : Nat) (k : Case) (c : Core) :
    (withCase n k c).linkTx = c.linkTx := rfl
@[simp] theorem withCase_fieldRx (n : Nat) (k : Case) (c : Core) :
    (withCase n k c).fieldRx = c.fieldRx := rfl
@[simp] theorem withCase_deviceRx (n : Nat) (k : Case) (c : Core) :
    (withCase n k c).deviceRx = c.deviceRx := rfl
@[simp] theorem withCase_reservations (n : Nat) (k : Case) (c : Core) :
    (withCase n k c).reservations = c.reservations := rfl
@[simp] theorem withCase_holds (n : Nat) (k : Case) (c : Core) :
    (withCase n k c).holds = c.holds := rfl
@[simp] theorem withCase_record (n : Nat) (k : Case) (c : Core) :
    (withCase n k c).record = c.record := rfl
@[simp] theorem withCase_window (n : Nat) (k : Case) (c : Core) :
    (withCase n k c).window = c.window := rfl
@[simp] theorem withCase_recovery (n : Nat) (k : Case) (c : Core) :
    (withCase n k c).recovery = c.recovery := rfl
@[simp] theorem withCase_held (n : Nat) (k : Case) (c : Core) :
    (withCase n k c).held = c.held := rfl
@[simp] theorem withCase_supervision (n : Nat) (k : Case) (c : Core) :
    (withCase n k c).supervision = c.supervision := rfl
@[simp] theorem freed_mode (n : Nat) (c : Core) : (freed n c).mode = c.mode := rfl
@[simp] theorem freed_segments (n : Nat) (c : Core) : (freed n c).segments = c.segments := rfl
@[simp] theorem freed_roster (n : Nat) (c : Core) : (freed n c).roster = c.roster := rfl
@[simp] theorem freed_devices (n : Nat) (c : Core) : (freed n c).devices = c.devices := rfl
@[simp] theorem freed_discovery (n : Nat) (c : Core) : (freed n c).discovery = c.discovery := rfl
@[simp] theorem freed_time (n : Nat) (c : Core) : (freed n c).time = c.time := rfl
@[simp] theorem freed_intake (n : Nat) (c : Core) : (freed n c).intake = c.intake := rfl
@[simp] theorem freed_deferred (n : Nat) (c : Core) : (freed n c).deferred = c.deferred := rfl
@[simp] theorem freed_items (n : Nat) (c : Core) : (freed n c).items = c.items := rfl
@[simp] theorem freed_cases (n : Nat) (c : Core) : (freed n c).cases = c.cases.set n { content := none, check := 0 } := rfl
@[simp] theorem freed_serial (n : Nat) (c : Core) : (freed n c).serial = c.serial := rfl
@[simp] theorem freed_counted (n : Nat) (c : Core) : (freed n c).counted = c.counted.set n none := rfl
@[simp] theorem freed_opened (n : Nat) (c : Core) : (freed n c).opened = c.opened.filter (· != n) := rfl
@[simp] theorem freed_plans (n : Nat) (c : Core) : (freed n c).plans = c.plans := rfl
@[simp] theorem freed_stepsInUse (n : Nat) (c : Core) :
    (freed n c).stepsInUse = c.stepsInUse := rfl
@[simp] theorem freed_walks (n : Nat) (c : Core) : (freed n c).walks = c.walks.filter (fun w => w.entry != n) := rfl
@[simp] theorem freed_room (n : Nat) (c : Core) : (freed n c).room = c.room.filter (· != n) := rfl
@[simp] theorem freed_orders (n : Nat) (c : Core) : (freed n c).orders = c.orders := rfl
@[simp] theorem freed_orderNumber (n : Nat) (c : Core) : (freed n c).orderNumber = c.orderNumber := rfl
@[simp] theorem freed_linkTx (n : Nat) (c : Core) : (freed n c).linkTx = c.linkTx := rfl
@[simp] theorem freed_fieldRx (n : Nat) (c : Core) : (freed n c).fieldRx = c.fieldRx := rfl
@[simp] theorem freed_deviceRx (n : Nat) (c : Core) : (freed n c).deviceRx = c.deviceRx := rfl
@[simp] theorem freed_reservations (n : Nat) (c : Core) : (freed n c).reservations = c.reservations := rfl
@[simp] theorem freed_holds (n : Nat) (c : Core) : (freed n c).holds = c.holds := rfl
@[simp] theorem freed_record (n : Nat) (c : Core) : (freed n c).record = c.record := rfl
@[simp] theorem freed_window (n : Nat) (c : Core) : (freed n c).window = c.window := rfl
@[simp] theorem freed_recovery (n : Nat) (c : Core) : (freed n c).recovery = c.recovery := rfl
@[simp] theorem freed_held (n : Nat) (c : Core) : (freed n c).held = c.held := rfl
@[simp] theorem freed_supervision (n : Nat) (c : Core) : (freed n c).supervision = c.supervision := rfl

/-! ### Predicates over whole tables, in a form that evaluates -/

theorem sound_of {α : Type} (l : List (Checked α)) (h : (l.all fun c => c.check == 0) = true) : Sound l := by
  intro n
  unfold badAt
  cases e : l[n]? with
  | none => rfl
  | some c =>
    have : c ∈ l := List.mem_of_getElem? e
    simpa using (List.all_eq_true.1 h) c this

theorem allSound_of (c : Core)
    (h : ((c.segments.all fun x => x.check == 0) && (c.roster.all fun x => x.check == 0)
      && (c.devices.all fun x => x.check == 0) && (c.plans.all fun x => x.check == 0)
      && (c.cases.all fun x => x.check == 0)) = true) : AllSound c := by
  simp only [Bool.and_eq_true] at h
  obtain ⟨⟨⟨⟨h1, h2⟩, h3⟩, h4⟩, h5⟩ := h
  exact ⟨sound_of _ h1, sound_of _ h2, sound_of _ h3, sound_of _ h4, sound_of _ h5⟩

theorem mem_of_entryAt {α : Type} {l : List (Checked α)} {n : Nat} {x : α} (h : entryAt l n = some x) :
    some x ∈ l.map (·.content) := by
  unfold entryAt at h
  cases e : l[n]? with
  | none => simp [e] at h
  | some c =>
    have hc : c.content = some x := by simpa [e] using h
    exact List.mem_map.2 ⟨c, List.mem_of_getElem? e, hc⟩

/-- What holds of every content of a table holds of every defined entry. -/
theorem entryAt_all {α : Type} {l : List (Checked α)} {f : α → Bool}
    (h : (l.all fun c => c.content.all f) = true) :
    ∀ (n : Nat) (x : α), entryAt l n = some x → f x = true := by
  intro n x hx
  obtain ⟨c, hc, hx'⟩ := List.mem_map.1 (mem_of_entryAt hx)
  have := (List.all_eq_true.1 h) c hc
  rw [hx'] at this
  simpa using this

/-- A table of undefined entries has no defined one. -/
theorem entryAt_none {α : Type} {l : List (Checked α)} (h : (l.all fun c => c.content.isNone) = true) :
    ∀ n : Nat, entryAt l n = none := by
  intro n
  cases e : entryAt l n with
  | none => rfl
  | some x =>
    have := entryAt_all (f := fun _ => false) (l := l)
      (by
        refine List.all_eq_true.2 fun c hc => ?_
        have := (List.all_eq_true.1 h) c hc
        cases g : c.content with
        | none => rfl
        | some y => simp [g] at this) n x e
    simp at this

theorem noPolls_of (c : Core) (sound : (c.devices.all fun x => x.check == 0) = true)
    (idle : (c.devices.all fun x => x.content.all fun v =>
      v.run.nextPoll.all fun t => !reached c.time.now t) = true) : NoPolls c := by
  refine fun _ => ⟨sound_of _ sound, fun n v t hv _ ht => ?_⟩
  have := entryAt_all idle n v hv
  simpa [ht] using this

end Sys2Proof.Machine
end

