-- ==== Sys2Proof/Laws/Events.lean ====
section
/-! SUPPORT. What the shared operations of an event do, said once: its work, its notices and occurrences,
internal faults, the order queue, case entries, the moving of times, and the room list. -/

namespace Sys2Proof.Machine

/-! ### The work of an event -/

/-- What every piece of work keeps, and a change of the work left does not touch, an event's work keeps. -/
theorem runWork_keeps (env : Env) (P : Ev → Prop) (work : ∀ w e, P e → P (doWork env w e))
    (todo : ∀ (e : Ev) ws, P e → P { e with todo := ws }) (n : Nat) (ws : List Work) (e : Ev) (h : P e) :
    P (runWork env n ws e) := by
  induction n generalizing ws e with
  | zero => exact h
  | succ n ih =>
    cases ws with
    | nil => exact h
    | cons w rest => exact ih _ _ (todo _ _ (work w _ (todo e [] h)))

theorem settle_keeps (env : Env) (P : Ev → Prop) (work : ∀ w e, P e → P (doWork env w e))
    (todo : ∀ (e : Ev) ws, P e → P { e with todo := ws }) (e : Ev) (h : P e) : P (settle env e) :=
  runWork_keeps env P work todo _ _ _ (todo e [] h)

/-- What every step of a fold keeps, the fold keeps. -/
theorem foldl_keeps {α β : Type} (P : β → Prop) (f : β → α → β) (step : ∀ b a, P b → P (f b a)) (l : List α)
    (b : β) (h : P b) : P (l.foldl f b) := by
  induction l generalizing b with
  | nil => exact h
  | cons a l ih => exact ih _ (step b a h)

/-! ### Occurrences -/

@[simp] theorem countSegment_core (s : EventSelect) (k : Int) (n : Nat) (e : Ev) :
    (countSegment s k n e).toCore = e.toCore := rfl
@[simp] theorem countSensor_core (s : EventSelect) (a : Nat) (e : Ev) :
    (countSensor s a e).toCore = e.toCore := rfl
@[simp] theorem countEvidence_core (s : EventSelect) (n a : Nat) (e : Ev) :
    (countEvidence s n a e).toCore = e.toCore := rfl
@[simp] theorem countDevice_core (s : EventSelect) (d : Nat) (e : Ev) :
    (countDevice s d e).toCore = e.toCore := rfl
@[simp] theorem countAll_core (s : EventSelect) (k : Int) (e : Ev) : (countAll s k e).toCore = e.toCore := rfl

/-- A notice that is not the COUNTER notice of a wrap stands where its rule raises it (R190). -/
theorem emissions_tell (now : Nat) (d : Dest) (n : Notice) (xs : List Emit) (cs : List Counter) :
    emissions now (.tell d n :: xs) cs
      = ((emissions now xs cs).1, (d, n) :: (emissions now xs cs).2) := rfl

/-- An event that counts nothing leaves the counters, and gives out its notices in their order. -/
theorem emissions_tells (now : Nat) (ns : List (Dest × Notice)) (cs : List Counter) :
    emissions now (ns.map fun x => .tell x.1 x.2) cs = (cs, ns) := by
  induction ns with
  | nil => rfl
  | cons n ns ih => rw [List.map_cons, emissions_tell, ih]

/-! ### Internal faults (R172, R173) -/

/-- A fault leaves the tables but for the next polls, and every queue, as they are. -/
theorem internalFault_frame (t : Table) (n : Option Nat) (e : Ev) :
    (internalFault t n e).segments = e.segments ∧ (internalFault t n e).roster = e.roster
      ∧ (internalFault t n e).plans = e.plans ∧ (internalFault t n e).cases = e.cases
      ∧ (internalFault t n e).orders = e.orders ∧ (internalFault t n e).intake = e.intake
      ∧ (internalFault t n e).discovery = e.discovery ∧ (internalFault t n e).items = e.items
      ∧ (internalFault t n e).walks = e.walks ∧ (internalFault t n e).room = e.room
      ∧ (internalFault t n e).reservations = e.reservations ∧ (internalFault t n e).holds = e.holds
      ∧ (internalFault t n e).time = e.time ∧ (internalFault t n e).todo = e.todo := by
  unfold internalFault recordFault enterHalted clearPolls appendSweep enterRecovery raise
  simp only []
  split
  · simp
  · split
    · simp
    · split
      · split <;> simp
      · simp

/-- In HALTED a fault changes the record alone, and raises its notice. -/
theorem internalFault_halted (t : Table) (n : Option Nat) (e : Ev) (h : e.mode = .halted) :
    (internalFault t n e).mode = .halted ∧ (internalFault t n e).window = e.window
      ∧ (internalFault t n e).recovery = e.recovery := by
  unfold internalFault recordFault raise
  simp [h]

/-- Outside HALTED a fault enters the window; the third halts the part, any other leaves the mode. -/
theorem internalFault_window (t : Table) (n : Option Nat) (e : Ev) (h : e.mode ≠ .halted) :
    (internalFault t n e).window = e.window ++ [e.time.now]
      ∧ (2 ≤ e.window.length → (internalFault t n e).mode = .halted
          ∧ (internalFault t n e).recovery = Recovery.idle)
      ∧ (e.window.length < 2 → (internalFault t n e).mode = e.mode
          ∧ (internalFault t n e).recovery.recovering = true) := by
  unfold internalFault recordFault enterHalted clearPolls appendSweep enterRecovery raise
  simp only [Config.faultLimit, if_neg h, List.length_append, List.length_singleton]
  by_cases g : 3 ≤ e.window.length + 1
  · simp only [if_pos g]
    exact ⟨by simp, fun _ => by simp, fun k => by omega⟩
  · simp only [if_neg g]
    refine ⟨?_, fun k => by omega, fun _ => ?_⟩
    · split
      · split <;> rfl
      · rfl
    · split
      · rename_i r
        split <;> exact ⟨rfl, r⟩
      · exact ⟨rfl, rfl⟩

/-! ### The order queue (R133, R134) -/

theorem removeOrder_orders (d : Nat) (e : Ev) :
    (removeOrder d e).orders = e.orders.filter fun o => o.device != d := rfl

/-- A change of an order where it stands keeps the devices the orders are for, when it keeps its own. -/
theorem setOrder_orderedDevices (d : Nat) (f : Order → Order) (h : ∀ o, (f o).device = o.device) (e : Ev) :
    (setOrder d f e).orders.map (·.device) = e.orders.map (·.device) := by
  simp only [setOrder, List.map_map]
  refine List.map_congr_left fun o _ => ?_
  simp only [Function.comp]
  split <;> simp [h]

theorem sendOrder_orderedDevices (env : Env) (o : Order) (link : Nat) (e : Ev) :
    (sendOrder env o link e).orders.map (·.device) = e.orders.map (·.device) := by
  have h := setOrder_orderedDevices o.device (fun x => { x with
    state := .sent, resend := false, sends := some (o.sends.getD 0 + 1)
    deadline := some (addTime e.time.now env.settings.replyTimeout) }) (fun _ => rfl) e
  unfold sendOrder
  simp only []
  split <;> exact h

theorem faultAt_orders (r : Ref) (e : Ev) : (faultAt r e).orders = e.orders := by
  unfold faultAt; split
  · rfl
  · exact (internalFault_frame r.table (faultEntry e.toCore r) { e with met := e.met ++ [r] }).2.2.2.2.1

theorem faultsAt_orders (rs : List Ref) (e : Ev) : (faultsAt rs e).orders = e.orders := by
  refine foldl_keeps (fun x => x.orders = e.orders) _ (fun x r h => ?_) rs e rfl
  split
  · exact h
  · split
    · rw [faultAt_orders]; exact h
    · exact h

/-- Reads that all match are no fault. -/
theorem faultsAt_sound (rs : List Ref) (e : Ev) (h : ∀ r ∈ rs, isBad e.toCore r = false) :
    faultsAt rs e = e := by
  unfold faultsAt
  induction rs with
  | nil => rfl
  | cons r rs ih =>
    have g : isBad e.toCore r = false := h r List.mem_cons_self
    simp only [List.foldl_cons, g, Bool.false_eq_true, if_false, ite_self]
    exact ih fun x k => h x (List.mem_cons_of_mem _ k)

/-- An entry met again in one event is no second fault (log 6). -/
theorem faultAt_met (r : Ref) (e : Ev) (h : e.met.contains r = true) : faultAt r e = e := by
  unfold faultAt; rw [if_pos h]

/-- The arbiter puts no order into the queue and takes none out. -/
theorem arbitrate_orderedDevices (env : Env) (e : Ev) :
    (arbitrate env e).orders.map (·.device) = e.orders.map (·.device) := by
  unfold arbitrate
  generalize Config.orders + 1 = n
  induction n generalizing e with
  | zero => rfl
  | succ n ih =>
    unfold arbitrateFrom
    split
    · rfl
    · split
      · rfl
      · split
        · rw [ih, faultAt_orders]; exact setOrder_orderedDevices _ (fun o => { o with left := true }) (fun _ => rfl) e
        · split
          · exact sendOrder_orderedDevices env _ _ e
          · rw [ih]; exact setOrder_orderedDevices _ (fun o => { o with left := true }) (fun _ => rfl) e

/-- An order joins at the newest end (R133). -/
theorem queueOrder_orderedDevices (env : Env) (d : Nat) (a : Action) (k : OrderClass) (g : OrderOrigin) (e : Ev) :
    (queueOrder env d a k g e).orders.map (·.device) = e.orders.map (·.device) ++ [d] := by
  unfold queueOrder
  simp only [arbitrate_orderedDevices, setRun_orders, List.map_append, List.map_cons, List.map_nil]

/-- A request that is granted names a device with no order in a queue that has room (R133). -/
theorem grants_room {c : Core} {d : Nat} (h : grants c d = true) :
    c.orders.length < Config.orders ∧ d ∉ c.orders.map (·.device) := by
  unfold grants orderOf at h
  simp only [Bool.and_eq_true, decide_eq_true_eq, Option.isNone_iff_eq_none, List.find?_eq_none] at h
  refine ⟨h.2, fun k => ?_⟩
  obtain ⟨o, ho, rfl⟩ := List.mem_map.1 k
  simpa using h.1.2 o ho

theorem orderNotice_core (o : Order) (a : OrderOutcome) (r : Option RefusalReason)
    (w : Option WithdrawReason) (e : Ev) : (orderNotice o a r w e).toCore = e.toCore := by
  unfold orderNotice; split <;> rfl

theorem orderOf_device {c : Core} {d : Nat} {o : Order} (h : orderOf c d = some o) : o.device = d := by
  have g := List.find?_some h
  simpa using g

theorem takeOut_orders (w : WithdrawReason) (o : Order) (e : Ev) :
    (takeOut w o e).orders = e.orders.filter fun x => x.device != o.device := by
  unfold takeOut
  simp only []
  split
  · simp only [later_core, orderNotice_core, removeOrder_orders]
  · rfl

/-- A withdrawal takes the device's order out of the queue or leaves the queue as it is (R134). -/
theorem withdraw_orders (w : WithdrawReason) (d : Nat) (e : Ev) :
    (withdraw w d e).orders = e.orders
      ∨ (withdraw w d e).orders = e.orders.filter fun o => o.device != d := by
  unfold withdraw
  split
  · exact Or.inl rfl
  · rename_i o h
    split
    · exact Or.inl rfl
    · simp only []
      split
      · left; exact faultsAt_orders _ _
      · right; rw [takeOut_orders, faultsAt_orders, orderOf_device h]

/-- The queue after several withdrawals is what is left of it, in its order (R134). -/
theorem withdrawEach_orders (w : WithdrawReason) (ds : List Nat) (e : Ev) :
    List.Sublist (withdrawEach w ds e).orders e.orders := by
  refine foldl_keeps (fun x : Ev => List.Sublist x.orders e.orders) _ (fun x d h => ?_) ds e
    (List.Sublist.refl _)
  split
  · exact h
  · obtain g | g := withdraw_orders w d x
    · rw [g]; exact h
    · rw [g]; exact List.filter_sublist.trans h

/-! ### Case entries (R84) -/

/-- A freed case leaves its entry free, with no walk and no place on the room list. -/
theorem freeCase_frame (n : Nat) (k : Case) (r : CaseReason) (d : Option Nat) (e : Ev) :
    (freeCase n k r d e).toCore = (clearCase n e).toCore := by
  unfold freeCase
  simp only []
  split
  · split <;> rfl
  · rfl

theorem changeCase_frame (n : Nat) (k : Case) (s : CaseState) (r : CaseReason) (d : Option Nat) (e : Ev) :
    (changeCase n k s r d e).toCore = (putCase n { k with state := s } e).toCore := rfl

/-! ### The room list (R120) -/

/-- A step in ROOM stands on the list once; one that has left it does not. -/
theorem leaveRoom_room (n : Nat) (e : Ev) : n ∉ (leaveRoom n e).room := by
  simp [leaveRoom]

theorem waitRoom_room (w : Walk) (d : Option Nat) (e : Ev) : w.entry ∈ (waitRoom w d e).room := by
  unfold waitRoom
  simp only []
  split
  · rename_i h; simpa using h
  · simp

/-! ### Reads that find what is due (R110, R111, R148, R169) -/

/-- A device that is not due is not polled. -/
theorem requestPoll_quiet (env : Env) (d : Nat) (e : Ev) (h : pollDue e.toCore d = false) :
    requestPoll env d e = e := by
  unfold requestPoll
  simp [h]

theorem requestPolls_elsewhere (env : Env) (e : Ev) (h : e.mode ≠ .monitoring) : requestPolls env e = e := by
  unfold requestPolls
  rw [if_neg (fun g => h g.1)]

theorem requestPolls_full (env : Env) (e : Ev) (h : Config.orders ≤ e.orders.length) : requestPolls env e = e := by
  unfold requestPolls
  rw [if_neg (fun g => Nat.not_lt.2 h g.2.2)]

/-- Where a request for due polls would queue none, no device is due in MONITORING (R147). -/
theorem pollDue_quiet (c : Core) (d : Nat) (h : NoPolls c) (mode : c.mode = .monitoring) : pollDue c d = false := by
  unfold pollDue pollEligible
  cases hd : entryAt c.devices d with
  | none => rfl
  | some v =>
    cases ht : v.run.nextPoll with
    | none => simp [ht]
    | some t =>
      have idle := fun g => (h mode).2 d v t hd g ht
      simpa [ht] using fun _ => idle

/-- Where it would queue none, a request for due polls does nothing (R148). -/
theorem requestPolls_quiet (env : Env) (e : Ev) (h : NoPolls e.toCore) : requestPolls env e = e := by
  unfold requestPolls
  split
  · rename_i g
    rw [faultsAt_sound _ _ (allRefs_devices_sound (h g.1).1)]
    have quiet : ∀ d, requestPoll env d e = e := fun d =>
      requestPoll_quiet env d e (pollDue_quiet e.toCore d h g.1)
    generalize List.range Config.devices = l
    induction l with
    | nil => rfl
    | cons d l ih => rw [List.foldl_cons, quiet d, ih]
  · rfl

/-- With the device entries matching, a request for due polls asks for each in ascending number (R148). -/
theorem requestPolls_sound (env : Env) (e : Ev) (mode : e.mode = .monitoring) (h : healthy e.toCore = true)
    (room : e.orders.length < Config.orders) (sound : Sound e.devices) :
    requestPolls env e = (List.range Config.devices).foldl (fun e d => requestPoll env d e) e := by
  unfold requestPolls
  rw [if_pos ⟨mode, h, room⟩, faultsAt_sound _ _ (allRefs_devices_sound sound)]

/-- POLL_DUE of a device that is due requests the polls due, and of any other does nothing (R148). -/
theorem pollFallsDue_due (env : Env) (d : Nat) (e : Ev) (h : pollDue e.toCore d = true) :
    pollFallsDue env d e = requestPolls env e := by
  unfold pollFallsDue
  rw [if_pos h]

theorem pollFallsDue_quiet (env : Env) (d : Nat) (e : Ev) (h : pollDue e.toCore d = false) :
    pollFallsDue env d e = e := by
  unfold pollFallsDue
  rw [if_neg (by simp [h])]

/-- Outside recovery and HALTED, with every case entry matching, the CONFIRMED cases go to ISOLATING in turn
(R110, R111). -/
theorem isolateConfirmed_sound (reason : CaseReason) (e : Ev) (h : healthy e.toCore = true)
    (sound : Sound e.cases) :
    isolateConfirmed reason e = later ((confirmedCases e.toCore).map fun n => .isolate n reason) e := by
  unfold isolateConfirmed
  rw [if_pos h, faultsAt_sound _ _ (allRefs_cases_sound sound)]

theorem isolateConfirmed_heldBack (reason : CaseReason) (e : Ev) (h : healthy e.toCore = false) :
    isolateConfirmed reason e = e := by
  unfold isolateConfirmed
  rw [if_neg (by simp [h])]

/-- An event within start-up changes the blocks and the counters alone (R215). -/
theorem runQuiet_rest (f : Env → Ev → Ev) (p : Part) :
    runQuiet f p = { p with core := (runQuiet f p).core, counters := (runQuiet f p).counters } := rfl

/-- A sensor that has left the roster has no expiry that waits, and nothing else changes (R44). -/
theorem dropDeferred_eq (e : Ev) : dropDeferred e = { e with deferred := (dropDeferred e).deferred } := rfl

theorem mem_dropDeferred (e : Ev) (a : Nat) :
    a ∈ (dropDeferred e).deferred ↔ a ∈ e.deferred ∧ (sensorPlace e.toCore a).isSome = true := by
  simp [dropDeferred, List.mem_filter]

end Sys2Proof.Machine
end

