-- ==== Sys2Proof/Laws/Walks.lean ====
section
/-! SUPPORT. What the operations of a step walk, of a withdrawal and of a receiver do, each said once. -/

namespace Sys2Proof.Machine

/-! ### Orders -/

/-- The arbiter leaves a busy link alone. -/
theorem arbitrate_busy {e : Ev} (env : Env) (h : e.linkTx.isSome = true) : arbitrate env e = e := by
  unfold arbitrate arbitrateFrom; simp [h]

/-- Outside HALTED, the withdrawal of a QUEUED order whose device entry matches. -/
theorem withdraw_queued {e : Ev} {o : Order} {v : Device} {d : Nat} (reason : WithdrawReason)
    (ho : orderOf e.toCore d = some o) (hq : o.state = .queued) (hv : entryAt e.devices d = some v)
    (hb : badAt e.devices d = false) (hm : e.mode ≠ .halted) :
    withdraw reason d e = orderWithdrawn reason o v e := by
  have hd := orderOf_device ho
  subst hd
  unfold withdraw; rw [ho]; simp only [hq]
  rw [faultsAt_sound _ _ (by simp [isBad, hb])]
  simp only [hm, if_false, takeOut, orderWithdrawn, removeOrder, setRun, updateAt_sound _ hv hb]
  have hlt := entryAt_lt hv
  cases hcls : o.cls <;>
    (try simp only [orderNotice]) <;>
    cases horg : o.origin <;>
    simp [later, raise, stateOf, entryAt_putAt _ _ _ _ hlt, badAt_putAt]

/-- A SENT order is not withdrawn. -/
theorem withdraw_sent {e : Ev} {o : Order} {d : Nat} (reason : WithdrawReason)
    (ho : orderOf e.toCore d = some o) (hs : o.state = .sent) : withdraw reason d e = e := by
  unfold withdraw; rw [ho]; simp [hs]

/-! ### Walks -/

/-- The CASE notice of a case whose fields read in their ranges. -/
theorem caseNotice_told {k : Case} (h : k.unreadable = []) (n : Nat) (old new : Option CaseState)
    (reason : CaseReason) (d : Option Nat) (now : Nat) :
    (Emit.tell .both (caseNotice n k old new reason d now)) = caseTold n k old new reason d now := by
  simp [caseNotice, caseTold, h]

/-- A walk that stands at a step is judged at it. -/
theorem withStep_at {n : Nat} {w : Walk} {k : Case} {r : IsolationRecord} {pl : Plan} {d : Nat} {e : Ev}
    (h : AtStep n w k r pl d e) (f : Walk → Case → IsolationRecord → Plan → Nat → Ev → Ev) :
    withStep n f e = f w k r pl d e := by
  obtain ⟨h1, h2, h3, h4, h5, h6, h7, ⟨i, h8, h9, h10⟩, h11⟩ := h
  unfold withStep; simp [h1, h2, h4, h5, h7, h8, h9, h10, h11]

/-- A step that is done goes on to the next, or ends its walk. -/
theorem stepDone_eq {n : Nat} {w : Walk} {k : Case} {r : IsolationRecord} {pl : Plan} {d : Nat} {e : Ev}
    (h : AtStep n w k r pl d e) (d' : Nat) :
    stepDone w k r pl d' e = afterDone w k r pl d' e := by
  obtain ⟨h1, h2, h3, h4, h5, h6, h7, ⟨i, h8, h9, h10⟩, h11⟩ := h
  unfold stepDone afterDone
  by_cases g : r.step + 1 < pl.steps.length
  · simp [g, goToStep, leaveRoom, setRecord, putCase, later, movedOn, recorded, h7, putAt]
  · simp only [g, if_false]
    cases hp : w.phase
    · simp [completeWalk, dropWalk, countSegment, occur, changeCase, raise, putCase, walkEnded, recorded,
          isolatedBy, h7, putAt, othersThan, caseNotice, caseTold, h6, segmentCount]
    · simp [dropWalk, walkEnded, othersThan]

/-- The failure of a MAIN walk's step: the fallback, or BLOCKED and the remainder. -/
theorem failPlan_eq {n : Nat} {w : Walk} {k : Case} {r : IsolationRecord} {pl : Plan} {d : Nat} {e : Ev}
    (h : AtStep n w k r pl d e) (hp : w.phase = .main) :
    failPlan w k r e = afterFailure w k r pl e := by
  obtain ⟨h1, h2, h3, h4, h5, h6, h7, ⟨i, h8, h9, h10⟩, h11⟩ := h
  unfold failPlan afterFailure
  have hq : planInUse e.toCore r = some pl := by simp [planInUse, h8, h10]
  simp only [hq, hp, Option.bind_some, Config.fallbackLinks]
  cases hf : pl.fallback with
  | none =>
    by_cases g : r.step + 1 < pl.steps.length
    · simp [g, goToStep, leaveRoom, setRecord, putCase, later, movedOn, recorded, h7, putAt, changeCase,
          raise, putWalk, caseNotice, caseTold, h6, othersThan]
    · simp [g, dropWalk, walkEnded, othersThan, changeCase, raise, putCase, recorded, putAt, caseNotice,
          caseTold, h6, h7]

  | some f =>
    by_cases gd : r.depth < 4
    · simp [gd, leaveRoom, setRecord, putCase, later, movedOn, recorded, h7, putAt]
    · by_cases g : r.step + 1 < pl.steps.length
      · simp [gd, g, goToStep, leaveRoom, setRecord, putCase, later, movedOn, recorded, h7, putAt,
            changeCase, raise, putWalk, caseNotice, caseTold, h6, othersThan]
      · simp [gd, g, dropWalk, walkEnded, othersThan, changeCase, raise, putCase, recorded, putAt,
            caseNotice, caseTold, h6, h7]

/-- A REMAINDER walk passes over a failed step. -/
theorem passOver_eq {n : Nat} {w : Walk} {k : Case} {r : IsolationRecord} {pl : Plan} {d : Nat} {e : Ev}
    (h : AtStep n w k r pl d e) (hp : w.phase = .remainder) :
    passOver w k r pl e = afterFailure w k r pl e := by
  obtain ⟨h1, h2, h3, h4, h5, h6, h7, ⟨i, h8, h9, h10⟩, h11⟩ := h
  unfold passOver afterFailure
  by_cases g : r.step + 1 < pl.steps.length
  · simp [g, hp, goToStep, leaveRoom, setRecord, putCase, later, movedOn, recorded, h7, putAt]
  · simp [g, hp, dropWalk, walkEnded, othersThan]

/-- A step that waits for room keeps its place on the room list, or joins it at the newest end. -/
theorem waitRoom_eq (w : Walk) (d : Nat) (e : Ev) : waitRoom w (some d) e = stepInRoom w d e := by
  unfold waitRoom stepInRoom putWalk othersThan
  simp only [List.contains_eq_mem, decide_eq_true_eq]
  split <;> simp_all

/-- A walk's order joins the queue behind a busy link. -/
theorem queueIsolation_busy {w : Walk} {d : Nat} {e : Ev} {v : Device} (env : Env)
    (hv : entryAt e.devices d = some v) (hb : badAt e.devices d = false) (hl : e.linkTx.isSome = true) :
    queueIsolation env w d e = stepOrdered w d v e := by
  unfold queueIsolation queueOrder stepOrdered
  simp only []
  rw [arbitrate_busy env (by simpa [setRun] using hl)]
  simp [setRun, waitFor, putWalk, leaveRoom, othersThan, updateAt_sound _ hv hb, reservationOf]
  cases hr : e.reservations[d]? with
  | none => simp
  | some x => cases x <;> simp [raise]

/-! ### Receivers -/

/-- Characters taken in two runs at one moment are taken as one. -/
theorem receiveChars_append (now : Nat) (rx : Receiver) (xs ys : List RxChar) :
    receiveChars now rx (xs ++ ys)
      = ((receiveChars now (receiveChars now rx xs).1 ys).1,
          (receiveChars now rx xs).2 ++ (receiveChars now (receiveChars now rx xs).1 ys).2) := by
  induction xs generalizing rx with
  | nil => simp [receiveChars]
  | cons x xs ih => simp [receiveChars, ih]

/-- A framing error ends the frame in progress, whatever stands in the receiver. -/
theorem receiveChar_framingError (now : Nat) (rx : Receiver) (v : Byte) :
    receiveChar now rx { value := v, framingError := true } = (.hunt, none) := by
  unfold receiveChar; split <;> simp

end Sys2Proof.Machine
end

