-- ==== Sys2Proof/Laws/Sweep.lean ====
section
/-! SUPPORT. What the operations of the recovery sweep do, each said once. -/

namespace Sys2Proof.Machine

/-! ### The bad entries of a table (R175) -/

/-- The bad entries are those of the tables alone. -/
@[simp] theorem badOf_recovery (c : Core) (r : Recovery) (t : Table) :
    badOf { c with recovery := r } t = badOf c t := by
  cases t <;> rfl

/-- The bad entries becoming undefined do not touch the recovery. -/
@[simp] theorem withoutBad_recovery (t : Table) (c : Core) (r : Recovery) :
    withoutBad t { c with recovery := r } = { withoutBad t c with recovery := r } := by
  cases t <;> rfl

/-- A search of a table finds an entry exactly when one has a content that satisfies the predicate. -/
theorem entriesWhere_isSome {α : Type} (l : List (Checked α)) (f : α → Bool) :
    (entriesWhere l f).head?.isSome = l.any fun x => x.content.any f := by
  rw [Bool.eq_iff_iff]
  have : (entriesWhere l f).head?.isSome = true ↔ ∃ n, n ∈ entriesWhere l f := by
    cases entriesWhere l f <;> simp
  rw [this]
  simp only [mem_entriesWhere, List.any_eq_true]
  constructor
  · rintro ⟨n, v, hv, hx⟩
    unfold entryAt at hv
    cases e : l[n]? with
    | none => rw [e] at hv; cases hv
    | some x => rw [e] at hv; exact ⟨x, List.mem_of_getElem? e, by simp at hv; rw [hv]; exact hx⟩
  · rintro ⟨x, hx, q⟩
    obtain ⟨n, hn⟩ := List.getElem?_of_mem hx
    cases c : x.content with
    | none => rw [c] at q; cases q
    | some v => exact ⟨n, v, by unfold entryAt; rw [hn]; exact c, by rw [c] at q; exact q⟩

/-! ### Lost cases (R180) -/

/-- The loss of an occupied entry. -/
theorem loseCase_occupied {n : Nat} {k : Case} {e : Ev} (h : entryAt e.cases n = some k) :
    loseCase n e
      = { e with toCore := afterLoss n k e.toCore, out := e.out ++ lossTold n k e.time.now } := by
  unfold loseCase
  rw [h]
  unfold lossTold
  by_cases g : CaseField.state ∈ k.unreadable <;> by_cases f : k.state = .watch <;>
    by_cases q : CaseField.segment ∈ k.unreadable <;>
    simp [freeCase, g, f, q, raise, countAll, countSegment, occur, segmentCount, clearCase, dropWalk, freed,
      putAt, listLost, caseNotice, Config.lostCases, afterLoss]

/-- The loss of an entry that reads as free. -/
theorem loseCase_free {n : Nat} {e : Ev} (h : entryAt e.cases n = none) :
    loseCase n e = { e with toCore := freed n e.toCore } := by
  unfold loseCase; rw [h]; rfl

/-- Entries lost in turn. -/
theorem loseCase_each (ns : List Nat) (e : Ev) :
    ns.foldl (fun e n => loseCase n e) e
      = { e with toCore := (losesInto ns e.toCore).2, out := e.out ++ (losesInto ns e.toCore).1 } := by
  induction ns generalizing e with
  | nil => simp [losesInto]
  | cons n rest ih =>
    rw [List.foldl_cons, ih]
    conv_rhs => unfold losesInto
    cases h : entryAt e.cases n with
    | none => rw [loseCase_free h]
    | some k => rw [loseCase_occupied h]; simp only [List.append_assoc]

/-! ### The end of a step (R175) -/

/-- The work a recovery held back, with its late cases spelled out. -/
theorem heldWork_eq (env : Env) (c : Core) :
    heldWork env c =
      { windows := entriesWhere c.cases fun k => k.state == .watch && reached c.time.now k.windowEnd
        authority := true
        late := entriesWhere c.cases fun k =>
          k.state == .isolating && k.isolation.any fun i =>
            !i.late && reached c.time.now ((i.confirmedAt + env.settings.isolationDeadline) % 86400000)
        room := true, polls := true } := by
  unfold heldWork
  congr 2
  funext k
  unfold isLate
  cases k.isolation <;> rfl

/-- The end of a step on a table other than the device table. -/
theorem sweepEnd_other {env : Env} {t : Table} {e : Ev} (h : e.recovery.recovering = true) (ht : t ≠ .device) :
    sweepEnd env t e
      = { e with
          toCore := (sweepEnded env.settings e.out e.toCore).2
          out := (sweepEnded env.settings e.out e.toCore).1 } := by
  unfold sweepEnd sweepEnded
  cases t <;> first | contradiction | skip
  all_goals
    simp only [h, if_true, true_and]
    by_cases g : e.recovery.sweep = []
    · simp only [g, if_true, endRecovery, raise, heldWork_eq]
    · simp only [g, if_false]

/-- The end of a step on the device table, once its orders are taken up. -/
theorem sweepEnd_device {env : Env} {e e' : Ev} (h : e.recovery.recovering = true) (ht : takeUpLeft env e = e')
    (h' : e'.recovery.recovering = true) :
    sweepEnd env .device e
      = { e' with
          toCore := (sweepEnded env.settings e'.out e'.toCore).2
          out := (sweepEnded env.settings e'.out e'.toCore).1 } := by
  unfold sweepEnd sweepEnded
  simp only [h, if_true, ht, h', true_and]
  by_cases g : e'.recovery.sweep = []
  · simp only [g, if_true, endRecovery, raise, heldWork_eq]
  · simp only [g, if_false]

/-! ### The forced fall with nothing to do (R179) -/

/-- Without cases and QUEUED POLL orders, a forced fall leaves the mode CONFIGURING and no poll due. -/
theorem forcedFall_quiet (e : Ev) (h : ∀ n, entryAt e.cases n = none)
    (g : ∀ o ∈ e.orders, o.cls = .poll → o.state = .sent) :
    forcedFall e = clearPolls { e with mode := .configuring } := by
  have none_ : occupied e.cases = [] := by
    rw [List.eq_nil_iff_forall_not_mem]
    intro n hn
    rw [mem_occupied] at hn
    obtain ⟨x, hx⟩ := hn
    rw [h n] at hx; cases hx
  have quiet : queuedPolls { e.toCore with mode := .configuring } = [] := by
    unfold queuedPolls
    rw [List.map_eq_nil_iff, List.filter_eq_nil_iff]
    intro o ho k
    simp only [Bool.and_eq_true, beq_iff_eq] at k
    rw [g o ho k.1] at k; cases k.2
  unfold forcedFall
  simp only [none_, List.foldl_nil]
  unfold withdrawPolls
  rw [show queuedPolls ({ e with mode := .configuring } : Ev).toCore = [] from quiet]
  rfl

end Sys2Proof.Machine
end

