-- ==== Sys2Proof/Laws/Tree.lean ====
section
/-! SUPPORT. The small lemmas of the tree's relations, and of the masking that goes by them. -/

namespace Sys2Proof.Machine

/-! ### Paths (R17) -/

/-- A path starts at its segment. -/
theorem pathOf_head (segs : List (Checked Segment)) (s : Nat) : (pathOf segs s)[0]? = some s := by
  unfold pathOf pathFrom Config.pathLength
  simp only []
  split
  · rfl
  · split
    · rfl
    · split <;> rfl

/-- A segment lies on its own path. -/
theorem mem_pathOf_self (segs : List (Checked Segment)) (s : Nat) : s ∈ pathOf segs s :=
  List.mem_of_getElem? (pathOf_head segs s)

/-- A path device is a defined SECTIONALIZING device whose segment lies on the path. -/
theorem mem_pathDevices_iff (c : Core) (s d : Nat) :
    d ∈ pathDevices c s ↔
      ∃ v, entryAt c.devices d = some v ∧ v.kind = .sectionalizing ∧ v.segment ∈ pathOf c.segments s := by
  unfold pathDevices headingDevices
  simp only [List.mem_flatMap, mem_entriesWhere]
  constructor
  · rintro ⟨t, ht, v, hv, h⟩
    simp only [Bool.and_eq_true, beq_iff_eq] at h
    exact ⟨v, hv, h.1, h.2 ▸ ht⟩
  · rintro ⟨v, hv, h, g⟩
    exact ⟨_, g, v, hv, by simp [h]⟩

/-! ### Masking by a device (R53, R129) -/

/-- A reachable device masks by its state or its settling. -/
theorem deviceMasks_reachable {now : Nat} {r : DeviceRun} (h : r.reachable = true) :
    deviceMasks now r = true ↔
      maskingState r.state = true ∨ ∃ t, r.settleUntil = some t ∧ reached now t = false := by
  unfold deviceMasks
  cases g : r.settleUntil <;> simp [h]

/-- A device whose state does not mask and that is not settling masks nothing, reachable or not. -/
theorem deviceMasks_quiet {now : Nat} {r : DeviceRun} (h : maskingState r.state = false)
    (g : ∀ t, r.settleUntil = some t → reached now t = true) : deviceMasks now r = false := by
  unfold deviceMasks
  cases k : r.settleUntil with
  | none => simp [h]
  | some t => simp [h, g t k]

end Sys2Proof.Machine
end

