-- ==== Sys2Proof/Tests/Slice0.lean ====
section
/-! SUPPORT. Tests: ill-formed terms, small states in which the hypotheses of the statements are met, and a few
events on them. -/

namespace Sys2Proof.Tests

open Sys2Proof.Machine

set_option maxRecDepth 20000

/-! ### Small states -/

/-- A table of undefined entries. -/
def empties (α : Type) (n : Nat) : List (Checked α) := List.replicate n { content := none, check := 0 }

/-- An entry that matches. -/
def good {α : Type} (x : α) : Checked α := { content := some x, check := 0 }

/-- An entry that does not match. -/
def bad {α : Type} (x : α) : Checked α := { content := some x, check := 1 }

def abc : PhaseSet := { a := true, b := true, c := true }

/-- A feeder of two segments, the second with plan 0. -/
def seg0 : Segment := { parent := none, phases := abc, plan := none, label := 0 }
def seg1 : Segment := { parent := some 0, phases := abc, plan := some 0, label := 1 }

/-- A device that stands closed. -/
def dev (link seg : Nat) : Device :=
  { link := link, kind := .sectionalizing, segment := seg
    run := { DeviceRun.powerOn with state := .closed } }

/-- A sensor bound to the tail of segment 1. -/
def sens : Sensor :=
  { address := 500, segment := 1, side := .tail, phases := abc, state := .reporting
    lastSequence := some 7, lastHeard := 1000 }

def plan0 : Plan := { segment := 1, steps := [1], fallback := none }

/-- The blocks of a small part in MONITORING, with tables cut short. -/
def core0 : Core :=
  { Core.reset with
    mode := .monitoring
    segments := [good seg0, good seg1, { content := none, check := 0 }]
    roster := [good sens, { content := none, check := 0 }]
    devices := [good (dev 1 0), good (dev 2 1), { content := none, check := 0 }]
    plans := [good plan0, { content := none, check := 0 }], stepsInUse := 1
    cases := empties Case 3
    counted := [none, none, none]
    reservations := [none, some .b, none]
    holds := [none, none, none]
    time := { now := 50000, lock := .locked, good := 3, lastPulse := some 60000, elapsed := 60400 } }

/-- A small part whose blocks are given. -/
def on (c : Core) : State :=
  { part := { Part.reset with core := c }, pending := [] }

/-- The small part in MONITORING, and in CONFIGURING. -/
def mon : State := on core0
def conf : State := on { core0 with mode := .configuring }
def halted : State := on { core0 with mode := .halted }

/-- A case on segment s, in a state. -/
def aCase (s : Nat) (st : CaseState) : Case :=
  { serial := 1, segment := s, phase := .a, state := st, openedAt := 45000, windowEnd := 50000, score := 40
    tailDead := [{ sensor := 500, timestamp := 45000 }], headCurrentDrop := [], headLive := []
    groundCurrent := [], arcCount := 0, firstArc := none, lastArc := none, contributors := [500]
    unlisted := false, ring := [], admitted := 1
    finding := if st = .watch then none else some .broken
    isolation := if st = .watch then none else some
      { confirmedAt := 46000, plan := none, step := 0, depth := 0, late := false, isolatedBy := none }
    unreadable := [] }

/-- The blocks with one case in entry 0. -/
def withOne (k : Case) : Core :=
  { core0 with cases := good k :: empties Case 2, counted := [some k.state, none, none], opened := [0] }

/-- The part of a state is changed. -/
def tune (f : Part → Part) (s : State) : State := { s with part := f s.part }

/-- The next state of an outcome. -/
def nextOf (o : Host.Outcome State Fault Refusal) : Option State :=
  match o with
  | .next t => some t
  | .fault _ => none
  | .refused _ => none

/-- What a function sees of the next state of an outcome. -/
def seen {α : Type} (f : State → α) (o : Host.Outcome State Fault Refusal) : Option α := (nextOf o).map f


/-! ### Ill-formed commands are refused, one for each check -/

theorem test_illFormed_edits :
    (wellFormed (.setNoticeMask .a 0 (.ok [1, 256])) || wellFormed (.deleteSegment .a 0 (.ok 256))
      || wellFormed (.deleteDevice .a 0 (.ok 256)) || wellFormed (.deletePlan .a 0 (.ok 256))
      || wellFormed (.unbindSensor .a 0 (.ok 65536)) || wellFormed (.setTime .a 0 (.ok 4294967296))
      || wellFormed (.defineSegment .a 0 (.ok ⟨256, none, abc, none, 0⟩))
      || wellFormed (.defineSegment .a 0 (.ok ⟨0, some 255, abc, none, 0⟩))
      || wellFormed (.defineSegment .a 0 (.ok ⟨0, none, abc, some 255, 0⟩))
      || wellFormed (.defineSegment .a 0 (.ok ⟨0, none, abc, none, 65536⟩))
      || wellFormed (.bindSensor .a 0 (.ok ⟨65536, 0, .head, abc⟩))
      || wellFormed (.bindSensor .a 0 (.ok ⟨1, 256, .head, abc⟩))
      || wellFormed (.defineDevice .a 0 (.ok ⟨256, 1, .tie, 0⟩))
      || wellFormed (.defineDevice .a 0 (.ok ⟨0, 256, .tie, 0⟩))
      || wellFormed (.defineDevice .a 0 (.ok ⟨0, 1, .tie, 256⟩))
      || wellFormed (.definePlan .a 0 (.ok ⟨256, 0, [0], none⟩))
      || wellFormed (.definePlan .a 0 (.ok ⟨0, 256, [0], none⟩))
      || wellFormed (.definePlan .a 0 (.ok ⟨0, 0, [256], none⟩))
      || wellFormed (.definePlan .a 0 (.ok ⟨0, 0, [0], some 255⟩))
      || wellFormed (.definePlan .a 0 (.ok ⟨0, 0, List.replicate 256 0, none⟩))) = false := by decide

theorem test_illFormed_reads :
    (wellFormed (.readSegments .a 0 (.ok ⟨256, 1⟩)) || wellFormed (.readSegments .a 0 (.ok ⟨0, 256⟩))
      || wellFormed (.readRoster .a 0 (.ok ⟨65536, 1⟩)) || wellFormed (.readPlans .a 0 (.ok ⟨256, 1⟩))
      || wellFormed (.readCounters .a 0 (.ok ⟨256, 1⟩)) || wellFormed (.readSetting .a 0 (.ok ⟨65536, 0⟩))
      || wellFormed (.readSetting .a 0 (.ok ⟨0, 65536⟩)) || wellFormed (.readCase .a 0 (.ok ⟨256, 0⟩))
      || wellFormed (.readCase .a 0 (.ok ⟨0, 65536⟩))) = false := by decide

theorem test_illFormed_others :
    (wellFormed (.dismissCase .a 0 (.ok ⟨256, 0⟩)) || wellFormed (.closeCase .a 0 (.ok ⟨256, 0⟩))
      || wellFormed (.isolateCase .a 0 (.ok ⟨256, 0⟩)) || wellFormed (.reserve .a 0 (.ok 256))
      || wellFormed (.release .a 0 (.ok 256)) || wellFormed (.operate .a 0 (.ok ⟨256, .open_⟩))
      || wellFormed (.setHold .a 0 (.ok ⟨256, .work, 0, false⟩))
      || wellFormed (.setHold .a 0 (.ok ⟨0, .work, 65536, false⟩)) || wellFormed (.clearHold .a 0 (.ok 256))
      || wellFormed (.programCounter .a 0 (.ok ⟨256, .none, .all, false⟩))
      || wellFormed (.programCounter .a 0 (.ok ⟨0, .none, .segment 256, false⟩))
      || wellFormed (.programCounter .a 0 (.ok ⟨0, .none, .sensor 65536, false⟩))
      || wellFormed (.programCounter .a 0 (.ok ⟨0, .none, .device 256, false⟩))
      || wellFormed (.clearCounter .a 0 (.ok 256))
      || wellFormed (.writeSetting .a 0 (.ok ⟨65536, 0, 0, 0⟩))
      || wellFormed (.writeSetting .a 0 (.ok ⟨0, 65536, 0, 0⟩))
      || wellFormed (.unknownKindCommand .a 0 0x01) || wellFormed (.unknownKindCommand .a 0 0x80)
      || wellFormed (.nonCommandFrame .a 0x7F) || wellFormed (.portFrameDropped .a [])
      || wellFormed (.silenceExpiry 65536) || wellFormed (.deferredSilenceExpiry 65536)
      || wellFormed (.windowExpiry 32) || wellFormed (.isolationDeadlineReached 32)
      || wellFormed (.heldWindowExpiry 32) || wellFormed (.heldIsolationLateNotice 32)
      || wellFormed (.replyDeadlineExpiry 24) || wellFormed (.settleExpiry 24)
      || wellFormed (.pollDue 24)) = false := by decide

theorem test_wellFormed_boundaries :
    (wellFormed (.unknownKindCommand .a 0 0x06) && wellFormed (.nonCommandFrame .b 0x80)
      && wellFormed (.windowExpiry 31) && wellFormed (.pollDue 23)
      && wellFormed (.defineSegment .a 0 (.ok ⟨255, some 254, abc, none, 65535⟩))
      && wellFormed (.setTime .a 0 (.ok 4294967295)) && wellFormed (.reserve .b 0 .malformed)) = true := by
  decide

/-! ### Operations on fixed values -/

theorem test_frameCheck :
    frameCheck [0x31#8, 0x32#8, 0x33#8, 0x34#8, 0x35#8, 0x36#8, 0x37#8, 0x38#8, 0x39#8] = 0x29B1#16 := by
  decide

/-- The feeder of section 1.9. -/
def feeder : Core :=
  let b : PhaseSet := { a := false, b := true, c := false }
  let seg := fun (p : Option Nat) (ph : PhaseSet) => good ({ parent := p, phases := ph, plan := none, label := 0 } : Segment)
  let sensor := fun (a s : Nat) (e : SensorEnd) (ph : PhaseSet) =>
    good ({ sens with address := a, segment := s, side := e, phases := ph } : Sensor)
  let none_ : Checked Segment := { content := none, check := 0 }
  { core0 with
    plans := empties Plan 2
    segments := [seg none abc, none_, none_, seg (some 0) abc, none_, seg (some 3) abc, none_,
      seg (some 3) b, none_, none_, none_, none_, seg (some 7) b]
    devices := [{ content := none, check := 0 }, good (dev 10 0), good (dev 20 3), { content := none, check := 0 },
      good (dev 40 7)]
    roster := [sensor 1101 3 .head abc, sensor 1201 7 .head b, sensor 1202 7 .tail b, sensor 1301 12 .tail b] }

theorem test_feeder_relations :
    pathOf feeder.segments 12 = [12, 7, 3, 0] ∧ pathDevices feeder 12 = [4, 2, 1]
      ∧ headCoverage feeder 7 .b = [7, 12] ∧ headCoverage feeder 3 .b = [3, 5]
      ∧ isAncestor feeder.segments 3 12 = true ∧ validation feeder = none := by decide

/-- Whether a device masks at a time, by its state, its settle-until time and whether it is reachable. An unreachable
one is shown where R53 and R129 agree. -/
theorem test_deviceMasks :
    (let r := fun st settle => ({ DeviceRun.powerOn with state := st, settleUntil := settle } : DeviceRun)
     deviceMasks 50 (r .open_ none) = true ∧ deviceMasks 50 (r .reclosing none) = true
       ∧ deviceMasks 50 (r .lockedOut none) = true ∧ deviceMasks 50 (r .unknown none) = false
       ∧ deviceMasks 50 (r .closed (some 50)) = false ∧ deviceMasks 50 (r .closed (some 51)) = true)
    ∧ ∀ st ∈ [DeviceState.closed, .unknown],
        deviceMasks 50 { DeviceRun.powerOn with state := st, settleUntil := some 50, reachable := false } = false :=
  ⟨by decide, fun st h => deviceMasks_quiet
    ((by decide : ∀ x ∈ [DeviceState.closed, .unknown], maskingState x = false) st h)
    fun t g => by cases g; decide⟩

theorem test_timesOfDay :
    diffTime 50 86399900 = 150 ∧ addTime 86399999 1 = 0 ∧ moveTime (-1) 0 = 86399999
      ∧ diffTime 43200000 0 = -43200000 := by decide

theorem test_priority :
    select [(true, .inUse), (true, .notPermitted), (false, .malformed), (true, .saveInProgress)]
      = some .notPermitted ∧ ReplyCode.cls .storeFailure = 4 ∧ ReplyCode.sub .storeFailure = 2 := by decide

/-! ### Steps on small states -/

theorem test_step_setMode :
    seen (fun t => (t.part.core.mode, t.part.inService, outgoing t.part.portA))
        (step (conf.front (.setMode .a 7 (.ok .monitoring))))
      = some (.monitoring, true, [{ kind := 0x88, tag := 7, code := .accepted, body := .empty }]) := by
  decide

theorem test_step_emptyValidation :
    seen (fun t => (t.part.core.mode, outgoing t.part.portB))
        (step ((tune (fun p => { p with inForce := ⟨true, { clearOptions with portBControl := true }⟩ })
          State.reset).front (.setMode .b 1 (.ok .monitoring))))
      = some (.configuring,
          [{ kind := 0x88, tag := 1, code := .topologyInvalid, body := .validation 1 .none }]) := by
  decide

/-- A REPORT frame of sensor 500 with a dead tail on phase A. -/
def deadTail : List Byte :=
  frameChars 0x40 0 (leChars 2 500 ++ leChars 2 8 ++ leChars 4 49990 ++ [1, 1] ++ leChars 2 100
    ++ leChars 2 0 ++ leChars 2 0 ++ [0] ++ leChars 2 0)

/-- The state an outcome leaves, or another. -/
def after (o : Host.Outcome State Fault Refusal) (s : State) : State := (nextOf o).getD s

theorem test_report_opens_case :
    (let s1 := after (exec (.reportArrival (clean deadTail)) mon) mon
     let s2 := after (exec .reportTaking s1) s1
     let s3 := after (exec .evidenceItemHandling s2) s2
     (entryAt s3.part.core.cases 0).map fun k => (k.segment, k.phase, k.state, k.score, k.contributors))
      = some (1, .a, .watch, 40, [500]) := by decide

theorem test_thirdFault_halts :
    seen (fun t => (t.part.core.mode, t.part.core.window.length))
        (exec (.readSegments .a 1 (.ok ⟨0, 1⟩)) (on { core0 with window := [1, 2], segments := [bad seg0] }))
      = some (.halted, 3) := by decide

/-! ### The hypotheses of the statements are met -/

/-- The blocks as a frame on a port leaves them. -/
abbrev hc (q : Port) (s : State) : Core := (heard q s).core

theorem witness_StepRunsFrontCommand : (mon.front .powerOn).pending = [Instr.powerOn] := by decide
theorem witness_IdleStepPassesMillisecond : mon.pending = [] := by decide

theorem witness_TakenCommandGetsOneReply :
    sentBy (.reserve .b 3 (.ok 1)) = some ⟨.b, 0x24, 3, false⟩ ∧ Takes .b mon := by decide

/-- A port whose reply queue is full. -/
def fullReplies : PortState :=
  let r : Reply := { kind := 0x81, tag := 0, code := .accepted, body := .empty }
  { PortState.powerOn with ready := List.replicate 7 r, waiting := [⟨.save, 0xB6, 1⟩] }

theorem witness_CommandDiscarded :
    sentBy (.identify .a 3 (.ok ())) = some ⟨.a, 0x01, 3, false⟩
      ∧ (tune (fun p => { p with run := .restartDue }) mon).part.run ≠ .running
      ∧ (tune (fun p => { p with portA := fullReplies }) mon).part.run = .running
      ∧ repliesFull (portOf .a (tune (fun p => { p with portA := fullReplies }) mon).part) = true := by decide

theorem witness_MalformedBodyRefused :
    sentBy (.setTime .a 3 .malformed) = some ⟨.a, 0x14, 3, true⟩ ∧ Takes .a halted := by decide

theorem witness_PriorityRule : select [(true, .outOfRange)] = some .outOfRange := by decide

theorem witness_EndOfEvent :
    (let r : Reply := { kind := 0x81, tag := 0, code := .accepted, body := .empty }
     let n : Notice := .portReset .a 0 0
     let p := PortState.powerOn
     (({ p with ready := [r] } : PortState).tx = none ∧ ({ p with ready := [r] } : PortState).ready = [r])
       ∧ (({ p with notices := [n] } : PortState).ready = [] ∧ ({ p with notices := [n] } : PortState).notices = [n])
       ∧ ({ p with tx := some (.reply r) } : PortState).tx = some (.reply r)) := by decide

theorem witness_NoticeOffered :
    (let n : Notice := .portReset .a 0 0
     let masked := List.replicate 8 ({ mask := true, latch := false, withheld := 255 } : CategoryState)
     PortState.powerOn.categories.length = 8
       ∧ (PortState.powerOn.categories[n.category.code - 1]?.map (·.mask)) = some false
       ∧ PortState.powerOn.notices.length < 32
       ∧ 32 ≤ ({ PortState.powerOn with notices := List.replicate 32 n } : PortState).notices.length
       ∧ n.category ≠ .summary ∧ (masked[n.category.code - 1]?.map (·.mask)) = some true
       ∧ (Notice.summary .case 3).category = .summary) := by decide

/-- Commands at the ends of their ranges, from a port. -/
def commandsFrom (q : Port) : List Instr :=
  [.setMode q 1 (.ok .monitoring), .setTime q 1 (.ok 86399999), .defineSegment q 1 (.ok ⟨95, some 95, abc, some 47, 65535⟩),
   .deleteSegment q 1 (.ok 95), .bindSensor q 1 (.ok ⟨65534, 95, .head, abc⟩), .unbindSensor q 1 (.ok 1),
   .defineDevice q 1 (.ok ⟨23, 254, .tie, 95⟩), .deleteDevice q 1 (.ok 23),
   .definePlan q 1 (.ok ⟨47, 95, [23], some 47⟩), .deletePlan q 1 (.ok 47), .dismissCase q 1 (.ok ⟨0, 1⟩),
   .closeCase q 1 (.ok ⟨0, 1⟩), .isolateCase q 1 (.ok ⟨0, 1⟩), .operate q 1 (.ok ⟨0, .close⟩),
   .writeSetting q 1 (.ok ⟨1, 0, 5, 5⟩), .saveConfiguration q 1 (.ok ()), .stageOptions q 1 (.ok clearOptions),
   .burnOptions q 1 (.ok ())]

/-- Port B may send none of these commands without PORT_B_CONTROL, and Port A may send each. -/
theorem witness_PortAndModeRefusals :
    let s := on (withOne (aCase 1 .watch))
    (∀ c ∈ .readFaultRecord .b 1 (.ok true) :: .restart .b 1 (.ok ()) :: .clearCounter .b 1 (.ok 7) :: commandsFrom .b,
      (∃ x, sentBy c = some x ∧ x.malformed = false ∧ Takes x.port s) ∧ fieldsOk s.part.settings c = true
        ∧ portAllows s.part.inForce.options s.part.settings c = false ∧ itemThere s.part.core c = true)
    ∧ (∀ c ∈ .resetPort .a 1 (.ok ()) :: .readSetting .a 1 (.ok ⟨5, 0⟩) :: .readCounters .b 1 (.ok ⟨0, 16⟩)
          :: .setHold .b 1 (.ok ⟨95, .work, 65535, true⟩) :: .setNoticeMask .a 1 (.ok [1, 8]) :: commandsFrom .a,
      (∃ x, sentBy c = some x ∧ x.malformed = false ∧ Takes x.port halted ∧ x.kind ∉ [0x01, 0x02, 0x04, 0x2C])
        ∧ fieldsOk halted.part.settings c = true ∧ portAllows halted.part.inForce.options halted.part.settings c = true)
    ∧ halted.part.core.mode = .halted ∧ ¬ Healthy halted := by
  refine ⟨fun c h => ⟨?_, ?_⟩, fun c h => ⟨?_, ?_⟩, by decide, by decide⟩
  · revert c; simp only [commandsFrom, List.forall_mem_cons]
    refine ⟨?_, ?_, ?_, ?_, ?_, ?_, ?_, ?_, ?_, ?_, ?_, ?_, ?_, ?_, ?_, ?_, ?_, ?_, ?_, ?_, ?_, by simp⟩ <;>
      exact ⟨_, rfl, rfl, by decide⟩
  · revert c; decide
  · revert c; simp only [commandsFrom, List.forall_mem_cons]
    refine ⟨?_, ?_, ?_, ?_, ?_, ?_, ?_, ?_, ?_, ?_, ?_, ?_, ?_, ?_, ?_, ?_, ?_, ?_, ?_, ?_, ?_, ?_, ?_, by simp⟩ <;>
      exact ⟨_, rfl, rfl, by decide, by decide⟩
  · revert c; decide

/-- A write of AUTHORITY AUTO, which no port may make while AUTO_PERMITTED is clear. -/
def writeAuto : Instr := .writeSetting .a 1 (.ok ⟨2, 0, 1, 1⟩)

theorem witness_PortAndModeRefusals_auto :
    let allowed := tune (fun p => { p with inForce := ⟨true, { clearOptions with autoPermitted := true }⟩ }) halted
    sentBy writeAuto = some ⟨.a, 0x35, 1, false⟩ ∧ Takes .a halted ∧ itemThere halted.part.core writeAuto = true
      ∧ fieldsOk halted.part.settings writeAuto = true
      ∧ portAllows halted.part.inForce.options halted.part.settings writeAuto = false
      ∧ Takes .a allowed ∧ allowed.part.core.mode = .halted
      ∧ portAllows allowed.part.inForce.options allowed.part.settings writeAuto = true := by decide

/-- Commands with a field outside its range. -/
def outOfRangeFrom (q : Port) : List Instr :=
  [.setMode q 1 (.ok .halted), .setTime q 1 (.ok 86400000), .defineSegment q 1 (.ok ⟨95, some 96, abc, none, 0⟩),
   .deleteSegment q 1 (.ok 96), .readSegments q 1 (.ok ⟨0, 65⟩), .bindSensor q 1 (.ok ⟨0, 95, .head, abc⟩),
   .unbindSensor q 1 (.ok 65535), .readRoster q 1 (.ok ⟨1, 0⟩), .defineDevice q 1 (.ok ⟨23, 255, .tie, 95⟩),
   .deleteDevice q 1 (.ok 24), .definePlan q 1 (.ok ⟨47, 95, [24], none⟩), .deletePlan q 1 (.ok 48),
   .readPlans q 1 (.ok ⟨48, 16⟩), .closeCase q 1 (.ok ⟨32, 1⟩), .reserve q 1 (.ok 24),
   .clearHold q 1 (.ok 96), .clearCounter q 1 (.ok 16), .readCounters q 1 (.ok ⟨0, 17⟩),
   .writeSetting q 1 (.ok ⟨1, 0, 1001, 0xFFFF⟩)]

/-- The small part while it saves, with options staged. -/
def inSave (s : State) : State := tune (fun p => { p with save := some Image.empty, staged := some clearOptions }) s

/-- The further refusals of the same statement: by range, by the mode of an edit, a burn and an OPERATE, in recovery
and during a save. -/
theorem witness_PortAndModeRefusals_others :
    let edit : Instr := .deletePlan .a 1 (.ok 47)
    let rec_ := on { core0 with recovery := { Recovery.idle with recovering := true } }
    let allowed := fun (s : State) (c : Instr) => fieldsOk s.part.settings c
      && portAllows s.part.inForce.options s.part.settings c && modeServes s.part.core.mode c
    (∀ c ∈ outOfRangeFrom .a ++ outOfRangeFrom .b,
      (sentBy c).isSome = true ∧ formOk c = true ∧ fieldsOk mon.part.settings c = false)
    ∧ (modeServes .monitoring edit = false ∧ modeServes .monitoring (.burnOptions .a 1 (.ok ())) = false
      ∧ modeServes .configuring (.operate .a 1 (.ok ⟨1, .close⟩)) = false
      ∧ itemThere conf.part.core (.operate .a 1 (.ok ⟨1, .close⟩)) = true)
    ∧ (∀ c ∈ [.listCases .b 1 (.ok ()), .setHold .b 1 (.ok ⟨1, .work, 0, true⟩), .operate .a 1 (.ok ⟨9, .close⟩)],
      allowed rec_ c = true ∧ usesTables c = true ∧ rec_.part.core.recovery.recovering = true)
    ∧ (∀ c ∈ [edit, .writeSetting .a 1 (.ok ⟨1, 0, 5, 5⟩), .saveConfiguration .a 1 (.ok ()), .burnOptions .a 1 (.ok ())],
      allowed (inSave conf) c = true ∧ heldBySave c = true ∧ (inSave conf).part.save.isSome = true)
    ∧ ((inSave conf).part.core.recovery.recovering = false ∧ (inSave conf).part.options.burned = false
      ∧ (inSave conf).part.burning = false ∧ (inSave conf).part.staged.isSome = true
      ∧ Takes .a (inSave conf) ∧ Takes .b rec_ ∧ Takes .a mon) := by decide

/-- The invariants at reset, where they hold of the state the other witnesses start from. -/
theorem witness_invariants :
    PinAgrees State.reset ∧ TimeBounded State.reset ∧ WindowBounded State.reset ∧ QueuesBounded State.reset
      ∧ CountersBounded State.reset ∧ PortsBounded State.reset ∧ (nextOf (step State.reset)).isSome = true := by
  refine ⟨⟨fun h => absurd h (by decide), fun h => absurd h.1 (by decide)⟩, ⟨by decide, by decide⟩, ⟨by decide, by decide, by decide⟩,
    ⟨by decide, by decide, by decide, by decide⟩, ⟨by decide, ?_⟩, ⟨?_, ?_⟩, by decide⟩
  · decide
  · exact ⟨by decide, by decide, by decide, by decide, by decide, by decide⟩
  · exact ⟨by decide, by decide, by decide, by decide, by decide, by decide⟩

theorem witness_SettingsStayInRange : SettingsHeld State.reset := by
  have h : SettingsOk Settings.default := ⟨fun i => by cases i <;> decide, by decide⟩
  exact ⟨h, h, fun img e => by cases e⟩

theorem witness_SequenceNewer : (65535 : Nat) < 65536 ∧ ({ sens with lastSequence := none } : Sensor).lastSequence = none := by
  decide

theorem witness_FrameReadBack :
    phasesOfCode 8 = none ∧ phasesOfCode 7 = some abc ∧ 255 < 256 ∧ (List.replicate 480 (0 : Byte)).length ≤ 480 ∧ phasesNonempty { abc with a := false } = true
      ∧ DeviceState.lockedOut ≠ .unknown := by decide

/-- A case in WATCH whose lists meet the BROKEN condition and the DOWNED one, or neither. -/
def signs (broken downed : Bool) : Case :=
  { aCase 1 .watch with
    headCurrentDrop := if broken then [{ sensor := 501, timestamp := 45250 }] else []
    headLive := [{ sensor := 501, timestamp := 45250 }]
    groundCurrent := [{ sensor := 501, timestamp := 45250 }]
    arcCount := if downed then 6 else 5
    firstArc := some 86399500, lastArc := some 500, contributors := [500, 501] }

theorem witness_ConfirmationTest :
    (let s := Settings.default
     (signs true true).state = .watch ∧ (signs true true).unreadable = []
       ∧ (isBroken s .locked (signs true true), isDowned s (signs true true)) = (true, true)
       ∧ (isBroken s .locked (signs true false), isDowned s (signs true false)) = (true, false)
       ∧ (isBroken s .locked (signs false true), isDowned s (signs false true)) = (false, true)
       ∧ (isBroken s .free (signs true false), isDowned s (signs true false)) = (false, false)) := by decide

/-- A counter of the cases opened on a segment, about to wrap. -/
def full (sel : EventSelect) : Counter :=
  { select := sel, scope := .segment 1, value := 4294967295, overflow := false, notify := true }

/-- An occurrence on segment 1. -/
def seenOn1 (sel : EventSelect) : Occurrence :=
  { select := sel, amount := 1, segment := some 1, sensor := none, device := none }

theorem witness_OccurrenceAddsToMatchingCounters :
    (let c := full .casesOpened
     follows c (seenOn1 .casesOpened) = true ∧ [c][0]? = some c
       ∧ follows { c with scope := .segment 2 } (seenOn1 .casesOpened) = false
       ∧ (∃ x ∈ [(Dest.both, Notice.portReset .a 0 0)], ∀ q, wrapOf q x = none)) := by
  exact ⟨by decide, by decide, by decide, _, List.mem_cons_self, fun _ => rfl⟩

/-- Two occurrences wrap counters 1 and 0 in turn, with another notice between them: the two COUNTER notices
ascend among their places, and the other keeps its own. -/
theorem test_counterNotices_inPlace :
    (let n : Notice := .portReset .a 0 0
     (inOrder (emissions 5 [.count (seenOn1 .casesOpened), .tell .both n, .count (seenOn1 .casesConfirmed)]
         [full .casesConfirmed, full .casesOpened]).2).map fun x => (wrapOf .a x, decide (x = (.both, n))))
      = [(some 0, false), (none, true), (some 1, false)] := by decide

theorem witness_ServedInEveryMode : Takes .a halted ∧ Takes .b mon := by decide

/-- A port whose categories are all masked and latched. -/
def masked : State :=
  tune (fun p => { p with portA := { p.portA with
    categories := List.replicate 8 { mask := true, latch := true, withheld := 3 } } }) mon

theorem witness_PortNoticeCommands :
    Takes .a masked ∧ masked.part.core.mode ≠ .halted ∧ (∀ n ∈ [1, 8], 1 ≤ n ∧ n ≤ 8)
      ∧ ((portOf .a (heard .a masked)).categories[1]?.map fun x => (x.mask, x.latch)) = some (true, true)
      ∧ maskable 2 = some .device ∧ 2 ∉ [1, 8]
      ∧ (portOf .a (heard .a masked)).notices.length + 8 ≤ 32
      ∧ ∀ x ∈ (portOf .a (heard .a mon)).categories, x.mask = true → x.latch = false := by decide

/-- Latched categories that are unmasked have their SUMMARY notices in ascending order. -/
theorem test_summaries_ascend :
    seen (fun t => (noticeStream t.part.portA).map (·.category)) (exec (.setNoticeMask .a 3 (.ok [2])) masked)
      = some (List.replicate 7 .summary)
    ∧ (seen (fun t => noticeStream t.part.portA) (exec (.setNoticeMask .a 3 (.ok [2])) masked)).map
        (fun l => l.take 2) = some ((([1, 3].filterMap maskable)).map fun c => Notice.summary c 3) := by decide

/-- A port that sends its RESTART reply, and one that sends a notice. -/
def restarting (run : RunState) (f : PortFrame) : State :=
  tune (fun p => { p with run := run, portA := { p.portA with tx := some f } }) mon

theorem witness_RestartSequence :
    (let r : Reply := { kind := 0x84, tag := 7, code := .accepted, body := .empty }
     Takes .a mon ∧ (portOf .a mon.part).tx = none
       ∧ (portOf .a (restarting .restartTaken (.reply r)).part).tx = some (.reply r)
       ∧ (restarting .restartTaken (.reply r)).part.run = .restartTaken ∧ r.kind = 0x84 ∧ r.code = .accepted
       ∧ (restarting .running (.reply r)).part.run ≠ .restartTaken
       ∧ (restarting .restartDue (.reply r)).part.run = .restartDue
       ∧ (restarting .restartDue (.reply r)).part.burning = false
       ∧ (restarting .restartDue (.reply r)).part.save = none ∧ mon.part.run ≠ .restartDue
       ∧ (tune (fun p => { p with burning := true }) (restarting .restartDue (.reply r))).part.burning = true
       ∧ (tune (fun p => { p with save := some Image.empty }) (restarting .restartDue (.reply r))).part.save.isSome
           = true) := by decide

/-- A part held in reset, with a store that is valid or not, and QUIET_START set or not. -/
def held (valid quiet : Bool) : State :=
  tune (fun p => { p with
    run := .resetAsserted
    options := ⟨true, { clearOptions with quietStart := quiet }⟩
    store := ⟨{ Image.empty with segments := [some seg0], devices := [some ⟨1, .sectionalizing, 0⟩] }, true, valid⟩ })
    mon

/-- Start-up in MONITORING polls the loaded device in the event of its end. -/
theorem test_startUp_polls :
    seen (fun t => (t.part.core.mode, t.part.core.orders.map (·.device), t.part.core.orders.map (·.state)))
        (exec .startUp (held true false))
      = some (.monitoring, [0], [.sent]) := by decide

theorem witness_PowerOnAndStartUp :
    (held true true).part.run = .resetAsserted ∧ (held true true).part.burning = false
      ∧ (held true true).part.save = none ∧ ((held true false).part.store.valid && (held true false).part.store.codeMatches) = true
      ∧ (held true true).part.options.options.quietStart = true
      ∧ (held true false).part.options.options.quietStart = false
      ∧ ((held false false).part.store.valid && (held false false).part.store.codeMatches) = false
      ∧ mon.part.run ≠ .resetAsserted ∧ (portOf .a mon.part).waiting = [] ∧ (portOf .b mon.part).waiting = [] := by
  decide

/-- A start-up that waits, with a burn or a save in progress. -/
def startWaits (op : StartWait) (burn : Bool) (save : Option Image) : State :=
  tune (fun p => { p with run := .startingUp op, burning := burn, save := save }) (held true false)

theorem witness_PowerOnAndStartUp_waits :
    (startWaits .burn true none).part.burning = true ∧ (startWaits .burn true none).part.save = none
      ∧ (startWaits .burn true none).part.run = .startingUp .burn
      ∧ (startWaits .burn true (some Image.empty)).part.save = some Image.empty
      ∧ (startWaits .save false (some Image.empty)).part.run = .startingUp .save
      ∧ (startWaits .save false (some Image.empty)).part.burning = false := by decide

/-- A restart with a burn in progress waits in start-up; the burn's completion brings its options into force, and
the part runs. -/
theorem test_restart_waitsForBurn :
    let due := tune (fun p => { p with
      burning := true, staged := some { clearOptions with quietStart := true } }) (restarting .restartDue
        (.notice (.portReset .a 0 0) 0 false))
    let waits := after (exec .restartBegin due) due
    waits.part.run = .startingUp .burn
      ∧ seen (fun t => (t.part.run, t.part.inForce.options.quietStart, t.part.core.mode))
          (exec (.burnCompletion true) waits) = some (.running, true, .configuring) := by decide

theorem witness_SetModeMonitoring :
    (Takes .a conf ∧ Controls .a conf ∧ conf.part.core.recovery.recovering = false
      ∧ (hc .a conf).mode = .configuring ∧ validation (hc .a conf) = none
      ∧ validation (hc .a State.reset) = some (1, .none) ∧ check1 (hc .a State.reset) = some .none
      ∧ entryAt (hc .a conf).plans 0 = some plan0 ∧ (hc .a conf).orders = []
      ∧ (hc .a (on { core0 with mode := .configuring, linkTx := some [1] })).linkTx.isSome = true)
    ∧ Sound (hc .a conf).segments ∧ Sound (hc .a conf).roster ∧ Sound (hc .a conf).devices
    ∧ Sound (hc .a conf).plans :=
  ⟨by decide, sound_of _ (by decide), sound_of _ (by decide), sound_of _ (by decide), sound_of _ (by decide)⟩

/-- A POLL order still QUEUED for device 0, and a MANUAL CLOSE of Port B for it in a state. -/
def pollOrder : Order :=
  { number := 3, device := 0, action := .query, cls := .poll, origin := .none, state := .queued
    resend := false, sends := none, deadline := none, left := true }
def closeOrder (st : OrderState) : Order :=
  { pollOrder with action := .close, cls := .manual, origin := .port .b 7, state := st, left := false }

/-- The small part with one case, and one order. -/
def ordering (o : Order) (c : Core) : State := on { c with orders := [o] }

theorem witness_SetModeConfiguring :
    (let c := hc .a (ordering pollOrder { core0 with devices := [bad (dev 1 0)], window := [1] })
     0 ∈ queuedPolls c ∧ badAt c.devices 0 = true ∧ c.window.length < 2
       ∧ 2 ≤ ({ c with window := [1, 2] } : Core).window.length)
    ∧ (∀ s ∈ [mon, ordering pollOrder (withOne (aCase 1 .watch)), on (withOne (aCase 1 .confirmed))],
      Takes .a s ∧ Controls .a s ∧ s.part.core.recovery.recovering = false ∧ s.part.core.mode = .monitoring)
    ∧ (∀ o ∈ (hc .a mon).orders, o.cls = .poll → o.state = .sent)
    ∧ (let c := hc .a (ordering pollOrder (withOne (aCase 1 .watch)))
       queuedPolls c = [0] ∧ orderOf c 0 = some pollOrder ∧ pollOrder.cls = .poll ∧ pollOrder.state = .queued
         ∧ entryAt c.devices 0 = some (dev 1 0) ∧ badAt c.devices 0 = false ∧ c.walks = [] ∧ c.room = [])
    ∧ Sound (hc .a (on (withOne (aCase 1 .watch)))).cases
    ∧ (∃ n k, entryAt (hc .a (on (withOne (aCase 1 .confirmed)))).cases n = some k
        ∧ (k.state = .confirmed ∨ k.state = .isolating))
    ∧ ∀ n k, entryAt (hc .a (on (withOne (aCase 1 .watch)))).cases n = some k →
        (k.state ≠ .confirmed ∧ k.state ≠ .isolating) ∧ k.unreadable = [] :=
  ⟨by decide, by decide, by decide, by decide, sound_of _ (by decide), ⟨0, _, rfl, Or.inl rfl⟩,
    fun n k h => by
      have := entryAt_all (f := fun k => k.state == .watch && k.unreadable.isEmpty) (by decide) n k h
      have e : k.state = .watch ∧ k.unreadable = [] := by simpa using this
      rw [e.1]; exact ⟨by decide, e.2⟩⟩

/-- The small part in CONFIGURING with a WATCH case on segment 1. -/
def confWith : State := on { withOne (aCase 1 .watch) with mode := .configuring }

theorem witness_SegmentAndPlanEdits :
    (MayEdit .a conf ∧ NoCloses (hc .a conf) ∧ MayEdit .a confWith ∧ NoCloses (hc .a confWith)
      ∧ (entryAt (hc .a confWith).segments 1).isSome = true
      ∧ phaseIn .a { abc with a := false } = false ∧ phasesNonempty { abc with a := false } = true
      ∧ entryAt (hc .a conf).segments 95 = none ∧ (hc .a conf).holds[1]? = some none
      ∧ entryAt (hc .a conf).plans 47 = none ∧ (entryAt (hc .a conf).plans 0).isSome = true
      ∧ planHeld (hc .a conf) 0 = false ∧ (hc .a conf).stepsInUse - plan0.steps.length + 8 ≤ 192
      ∧ entryAt (hc .a conf).plans 0 = some plan0
      ∧ planHeld { withOne { aCase 1 .isolating with isolation := some ⟨0, some 0, 0, 0, false, none⟩ } with
          walks := [⟨0, 1, .main, .awaiting 1⟩] } 0 = true
      ∧ 192 < ({ core0 with stepsInUse := 192 } : Core).stepsInUse - plan0.steps.length + 8)
    ∧ Sound (hc .a conf).segments ∧ Sound (hc .a conf).cases ∧ Sound (hc .a conf).plans
    ∧ (∃ n k, entryAt (hc .a confWith).cases n = some k ∧ k.segment = 1
        ∧ phaseIn k.phase { abc with a := false } = false)
    ∧ ¬ (∃ m k, entryAt (hc .a conf).cases m = some k ∧ k.segment = 1) :=
  ⟨by decide, sound_of _ (by decide), sound_of _ (by decide), sound_of _ (by decide), ⟨0, _, rfl, rfl, rfl⟩,
    by rintro ⟨m, k, h, _⟩; rw [entryAt_none (by decide) m] at h; cases h⟩

/-- The small part in CONFIGURING with a CLOSE order for device 0, its segment 1 not yet below the device, and a
WORK hold or a BLOCKED case there. -/
def closing (st : OrderState) (c : Core) : State :=
  ordering (closeOrder st)
    { c with mode := .configuring, segments := [good seg0, good { seg1 with parent := none }] }

theorem witness_SegmentAndPlanEdits_closes :
    (let worked : Core := { core0 with holds := [none, some ⟨.work, .a, 0⟩, none] }
     let edited := [good seg0, good seg1]
     (∀ st ∈ [OrderState.queued, .sent], ∀ c ∈ [worked, withOne (aCase 1 .blocked)],
       let s := closing st c
       MayEdit .a s ∧ (hc .a s).orders = [closeOrder st] ∧ (closeOrder st).origin = .port .b 7
         ∧ entryAt (hc .a s).devices 0 = some (dev 1 0) ∧ badAt (hc .a s).devices 0 = false
         ∧ (hc .a s).walks = [] ∧ (hc .a s).room = [])
       ∧ barredByHold edited worked.holds (dev 1 0) = true
       ∧ barredByHold (hc .a (closing .sent worked)).segments worked.holds (dev 1 0) = false
       ∧ barredByCase (hc .a (closing .queued (withOne (aCase 1 .blocked)))) edited (dev 1 0) = true
       ∧ barredByHold (putAt [good seg0, good seg1] 1 none) worked.holds (dev 1 0) = false)
    ∧ Sound (hc .a (closing .sent core0)).segments ∧ Sound (hc .a (closing .sent core0)).cases :=
  ⟨by decide, sound_of _ (by decide), sound_of _ (by decide)⟩

theorem witness_SensorBindings :
    (MayEdit .a conf ∧ freePlace (hc .a conf) = some 1 ∧ (boundAt (hc .a conf) 0 .tail).length < 3
      ∧ sensorPlace (hc .a conf) 500 = some 0 ∧ sensorPlace (hc .a conf) 65534 = none
      ∧ freePlace { core0 with roster := [good sens] } = none)
    ∧ Sound (hc .a conf).roster
    ∧ (∃ n v, entryAt (hc .a conf).roster n = some v ∧ v.address = 500)
    ∧ ¬ (∃ n v, entryAt (hc .a conf).roster n = some v ∧ v.address = 65534)
    ∧ ¬ (∃ n v, entryAt (hc .a conf).roster n = some v ∧ v.segment = 0 ∧ v.side = .tail
        ∧ phasesMeet v.phases abc = true) :=
  ⟨by decide, sound_of _ (by decide), ⟨0, _, rfl, rfl⟩,
    by
      rintro ⟨n, v, h, e⟩
      have := entryAt_all (f := fun v => v.address == 500) (by decide) n v h
      rw [e] at this; revert this; decide,
    by
      rintro ⟨n, v, h, e, _⟩
      have := entryAt_all (f := fun v => v.segment == 1) (by decide) n v h
      rw [e] at this; revert this; decide⟩

theorem witness_DeviceDefinitions :
    (MayEdit .a conf ∧ orderOf (hc .a conf) 0 = none ∧ isReserved (hc .a conf) 0 = false
      ∧ isReserved (hc .a conf) 1 = true ∧ (entryAt (hc .a conf).devices 0).isSome = true
      ∧ entryAt (hc .a conf).devices 23 = none)
    ∧ Sound (hc .a conf).devices
    ∧ (∃ n v, entryAt (hc .a conf).devices n = some v ∧ v.link = 2 ∧ n ≠ 0)
    ∧ ¬ (∃ n v, entryAt (hc .a conf).devices n = some v ∧ v.link = 254 ∧ n ≠ 0)
    ∧ (∃ v, entryAt (hc .a conf).devices 0 = some v ∧ v.link = 1)
    ∧ ∀ v, entryAt (hc .a conf).devices 0 = some v → v.link ≠ 254 :=
  ⟨by decide, sound_of _ (by decide), ⟨1, _, rfl, rfl, by decide⟩,
    by
      rintro ⟨n, v, h, e, _⟩
      have := entryAt_all (f := fun v => v.link != 254) (by decide) n v h
      rw [e] at this; revert this; decide,
    ⟨_, rfl, rfl⟩, fun v h => by cases h; decide⟩

theorem witness_TableReads :
    (Takes .a (on (withOne (aCase 1 .confirmed))) ∧ Healthy (on (withOne (aCase 1 .confirmed)))
      ∧ (entryAt (hc .a (on (withOne (aCase 1 .confirmed)))).cases 0).map (·.serial) = some 1
      ∧ 95 < 96 ∧ 65534 ≤ 65534 ∧ 47 < 48)
    ∧ AllSound (hc .a (on (withOne (aCase 1 .confirmed))))
    ∧ ∀ k, entryAt (hc .a (on (withOne (aCase 1 .confirmed)))).cases 31 = some k → k.serial ≠ 1 :=
  ⟨by decide, allSound_of _ (by decide), fun k h => by cases h⟩

theorem witness_ReadsServedInRecovery :
    (let b := tune (fun p => { p with inForce := ⟨true, { clearOptions with bReadCountersOnly := true }⟩ }) mon
     Takes .b mon ∧ mon.part.core.mode ≠ .halted ∧ settingId 1 14 = some .weightTailRestored
       ∧ settingId 6 0 = none ∧ 15 < 16 ∧ (heard .b mon).inForce.options.bReadCountersOnly = false
       ∧ Takes .b b ∧ (heard .b b).inForce.options.bReadCountersOnly = true ∧ 7 < 8) := by decide

theorem witness_ReadTimeReply :
    Takes .b mon ∧ (hc .b mon).mode ≠ .halted ∧ (hc .b mon).time.lastPulse = some 60000
      ∧ (hc .b State.reset).time.lastPulse = none ∧ (hc .b halted).mode = .halted := by decide

theorem witness_SetTimeMovesTimes :
    Takes .a mon ∧ Controls .a mon ∧ mon.part.core.mode ≠ .halted ∧ 86399999 < 86400000
      ∧ 86400000 ≤ 86400000 ∧ (hc .a mon).time.lock = .locked ∧ (hc .a State.reset).time.lock ≠ .locked := by
  decide

theorem witness_DismissAndCloseCase :
    (let st := fun k => on (withOne (aCase 1 k))
     (∀ k ∈ [CaseState.watch, .confirmed, .isolating, .isolated, .blocked],
       Takes .a (st k) ∧ Healthy (st k) ∧ Controls .a (st k) ∧ badAt (hc .a (st k)).cases 0 = false
         ∧ entryAt (hc .a (st k)).cases 0 = some (aCase 1 k) ∧ (aCase 1 k).serial = 1
         ∧ (aCase 1 k).unreadable = [])
       ∧ entryAt (hc .a (st .watch)).cases 2 = none) := by decide

/-- The small part with a CONFIRMED case on a segment, and the device link busy. -/
def confirmedOn (seg : Nat) : State := on { withOne (aCase seg .confirmed) with linkTx := some [1] }

theorem witness_IsolateCaseStarts :
    (∀ n ∈ [0, 1],
      Takes .a (confirmedOn n) ∧ Healthy (confirmedOn n) ∧ Controls .a (confirmedOn n)
        ∧ NoCloses (hc .a (confirmedOn n)) ∧ entryAt (hc .a (confirmedOn n)).cases 0 = some (aCase n .confirmed)
        ∧ (aCase n .confirmed).isolation.isSome = true ∧ (aCase n .confirmed).unreadable = [])
    ∧ (entryAt (hc .a (confirmedOn 0)).segments 0 = some seg0 ∧ seg0.plan = none
      ∧ entryAt (hc .a (confirmedOn 1)).segments 1 = some seg1 ∧ seg1.plan = some 0
      ∧ entryAt (hc .a (confirmedOn 1)).plans 0 = some plan0 ∧ plan0.steps = [1]
      ∧ entryAt (hc .a (confirmedOn 1)).devices 1 = some (dev 2 1) ∧ standsOpen (dev 2 1).run.state = false
      ∧ (hc .a (confirmedOn 1)).orders = [] ∧ (hc .a (confirmedOn 1)).linkTx.isSome = true
      ∧ (aCase 1 .blocked).state ≠ .confirmed)
    ∧ AllSound (hc .a (confirmedOn 0)) ∧ AllSound (hc .a (confirmedOn 1)) :=
  ⟨by decide, by decide, allSound_of _ (by decide), allSound_of _ (by decide)⟩

/-- A WATCH case, which has no record, and an entry that holds no case. -/
theorem witness_IsolateCaseStarts_refused :
    (let s := on (withOne (aCase 1 .watch))
     Takes .a s ∧ Healthy s ∧ Controls .a s ∧ badAt (hc .a s).cases 0 = false ∧ badAt (hc .a s).cases 31 = false
       ∧ entryAt (hc .a s).cases 0 = some (aCase 1 .watch) ∧ (aCase 1 .watch).serial = 1
       ∧ (aCase 1 .watch).state ≠ .confirmed ∧ (aCase 1 .watch).isolation = none
       ∧ entryAt (hc .a s).cases 31 = none) := by decide

/-- A case that isolates by plan 0, at its first step and in a walk's phase; the plan has a second step, and a
fallback where one is given. -/
def walking (phase : WalkPhase) (fallback : Option Nat) (cond : StepCondition) : Core :=
  { withOne { aCase 1 .isolating with isolation := some ⟨46000, some 0, 0, 0, false, none⟩ } with
    plans := [good { plan0 with steps := [1, 0], fallback := fallback }, good plan0]
    walks := [⟨0, 1, phase, cond⟩], linkTx := some [1] }

theorem walking_at (phase : WalkPhase) (fallback : Option Nat) (cond : StepCondition) :
    AtStep 0 ⟨0, 1, phase, cond⟩
      { aCase 1 .isolating with isolation := some ⟨46000, some 0, 0, 0, false, none⟩ }
      ⟨46000, some 0, 0, 0, false, none⟩ { plan0 with steps := [1, 0], fallback := fallback } 1
      (startEvent (walking phase fallback cond)) :=
  ⟨(fun h => by cases h), rfl, rfl, rfl, rfl, rfl, rfl, ⟨0, rfl, rfl, rfl⟩, rfl⟩

/-- What a step finds at its device: open or not, undefined, without an order, or with one of another class. -/
theorem witness_IsolateCaseStarts_walk :
    (let c := walking .main (some 1) (.room none)
     let o := closeOrder .queued
     badAt c.devices 1 = false ∧ entryAt c.devices 1 = some (dev 2 1) ∧ entryAt c.devices 2 = none
       ∧ standsOpen DeviceState.lockedOut = true ∧ standsOpen (dev 2 1).run.state = false
       ∧ orderOf c 1 = none ∧ c.orders.length < 16 ∧ c.recovery.recovering = false ∧ c.linkTx.isSome = true
       ∧ orderOf { c with orders := [{ o with device := 1 }] } 1 = some { o with device := 1 }
       ∧ (o.state = .queued ∧ o.cls ≠ .isolation) ∧ ¬ ((closeOrder .sent).state = .queued)
       ∧ deviceOpen c 1 = false
       ∧ deviceOpen { c with devices := [good (dev 1 0), good { dev 2 1 with run :=
           { (dev 2 1).run with state := .open_ } }] } 1 = true
       ∧ walkOf (walking .main none (.awaiting 1)) 0 = some ⟨0, 1, .main, .awaiting 1⟩
       ∧ walkOf (walking .remainder none (.room (some 1))) 0 = some ⟨0, 1, .remainder, .room (some 1)⟩
       ∧ walkOf (walking .main none (.ordered 3 1)) 0 = some ⟨0, 1, .main, .ordered 3 1⟩
       ∧ (startEvent { c with room := [0, 2] }).room = [0, 2] ∧ 2 ∈ [0, 2] ∧ 1 ∉ [0, 2] ∧ 31 < 32) := by
  decide

theorem witness_IsolateCaseStarts_closes :
    (let e := startEvent { withOne (aCase 1 .confirmed) with orders := [closeOrder .queued] }
     e.mode ≠ .halted ∧ e.recovery.recovering = false ∧ entryAt e.cases 0 = some (aCase 1 .confirmed)
       ∧ (aCase 1 .confirmed).isolation.isSome = true ∧ e.orders = [closeOrder .queued]
       ∧ entryAt e.devices 0 = some (dev 1 0) ∧ barredBy e.segments (dev 1 0) 1 = true
       ∧ barredBy e.segments (dev 2 1) 0 = false)
    ∧ AllSound (startEvent { withOne (aCase 1 .confirmed) with orders := [closeOrder .queued] }).toCore :=
  ⟨by decide, allSound_of _ (by decide)⟩

theorem witness_ReserveAndRelease :
    Takes .a mon ∧ Healthy mon ∧ badAt (hc .a mon).devices 0 = false ∧ badAt (hc .a mon).devices 1 = false
      ∧ (entryAt (hc .a mon).devices 0).isSome = true ∧ (entryAt (hc .a mon).devices 1).isSome = true
      ∧ reservationOf (hc .a mon) 0 = none ∧ reservationOf (hc .a mon) 1 = some (otherPort .a)
      ∧ reservationOf (hc .b mon) 1 = some .b := by decide

/-- The small part with device 0 reserved by Port A, and the device link busy or free. -/
def reserved (link : Option (List Byte)) (c : Core) : State :=
  on { c with linkTx := link, reservations := [some .a, some .b, none] }

theorem witness_OperateQueuesOrder :
    (∀ s ∈ [reserved (some []) core0, reserved none core0,
        reserved none { core0 with holds := [none, some ⟨.work, .b, 5⟩] },
        reserved none (withOne (aCase 1 .isolated))],
      Takes .a s ∧ Healthy s ∧ Controls .a s ∧ s.part.core.mode = .monitoring
        ∧ entryAt (hc .a s).devices 0 = some (dev 1 0) ∧ badAt (hc .a s).devices 0 = false
        ∧ reservationOf (hc .a s) 0 = some .a ∧ orderOf (hc .a s) 0 = none ∧ (hc .a s).orders.length < 16
        ∧ firstBad (hc .a s) (barReads (hc .a s) (dev 1 0)) = none)
    ∧ (let c := hc .a (reserved none core0)
       barredByHold c.segments c.holds (dev 1 0) = false ∧ barredByCase c c.segments (dev 1 0) = false
         ∧ c.linkTx = none ∧ c.orders = [])
    ∧ (hc .a (reserved (some []) core0)).linkTx.isSome = true
    ∧ (let c := hc .a (reserved none { core0 with holds := [none, some ⟨.work, .b, 5⟩] })
       barredByHold c.segments c.holds (dev 1 0) = true)
    ∧ (let c := hc .a (reserved none (withOne (aCase 1 .isolated)))
       barredByHold c.segments c.holds (dev 1 0) = false ∧ barredByCase c c.segments (dev 1 0) = true) := by
  decide

/-- The bars of section 7.5, a device whose own segment is undefined, a path that an undefined parent ends, and one of
seventeen segments, which ends at its sixteenth. -/
theorem witness_OperateQueuesOrder_bars :
    (let barring := fun v => (List.range 13).filter (barredBy feeder.segments v)
     let tie : Device := { dev 90 12 with kind := .tie }
     barring (dev 20 3) = [3, 5, 7, 12] ∧ barring (dev 40 7) = [7, 12] ∧ barring tie = [0, 3, 7, 12]
       ∧ barring { tie with segment := 3 } = [0, 3, 5, 7, 12] ∧ barring (dev 50 4) = []
       ∧ inDownstream feeder.segments (dev 40 7) 12 = true ∧ inDownstream feeder.segments tie 12 = false
       ∧ isAncestor feeder.segments 12 12 = false ∧ (pathOf feeder.segments 12).Nodup)
    ∧ (let cut := [good { seg0 with parent := some 2 }, good seg1, { content := none, check := 0 }]
       pathOf cut 1 = [1, 0] ∧ pathOf cut 2 = [2])
    ∧ (let long := good seg0 :: (List.range 16).map fun n => good { seg0 with parent := some n }
       (pathOf long 16)[15]? = some 1 ∧ (pathOf long 16)[16]? = none ∧ (entryAt long 0).isSome = true)
    ∧ (let c := { withOne (aCase 1 .blocked) with holds := [some ⟨.mute, .a, 1⟩, some ⟨.work, .b, 5⟩] }
       barredByHold c.segments c.holds (dev 2 1) = true ∧ barredByHold c.segments [c.holds[0]] (dev 1 0) = false
         ∧ barredByCase c c.segments (dev 1 0) = true
         ∧ barredByCase (withOne (aCase 1 .confirmed)) c.segments (dev 1 0) = false)
    ∧ closesBarredBy { core0 with orders := [closeOrder .queued] } .queued 1 = [0]
    ∧ closesBarredBy { core0 with orders := [closeOrder .queued] } .sent 1 = [] := by decide

/-- The small part with a hold of each port. -/
def holds : State := on { core0 with holds := [none, some ⟨.mute, .b, 4⟩, some ⟨.work, .a, 4⟩] }

theorem witness_HoldsSetAndCleared :
    (Takes .a mon ∧ Healthy mon ∧ NoCloses (hc .a mon) ∧ (entryAt (hc .a mon).segments 1).isSome = true
      ∧ holdOf (hc .a mon) 1 = none ∧ holdOf (hc .a mon) 95 = none
      ∧ Takes .a holds ∧ Healthy holds ∧ NoCloses (hc .a holds)
      ∧ holdOf (hc .a holds) 1 = some ⟨.mute, .b, 4⟩ ∧ holdOf (hc .a holds) 2 = some ⟨.work, .a, 4⟩)
    ∧ Sound (hc .a mon).segments ∧ Sound (hc .a mon).cases
    ∧ (∀ n k, entryAt (hc .a mon).cases n = some k → k.segment = 1 → k.state ≠ .watch)
    ∧ (∃ n k, entryAt (hc .a (on (withOne (aCase 1 .watch)))).cases n = some k ∧ k.segment = 1
        ∧ k.state = .watch) :=
  ⟨by decide, sound_of _ (by decide), sound_of _ (by decide),
    fun n k h => by (rw [entryAt_none (by decide) n] at h; cases h), ⟨0, _, rfl, rfl, rfl⟩⟩

theorem witness_HoldsSetAndCleared_closes :
    (∀ st ∈ [OrderState.queued, .sent],
      let s := ordering (closeOrder st) core0
      Takes .a s ∧ Healthy s ∧ (entryAt (hc .a s).segments 1).isSome = true ∧ holdOf (hc .a s) 1 = none
        ∧ entryAt (hc .a s).devices 0 = some (dev 1 0) ∧ barredBy (hc .a s).segments (dev 1 0) 1 = true
        ∧ (hc .a s).walks = [] ∧ (hc .a s).room = [])
    ∧ 0 ∈ closesBarredBy (hc .a (ordering (closeOrder .sent) core0)) .sent 1
    ∧ (∀ m ∈ closesBarredBy (hc .a (ordering (closeOrder .sent) core0)) .sent 1, 0 ≤ m)
    ∧ Sound (hc .a (ordering (closeOrder .sent) core0)).segments
    ∧ Sound (hc .a (ordering (closeOrder .sent) core0)).cases
    ∧ Sound (hc .a (ordering (closeOrder .sent) core0)).devices
    ∧ NoPolls (hc .a (ordering (closeOrder .queued) core0)) :=
  ⟨by decide, by decide, by decide, sound_of _ (by decide), sound_of _ (by decide), sound_of _ (by decide),
    noPolls_of _ (by decide) (by decide)⟩

theorem witness_CounterCommands :
    Takes .b mon ∧ mon.part.core.mode ≠ .halted ∧ scopeInRange (.sensor 65534) = true
      ∧ scopeAllowed .reportsTaken (.sensor 65534) = true ∧ (heard .b mon).counters[15]? = some Counter.clear
      ∧ (heard .b mon).counters[8]? = some Counter.clear ∧ (heard .b mon).counters[7]? = some Counter.clear
      ∧ scopeAllowed .reportsTaken (.device 1) = false := by decide

/-- A part with AUTO permitted, under ADVISE, and cases whose writes of settings have effects. -/
def autoPermitted (c : Core) : State :=
  tune (fun p => { p with inForce := ⟨true, { clearOptions with autoPermitted := true }⟩ }) (on c)

theorem witness_WriteSetting_effects :
    (let a := autoPermitted (withOne (aCase 0 .confirmed))
     Takes .a a ∧ Healthy a ∧ a.part.save = none ∧ SettingId.get .authority a.part.settings = 0
       ∧ NoCloses (hc .a a) ∧ confirmedCases (hc .a a) = [0] ∧ confirmedCases (hc .a mon) = []
       ∧ entryAt (hc .a a).cases 0 = some (aCase 0 .confirmed)
       ∧ (aCase 0 .confirmed).isolation.isSome = true ∧ entryAt (hc .a a).segments 0 = some seg0)
    ∧ (settingId 2 1 = some .isolationDeadline ∧ maskedWrite 2000 1000#16 0xFFFF#16 = 1000
      ∧ reached 50000 ((46000 + 1000) % 86400000) = true
      ∧ (hc .a (on (withOne (aCase 1 .isolating)))).mode ≠ .halted)
    ∧ (settingId 4 0 = some .silenceInterval ∧ maskedWrite 30 10#16 0xFFFF#16 = 10
      ∧ sensorPlace (hc .a mon) 500 = some 0 ∧ entryAt (hc .a mon).roster 0 = some sens
      ∧ reached 50000 ((sens.lastHeard + 1000 * 10) % 86400000) = true
      ∧ reached 50000 ((sens.lastHeard + 1000 * 600) % 86400000) = false ∧ 500 ∉ (hc .a mon).deferred
      ∧ ¬ ∃ f ∈ (hc .a mon).intake, f.address = 500)
    ∧ AllSound (hc .a (autoPermitted (withOne (aCase 0 .confirmed))))
    ∧ (∀ m w, m ≠ 0 → entryAt (hc .a mon).roster m = some w → w.address ≠ 500) :=
  ⟨by decide, by decide, by decide, allSound_of _ (by decide), fun m w h e => by
    match m, h with
    | 1, _ => cases e
    | m + 2, _ => cases e⟩

theorem witness_WriteSetting :
    (let s := mon.part.settings
     let auto := tune (fun p => { p with inForce := ⟨true, { clearOptions with autoPermitted := true }⟩ }) mon
     Takes .a mon ∧ mon.part.core.mode ≠ .halted ∧ mon.part.save = none ∧ settingId 1 0 = some .deadLevel
       ∧ SettingId.range .deadLevel = (0, 1000) ∧ maskedWrite 200 849#16 0xFFFF#16 = 849
       ∧ (SettingId.put .deadLevel 849 s).deadLevel < (SettingId.put .deadLevel 849 s).liveLevel
       ∧ ¬ (SettingId.put .deadLevel 850 s).deadLevel < (SettingId.put .deadLevel 850 s).liveLevel
       ∧ settingId 2 0 = some .authority ∧ maskedWrite 0 1#16 1#16 = 1
       ∧ (heard .a mon).inForce.options.autoPermitted = false
       ∧ Takes .a auto ∧ (heard .a auto).inForce.options.autoPermitted = true) := by decide

/-- The small part with a save in progress that Port A waits for. -/
def saving : State :=
  tune (fun p => { p with
    save := some Image.empty
    portA := { p.portA with waiting := [⟨.save, 0xB6, 1⟩, ⟨.burn, 0xB8, 2⟩] } }) mon

theorem witness_SaveAndCompletion :
    (Takes .a mon ∧ Healthy mon ∧ mon.part.save = none ∧ saving.part.save = some Image.empty
      ∧ saving.part.run = .running ∧ saving.part.core.recovery.waiting = none
      ∧ saving.part.portA.waiting = [⟨.save, 0xB6, 1⟩, ⟨.burn, 0xB8, 2⟩]
      ∧ (∀ x ∈ [(⟨.burn, 0xB8, 2⟩ : WaitingReply)], x.op = .burn)
      ∧ ∀ x ∈ saving.part.portB.waiting, x.op = .burn)
    ∧ Sound (hc .a mon).segments ∧ Sound (hc .a mon).roster ∧ Sound (hc .a mon).devices
    ∧ Sound (hc .a mon).plans :=
  ⟨by decide, sound_of _ (by decide), sound_of _ (by decide), sound_of _ (by decide), sound_of _ (by decide)⟩

/-- The small part in CONFIGURING with options staged, and with a burn in progress that Port A waits for. -/
def staged : State := tune (fun p => { p with staged := some clearOptions }) conf
def burning : State :=
  tune (fun p => { p with
    burning := true, staged := some clearOptions, portA := { p.portA with waiting := [⟨.burn, 0xB8, 2⟩] } }) conf

theorem witness_OptionsStagedAndBurned :
    Takes .a mon ∧ mon.part.options.burned = false ∧ mon.part.burning = false
      ∧ Takes .a staged ∧ staged.part.core.mode = .configuring ∧ staged.part.staged.isSome = true
      ∧ staged.part.save = none ∧ Takes .a conf ∧ conf.part.staged = none
      ∧ Takes .a burning ∧ burning.part.burning = true ∧ burning.part.run = .running
      ∧ burning.part.staged = some clearOptions ∧ burning.part.portA.waiting = [⟨.burn, 0xB8, 2⟩]
      ∧ ∀ x ∈ burning.part.portB.waiting, x.op = .save := by decide

/-- A staged record that is none sends six flags of all ones, and no presence character (R213, R218). -/
theorem test_absentStagedRecord :
    (replyFields 0xB9 (.options { burned := false, options := clearOptions } none
        { burned := false, options := clearOptions } false))[2]? = some (List.replicate 6 0xFF#8) := by decide

/-- A poll that an unreachable device of known state refuses leaves it without a next poll (log 62). -/
theorem test_pollRefused_reachable :
    let poll : Order :=
      { number := 3, device := 0, action := .query, cls := .poll, origin := .none, state := .sent
        resend := false, sends := some 1, deadline := some 50300, left := false }
    let asked := fun st : DeviceState => on { core0 with
      orders := [poll], linkTx := some []
      devices := [good { dev 1 0 with run := { (dev 1 0).run with
        state := st, reachable := false, nextPoll := some 80000, currentOrder := some 3 } }] }
    let refusal := clean (frameChars 0x51 0 [1, 3, 2, 3])
    (∀ x ∈ [(DeviceState.closed, none), (.unknown, some 80000)],
      seen (fun t => (entryAt t.part.core.devices 0).map fun v => (v.run.reachable, v.run.nextPoll))
        (exec (.orderReply refusal) (asked x.1)) = some (some (true, x.2))) := by decide

/-- The small part with Port A supervised, and last heard long ago. -/
def supervised : State :=
  tune (fun p => { p with inForce := ⟨true, { clearOptions with supervisePortA := true }⟩ }) mon

theorem witness_PortLineEvents :
    Takes .a mon ∧ mon.part.run = .running ∧ halted.part.run ≠ .resetAsserted
      ∧ (tune (fun p => { p with run := .restartDue }) mon).part.run ≠ .running
      ∧ (portOf .b (tune (fun p => { p with portB := { p.portB with rx := .frame [0x5A] 60380 } }) mon).part).rx
          = .frame [0x5A] 60380
      ∧ 20 ≤ mon.part.core.time.elapsed - 60380 ∧ (portOf .b mon.part).rx = .hunt
      ∧ blocksRun supervised.part = true ∧ supervised.part.core.supervision.absent = false
      ∧ 1000 * supervised.part.settings.supervisionInterval
          ≤ supervised.part.core.time.elapsed - supervised.part.core.supervision.lastGood
      ∧ supervised.part.inForce.options.unattendedIsolate = false
      ∧ confirmedCases supervised.part.core = []
      ∧ mon.part.inForce.options.supervisePortA = false := by decide

/-- The same with UNATTENDED_ISOLATE, and a CONFIRMED case on a segment without a plan. -/
def unwatched : State :=
  tune (fun p => { p with inForce := ⟨true, { clearOptions with supervisePortA := true, unattendedIsolate := true }⟩ })
    (on (withOne (aCase 0 .confirmed)))

theorem witness_PortLineEvents_unattended :
    (blocksRun unwatched.part = true ∧ Healthy unwatched ∧ unwatched.part.inForce.options.unattendedIsolate = true
      ∧ unwatched.part.core.supervision = supervised.part.core.supervision ∧ NoCloses unwatched.part.core
      ∧ confirmedCases unwatched.part.core = [0]
      ∧ entryAt unwatched.part.core.cases 0 = some (aCase 0 .confirmed)
      ∧ (aCase 0 .confirmed).isolation.isSome = true ∧ entryAt unwatched.part.core.segments 0 = some seg0)
    ∧ AllSound unwatched.part.core ∧ Sound supervised.part.core.cases :=
  ⟨by decide, allSound_of _ (by decide), sound_of _ (by decide)⟩

/-- What a port's receiver makes of characters on its line. -/
def onLine (cs : List RxChar) : Receiver × List Frame :=
  receiveChars mon.part.core.time.elapsed (portOf .a mon.part).rx cs

theorem witness_PortLineEvents_receiver :
    onLine (clean [0x00, 0x5A, 0x01]) = (.frame [0x5A, 0x01] 60400, [])
      ∧ onLine (clean (frameChars 0x15 9 [])) = (.hunt, [⟨0x15, 9, []⟩])
      ∧ onLine (clean [0x5A, 0, 0, 0x15, 9, 0, 0]) = (.hunt, [])
      ∧ onLine (clean [0x5A, 0xE1, 0x01]) = (.hunt, []) ∧ 480 < leValue [0xE1#8, 0x01#8]
      ∧ onLine (clean [0x5A, 0xE0, 0x01]) = (.frame [0x5A, 0xE0, 0x01] 60400, [])
      ∧ onLine [{ value := 0x5A, framingError := true }] = (.hunt, [])
      ∧ sentBy (portCommand .a 0x7F 9 []) = some ⟨.a, 0x7F, 9, false⟩
      ∧ portCommand .b 0x80 9 [] = .nonCommandFrame .b 0x80 := by decide

/-- A good frame on Port B's line is the command that its kind names. -/
theorem test_goodFrame_isCarriedOut :
    seen (fun t => (outgoing t.part.portB).map fun r => (r.kind, r.tag, r.code))
        (exec (.portFrameDropped .b (clean (0x33 :: frameChars 0x15 9 []))) mon)
      = some [(0x95, 9, .accepted)] := by decide

/-- The devices and the plans are not read when the first check fails. -/
theorem test_badEntry_behindAFailingCheck :
    seen (fun t => (t.part.core.recovery.recovering, (outgoing t.part.portA).map (·.code)))
        (exec (.setMode .a 1 (.ok .monitoring))
          (on { core0 with mode := .configuring, segments := [good seg0, good seg0], devices := [bad (dev 1 0)]
                           plans := [bad plan0] }))
      = some (false, [.topologyInvalid]) := by decide

/-- The small part at a time, an elapsed count, a lock state and a count of good pulses. -/
def timed (now elapsed : Nat) (l : LockState) (g : Nat) : State :=
  on { core0 with time := { now := now, lock := l, good := g, lastPulse := some 60000, elapsed := elapsed } }

theorem witness_PulsesAndLock :
    (tune (fun p => { p with run := .startingUp .save }) (timed 0 61500 .locked 3)).part.run ≠ .resetAsserted
      ∧ (timed 1000 60500 .unset 0).part.run ≠ .resetAsserted
      ∧ (let late := (timed 1002 60500 .free 2).part.core.time
         ¬ (late.elapsed - 60000 < 500) ∧ late.now % 1000 = 2 ∧ late.lock = .free ∧ late.lastPulse = some 60000)
      ∧ (timed 1002 60499 .free 2).part.core.time.elapsed - 60000 < 500
      ∧ (timed 1003 60500 .free 1).part.core.time.now % 1000 = 3
      ∧ (timed 86399995 60500 .locked 3).part.core.time.now % 1000 = 995
      ∧ (timed 86399994 60500 .locked 3).part.core.time.now % 1000 = 994
      ∧ 1500 ≤ (timed 0 61500 .locked 3).part.core.time.elapsed - 60000
      ∧ (timed 0 61499 .locked 3).part.core.time.elapsed - 60000 < 1500 := by decide

/-- The small part with a full intake queue. -/
def fullIntake : State := on { core0 with intake := List.replicate 24 ⟨1, .hello abc, 5⟩ }

/-- A HELLO frame of address 600. -/
def hello600 : List Byte := frameChars 0x41 0 (leChars 2 600 ++ [7])

/-- What the field link's receiver makes of characters: its state, and what a function sees of the frames. -/
def onField {α : Type} (f : Frame → α) (cs : List RxChar) : Receiver × List α :=
  let x := receiveChars mon.part.core.time.elapsed mon.part.core.fieldRx cs
  (x.1, x.2.map f)

theorem witness_FieldFrameArrival :
    blocksRun mon.part = true ∧ onField id (clean [0x5A, 1]) = (.frame [0x5A, 1] 60400, [])
      ∧ onField (fun f => (decodeField f).map (·.1)) (clean deadTail) = (.hunt, [some 500])
      ∧ onField decodeField (clean hello600) = (.hunt, [some (600, .hello abc)])
      ∧ onField (fun f => (f.kind, decodeField f, frameAddress f)) (clean (frameChars 0x42 0 [0, 0]))
          = (.hunt, [(0x42, none, none)])
      ∧ onField id ({ value := 7, framingError := true } :: clean [0x33]) = (.hunt, [])
      ∧ mon.part.core.intake.length < 24 ∧ 24 ≤ fullIntake.part.core.intake.length
      ∧ onField (fun f => (f.kind, frameAddress f)) (clean deadTail) = (.hunt, [(0x40, some 500)])
      ∧ blocksRun fullIntake.part = true := by decide

/-- The small part with one frame to take. -/
def toTake (a : Nat) (f : FieldFrame) : State := on { core0 with intake := [⟨a, f, 49995⟩] }

def report8 : Report := { sequence := 8, timestamp := 49990, records := [⟨.a, 100, 0, 0, 0, 0⟩] }

/-- A discovery list of 8 addresses from a first one on. -/
def listed (first : Nat) : List DiscoveryEntry := (List.range 8).map fun i => ⟨first + i, 5, none⟩

theorem witness_IntakeTaking :
    ((∃ x ∈ listed 501, x.address = 501) ∧ (∀ x ∈ listed 601, x.address ≠ 501) ∧ (listed 601).length = 8)
    ∧ blocksRun (toTake 500 (.report report8)).part = true ∧ Healthy (toTake 500 (.report report8))
      ∧ (toTake 500 (.report report8)).part.core.items = []
      ∧ sensorPlace core0 500 = some 0 ∧ badAt core0.roster 0 = false ∧ entryAt core0.roster 0 = some sens
      ∧ reportPasses (envOf mon.part) core0.time sens report8 = true
      ∧ reportPasses (envOf mon.part) core0.time sens { report8 with sequence := 7 } = false
      ∧ sensorPlace core0 501 = none ∧ (∀ x ∈ core0.discovery, x.address ≠ 501)
      ∧ core0.discovery.length < 8 := by decide

/-- The small part with the sensor just silent, with a frame of it waiting, and with its expiry deferred. -/
def quiet (now : Nat) (intake : List IntakeEntry) (deferred : List Nat) : State :=
  on { core0 with time := { core0.time with now := now }, intake := intake, deferred := deferred }

theorem witness_SensorSilence :
    blocksRun (quiet 31000 [] []).part = true ∧ sensorPlace core0 500 = some 0
      ∧ entryAt core0.roster 0 = some sens ∧ badAt core0.roster 0 = false ∧ sens.state ≠ .silent
      ∧ reached 31000 (addTime sens.lastHeard (1000 * 30)) = true
      ∧ reached 30999 (addTime sens.lastHeard (1000 * 30)) = false
      ∧ 500 ∉ (quiet 31000 [] []).part.core.deferred ∧ 500 ∈ (quiet 31000 [] [500]).part.core.deferred
      ∧ (∃ x ∈ (quiet 31000 [⟨500, .hello abc, 5⟩] []).part.core.intake, x.address = 500)
      ∧ ¬ ∃ x ∈ (quiet 31000 [] [500]).part.core.intake, x.address = 500 := by decide

/-- An ARC_BURSTS item of the sensor, on a phase without a case. -/
def arcs : Item := ⟨.arcBursts, 500, 1, .tail, .b, 49990, some 200⟩
def withItem (c : Core) : State := on { c with items := [arcs] }

theorem witness_EvidenceHandling :
    (blocksRun (withItem core0).part = true ∧ (withItem core0).part.core.items = [arcs]
      ∧ ¬ Healthy (withItem { core0 with mode := .halted }) ∧ Healthy (withItem core0)
      ∧ (withItem { core0 with mode := .configuring }).part.core.mode = .configuring
      ∧ ({ core0 with holds := [none, some ⟨.mute, .b, 4⟩] } : Core).holds[arcs.segment]?
          = some (some ⟨.mute, .b, 4⟩)
      ∧ isMasked (withItem core0).part.core arcs = false
      ∧ caseOn (withItem core0).part.core 1 .b = none ∧ freeEntry (withItem core0).part.core = some 0
      ∧ badAt (withItem core0).part.core.cases 0 = false)
    ∧ Sound (withItem core0).part.core.segments ∧ Sound (withItem core0).part.core.devices :=
  ⟨by decide, sound_of _ (by decide), sound_of _ (by decide)⟩

/-- An item of a kind on a segment's phase A, and the small part with segment 2 below segment 1, with a list of
cases, holding the item. -/
def item (k : EvidenceKind) (seg : Nat) : Item := ⟨k, 501, seg, .tail, .a, 49990, none⟩
def below (cs : List (Option Case)) : Core :=
  { core0 with
    segments := [good seg0, good seg1, good { seg1 with parent := some 1 }]
    cases := cs.map fun x => { content := x, check := 0 }, counted := cs.map fun x => x.map (·.state)
    opened := List.range cs.length }
def handling (it : Item) (cs : List (Option Case)) : State := on { below cs with items := [it] }

/-- A case of segment 2 whose ring, list and contributors hold another sensor. -/
def case2 : Case :=
  { aCase 2 .watch with
    ring := [⟨.tailDead, 600, 2, 5, 4, none⟩], tailDead := [⟨600, 5⟩], contributors := [600] }

theorem witness_EvidenceHandling_cases :
    (let s := Settings.default
     let it := item .tailDead 1
     let k := aCase 1 .watch
     let c := below [some k, some case2]
     (∀ cs ∈ [[some k, some case2], [some (aCase 1 .blocked)], [none], [some (aCase 1 .confirmed)]],
       blocksRun (handling it cs).part = true ∧ Healthy (handling it cs) ∧ isMasked (below cs) it = false)
       ∧ CaseAt c 1 .a 0 k ∧ pathOf c.segments 1 = [1, 0] ∧ pathOf c.segments 2 = [2, 1, 0]
       ∧ caseOn (below [some k]) 2 .a = none ∧ caseOn (below [none]) 1 .a = none
       ∧ isBroken s .locked (admitted s k it) = false ∧ isDowned s (admitted s k it) = false
       ∧ mergeable (withCase 0 (admitted s k it) c) 1 .a = [1] ∧ case2.unreadable = []
       ∧ isBroken s .locked (merged (admitted s k it) case2) = false
       ∧ (headCoverage c 1 .a).filter (· != 1) = [2] ∧ headCoverage c 0 .a = [0, 1, 2]
       ∧ freeEntry (below [none]) = some 0 ∧ freeEntry c = none ∧ evictee c = some 0
       ∧ evictee (below [some (aCase 1 .blocked)]) = none
       ∧ (admitted s k { item .tailRestored 1 with sensor := 500 }).tailDead = [] ∧ k.arcCount = 0
       ∧ (aCase 1 .confirmed).finding = some .broken ∧ (aCase 1 .isolated).state = .isolated)
    ∧ AllSound (below [some (aCase 1 .watch), some case2]) ∧ AllSound (below [none]) :=
  ⟨by decide, allSound_of _ (by decide), allSound_of _ (by decide)⟩

theorem witness_EvidenceHandling_records :
    (let old : List Present := [⟨1, 9⟩, ⟨2, 5⟩]
     ((∃ q ∈ old, q.sensor = 2) ∧ ¬ ∃ q ∈ old, q.sensor = 3)
       ∧ (∀ y ∈ old, y ≠ ⟨2, 5⟩ → diffTime 5 y.timestamp < 0 ∧ 0 ≤ diffTime y.timestamp 5)
       ∧ 8 ≤ (List.replicate 8 (⟨1, 9⟩ : Present)).length ∧ EvidenceKind.tailRestored ≠ .tailDead
       ∧ (aCase 1 .watch).firstArc = none ∧ (signs true true).firstArc.isSome = true
       ∧ mergeable (below [some (aCase 1 .watch)]) 1 .a = []) := by decide

/-- Authority AUTO, and Port A absent with unattended isolation permitted. -/
def auto (s : State) : State := tune (fun p => { p with settings := { p.settings with authority := 1 } }) s
def unattended (s : State) : State :=
  tune (fun p => { p with
    inForce := ⟨true, { clearOptions with unattendedIsolate := true }⟩
    core := { p.core with supervision := { p.core.supervision with absent := true } } }) s

/-- The signs of a confirmation on segment 0, which names no plan, and a case there that the merge with one of
segment 2 confirms. -/
def signs0 : Case := { signs true true with segment := 0 }
def near : Case :=
  { aCase 0 .watch with headLive := [⟨501, 45250⟩], headCurrentDrop := [⟨503, 41000⟩] }
def far : Case := { aCase 2 .watch with tailDead := [⟨600, 41250⟩], contributors := [600] }

/-- Admissions that confirm, by the item or by the merge after it, and the states in which the case stays CONFIRMED
or moves. -/
theorem witness_EvidenceHandling_confirms :
    (let at_ := fun k cs it => (handling it cs, admitted Settings.default k it)
     (∀ it ∈ [item .groundCurrent 0, item .tailDead 0, item .headLive 0],
       let x := at_ signs0 [some signs0] it
       (x.2.state = .watch ∧ x.2.unreadable = [] ∧ isBroken x.1.part.settings x.1.part.core.time.lock x.2 = true
           ∧ isDowned x.1.part.settings x.2 = true)
         ∧ CaseAt (below [some signs0]) 0 .a 0 signs0 ∧ NoCloses (below [some signs0]))
     ∧ (let x := at_ near [some near, some far] (item .tailDead 0)
        mergeable (withCase 0 x.2 (below [some near, some far])) 0 .a = [1] ∧ far.unreadable = []
          ∧ (isBroken x.1.part.settings x.1.part.core.time.lock x.2, isDowned x.1.part.settings x.2)
              = (false, false)
          ∧ (isBroken x.1.part.settings x.1.part.core.time.lock (merged x.2 far),
              isDowned x.1.part.settings (merged x.2 far)) = (true, false)
          ∧ (merged x.2 far).state = .watch)
     ∧ (CaseAt (below [some signs0, some (signs true true)]) 1 .a 1 (signs true true)
        ∧ 1 ∈ (headCoverage (below [some signs0, some (signs true true)]) 0 .a).filter (· != 0)
        ∧ caseOn (below [some signs0, some (signs true true)]) 2 .a = none))
    ∧ (∀ cs, (∀ it, (auto (handling it cs)).part.settings.authority = 1
          ∧ (handling it cs).part.settings.authority ≠ 1 ∧ (handling it cs).part.core.supervision.absent = false
          ∧ (unattended (handling it cs)).part.settings.authority ≠ 1
          ∧ (unattended (handling it cs)).part.inForce.options.unattendedIsolate = true
          ∧ (unattended (handling it cs)).part.core.supervision.absent = true))
    ∧ entryAt (below []).segments 0 = some seg0 ∧ seg0.plan = none ∧ AllSound (below [some signs0]) :=
  ⟨by decide, fun _ _ => ⟨rfl, Nat.zero_ne_one, rfl, Nat.zero_ne_one, rfl, rfl⟩, rfl, rfl, allSound_of _ (by decide)⟩

/-- Two descendants' cases merged by one item: into a case that stays in WATCH, one that the merges confirm, one that
the item has confirmed, and one that the item opens; and a ring whose timestamps span less than half a day. -/
theorem witness_EvidenceHandling_merges :
    (let it := item .tailDead 0
    let k' := fun k => admitted Settings.default k it
    let held := fun k : Case => withCase 0 (k' k) (below [some k, some (aCase 1 .watch), some far])
    let into := fun k : Case => entryAt (mergesInto 0 [1, 2] (held k)).2.cases 0
    (∀ k ∈ [aCase 0 .watch, near, signs0],
      mergeable (held k) 0 .a = [1, 2] ∧ 0 ∉ [1, 2] ∧ (into k).map (·.state) = some .watch)
    ∧ ((aCase 1 .watch).unreadable = [] ∧ far.unreadable = []
      ∧ (into (aCase 0 .watch)).map (isBroken Settings.default .locked) = some false
      ∧ (into (aCase 0 .watch)).map (isDowned Settings.default) = some false
      ∧ (into near).map (isBroken Settings.default .locked) = some true
      ∧ isBroken Settings.default .locked (k' signs0) = true)
    ∧ (let c := below [none, some (aCase 1 .watch), some far]
       (∀ x ∈ pathOf c.segments 0, caseOn c x .a = none) ∧ freeEntry c = some 0 ∧ mergeable c 0 .a = [1, 2])
    ∧ ∀ r ∈ [(⟨.tailDead, 600, 2, 5, 4, none⟩ : RingEntry), ⟨.tailDead, 600, 2, 86399990, 4, none⟩,
        ⟨.tailDead, 600, 2, 2, 4, none⟩], 0 ≤ diffTime r.timestamp 86399990)
    ∧ AllSound (below [some near, some (aCase 1 .watch), some far])
    ∧ AllSound (below [none, some (aCase 1 .watch), some far]) :=
  ⟨by decide, allSound_of _ (by decide), allSound_of _ (by decide)⟩

/-- Under AUTO an item that confirms the case of a segment without a plan leaves it BLOCKED in the same event. -/
theorem test_confirmed_underAuto :
    seen (fun t => t.part.core.counted) (exec .evidenceItemHandling (auto (handling (item .groundCurrent 0) [some signs0])))
      = some [some .blocked] := by decide

/-- The small part with one case and held-back work for it. -/
def heldFor (st : CaseState) : State :=
  on { withOne (aCase 1 st) with held := ⟨[0, 2], true, [0], true, true⟩ }

theorem witness_WatchWindowExpires :
    blocksRun (heldFor .watch).part = true ∧ Healthy (heldFor .watch)
      ∧ entryAt (heldFor .watch).part.core.cases 0 = some (aCase 1 .watch)
      ∧ badAt (heldFor .watch).part.core.cases 0 = false ∧ (aCase 1 .watch).unreadable = []
      ∧ reached (heldFor .watch).part.core.time.now (aCase 1 .watch).windowEnd = true
      ∧ reached 49999 (aCase 1 .watch).windowEnd = false ∧ (aCase 1 .blocked).state ≠ .watch
      ∧ 0 ∈ (heldFor .watch).part.core.held.windows ∧ 1 ∉ (heldFor .watch).part.core.held.windows := by decide

theorem witness_IsolationDeadline :
    (aCase 1 .blocked).state ≠ .isolating ∧ 0 ∈ (heldFor .blocked).part.core.held.late ∧ blocksRun (heldFor .isolating).part = true ∧ Healthy (heldFor .isolating)
      ∧ entryAt (heldFor .isolating).part.core.cases 0 = some (aCase 1 .isolating)
      ∧ badAt (heldFor .isolating).part.core.cases 0 = false
      ∧ (aCase 1 .isolating).isolation = some ⟨46000, none, 0, 0, false, none⟩
      ∧ reached 50000 (addTime 46000 2000) = true ∧ reached 47999 (addTime 46000 2000) = false
      ∧ 0 ∈ (heldFor .isolating).part.core.held.late ∧ 1 ∉ (heldFor .isolating).part.core.held.late := by decide

/-- A MANUAL order sent to a device. -/
def order (n d : Nat) : Order :=
  { number := n, device := d, action := .open_, cls := .manual, origin := .port .a 9, state := .sent
    resend := false, sends := some 1, deadline := some 50000, left := false }

/-- The small part with an order sent to device 0, and the link busy. -/
def ordered (o : Order) : State := on { core0 with orders := [o], linkTx := some [1] }

/-- The frames of a device: a reply and a state report. -/
def replyFrame (link number outcome detail : Byte) : List Byte :=
  frameChars 0x51 0 [link, number, outcome, detail]
def reportFrame (link st : Byte) : List Byte := frameChars 0x52 0 [link, st]

/-- What the device link's receiver makes of a frame's characters, decoded. -/
def onLink (cs : List Byte) : Receiver × List (Option (Nat × DeviceFrame)) :=
  let x := receiveChars mon.part.core.time.elapsed mon.part.core.deviceRx (clean cs)
  (x.1, x.2.map decodeDevice)

theorem witness_DeviceFrames :
    (onLink [1] = (.hunt, []) ∧ onLink (replyFrame 1 3 3 1) = (.hunt, [none])
      ∧ onLink (replyFrame 1 3 1 1) = (.hunt, [some (1, .orderReply 3 (.done .closed))])
      ∧ onLink (replyFrame 1 3 2 3) = (.hunt, [some (1, .orderReply 3 (.refused .interlock))])
      ∧ onLink (reportFrame 1 2) = (.hunt, [some (1, .stateReport .open_)]))
    ∧ (let s := ordered (order 3 0)
     blocksRun s.part = true ∧ deviceAtLink s.part.core 1 = some 0 ∧ deviceAtLink s.part.core 9 = none
       ∧ entryAt s.part.core.devices 0 = some (dev 1 0) ∧ badAt s.part.core.devices 0 = false
       ∧ (dev 1 0).run.reachable = true ∧ (dev 1 0).run.state = .closed ∧ DeviceState.reclosing ≠ .closed
       ∧ s.part.core.walks = [] ∧ s.part.core.room = []
       ∧ matching s.part.core 0 3 = some (order 3 0) ∧ matching s.part.core 0 4 = none
       ∧ (order 3 0).origin = .port .a 9)
    ∧ NoPolls (ordered (order 3 0)).part.core
    ∧ (∀ n, entryAt (ordered (order 3 0)).part.core.cases n = none) :=
  ⟨⟨by decide, by decide, by decide, by decide, by decide⟩, by decide, noPolls_of _ (by decide) (by decide),
    entryAt_none (by decide)⟩

/-- A POLL order sent to device 0, UNKNOWN and unreachable, in MONITORING, with its next poll an interval on. -/
def polled : Core :=
  { core0 with
    orders := [{ order 3 0 with cls := .poll, action := .query, origin := .none }], linkTx := some [1]
    devices := [good { dev 1 0 with run :=
      { DeviceRun.powerOn with reachable := false, nextPoll := some 55000, currentOrder := some 3 } }, good (dev 2 1)] }

theorem witness_DeviceFrames_poll :
    (blocksRun (on polled).part = true ∧ deviceAtLink polled 1 = some 0 ∧ badAt polled.devices 0 = false
      ∧ (entryAt polled.devices 0).isSome = true ∧ matching polled 0 3 = polled.orders.head?
      ∧ polled.walks = [] ∧ polled.room = [] ∧ DeviceState.closed ≠ .unknown
      ∧ orderOf polled 0 = polled.orders.head? ∧ reached polled.time.now 50000 = true)
    ∧ NoPolls polled ∧ Sound polled.cases ∧ (∀ n, entryAt polled.cases n = none) :=
  ⟨by decide, noPolls_of _ (by decide) (by decide), sound_of _ (by decide), entryAt_none (by decide)⟩

/-- The case of entry 0 isolates by plan 0, whose one step's order is sent. -/
def lastStep : Core :=
  { withOne { aCase 1 .isolating with isolation := some ⟨46000, some 0, 0, 0, true, none⟩ } with
    walks := [⟨0, 1, .main, .ordered 3 1⟩], linkTx := some []
    orders := [{ order 3 1 with cls := .isolation, origin := .case 1 }] }

theorem witness_DeviceFrames_effects :
    (∀ st ∈ [CaseState.watch, .confirmed, .isolating, .isolated, .blocked],
      let c := withOne (aCase 1 st)
      blocksRun (on c).part = true ∧ c.mode ≠ .halted ∧ c.orders = []
        ∧ inDownstream c.segments (dev 1 0) (aCase 1 st).segment = true
        ∧ inDownstream c.segments (dev 2 1) (aCase 0 st).segment = false
        ∧ entryAt c.cases 0 = some (aCase 1 st) ∧ entryAt c.cases 1 = none)
    ∧ (blocksRun (on lastStep).part = true ∧ onLink (replyFrame 2 3 1 2)
          = (.hunt, [some (2, .orderReply 3 (.done .open_))])
      ∧ deviceAtLink lastStep 2 = some 1 ∧ matching lastStep 1 3 = lastStep.orders.head?
      ∧ lastStep.room = [] ∧ entryAt lastStep.plans 0 = some plan0 ∧ 0 + 1 = plan0.steps.length
      ∧ (dev 2 1).run.reachable = true ∧ standsOpen .open_ = true)
    ∧ AllSound lastStep ∧ NoPolls lastStep ∧ AllSound (withOne (aCase 1 .watch)) :=
  ⟨by decide, by decide, allSound_of _ (by decide), noPolls_of _ (by decide) (by decide), allSound_of _ (by decide)⟩

/-- An order still QUEUED. -/
def waiting (n d : Nat) : Order := { order n d with state := .queued, sends := none, deadline := none }

/-- Device 0 unreachable. -/
def unreachable (o : Order) : State :=
  on { core0 with
    orders := [o]
    devices := [good { dev 1 0 with run := { (dev 1 0).run with reachable := false } }] }

theorem witness_SendingAndDeadlines :
    (let s := ordered (order 1 0)
     blocksRun s.part = true ∧ mon.part.core.linkTx = none ∧ s.part.core.linkTx = some [1]
       ∧ chooseOrder s.part.core = none
       ∧ chooseOrder (ordered (waiting 1 0)).part.core = some (waiting 1 0)
       ∧ badAt s.part.core.devices 0 = false ∧ entryAt s.part.core.devices 0 = some (dev 1 0)
       ∧ orderOf s.part.core 0 = some (order 1 0) ∧ (order 1 0).resend = false ∧ (order 1 0).left = false
       ∧ (order 1 0).deadline = some 50000 ∧ reached 50000 50000 = true ∧ reached 49999 50000 = false
       ∧ (order 1 0).cls ≠ .poll ∧ (order 1 0).sends.getD 0 - 1 < s.part.settings.retryLimit
       ∧ s.part.settings.retryLimit ≤ ({ order 1 0 with sends := some 4 } : Order).sends.getD 0 - 1
       ∧ (unreachable { order 1 0 with sends := some 4 }).part.core.walks = []
       ∧ (unreachable { order 1 0 with cls := .poll, origin := .none }).part.core.room = [])
    ∧ NoPolls (unreachable { order 1 0 with sends := some 4 }).part.core :=
  ⟨by decide, noPolls_of _ (by decide) (by decide)⟩

/-- Orders of each class, the oldest the lowest, and one passed over; a re-send is a candidate in HALTED too. -/
theorem witness_SendingAndDeadlines_choice :
    (let o := waiting 1 0
     let i := { waiting 2 1 with cls := .isolation, origin := .case 1 }
     let r := { order 4 0 with resend := true }
     let c := { core0 with orders := [{ o with left := true }, { o with number := 9 }, i] }
     chooseOrder c = some i ∧ chooseOrder { c with orders := [{ o with left := true }, o] } = some o
       ∧ chooseOrder { c with mode := .halted } = none
       ∧ chooseOrder { c with mode := .halted, orders := [o, r] } = some r
       ∧ (ordered (order 1 0)).part.core.orders = [order 1 0] ∧ core0.linkTx = none
       ∧ chooseOrder { core0 with orders := [{ order 1 0 with resend := true }] }
           = some { order 1 0 with resend := true }
       ∧ (order 1 0).cls ≠ .poll ∧ (dev 1 0).run.reachable = true ∧ (dev 1 0).run.state ≠ .unknown
       ∧ 1 ≤ mon.part.settings.pollInterval ∧ mon.part.settings.pollInterval ≤ 60) := by decide

/-- Device 0 unknown and due for a poll, with the link busy. -/
def due : State :=
  on { core0 with
    linkTx := some [], devices := [good { dev 1 0 with run := { DeviceRun.powerOn with nextPoll := some 50000 } }] }

/-- Three devices due and one not, the link free or busy. -/
def severalDue (link : Option (List Byte)) : State :=
  let falls := fun (l t : Nat) => good ({ dev l 0 with run := { DeviceRun.powerOn with nextPoll := some t } } : Device)
  on { core0 with
    linkTx := link, devices := [falls 1 50000, falls 2 50001, falls 3 49000, good (dev 4 1), falls 5 40000] }

/-- The event of the last of them requests the polls of all, in ascending number, and over a free link the first of
them is sent. -/
theorem test_pollDue_ascends :
    (∀ link ∈ [none, some []],
      seen (fun t => t.part.core.orders.map (·.device)) (exec (.pollDue 4) (severalDue link)) = some [0, 2, 4])
    ∧ seen (fun t => t.part.core.orders.map (·.state)) (exec (.pollDue 4) (severalDue none))
        = some [.sent, .queued, .queued] := by decide

theorem witness_PollsAndHeldWork_several :
    (∀ link ∈ [none, some []],
      let c := (severalDue link).part.core
      blocksRun (severalDue link).part = true ∧ Healthy (severalDue link) ∧ c.mode = .monitoring
        ∧ c.orders = [] ∧ (c.linkTx.isSome = true ∨ c.orders = []) ∧ (entryAt c.devices 4).isSome = true
        ∧ reached c.time.now 40000 = true ∧ reached c.time.now 50001 = false ∧ (entryAt c.devices 1).isSome = true)
    ∧ Sound (severalDue none).part.core.devices
    ∧ (∀ m u, m ≠ 0 → entryAt due.part.core.devices m = some u → False) :=
  ⟨by decide, sound_of _ (by decide), fun m u h e => by match m, h with | m + 1, _ => cases e⟩

/-- A walk of the case in entry 0 that waits in ROOM. -/
def roomCore : Core :=
  { withOne { aCase 1 .isolating with isolation := some ⟨46000, some 0, 0, 0, false, none⟩ } with
    walks := [⟨0, 1, .main, .room none⟩], room := [0], linkTx := some [], reservations := [none, none]
    held := ⟨[], true, [], true, true⟩ }

/-- AUTO in force, and a CONFIRMED case on a segment without a plan, held back by a recovery. -/
def autoHeld : State :=
  tune (fun p => { p with settings := { p.settings with authority := 1 } })
    (on { withOne (aCase 0 .confirmed) with held := ⟨[], true, [], true, true⟩ })

theorem witness_PollsAndHeldWork :
    (blocksRun due.part = true ∧ Healthy due
      ∧ entryAt due.part.core.devices 0
          = some { dev 1 0 with run := { DeviceRun.powerOn with nextPoll := some 50000 } }
      ∧ badAt due.part.core.devices 0 = false ∧ due.part.core.mode = .monitoring
      ∧ reached due.part.core.time.now 50000 = true ∧ orderOf due.part.core 0 = none
      ∧ due.part.core.orders.length < 16 ∧ due.part.core.linkTx.isSome = true)
    ∧ ((heldFor .blocked).part.core.held.polls = true ∧ (heldFor .blocked).part.core.held.authority = true
      ∧ (heldFor .blocked).part.settings.authority ≠ 1 ∧ (heldFor .blocked).part.core.supervision.absent = false
      ∧ (heldFor .blocked).part.core.held.room = true ∧ (heldFor .blocked).part.core.room = [])
    ∧ (Healthy autoHeld ∧ autoHeld.part.settings.authority = 1 ∧ NoCloses autoHeld.part.core
      ∧ confirmedCases autoHeld.part.core = [0]
      ∧ entryAt autoHeld.part.core.cases 0 = some (aCase 0 .confirmed)
      ∧ entryAt autoHeld.part.core.segments 0 = some seg0)
    ∧ (Healthy (on roomCore) ∧ roomCore.room = [0] ∧ walkOf roomCore 0 = some ⟨0, 1, .main, .room none⟩
      ∧ badAt roomCore.cases 0 = false ∧ badAt roomCore.plans 0 = false ∧ entryAt roomCore.plans 0 = some plan0
      ∧ plan0.steps[0]? = some 1 ∧ badAt roomCore.devices 1 = false
      ∧ entryAt roomCore.devices 1 = some (dev 2 1) ∧ standsOpen (dev 2 1).run.state = false
      ∧ orderOf roomCore 1 = none ∧ roomCore.orders.length < 16 ∧ roomCore.linkTx.isSome = true
      ∧ reservationOf roomCore 1 = none)
    ∧ NoPolls (heldFor .blocked).part.core ∧ AllSound autoHeld.part.core :=
  ⟨by decide, by decide, by decide, by decide, noPolls_of _ (by decide) (by decide), allSound_of _ (by decide)⟩

theorem witness_PollsAndHeldWork_heldPoll :
    (let c : Core := { due.part.core with held := ⟨[], true, [], true, true⟩ }
     let v : Device := { dev 1 0 with run := { DeviceRun.powerOn with nextPoll := some 50000 } }
     Healthy (on c) ∧ c.held.polls = true ∧ (c.devices.all fun x => x.check == 0) = true ∧ entryAt c.devices 0 = some v ∧ badAt c.devices 0 = false
       ∧ c.mode = .monitoring ∧ reached c.time.now 50000 = true ∧ orderOf c 0 = none ∧ c.orders.length < 16
       ∧ c.linkTx.isSome = true ∧ entryAt c.devices 1 = none
       ∧ 16 ≤ ({ c with orders := List.replicate 16 (order 1 1) } : Core).orders.length) := by decide

/-- A sweep with a table at its head. -/
def sweeping (t : Table) (rest : List Table) (c : Core) : State :=
  on { c with recovery := ⟨true, t :: rest, none, 3, [.roster], 1, none⟩ }

/-- An image that holds the small part's tables, with device 1 at another link and a second sensor. -/
def image0 : Image :=
  { Image.empty with
    segments := [some seg0, some seg1, none], plans := [some plan0, none]
    roster := [some ⟨500, 1, .tail, abc⟩, some ⟨600, 0, .tail, abc⟩]
    devices := [some ⟨1, .sectionalizing, 0⟩, some ⟨9, .sectionalizing, 1⟩, none] }

/-- A sweep in a mode, with an image in a store that is valid or not. -/
def reloading (t : Table) (m : Mode) (valid : Bool) (c : Core) : State :=
  tune (fun p => { p with store := ⟨image0, valid, valid⟩ }) (sweeping t [.case] { c with mode := m })

/-- The small blocks with the entries of four tables bad. -/
def badTables : Core :=
  { core0 with segments := [bad seg0], plans := [bad plan0], roster := [bad sens], devices := [bad (dev 1 0)] }

theorem witness_RecoverySweep :
    (∀ t ∈ [Table.segment, .device, .roster, .plan],
      let s := sweeping t [.case] core0
      let b := reloading t .configuring true badTables
      blocksRun s.part = true ∧ s.part.core.recovery.recovering = true ∧ s.part.core.recovery.waiting = none
        ∧ s.part.core.recovery.sweep = [t, .case] ∧ badOf s.part.core t = []
        ∧ badOf b.part.core t = [0] ∧ b.part.save = none ∧ b.part.store.valid = true
        ∧ b.part.store.codeMatches = true ∧ b.part.core.mode = .configuring ∧ b.part.core.orders = []
        ∧ (reloading t .monitoring false badTables).part.store.valid = false
        ∧ (tune (fun p => { p with save := some Image.empty }) b).part.save.isSome = true)
    ∧ badOf (sweeping .case [] core0).part.core .case = []
    ∧ (let l := sweeping .case [.plan] { core0 with cases := [good (aCase 0 .watch), bad (aCase 1 .isolating)] }
       badOf l.part.core .case = [1] ∧ entryAt l.part.core.cases 1 = some (aCase 1 .isolating)
         ∧ (aCase 1 .isolating).unreadable = [] ∧ l.part.core.record.lost.length < 8)
    ∧ (∀ n, entryAt badTables.cases n = none) ∧ NoCloses badTables :=
  ⟨by decide, by decide, by decide, entryAt_none (by decide), by decide⟩

/-- A device table without a bad entry, the link free, and one QUEUED order that the sweep was to take up. -/
theorem witness_RecoverySweep_sends :
    (let o := { waiting 1 0 with left := true }
     let s := sweeping .device [.case] { core0 with orders := [o] }
     blocksRun s.part = true ∧ s.part.core.recovery.recovering = true ∧ s.part.core.recovery.sweep = [.device, .case]
       ∧ badOf s.part.core .device = [] ∧ s.part.core.linkTx = none ∧ s.part.core.mode ≠ .halted
       ∧ s.part.core.orders = [o] ∧ o.state = .queued ∧ o.sends = none
       ∧ entryAt s.part.core.devices o.device = some (dev 1 0)) := by decide

/-- A case table with two bad entries, one of which reads as free. -/
def badCases : Core :=
  { core0 with cases := [good (aCase 0 .watch), bad { aCase 1 .watch with unreadable := [.segment] },
      { content := none, check := 1 }] }

/-- The last table of a sweep: each of the five bad, with a store that serves and with one that does not; and a reload
that waits for a save. -/
theorem witness_RecoverySweep_lastTable :
    (∀ t ∈ [Table.segment, .device, .roster, .plan], ∀ m ∈ [Mode.configuring, .monitoring],
      let s := tune (fun p => { p with store := ⟨image0, true, true⟩ }) (sweeping t [] { badTables with mode := m })
      let w := tune (fun p => { p with
        save := some image0
        core := { p.core with recovery := { p.core.recovery with sweep := [], waiting := some t } } }) s
      blocksRun s.part = true ∧ s.part.core.recovery.sweep = [t] ∧ badOf s.part.core t ≠ [] ∧ s.part.save = none
        ∧ s.part.core.orders = [] ∧ NoCloses s.part.core ∧ s.part.core.mode = m
        ∧ blocksRun w.part = true ∧ w.part.core.recovery.recovering = true
        ∧ w.part.core.recovery.waiting = some t ∧ badOf w.part.core t ≠ [])
    ∧ badOf (sweeping .case [] badCases).part.core .case = [1, 2]
    ∧ (sweeping .case [] badCases).part.core.recovery.waiting = none
    ∧ ¬ ((sweeping .plan [] badTables).part.store.valid = true) := by decide

/-- The sweep's last table loses its case, and ends the recovery in the same event. -/
theorem test_lastTable_losesCase :
    seen (fun t => (t.part.core.recovery, t.part.core.held.authority, t.part.core.record.lost, t.part.inService,
        noticeStream t.part.portA))
        (exec (.recoverySweepStep true) (sweeping .case [] badCases))
      = some (Recovery.idle, true, [⟨1, 1, none, some .a⟩], true,
          [.caseChange ⟨1, 1, none, some .a, some .watch, none, none, .lost, none, 50000⟩,
           .recoveryEnded 5 [.roster] 2 .monitoring none]) := by decide

/-- A roster table that a sweep swaps for the image's drops the waiting expiry of a sensor it does not hold, and one
whose bad entries become undefined, theirs. -/
theorem test_rosterSweep_dropsExpiries :
    (let c := { badTables with deferred := [500, 9], roster := [good sens, bad { sens with address := 9 }] }
     ∀ valid ∈ [true, false], seen (fun t => t.part.core.deferred)
       (exec (.recoverySweepStep true) (reloading .roster .configuring valid c)) = some [500]) := by decide

/-- A chain that runs into an undefined plan fails the checks of the plan at its head. -/
theorem test_chainIntoUndefined :
    (let plans := [good { plan0 with fallback := some 1 }, good { plan0 with fallback := some 2 }]
     planPasses { core0 with plans := plans } 0 { plan0 with fallback := some 1 } = false
       ∧ planPasses { core0 with plans := plans ++ [good plan0] } 0 { plan0 with fallback := some 1 } = true) := by
  decide

/-- A search finds a mismatch in an entry that reads as free. -/
theorem test_searchReadsFreeEntries :
    seen (fun t => (t.part.core.recovery.recovering, (outgoing t.part.portA).map (·.code)))
        (exec (.setMode .a 1 (.ok .configuring))
          (on { core0 with cases := [{ content := none, check := 0 }, { content := none, check := 1 }] }))
      = some (true, [.faultRecovery]) := by decide

/-- A store failure whose own work has halted the part says that no fall followed. -/
theorem test_halted_noFall :
    let told := fun fall => Emit.tell .both (.faultFound .store none 5 2 2 .furtherFault (some fall))
    let e : Ev := { startEvent { core0 with mode := .halted } with
      out := [deviceCount .ordersFailed 0, told true, .tell .both (.faultFound .device (some 1) 5 3 3 .halted none)] }
    (fallInMonitoring e).out
      = [deviceCount .ordersFailed 0, told false, .tell .both (.faultFound .device (some 1) 5 3 3 .halted none)] := by
  decide

theorem witness_RecoverySweep_reloads :
    (let plans := image0.plans.map fun x => ({ content := x, check := 0 } : Checked Plan)
     let segs := image0.segments.map fun x => ({ content := x, check := 0 } : Checked Segment)
     validation { core0 with plans := plans } = none
       ∧ (validation { core0 with segments := [], plans := plans }) = some (1, .none)
       ∧ barredByHold segs [none, some ⟨.work, .a, 0⟩] (dev 1 0) = true
       ∧ (closeOrder .queued).sends = none ∧ (closeOrder .queued).origin = .port .b 7
       ∧ badAt [good (dev 1 0)] 0 = false
       ∧ (entryAt [good sens] 0 = some sens ∧ badAt [good sens] 0 = false) ∧ badAt [bad sens] 0 = true
       ∧ orderOf { core0 with orders := [order 1 2] } 2 = some (order 1 2) ∧ entryAt core0.devices 2 = none
       ∧ ([50000] ++ [50001]).length < 3 ∧ 3 ≤ ([1, 2] ++ [50001]).length) := by decide

theorem witness_RecoverySweep_fall :
    (∀ st ∈ [CaseState.watch, .confirmed, .isolating, .isolated, .blocked],
      let e := startEvent (withOne (aCase 1 st))
      e.mode = .monitoring ∧ (entriesWhere e.cases fun _ => true) = [0]
        ∧ entryAt e.cases 0 = some (aCase 1 st) ∧ badAt e.cases 0 = false ∧ (aCase 1 st).unreadable = []
        ∧ e.orders = [])
    ∧ (let e := startEvent { withOne (aCase 1 .confirmed) with orders := [closeOrder .queued] }
       entryAt e.devices 0 = some (dev 1 0) ∧ badAt e.devices 0 = false
         ∧ firstBad e.toCore (closeBarReads e.toCore 0) = none ∧ barredBy e.segments (dev 1 0) 1 = true
         ∧ pollOrder.state = .queued ∧ (aCase 1 .isolating).serial = 1) := by decide

/-- Device 1 bad, with times already in the fault window. -/
def faulty (window : List Nat) : State :=
  on { core0 with devices := [good (dev 1 0), bad (dev 2 1)], window := window }

theorem witness_MismatchIsInternalFault :
    Takes .a (faulty []) ∧ Healthy (faulty []) ∧ 1 < (hc .a (faulty [])).devices.length
      ∧ badAt (hc .a (faulty [])).devices 1 = true ∧ badAt (hc .a (faulty [])).devices 0 = false
      ∧ ((hc .a (faulty [1])).window ++ [0]).length < 3 ∧ 3 ≤ ((hc .a (faulty [1, 2])).window ++ [0]).length := by
  decide

/-- Device 0 settling until a time. -/
def settling (until_ : Nat) : State :=
  on { core0 with devices := [good { dev 1 0 with run := { (dev 1 0).run with settleUntil := some until_ } }] }

theorem witness_TimedEvents :
    blocksRun (settling 50000).part = true
      ∧ entryAt (settling 50000).part.core.devices 0
          = some { dev 1 0 with run := { (dev 1 0).run with settleUntil := some 50000 } }
      ∧ badAt (settling 50000).part.core.devices 0 = false ∧ (settling 50000).part.core.mode ≠ .halted
      ∧ reached (settling 50000).part.core.time.now 50000 = true
      ∧ reached (settling 50001).part.core.time.now 50001 = false ∧ halted.part.core.mode = .halted
      ∧ mon.part.nextSample ≤ mon.part.core.time.elapsed
      ∧ State.reset.part.core.time.elapsed < State.reset.part.nextSample := by decide

end Sys2Proof.Tests
end

