-- ==== Sys2Proof/Proofs/ServicePin.lean ====
section
/-! PROOF. The IN_SERVICE pin (R20). Every event ends with the pin set from the part it leaves, and every command
and event is such an event but for PORT_FRAME_DROPPED, whose last act, the receiver's, ends as one. -/

namespace Sys2Proof.Machine

/-! ### The pin at the end of an event -/

theorem blocksRun_iff (p : Part) :
    blocksRun p = true ↔ p.run ≠ .resetAsserted ∧ ∀ w, p.run ≠ .startingUp w := by
  unfold blocksRun
  cases p.run <;> simp

theorem serviceHigh_iff (p : Part) :
    serviceHigh p = true ↔
      p.core.mode = .monitoring ∧ p.core.recovery.recovering = false
        ∧ p.run ≠ .resetAsserted ∧ ∀ w, p.run ≠ .startingUp w := by
  simp [serviceHigh, blocksRun_iff, and_assoc]

/-- The end of an event sets the pin by R20, whatever it was. -/
theorem pinAgrees_ended (p : Part) (s : State) : PinAgrees (ended p s) := by
  simp only [PinAgrees, ended, finish_inService, finish_core, finish_run]
  exact serviceHigh_iff p

theorem act_pinAgrees {f : Part → Part} {s t : State} (h : act f s = .next t) : PinAgrees t := by
  rw [act_eq] at h
  cases h
  exact pinAgrees_ended _ _

/-- A millisecond changes nothing that the pin depends on. -/
theorem pinAgrees_idle (s : State) : PinAgrees (idle s) ↔ PinAgrees s := Iff.rfl

/-! ### Every command and event ends so -/

theorem andThen_eq_next {o : Host.Outcome State Fault Refusal}
    {f : State → Host.Outcome State Fault Refusal} {t : State} :
    andThen o f = .next t ↔ ∃ u, o = .next u ∧ f u = .next t := by
  cases o <;> simp [andThen]

/-- But for PORT_FRAME_DROPPED, every meaning is one act on the part, and so one event that ends. -/
theorem exec_eq_ended (c : Instr) (s : State) (h : ∀ q chars, c ≠ .portFrameDropped q chars) :
    ∃ p, exec c s = .next (ended p s) := by
  cases c with
  | portFrameDropped q chars => exact absurd rfl (h q chars)
  | _ => exact ⟨_, rfl⟩

/-- Whatever the frames of a line have done, its receiver's act comes last. -/
theorem portLine_pinAgrees {q : Port} {chars : List RxChar} {s t : State}
    (h : portLine q chars s = .next t) : PinAgrees t := by
  obtain ⟨_, _, last⟩ := andThen_eq_next.1 h
  exact act_pinAgrees last

theorem execPortFrameDropped_pinAgrees {q : Port} {chars : List RxChar} {s t : State}
    (h : execPortFrameDropped q chars s = .next t) : PinAgrees t := by
  unfold execPortFrameDropped at h
  split at h
  case h_1 => exact act_pinAgrees h
  case h_2 => exact portLine_pinAgrees h

theorem exec_pinAgrees {c : Instr} {s t : State} (h : exec c s = .next t) : PinAgrees t := by
  by_cases line : ∃ q chars, c = .portFrameDropped q chars
  · obtain ⟨q, chars, rfl⟩ := line
    exact execPortFrameDropped_pinAgrees h
  · obtain ⟨p, ends⟩ := exec_eq_ended c s fun q chars eq => line ⟨q, chars, eq⟩
    cases ends.symm.trans h
    exact pinAgrees_ended p s

theorem step_pinAgrees {s t : State} (before : PinAgrees s) (h : step s = .next t) : PinAgrees t := by
  unfold step at h
  split at h
  next =>
    cases h
    exact (pinAgrees_idle s).2 before
  next => exact exec_pinAgrees h

/-- Settles O12: each meaning's last act sets the pin from what it leaves, and an idle step keeps it. -/
theorem pinFollowsModeAndRecovery : Obligations.PinFollowsModeAndRecovery :=
  ⟨fun _ _ _ => exec_pinAgrees, fun _ _ => step_pinAgrees⟩

end Sys2Proof.Machine
end

