-- ==== Sys2Proof/Proofs/ReportSequence.lean ====
section
/-! PROOF. The order of report sequences (R41): a distance modulo 65536, judged only against a last sequence. -/

namespace Sys2Proof.Machine

/-- The model's distance, made a natural number by adding a whole turn, is the signed distance modulo 65536. -/
theorem sequenceDistance_eq (s : Nat) {l : Nat} (h : l ≤ 65536) :
    (((s + 65536 - l) % 65536 : Nat) : Int) = ((s : Int) - l) % 65536 := by
  omega

theorem newer_iff (s : Nat) {l : Nat} (h : l ≤ 65536) :
    newer s l = true ↔ ((s : Int) - l) % 65536 ≠ 0 ∧ ((s : Int) - l) % 65536 ≤ 32767 := by
  have distance := sequenceDistance_eq s h
  simp only [newer, Bool.and_eq_true, decide_eq_true_eq]
  omega

/-- A sensor without a last sequence is judged by the timestamp and the phases alone (R40, R41). -/
theorem reportPasses_of_noSequence (env : Env) (t : TimeBase) {v : Sensor} (r : Report)
    (h : v.lastSequence = none) :
    reportPasses env t v r
      = (!(t.lock == .locked && isStale env.settings.staleLimit t.now r.timestamp)
          && r.records.all fun p => phaseIn p.phase v.phases) := by
  simp only [reportPasses, h, Bool.true_and]

/-- Settles O19: `newer` compares the signed distance, and the test without a last sequence reads none. -/
theorem sequenceNewerWraps : Obligations.SequenceNewerWraps := by
  refine ⟨fun s l _ hl => newer_iff s hl.le, by decide, by decide, ?_⟩
  intro env t v r x h
  rw [reportPasses_of_noSequence env t r h, reportPasses_of_noSequence env t _ h]

end Sys2Proof.Machine
end

