-- ==== Sys2Proof/Proofs/TimeRead.lean ====
section
/-! PROOF. READ_TIME (R31). A command taken is answered from the part its frame leaves; its one condition is the
mode, so neither its port nor recovery bars it. -/

namespace Sys2Proof.Machine

/-! ### The stages of a command -/

theorem onBody_ok {α : Type} (x : α) (f : α → Part → Part × Answer) (p : Part) :
    onBody (.ok x) f p = f x p := rfl

/-- The only condition of a stage holds, and is the answer (R187). -/
theorem unless_single_holds {b : Bool} (h : b = true) (c : ReplyCode) (f : Part → Part × Answer) (p : Part) :
    unless_ [(b, c)] f p = (p, plain c) := by
  rw [h]; rfl

/-- The only condition of a stage does not hold, and the command goes on. -/
theorem unless_single_fails {b : Bool} (h : b = false) (c : ReplyCode) (f : Part → Part × Answer) (p : Part) :
    unless_ [(b, c)] f p = f p := by
  rw [h]; rfl

theorem isHalted_iff (p : Part) : isHalted p = true ↔ p.core.mode = .halted := beq_iff_eq

theorem isHalted_eq_false_iff (p : Part) : isHalted p = false ↔ p.core.mode ≠ .halted := beq_eq_false_iff_ne

/-- A command that leaves the part as its frame does is answered, and nothing else changes. -/
theorem answer_replied {q : Port} {kind : Nat} {tag : Byte} {f : Part → Part × Answer} {s : State}
    {code : ReplyCode} {body : ReplyBody} (taken : Takes q s)
    (h : f (heard q s) = (heard q s, .now code body)) :
    answer q kind tag f s = .next (replied q kind tag code body (heard q s) s) := by
  rw [answer_taken q kind tag f s taken, h]; rfl

/-! ### The time reply -/

/-- Without a pulse the elapsed milliseconds are absent. -/
theorem timeBody_of_noPulse {t : TimeBase} (h : t.lastPulse = none) :
    timeBody t = .time t.now t.lock t.good none := by
  rw [timeBody, h]; rfl

theorem timeBody_of_pulse {t : TimeBase} {m : Nat} (h : t.lastPulse = some m) :
    timeBody t = .time t.now t.lock t.good (some (t.elapsed - m)) := by
  rw [timeBody, h]; rfl

theorem exec_readTime (q : Port) (tag : Byte) (body : Body Unit) (s : State) :
    exec (.readTime q tag body) s = execReadTime q tag body s := rfl

theorem readTime_halted {q : Port} {s : State} (tag : Byte) (taken : Takes q s)
    (halted : (heard q s).core.mode = .halted) :
    exec (.readTime q tag (.ok ())) s = .next (refused q 0x15 tag .wrongMode s) := by
  rw [exec_readTime, execReadTime]
  apply answer_replied taken
  rw [onBody_ok, unless_single_holds ((isHalted_iff _).2 halted)]
  rfl

/-- Outside HALTED the time base answers, in recovery too. -/
theorem readTime_served {q : Port} {s : State} (tag : Byte) (taken : Takes q s)
    (running : (heard q s).core.mode ≠ .halted) :
    exec (.readTime q tag (.ok ())) s
      = .next (replied q 0x15 tag .accepted (timeBody (heard q s).core.time) (heard q s) s) := by
  rw [exec_readTime, execReadTime]
  apply answer_replied taken
  rw [onBody_ok, unless_single_fails ((isHalted_eq_false_iff _).2 running)]

/-- Settles O36: the mode alone decides between the refusal and the time base, with or without a last pulse. -/
theorem readTimeReply : Obligations.ReadTimeReply := by
  intro q tag s taken
  refine ⟨readTime_halted tag taken, ?noPulse, ?pulse⟩
  case noPulse =>
    intro running noPulse
    rw [readTime_served tag taken running, timeBody_of_noPulse noPulse]
  case pulse =>
    intro m running pulse
    rw [readTime_served tag taken running, timeBody_of_pulse pulse]

end Sys2Proof.Machine
end

