-- ==== Sys2Proof/Proofs/CaseConditions.lean ====
section
/-! PROOF. The BROKEN and DOWNED conditions of a case (R80, R81): the alignment of two timestamps either way round,
and the spread of the arcs, which a case without a first or a last arc time does not have. -/

namespace Sys2Proof.Machine

/-! ### The BROKEN condition (R80) -/

/-- Alignment bounds R28's signed difference both ways, since neither timestamp need be the earlier. -/
theorem aligned_iff (window a b : Nat) :
    aligned window a b = true ↔ diffTime a b ≤ window ∧ diffTime b a ≤ window := by
  simp only [aligned, Bool.and_eq_true, decide_eq_true_eq]

/-- One of the drops lies within the window of one of the dead tails. -/
theorem any_aligned_iff (window : Nat) (drops tails : List Present) :
    (drops.any fun d => tails.any fun t => aligned window d.timestamp t.timestamp) = true ↔
      ∃ d ∈ drops, ∃ t ∈ tails,
        diffTime d.timestamp t.timestamp ≤ window ∧ diffTime t.timestamp d.timestamp ≤ window := by
  simp only [List.any_eq_true, aligned_iff]

/-- A list of the present set that is not empty, as the conditions test it. -/
theorem not_isEmpty_iff (l : List Present) : (!l.isEmpty) = true ↔ l ≠ [] := by
  rw [Bool.not_eq_true', List.isEmpty_eq_false_iff]

/-- Settles O21: each conjunct of the test is a clause of R80, the second by the alignment of a pair. -/
theorem brokenCondition : Obligations.BrokenCondition := by
  intro s lock k
  simp only [isBroken, Bool.and_eq_true, not_isEmpty_iff, any_aligned_iff, decide_eq_true_eq, beq_iff_eq,
    and_assoc]

/-! ### The DOWNED condition (R81) -/

theorem isDowned_of_noFirstArc (s : Settings) {k : Case} (h : k.firstArc = none) : isDowned s k = false := by
  simp only [isDowned, h, Bool.and_false, Bool.false_and]

theorem isDowned_of_noLastArc (s : Settings) {k : Case} (h : k.lastArc = none) : isDowned s k = false := by
  cases hfirst : k.firstArc with
  | none => exact isDowned_of_noFirstArc s hfirst
  | some first => simp only [isDowned, hfirst, h, Bool.and_false, Bool.false_and]

theorem isDowned_of_arcs_iff (s : Settings) {k : Case} {first last : Nat} (hfirst : k.firstArc = some first)
    (hlast : k.lastArc = some last) :
    isDowned s k = true ↔
      s.arcPersistence ≤ k.arcCount ∧ (s.arcSpread : Int) ≤ diffTime last first ∧ k.groundCurrent ≠ [] := by
  simp only [isDowned, hfirst, hlast, Bool.and_eq_true, decide_eq_true_eq, not_isEmpty_iff, and_assoc]

/-- A case that meets the condition has both arc times. -/
theorem arcs_of_isDowned {s : Settings} {k : Case} (h : isDowned s k = true) :
    ∃ first last, k.firstArc = some first ∧ k.lastArc = some last := by
  cases hfirst : k.firstArc with
  | none => exact absurd h (Bool.eq_false_iff.1 (isDowned_of_noFirstArc s hfirst))
  | some first =>
    cases hlast : k.lastArc with
    | none => exact absurd h (Bool.eq_false_iff.1 (isDowned_of_noLastArc s hlast))
    | some last => exact ⟨first, last, rfl, rfl⟩

/-- Settles O22: the condition gives both arc times, and with both it is the three clauses of R81. -/
theorem downedCondition : Obligations.DownedCondition := by
  intro s k
  constructor
  · intro downed
    obtain ⟨first, last, hfirst, hlast⟩ := arcs_of_isDowned downed
    obtain ⟨persistent, spread, ground⟩ := (isDowned_of_arcs_iff s hfirst hlast).1 downed
    exact ⟨persistent, ⟨first, last, hfirst, hlast, spread⟩, ground⟩
  · rintro ⟨persistent, ⟨first, last, hfirst, hlast, spread⟩, ground⟩
    exact (isDowned_of_arcs_iff s hfirst hlast).2 ⟨persistent, spread, ground⟩

end Sys2Proof.Machine
end

