-- ==== Sys2Proof/Proofs/BlockBounds.lean ====
section
/-! PROOF. What an event of the blocks may do to the quantities the invariants bound: the time base, the fault window
with the mode and RECOVERING, and the lengths of the queues with the devices of the orders. -/

namespace Sys2Proof.Machine

/-! ### The quantities, and what keeps their bounds -/

/-- What the invariants of the blocks look at. -/
structure Vitals where
  now : Nat
  good : Nat
  window : Nat
  mode : Mode
  recovering : Bool
  intake : Nat
  discovery : Nat
  ordered : List Nat

def vitals (c : Core) : Vitals :=
  { now := c.time.now, good := c.time.good, window := c.window.length, mode := c.mode
    recovering := c.recovery.recovering, intake := c.intake.length, discovery := c.discovery.length
    ordered := c.orders.map (·.device) }

def TimeIn (v : Vitals) : Prop := v.now < Config.day ∧ v.good ≤ 3

def WindowIn (v : Vitals) : Prop :=
  v.window ≤ Config.faultLimit ∧ (v.mode ≠ .halted → v.window < Config.faultLimit)
    ∧ (v.mode = .halted → v.recovering = false)

def QueuesIn (v : Vitals) : Prop :=
  v.intake ≤ Config.intake ∧ v.discovery ≤ Config.discovery ∧ v.ordered.length ≤ Config.orders ∧ v.ordered.Nodup

theorem timeBounded_iff (s : State) : TimeBounded s ↔ TimeIn (vitals s.part.core) := Iff.rfl

theorem windowBounded_iff (s : State) : WindowBounded s ↔ WindowIn (vitals s.part.core) := Iff.rfl

theorem queuesBounded_iff (s : State) : QueuesBounded s ↔ QueuesIn (vitals s.part.core) := by
  simp [QueuesBounded, QueuesIn, vitals]

/-- The three bounds are kept, each by itself. -/
structure Keeps (v w : Vitals) : Prop where
  time : TimeIn v → TimeIn w
  window : WindowIn v → WindowIn w
  queues : QueuesIn v → QueuesIn w

theorem Keeps.refl (v : Vitals) : Keeps v v := ⟨id, id, id⟩

theorem Keeps.trans {u v w : Vitals} (h : Keeps u v) (g : Keeps v w) : Keeps u w :=
  ⟨g.time ∘ h.time, g.window ∘ h.window, g.queues ∘ h.queues⟩

theorem Keeps.of_eq {v w : Vitals} (h : w = v) : Keeps v w := h ▸ Keeps.refl _

/-- An act on an event keeps the bounds. -/
def EvKeeps (e e' : Ev) : Prop := Keeps (vitals e.toCore) (vitals e'.toCore)

theorem EvKeeps.refl (e : Ev) : EvKeeps e e := Keeps.refl _

theorem EvKeeps.trans {e e' e'' : Ev} (h : EvKeeps e e') (g : EvKeeps e' e'') : EvKeeps e e'' := Keeps.trans h g

theorem EvKeeps.of_eq {e e' : Ev} (h : vitals e'.toCore = vitals e.toCore) : EvKeeps e e' := Keeps.of_eq h

/-- An act after a change of nothing that the bounds look at. -/
theorem EvKeeps.after {e e' e'' : Ev} (g : EvKeeps e' e'') (h : vitals e'.toCore = vitals e.toCore) : EvKeeps e e'' :=
  (EvKeeps.of_eq h).trans g

theorem EvKeeps.later {e e' : Ev} (g : EvKeeps e e') (ws : List Work) : EvKeeps e (later ws e') := g

theorem foldl_evKeeps {α : Type} (f : Ev → α → Ev) (h : ∀ e a, EvKeeps e (f e a)) (l : List α) (e : Ev) :
    EvKeeps e (l.foldl f e) :=
  foldl_keeps (EvKeeps e) f (fun x a k => k.trans (h x a)) l e (.refl e)

/-! ### The moves of each quantity -/

theorem keeps_now (v : Vitals) {n : Nat} (h : n < Config.day) : Keeps v { v with now := n } :=
  ⟨fun ⟨_, g⟩ => ⟨h, g⟩, id, id⟩

theorem keeps_good (v : Vitals) {n : Nat} (h : n ≤ 3) : Keeps v { v with good := n } :=
  ⟨fun ⟨g, _⟩ => ⟨g, h⟩, id, id⟩

theorem keeps_window (v : Vitals) {n : Nat} (h : n ≤ v.window) : Keeps v { v with window := n } :=
  ⟨id, fun ⟨a, b, c⟩ => ⟨h.trans a, fun m => h.trans_lt (b m), c⟩, id⟩

theorem keeps_recovered (v : Vitals) : Keeps v { v with recovering := false } :=
  ⟨id, fun ⟨a, b, _⟩ => ⟨a, b, fun _ => rfl⟩, id⟩

/-- Outside HALTED the mode may change to another than HALTED. -/
theorem keeps_mode (v : Vitals) {m : Mode} (h : v.mode ≠ .halted) (g : m ≠ .halted) : Keeps v { v with mode := m } :=
  ⟨id, fun ⟨a, b, _⟩ => ⟨a, fun _ => b h, fun k => absurd k g⟩, id⟩

/-- The third fault in the window halts the part. -/
theorem keeps_halting (v : Vitals) (h : v.mode ≠ .halted) :
    Keeps v { v with window := v.window + 1, mode := .halted, recovering := false } :=
  ⟨id, fun ⟨_, b, _⟩ => ⟨b h, fun k => absurd rfl k, fun _ => rfl⟩, id⟩

/-- Any earlier fault starts a recovery or finds one. -/
theorem keeps_fault (v : Vitals) (h : v.mode ≠ .halted) (g : v.window + 1 < Config.faultLimit) :
    Keeps v { v with window := v.window + 1, recovering := true } :=
  ⟨id, fun _ => ⟨g.le, fun _ => g, fun k => absurd k h⟩, id⟩

theorem keeps_intake (v : Vitals) {n : Nat} (h : n ≤ v.intake ∨ n ≤ Config.intake) :
    Keeps v { v with intake := n } :=
  ⟨id, id, fun ⟨a, b⟩ => ⟨h.elim (·.trans a) id, b⟩⟩

theorem keeps_discovery (v : Vitals) {n : Nat} (h : n ≤ v.discovery ∨ n ≤ Config.discovery) :
    Keeps v { v with discovery := n } :=
  ⟨id, id, fun ⟨a, b, c⟩ => ⟨a, h.elim (·.trans b) id, c⟩⟩

/-- Orders may leave the queue. -/
theorem keeps_fewer (v : Vitals) {l : List Nat} (h : List.Sublist l v.ordered) : Keeps v { v with ordered := l } :=
  ⟨id, id, fun ⟨a, b, c, d⟩ => ⟨a, b, h.length_le.trans c, d.sublist h⟩⟩

/-- An order may join a queue that has room and none for its device (R133). -/
theorem keeps_joined (v : Vitals) {d : Nat} (h : v.ordered.length < Config.orders) (g : d ∉ v.ordered) :
    Keeps v { v with ordered := v.ordered ++ [d] } :=
  ⟨id, id, fun ⟨a, b, _, c⟩ => ⟨a, b, by simpa using h, List.nodup_append.2
    ⟨c, List.nodup_singleton d, fun x hx y hy => by rintro rfl; exact g (List.mem_singleton.1 hy ▸ hx)⟩⟩⟩

/-- An order may take the place of the device's own (R116). -/
theorem keeps_replaced (v : Vitals) {d : Nat} (h : d ∈ v.ordered) :
    Keeps v { v with ordered := (v.ordered.filter (· != d)) ++ [d] } := by
  refine ⟨id, id, fun ⟨a, b, c, k⟩ => ?_⟩
  have fewer : (v.ordered.filter (· != d)).length < v.ordered.length :=
    List.length_filter_lt_length_iff_exists.2 ⟨d, h, by simp⟩
  have joined := keeps_joined { v with ordered := v.ordered.filter (· != d) } (d := d) (fewer.trans_le c) (by simp)
  exact joined.queues ⟨a, b, fewer.le.trans c, k.filter _⟩

/-! ### Internal faults (R172, R173) -/

theorem appendSweep_vitals (t : Table) (e : Ev) : vitals (appendSweep t e).toCore = vitals e.toCore := by
  unfold appendSweep
  split <;> rfl

theorem internalFault_keeps (t : Table) (n : Option Nat) (e : Ev) : EvKeeps e (internalFault t n e) := by
  by_cases halted : e.mode = .halted
  · have record : (internalFault t n e) = raise .both
        (.faultInHalted t n e.time.now (recordFault t n e).record.total) (recordFault t n e) := by
      unfold internalFault
      simp only [show (recordFault t n e).mode = .halted from halted, if_true]
      rfl
    rw [record]
    exact .of_eq rfl
  · obtain ⟨window, third, earlier⟩ := internalFault_window t n e halted
    obtain ⟨-, -, -, -, orders, intake, discovery, -, -, -, -, -, time, -⟩ := internalFault_frame t n e
    by_cases few : e.window.length < 2
    · obtain ⟨mode, recovering⟩ := earlier few
      have moved : vitals (internalFault t n e).toCore
          = { vitals e.toCore with window := e.window.length + 1, recovering := true } := by
        simp [vitals, window, orders, intake, discovery, time, mode, recovering]
      exact (keeps_fault _ halted (Nat.succ_lt_succ few)).trans (.of_eq moved)
    · obtain ⟨mode, recovery⟩ := third (Nat.not_lt.1 few)
      have moved : vitals (internalFault t n e).toCore
          = { vitals e.toCore with window := e.window.length + 1, mode := .halted, recovering := false } := by
        simp [vitals, window, orders, intake, discovery, time, mode, recovery, Recovery.idle]
      exact (keeps_halting _ halted).trans (.of_eq moved)

theorem faultAt_keeps (r : Ref) (e : Ev) : EvKeeps e (faultAt r e) := by
  unfold faultAt
  split
  · exact .refl e
  · exact internalFault_keeps r.table _ { e with met := e.met ++ [r] }

theorem faultsAt_keeps (rs : List Ref) (e : Ev) : EvKeeps e (faultsAt rs e) := by
  refine foldl_evKeeps _ (fun x r => ?_) rs e
  split
  · exact .refl x
  · split
    · exact faultAt_keeps r x
    · exact .refl x

/-! ### Case entries, sensors and the discovery list -/

theorem freeCase_keeps (n : Nat) (k : Case) (r : CaseReason) (d : Option Nat) (e : Ev) :
    EvKeeps e (freeCase n k r d e) :=
  .of_eq (by rw [freeCase_frame]; rfl)

theorem putSensor_keeps (place : Nat) (old new : Sensor) (e : Ev) : EvKeeps e (putSensor place old new e) := by
  unfold putSensor
  split <;> exact .of_eq rfl

theorem discover_keeps (a : Nat) (ps : Option PhaseSet) (e : Ev) : EvKeeps e (discover a ps e) := by
  unfold discover
  split
  · exact .of_eq (by simp [vitals])
  · simp only []
    split
    · refine keeps_discovery (vitals e.toCore) (.inl (?_ : (_ ++ [_] : List _).length ≤ e.discovery.length))
      simp only [List.length_append, List.length_drop, List.length_singleton, Config.discovery] at *
      omega
    · refine keeps_discovery (vitals e.toCore) (.inr (?_ : (_ ++ [_] : List _).length ≤ Config.discovery))
      simp only [List.length_append, List.length_singleton] at *
      omega

/-! ### The order queue (R131 to R136) -/

theorem setOrder_keeps (d : Nat) (f : Order → Order) (h : ∀ o, (f o).device = o.device) (e : Ev) :
    EvKeeps e (setOrder d f e) :=
  .of_eq (by simp [vitals, ← setOrder_orderedDevices d f h e])

/-- The devices with an order, once that of one has left the queue. -/
theorem map_device_filter (d : Nat) (l : List Order) :
    (l.filter fun o => o.device != d).map (·.device) = (l.map (·.device)).filter (· != d) := by
  rw [List.filter_map]; rfl

theorem removeOrder_keeps (d : Nat) (e : Ev) : EvKeeps e (removeOrder d e) :=
  keeps_fewer (vitals e.toCore) (List.filter_sublist.map _)

theorem orderNotice_keeps (o : Order) (a : OrderOutcome) (r : Option RefusalReason) (w : Option WithdrawReason)
    (e : Ev) : EvKeeps e (orderNotice o a r w e) :=
  .of_eq (by rw [orderNotice_core])

theorem takeOut_keeps (w : WithdrawReason) (o : Order) (e : Ev) : EvKeeps e (takeOut w o e) := by
  unfold takeOut
  simp only []
  split
  · exact (removeOrder_keeps _ e).trans (orderNotice_keeps o _ _ _ _)
  · exact removeOrder_keeps _ e

theorem withdraw_keeps (w : WithdrawReason) (d : Nat) (e : Ev) : EvKeeps e (withdraw w d e) := by
  unfold withdraw
  split
  · exact .refl e
  · split
    · exact .refl e
    · simp only []
      split
      · exact faultsAt_keeps _ e
      · exact (faultsAt_keeps _ e).trans (takeOut_keeps w _ _)

theorem withdrawEach_keeps (w : WithdrawReason) (ds : List Nat) (e : Ev) : EvKeeps e (withdrawEach w ds e) := by
  refine foldl_evKeeps _ (fun x d => ?_) ds e
  split
  · exact .refl x
  · exact withdraw_keeps w d x

theorem judgeCloses_keeps (reads : Core → Nat → List Ref) (f : Nat → Device → Ev → Ev)
    (h : ∀ d v e, EvKeeps e (f d v e)) (e : Ev) : EvKeeps e (judgeCloses reads f e) := by
  refine foldl_evKeeps _ (fun x d => ?_) _ e
  split
  · exact faultsAt_keeps _ x
  · split
    · split
      · exact .refl x
      · exact h d _ x
    · exact .refl x

theorem withdrawBarredBySegment_keeps (s : Nat) (e : Ev) : EvKeeps e (withdrawBarredBySegment s e) := by
  refine judgeCloses_keeps _ _ (fun d v x => ?_) e
  split
  · exact withdraw_keeps _ d x
  · exact .refl x

theorem withdrawBarred_keeps (e : Ev) : EvKeeps e (withdrawBarred e) := by
  refine judgeCloses_keeps _ _ (fun d v x => ?_) e
  split
  · exact withdraw_keeps _ d x
  · split
    · exact withdraw_keeps _ d x
    · exact .refl x

theorem sendOrder_keeps (env : Env) (o : Order) (link : Nat) (e : Ev) : EvKeeps e (sendOrder env o link e) := by
  have sent := setOrder_keeps o.device (fun x => { x with
    state := .sent, resend := false, sends := some (o.sends.getD 0 + 1)
    deadline := some (addTime e.time.now env.settings.replyTimeout) }) (fun _ => rfl) e
  unfold sendOrder
  simp only []
  split <;> exact sent

/-- An order is left to the sweep. -/
theorem leave_keeps (d : Nat) (e : Ev) : EvKeeps e (setOrder d (fun o => { o with left := true }) e) :=
  setOrder_keeps d (fun o => { o with left := true }) (fun _ => rfl) e

theorem arbitrateFrom_keeps (env : Env) (n : Nat) (e : Ev) : EvKeeps e (arbitrateFrom env n e) := by
  induction n generalizing e with
  | zero => exact .refl e
  | succ n ih =>
    unfold arbitrateFrom
    split
    · exact .refl e
    · split
      · exact .refl e
      · split
        · exact ((leave_keeps _ e).trans (faultAt_keeps _ _)).trans (ih _)
        · split
          · exact sendOrder_keeps env _ _ e
          · exact (leave_keeps _ e).trans (ih _)

theorem arbitrate_keeps (env : Env) (e : Ev) : EvKeeps e (arbitrate env e) := arbitrateFrom_keeps env _ e

/-- Past the order's joining, queuing it is the arbiter's act. -/
theorem queueOrder_keeps_from (env : Env) (d : Nat) (a : Action) (k : OrderClass) (g : OrderOrigin) (e : Ev) :
    Keeps { vitals e.toCore with ordered := e.orders.map (·.device) ++ [d] }
      (vitals (queueOrder env d a k g e).toCore) := by
  refine Keeps.trans (.of_eq ?_) (arbitrate_keeps env _)
  simp [vitals]

theorem queueOrder_keeps (env : Env) (d : Nat) (a : Action) (k : OrderClass) (g : OrderOrigin) {e : Ev}
    (h : grants e.toCore d = true) : EvKeeps e (queueOrder env d a k g e) := by
  obtain ⟨room, new⟩ := grants_room h
  exact (keeps_joined (vitals e.toCore) (by simpa [vitals] using room) new).trans (queueOrder_keeps_from env d a k g e)

theorem requestPoll_keeps (env : Env) (d : Nat) (e : Ev) : EvKeeps e (requestPoll env d e) := by
  unfold requestPoll
  split
  · rename_i h
    split
    · exact faultAt_keeps _ e
    · refine queueOrder_keeps env d _ _ _ (e := setRun d _ e) ?_
      exact (Bool.and_eq_true_iff.1 h).2
  · exact .refl e

theorem requestPolls_keeps (env : Env) (e : Ev) : EvKeeps e (requestPolls env e) := by
  unfold requestPolls
  split
  · exact (faultsAt_keeps _ e).trans (foldl_evKeeps _ (fun x d => requestPoll_keeps env d x) _ _)
  · exact .refl e

theorem pollFallsDue_keeps (env : Env) (d : Nat) (e : Ev) : EvKeeps e (pollFallsDue env d e) := by
  unfold pollFallsDue
  split
  · exact requestPolls_keeps env e
  · exact .refl e

/-! ### The Case Table (R70 to R94) -/

theorem confirmTest_keeps (env : Env) (n : Nat) (e : Ev) : EvKeeps e (confirmTest env n e) := by
  unfold confirmTest
  split
  · exact .refl e
  · split
    · split
      · exact .refl e
      · exact .of_eq rfl
    · exact .refl e

theorem restorationTest_keeps (n : Nat) (k : Case) (e : Ev) : EvKeeps e (restorationTest n k e) := by
  unfold restorationTest
  split
  · split
    · exact freeCase_keeps n k _ _ e
    · exact .refl e
  · split
    · exact freeCase_keeps n k _ _ e
    · exact .refl e
  · exact .refl e

theorem admission_keeps (env : Env) (n : Nat) (it : Item) (e : Ev) : EvKeeps e (admission env n it e) := by
  unfold admission
  split
  · exact .refl e
  · simp only []
    split
    · split
      · exact (restorationTest_keeps n _ _).after rfl
      · exact .of_eq rfl
    · exact (confirmTest_keeps env n _).after rfl

theorem openIn_keeps (env : Env) (n : Nat) (it : Item) (e : Ev) : EvKeeps e (openIn env n it e) :=
  (admission_keeps env n it _).after rfl

theorem openCase_keeps (env : Env) (it : Item) (e : Ev) : EvKeeps e (openCase env it e).1 := by
  unfold openCase
  split
  · split
    · exact faultAt_keeps _ e
    · exact openIn_keeps env _ it e
  · split
    · exact faultAt_keeps _ e
    · split
      · exact .of_eq rfl
      · split
        · exact .refl e
        · exact (freeCase_keeps _ _ _ _ e).trans (openIn_keeps env _ it _)

theorem mergeInto_keeps (n : Nat) (e : Ev) (z : Nat) : EvKeeps e (mergeInto n e z) := by
  unfold mergeInto
  split
  · exact (freeCase_keeps z _ _ _ _).after rfl
  · exact .refl e

theorem mergeDescendants_keeps (env : Env) (n x : Nat) (p : Phase) (e : Ev) :
    EvKeeps e (mergeDescendants env n x p e) := by
  unfold mergeDescendants
  split
  · exact faultAt_keeps _ e
  · split
    · exact .refl e
    · exact (foldl_evKeeps _ (mergeInto_keeps n) _ e).trans (confirmTest_keeps env n _)

theorem openOverCase_keeps (d n : Nat) (e : Ev) : EvKeeps e (openOverCase d n e) := by
  unfold openOverCase
  split
  · exact .refl e
  · split
    · exact freeCase_keeps n _ _ _ e
    · exact (withdrawBarredBySegment_keeps _ _).after rfl
    · exact (withdrawEach_keeps _ _ _).after rfl
    · exact .refl e
    · exact .refl e

theorem recloseOverCase_keeps (d n : Nat) (e : Ev) : EvKeeps e (recloseOverCase d n e) := by
  unfold recloseOverCase
  split
  · exact .refl e
  · split
    · exact freeCase_keeps n _ _ _ e
    · exact .refl e

theorem onDownstreamCases_keeps (v : Device) (f : Nat → Ev → Ev) (h : ∀ n e, EvKeeps e (f n e)) (e : Ev) :
    EvKeeps e (onDownstreamCases v f e) := by
  unfold onDownstreamCases
  split
  · exact .refl e
  · refine (faultsAt_keeps _ e).trans (foldl_evKeeps _ (fun x n => ?_) _ _)
    split
    · exact .refl x
    · split
      · exact h n x
      · exact .refl x

theorem freeWatchOn_keeps (s : Nat) (e : Ev) : EvKeeps e (freeWatchOn s e) := by
  refine foldl_evKeeps _ (fun x n => ?_) _ e
  split
  · exact .refl x
  · exact freeCase_keeps n _ _ _ x

/-! ### The Isolation Sequencer (R112 to R128) -/

theorem judgeDeadline_keeps (env : Env) (n : Nat) (e : Ev) : EvKeeps e (judgeDeadline env n e) := by
  unfold judgeDeadline
  split
  · split
    · exact .refl e
    · split
      · split
        · exact faultAt_keeps _ e
        · split
          · exact .refl e
          · exact .of_eq rfl
      · exact .refl e
  · exact .refl e

theorem isolate_keeps (n : Nat) (reason : CaseReason) (e : Ev) : EvKeeps e (isolate n reason e) := by
  unfold isolate
  split
  · split
    · exact .refl e
    · split
      · split
        · exact faultAt_keeps _ e
        · exact ((withdrawBarredBySegment_keeps _ _).after (by rfl)).later _
      · exact .refl e
  · exact .refl e

theorem beginWalk_keeps (env : Env) (n : Nat) (e : Ev) : EvKeeps e (beginWalk env n e) := by
  unfold beginWalk
  split
  · exact .refl e
  · split
    · exact .refl e
    · split
      · split
        · exact .of_eq rfl
        · exact ((judgeDeadline_keeps env n _).after (by rfl)).later _
      · exact .refl e

theorem passCase_keeps (env : Env) (n : Nat) (e : Ev) : EvKeeps e (passCase env n e) := by
  unfold passCase
  split <;> exact .of_eq rfl

theorem isolateConfirmed_keeps (reason : CaseReason) (e : Ev) : EvKeeps e (isolateConfirmed reason e) := by
  unfold isolateConfirmed
  split
  · exact faultsAt_keeps _ e
  · exact .refl e

theorem failPlan_keeps (w : Walk) (k : Case) (r : IsolationRecord) (e : Ev) : EvKeeps e (failPlan w k r e) := by
  unfold failPlan
  simp only []
  split
  · exact .of_eq rfl
  · split <;> split <;> exact .of_eq rfl

theorem passOver_keeps (w : Walk) (k : Case) (r : IsolationRecord) (p : Plan) (e : Ev) :
    EvKeeps e (passOver w k r p e) := by
  unfold passOver
  split <;> exact .of_eq rfl

theorem stepDone_keeps (w : Walk) (k : Case) (r : IsolationRecord) (p : Plan) (d : Nat) (e : Ev) :
    EvKeeps e (stepDone w k r p d e) := by
  unfold stepDone
  split
  · exact .of_eq rfl
  · split <;> exact .of_eq rfl

theorem waitRoom_keeps (w : Walk) (d : Option Nat) (e : Ev) : EvKeeps e (waitRoom w d e) := by
  unfold waitRoom
  simp only []
  split <;> exact .of_eq rfl

/-- Queuing a step's order leaves the quantities as queuing an order does. -/
theorem queueIsolation_vitals (env : Env) (w : Walk) (d : Nat) (e : Ev) :
    vitals (queueIsolation env w d e).toCore
      = vitals (queueOrder env d .open_ .isolation (.case w.serial) e).toCore := by
  unfold queueIsolation
  simp only []
  split <;> rfl

/-- A step's order takes the place of a QUEUED order of its device, which it withdraws (R116). -/
theorem queueIsolation_withdraw_keeps (env : Env) (w : Walk) {d : Nat} {o : Order} {v : Device} {e : Ev}
    (running : e.mode ≠ .halted) (defined : entryAt e.devices d = some v) (sound : badAt e.devices d = false)
    (order : orderOf e.toCore d = some o) (queued : o.state = .queued) :
    EvKeeps e (queueIsolation env w d (withdraw .isolationOverride d e)) := by
  have device := orderOf_device order
  have member : d ∈ e.orders.map (·.device) := List.mem_map.2 ⟨o, List.mem_of_find?_eq_some order, device⟩
  rw [withdraw_queued _ order queued defined sound running]
  refine (keeps_replaced (vitals e.toCore) member).trans (.trans (.of_eq ?_)
    (.trans (queueOrder_keeps_from env d .open_ .isolation (.case w.serial) _) (.of_eq (queueIsolation_vitals env w d _))))
  simp [vitals, orderWithdrawn, device, map_device_filter]

theorem judgeClosed_keeps (env : Env) (w : Walk) {d : Nat} {v : Device} {e : Ev} (running : e.mode ≠ .halted)
    (defined : entryAt e.devices d = some v) (sound : badAt e.devices d = false) :
    EvKeeps e (judgeClosed env w d e) := by
  unfold judgeClosed
  split
  · rename_i o order
    split
    · rename_i queued _
      split
      · exact waitRoom_keeps w _ e
      · exact queueIsolation_withdraw_keeps env w running defined sound order queued
    · rename_i queued _
      split
      · exact waitRoom_keeps w _ e
      · exact queueIsolation_withdraw_keeps env w running defined sound order queued
    · exact .of_eq rfl
  · split
    · rename_i granted
      exact (queueOrder_keeps env d _ _ _ granted).trans (.of_eq (queueIsolation_vitals env w d e))
    · exact waitRoom_keeps w _ e

theorem judgeDevice_keeps (env : Env) (w : Walk) (k : Case) (r : IsolationRecord) (p : Plan) (d : Nat) {e : Ev}
    (running : e.mode ≠ .halted) : EvKeeps e (judgeDevice env w k r p d e) := by
  unfold judgeDevice
  split
  · exact (waitRoom_keeps w _ e).trans (faultAt_keeps _ _)
  · rename_i sound
    split
    · split
      · exact failPlan_keeps w k r e
      · exact passOver_keeps w k r p e
    · rename_i v defined
      split
      · exact stepDone_keeps w k r p d e
      · exact judgeClosed_keeps env w running defined (by simpa using sound)

theorem withStep_keeps (n : Nat) (f : Walk → Case → IsolationRecord → Plan → Nat → Ev → Ev)
    (h : ∀ w k r p d e, e.mode ≠ .halted → EvKeeps e (f w k r p d e)) (e : Ev) : EvKeeps e (withStep n f e) := by
  have failed : ∀ (w : Walk) (k : Case) (r : IsolationRecord), EvKeeps e (match w.phase with
      | .main => failPlan w k r e
      | .remainder => dropWalk n e) := by
    intro w k r
    cases w.phase
    · exact failPlan_keeps w k r e
    · exact .of_eq rfl
  unfold withStep
  split
  · exact .refl e
  · rename_i running
    split
    · exact .refl e
    · split
      · exact faultAt_keeps _ e
      · split
        · exact .refl e
        · split
          · exact .refl e
          · split
            · exact .refl e
            · split
              · exact (waitRoom_keeps _ _ e).trans (faultAt_keeps _ _)
              · split
                · exact failed _ _ _
                · split
                  · exact failed _ _ _
                  · exact h _ _ _ _ _ e running

theorem judgeWalk_keeps (env : Env) (n : Nat) (e : Ev) : EvKeeps e (judgeWalk env n e) :=
  withStep_keeps n _ (fun w k r p d _ running => judgeDevice_keeps env w k r p d running) e

theorem rejudge_keeps (env : Env) (n : Nat) (e : Ev) : EvKeeps e (rejudge env n e) := by
  unfold rejudge
  split
  · exact .refl e
  · split
    · exact .refl e
    · exact judgeWalk_keeps env n e

theorem ownDone_keeps (n d : Nat) (e : Ev) : EvKeeps e (ownDone n d e) := by
  refine withStep_keeps n _ (fun w k r p _ x _ => ?_) e
  split
  · exact stepDone_keeps w k r p d x
  · split
    · exact failPlan_keeps w k r x
    · exact passOver_keeps w k r p x

theorem announce_keeps (d : Nat) (e : Ev) : EvKeeps e (announce d e) := by
  unfold announce
  split <;> exact .of_eq rfl

theorem deviceOpened_keeps (d : Nat) (e : Ev) : EvKeeps e (deviceOpened d e) := by
  unfold deviceOpened
  split <;> exact .of_eq rfl

theorem judgeRoom_keeps (e : Ev) : EvKeeps e (judgeRoom e) := by
  unfold judgeRoom
  split
  · exact .refl e
  · split <;> exact .of_eq rfl

theorem judgeRoomNext_keeps (n : Nat) (e : Ev) : EvKeeps e (judgeRoomNext n e) := by
  unfold judgeRoomNext
  split <;> exact .of_eq rfl

theorem handOver_keeps (o : Order) (a : OrderOutcome) (r : Option RefusalReason) (e : Ev) :
    EvKeeps e (handOver o a r e) := by
  unfold handOver
  split
  · exact orderNotice_keeps o a r none e
  · exact .refl e
  · split
    · exact .refl e
    · split <;> exact .of_eq rfl

/-! ### The device link (R137 to R148) -/

theorem caseEffects_keeps (v : Device) (d : Nat) (new : DeviceState) (e : Ev) : EvKeeps e (caseEffects v d new e) := by
  cases new
  · exact .refl e
  · exact .refl e
  · exact onDownstreamCases_keeps v _ (openOverCase_keeps d) e
  · exact onDownstreamCases_keeps v _ (recloseOverCase_keeps d) e
  · exact onDownstreamCases_keeps v _ (openOverCase_keeps d) e

theorem endPoll_keeps (d : Nat) {e e' : Ev} (h : EvKeeps e e') : EvKeeps e (endPoll d e') := h

theorem recordState_keeps (env : Env) (d : Nat) (new : DeviceState) (cause : RecordingCause) (e : Ev) :
    EvKeeps e (recordState env d new cause e) := by
  unfold recordState
  split
  · exact .refl e
  · split
    · exact .refl e
    · simp only []
      split
      · exact endPoll_keeps d (((caseEffects_keeps _ d new _).after (by rfl)).later _)
      · exact endPoll_keeps d ((caseEffects_keeps _ d new _).after rfl)

theorem markReachable_keeps (d : Nat) (e : Ev) : EvKeeps e (markReachable d e) := by
  unfold markReachable
  split
  · exact .refl e
  · split <;> exact .of_eq rfl

theorem markUnreachable_keeps (env : Env) (o : Order) (e : Ev) : EvKeeps e (markUnreachable env o e) := by
  unfold markUnreachable
  split
  · exact .refl e
  · split <;> exact .of_eq rfl

theorem completeDone_keeps (env : Env) (o : Order) (s : DeviceState) (e : Ev) : EvKeeps e (completeDone env o s e) :=
  (removeOrder_keeps o.device e).trans (recordState_keeps env o.device s _ _)

theorem completeRefused_keeps (o : Order) (r : RefusalReason) (e : Ev) : EvKeeps e (completeRefused o r e) :=
  removeOrder_keeps o.device e

theorem completeFailed_keeps (env : Env) (o : Order) (e : Ev) : EvKeeps e (completeFailed env o e) :=
  (removeOrder_keeps o.device e).trans (markUnreachable_keeps env o _)

theorem takeReply_keeps (env : Env) (d n : Nat) (x : ReplyOutcome) (e : Ev) : EvKeeps e (takeReply env d n x e) := by
  unfold takeReply
  split
  · exact completeDone_keeps env _ _ e
  · exact completeRefused_keeps _ _ e
  · exact recordState_keeps env d _ _ e
  · exact .refl e

theorem takeDecoded_keeps (env : Env) (link : Nat) (f : DeviceFrame) (e : Ev) :
    EvKeeps e (takeDecoded env link f e) := by
  unfold takeDecoded
  split
  · exact .refl e
  · split
    · exact faultAt_keeps _ e
    · split
      · exact (markReachable_keeps _ e).trans (takeReply_keeps env _ _ _ _)
      · exact (markReachable_keeps _ e).trans (recordState_keeps env _ _ _ _)

theorem takeDeviceFrame_keeps (env : Env) (f : Frame) (e : Ev) : EvKeeps e (takeDeviceFrame env f e) := by
  unfold takeDeviceFrame
  split
  · exact .refl e
  · exact takeDecoded_keeps env _ _ e

theorem transmitEnd_keeps (env : Env) (e : Ev) : EvKeeps e (transmitEnd env e) := by
  unfold transmitEnd
  split
  · exact .refl e
  · exact (arbitrate_keeps env _).after rfl

theorem replyDeadline_keeps (env : Env) (d : Nat) (e : Ev) : EvKeeps e (replyDeadline env d e) := by
  unfold replyDeadline
  split
  · exact .refl e
  · split
    · split
      · exact (leave_keeps d e).trans (faultAt_keeps _ _)
      · split
        · exact completeFailed_keeps env _ e
        · exact (setOrder_keeps d (fun o => { o with resend := true }) (fun _ => rfl) e).trans (arbitrate_keeps env _)
        · exact completeFailed_keeps env _ e
    · exact .refl e

theorem settleExpired_keeps (d : Nat) (e : Ev) : EvKeeps e (settleExpired d e) := by
  unfold settleExpired
  split
  · exact .refl e
  · split
    · exact .refl e
    · split
      · split
        · exact faultAt_keeps _ e
        · exact .of_eq rfl
      · exact .refl e

end Sys2Proof.Machine
end

