-- ==== Sys2Proof/Proofs/EventBounds.lean ====
section
/-! PROOF. Evidence, intake, the sweep, the time base and the commands' acts in the blocks keep the bounds, and so
does an event's work to its end. -/

namespace Sys2Proof.Machine

/-! ### Evidence (R47 to R64) -/

theorem attributeTailDead_keeps (env : Env) (it : Item) (e : Ev) : EvKeeps e (attributeTailDead env it e) := by
  unfold attributeTailDead
  split
  · exact faultAt_keeps _ e
  · exact .refl e
  · simp only []
    split
    · exact (admission_keeps env _ it e).trans (mergeDescendants_keeps env _ _ _ _)
    · exact admission_keeps env _ it e
  · have asked := openCase_keeps env it e
    split
    · rename_i x n answer
      rw [answer] at asked
      exact asked.trans (mergeDescendants_keeps env n _ _ x)
    · rename_i x _ _ answer
      rw [answer] at asked
      exact asked

theorem attributeOwn_keeps (env : Env) (opens : Bool) (it : Item) (e : Ev) : EvKeeps e (attributeOwn env opens it e) := by
  unfold attributeOwn
  split
  · exact faultAt_keeps _ e
  · exact .refl e
  · exact admission_keeps env _ it e
  · split
    · exact openCase_keeps env it e
    · exact .refl e

theorem attributeCoverage_keeps (env : Env) (it : Item) (zs : List Nat) (e : Ev) :
    EvKeeps e (attributeCoverage env it zs e) := by
  induction zs generalizing e with
  | nil => exact .refl e
  | cons z zs ih =>
    unfold attributeCoverage
    split
    · exact faultAt_keeps _ e
    · exact (admission_keeps env _ it e).trans (ih _)
    · exact ih e

theorem attributeBeyond_keeps (env : Env) (it : Item) (e : Ev) : EvKeeps e (attributeBeyond env it e) := by
  unfold attributeBeyond
  split
  · exact faultAt_keeps _ e
  · exact attributeCoverage_keeps env it _ e

theorem attributeHead_keeps (env : Env) (opens : Bool) (it : Item) (e : Ev) :
    EvKeeps e (attributeHead env opens it e) := by
  unfold attributeHead
  split
  · exact faultAt_keeps _ e
  · exact attributeBeyond_keeps env it e
  · exact (admission_keeps env _ it e).trans (attributeBeyond_keeps env it _)
  · split
    · have asked := openCase_keeps env it e
      split
      · rename_i x answer
        rw [answer] at asked
        exact asked
      · rename_i x _ _ answer
        rw [answer] at asked
        exact asked.trans (attributeBeyond_keeps env it x)
    · exact attributeBeyond_keeps env it e

theorem attributeItem_keeps (env : Env) (it : Item) (e : Ev) : EvKeeps e (attributeItem env it e) := by
  unfold attributeItem
  split
  · exact attributeTailDead_keeps env it e
  · exact attributeOwn_keeps env false it e
  · exact attributeHead_keeps env true it e
  · exact attributeHead_keeps env false it e
  · exact attributeOwn_keeps env true it e
  · exact attributeOwn_keeps env false it e

theorem judgeItem_keeps (env : Env) (it : Item) (e : Ev) : EvKeeps e (judgeItem env it e) := by
  unfold judgeItem
  split
  · split
    · exact faultAt_keeps _ e
    · split
      · exact .of_eq rfl
      · exact (attributeItem_keeps env it e).later _
  · exact .of_eq rfl

theorem handleItem_keeps (env : Env) (e : Ev) : EvKeeps e (handleItem env e) := by
  unfold handleItem
  split
  · exact .refl e
  · exact (judgeItem_keeps env _ _).after rfl

/-! ### Intake (R37 to R44) -/

theorem arriveField_keeps (f : Frame) (e : Ev) : EvKeeps e (arriveField f e) := by
  unfold arriveField
  split
  · unfold discardFrame
    split
    · exact .refl e
    · split <;> exact .of_eq rfl
  · split
    · exact .refl e
    · refine keeps_intake (vitals e.toCore) (.inr (?_ : (_ ++ [_] : List _).length ≤ Config.intake))
      simp only [List.length_append, List.length_singleton] at *
      omega

theorem derive_keeps (env : Env) (r : Sensor) (t : Nat) (l : List PhaseRecord) (e : Ev) :
    EvKeeps e (derive env r t l e) := by
  unfold derive
  simp only []
  split <;> exact .of_eq rfl

theorem admitReport_keeps (env : Env) (n : Nat) (v : Sensor) (r : Report) (t : Nat) (e : Ev) :
    EvKeeps e (admitReport env n v r t e) := by
  unfold admitReport
  simp only []
  split
  · exact (putSensor_keeps _ _ _ e).trans (derive_keeps env _ _ _ _)
  · exact putSensor_keeps _ _ _ e

theorem judgeReport_keeps (env : Env) (a : Nat) (r : Report) (t : Nat) (e : Ev) :
    EvKeeps e (judgeReport env a r t e) := by
  unfold judgeReport
  split
  · exact discover_keeps a none e
  · split
    · exact faultAt_keeps _ e
    · split
      · exact .refl e
      · split
        · exact admitReport_keeps env _ _ r t e
        · exact .of_eq rfl

/-- The oldest entry leaves the intake queue (R39). -/
theorem dropIntake_keeps {x : IntakeEntry} {rest : List IntakeEntry} {e : Ev} (h : e.intake = x :: rest) :
    EvKeeps e { e with intake := rest } := by
  refine keeps_intake (vitals e.toCore) (.inl ?_)
  show rest.length ≤ e.intake.length
  rw [h]
  exact Nat.le_succ _

theorem takeReport_keeps (env : Env) (e : Ev) : EvKeeps e (takeReport env e) := by
  unfold takeReport
  split
  · rename_i oldest
    split
    · exact (dropIntake_keeps oldest).trans ((judgeReport_keeps env _ _ _ _).after rfl)
    · exact .refl e
  · exact .refl e

theorem judgeHello_keeps (a : Nat) (ps : PhaseSet) (t : Nat) (e : Ev) : EvKeeps e (judgeHello a ps t e) := by
  unfold judgeHello
  split
  · exact discover_keeps a _ e
  · split
    · exact faultAt_keeps _ e
    · split
      · exact .refl e
      · exact putSensor_keeps _ _ _ e

theorem takeHello_keeps (e : Ev) : EvKeeps e (takeHello e) := by
  unfold takeHello
  split
  · rename_i oldest
    split
    · exact (dropIntake_keeps oldest).trans (judgeHello_keeps _ _ _ _)
    · exact .refl e
  · exact .refl e

theorem judgeSilence_keeps (env : Env) (a : Nat) (e : Ev) : EvKeeps e (judgeSilence env a e) := by
  unfold judgeSilence
  split
  · exact .refl e
  · split
    · exact .refl e
    · split
      · split
        · exact faultAt_keeps _ e
        · split
          · exact .of_eq rfl
          · exact putSensor_keeps _ _ _ e
      · exact .refl e

theorem silenceExpiry_keeps (env : Env) (a : Nat) (e : Ev) : EvKeeps e (silenceExpiry env a e) := by
  unfold silenceExpiry
  split
  · exact .refl e
  · exact judgeSilence_keeps env a e

theorem deferredSilence_keeps (env : Env) (a : Nat) (e : Ev) : EvKeeps e (deferredSilence env a e) := by
  unfold deferredSilence
  split
  · exact (judgeSilence_keeps env a _).after rfl
  · exact .refl e

theorem silenceAll_keeps (env : Env) (e : Ev) : EvKeeps e (silenceAll env e) := by
  unfold silenceAll
  split
  · exact .refl e
  · exact (faultsAt_keeps _ e).trans (foldl_evKeeps _ (fun x a => silenceExpiry_keeps env a x) _ _)

/-! ### The sweep (R174 to R180) -/

theorem loseCase_keeps (n : Nat) (e : Ev) : EvKeeps e (loseCase n e) := by
  unfold loseCase
  split
  · exact .of_eq rfl
  · exact (freeCase_keeps n _ _ _ _).after rfl

theorem fallCase_keeps (n : Nat) (e : Ev) : EvKeeps e (fallCase n e) := by
  unfold fallCase
  split
  · exact .refl e
  · split
    · exact .refl e
    · split
      · exact freeCase_keeps n _ _ _ e
      · exact (withdrawBarredBySegment_keeps _ _).after rfl
      · exact EvKeeps.after ((withdrawEach_keeps _ _ _).trans (withdrawBarredBySegment_keeps _ _)) (by rfl)
      · exact .refl e
      · exact .refl e

/-- The fall leaves a part that was not HALTED in CONFIGURING (R179). -/
theorem forcedFall_keeps {e : Ev} (h : e.mode ≠ .halted) : EvKeeps e (forcedFall e) := by
  have falls : ∀ (e : Ev) n, EvKeeps e (if e.mode = .halted then e else fallCase n e) := by
    intro x n
    split
    · exact .refl x
    · exact fallCase_keeps n x
  exact (keeps_mode (vitals e.toCore) h (m := .configuring) (by decide)).trans
    ((foldl_evKeeps _ falls _ { e with mode := .configuring }).trans (withdrawEach_keeps _ _ _))

theorem reloadTable_keeps (img : Image) (t : Table) (e : Ev) : EvKeeps e (reloadTable img t e) := by
  cases t
  case segment => exact (withdrawBarred_keeps _).after rfl
  case device => exact (withdrawBarred_keeps _).after rfl
  case roster => exact keeps_discovery (vitals e.toCore) (.inl (List.length_filter_le _ _))
  case plan => exact .of_eq rfl
  case case => exact .refl e
  case store => exact .refl e

theorem undefineTable_keeps (t : Table) (e : Ev) : EvKeeps e (undefineTable t e) := by
  cases t <;> exact .of_eq rfl

theorem fallInMonitoring_keeps (e : Ev) : EvKeeps e (fallInMonitoring e) := by
  unfold fallInMonitoring
  split
  · rename_i mode
    exact forcedFall_keeps (by rw [mode]; decide)
  · exact .of_eq rfl
  · exact .refl e

theorem storeFailure_keeps (t : Table) (bad : Nat) (e : Ev) : EvKeeps e (storeFailure t bad e) := by
  unfold storeFailure
  simp only []
  split
  · exact (internalFault_keeps _ _ _).after rfl
  · exact EvKeeps.later (EvKeeps.after ((internalFault_keeps _ _ _).trans
      ((undefineTable_keeps t _).after (e := internalFault _ _ _) (by rfl))) (by rfl)) _

theorem reload_keeps (env : Env) (ok : Bool) (t : Table) (e : Ev) : EvKeeps e (reload env ok t e) := by
  unfold reload
  simp only []
  split
  · exact EvKeeps.later ((reloadTable_keeps _ t _).after (by rfl)) _
  · exact storeFailure_keeps t _ e

theorem loseCases_keeps (bad : List Nat) (e : Ev) : EvKeeps e (loseCases bad e) :=
  (foldl_evKeeps _ (fun x n => loseCase_keeps n x) _ _).after rfl

theorem sweepTable_keeps (env : Env) (saving ok : Bool) (t : Table) (e : Ev) :
    EvKeeps e (sweepTable env saving ok t e) := by
  unfold sweepTable
  simp only []
  split
  · exact .of_eq rfl
  · split
    · exact (loseCases_keeps _ e).later _
    · split
      · exact .of_eq rfl
      · exact reload_keeps env ok t e

theorem sweepStep_keeps (env : Env) (saving ok : Bool) (e : Ev) : EvKeeps e (sweepStep env saving ok e) := by
  unfold sweepStep
  split
  · split
    · exact .refl e
    · exact (sweepTable_keeps env saving ok _ _).after rfl
  · exact .refl e

theorem waitingReload_keeps (env : Env) (ok : Bool) (e : Ev) : EvKeeps e (waitingReload env ok e) := by
  unfold waitingReload
  split
  · exact .refl e
  · exact (reload_keeps env ok _ _).after rfl

theorem validateReload_keeps (e : Ev) : EvKeeps e (validateReload e) := by
  unfold validateReload
  split
  · rename_i h
    split
    · exact .refl e
    · have running : e.mode ≠ .halted := by rw [h.2]; decide
      exact EvKeeps.after (forcedFall_keeps (by exact running)) rfl
  · exact .refl e

theorem failLost_keeps (d : Nat) (e : Ev) : EvKeeps e (failLost d e) := by
  unfold failLost
  split
  · exact .refl e
  · exact removeOrder_keeps d e

theorem endRecovery_keeps (env : Env) (e : Ev) : EvKeeps e (endRecovery env e) := keeps_recovered (vitals e.toCore)

theorem takeUpLeft_keeps (env : Env) (e : Ev) : EvKeeps e (takeUpLeft env e) :=
  EvKeeps.after (arbitrate_keeps env _) (by simp [vitals])

theorem sweepEnd_keeps (env : Env) (t : Table) (e : Ev) : EvKeeps e (sweepEnd env t e) := by
  have ended : ∀ x : Ev, EvKeeps x
      (if x.recovery.recovering = true ∧ x.recovery.sweep = [] then endRecovery env x else x) := by
    intro x
    split
    · exact endRecovery_keeps env x
    · exact .refl x
  unfold sweepEnd
  split
  · cases t
    case device => exact (takeUpLeft_keeps env e).trans (ended _)
    all_goals exact ended e
  · exact .refl e

theorem expireWindow_keeps (n : Nat) (e : Ev) : EvKeeps e (expireWindow n e) := by
  unfold expireWindow
  split
  · split
    · exact .refl e
    · split
      · split
        · exact faultAt_keeps _ e
        · exact freeCase_keeps n _ _ _ e
      · exact .refl e
  · exact .refl e

theorem heldWindow_keeps (n : Nat) (e : Ev) : EvKeeps e (heldWindow n e) := by
  unfold heldWindow
  split
  · exact (expireWindow_keeps n _).after rfl
  · exact .refl e

theorem heldAuthority_keeps (env : Env) (e : Ev) : EvKeeps e (heldAuthority env e) := by
  unfold heldAuthority
  split
  · simp only []
    split
    · exact (isolateConfirmed_keeps _ _).after rfl
    · exact .of_eq rfl
  · exact .refl e

theorem heldLate_keeps (env : Env) (n : Nat) (e : Ev) : EvKeeps e (heldLate env n e) := by
  unfold heldLate
  split
  · exact (judgeDeadline_keeps env n _).after rfl
  · exact .refl e

theorem heldRoom_keeps (e : Ev) : EvKeeps e (heldRoom e) := by
  unfold heldRoom
  split <;> exact .of_eq rfl

theorem heldPolls_keeps (env : Env) (e : Ev) : EvKeeps e (heldPolls env e) := by
  unfold heldPolls
  split
  · exact (requestPolls_keeps env _).after rfl
  · exact .refl e

theorem expireFaults_keeps (e : Ev) : EvKeeps e (expireFaults e) := by
  unfold expireFaults
  split
  · exact .refl e
  · exact keeps_window (vitals e.toCore) (List.length_filter_le _ _)

/-! ### The work of an event -/

theorem doWork_keeps (env : Env) (w : Work) (e : Ev) : EvKeeps e (doWork env w e) := by
  match w with
  | .pass n => exact passCase_keeps env n e
  | .isolate n r => exact isolate_keeps n r e
  | .begin n => exact beginWalk_keeps env n e
  | .judge n => exact judgeWalk_keeps env n e
  | .rejudge n => exact rejudge_keeps env n e
  | .ownDone n d => exact ownDone_keeps n d e
  | .announce d => exact announce_keeps d e
  | .opened d => exact deviceOpened_keeps d e
  | .room => exact judgeRoom_keeps e
  | .roomNext n => exact judgeRoomNext_keeps n e
  | .polls => exact requestPolls_keeps env e
  | .handOver o a r => exact handOver_keeps o a r e
  | .failLost d => exact failLost_keeps d e
  | .validate => exact validateReload_keeps e
  | .fall => exact fallInMonitoring_keeps e
  | .sweepEnd t => exact sweepEnd_keeps env t e

/-- An event's act and its work to the end keep the bounds when the act does. -/
theorem EvKeeps.settled {e e' : Ev} (h : EvKeeps e e') (env : Env) : EvKeeps e (settle env e') :=
  settle_keeps env (EvKeeps e) (fun w x k => k.trans (doWork_keeps env w x)) (fun _ _ k => k) e' h

/-! ### The time base (R30 to R35) -/

theorem moveTime_lt (d : Int) (t : Nat) : moveTime d t < Config.day := by
  unfold moveTime Config.day
  omega

theorem setTimeBase_keeps {now : Nat} (h : now < Config.day) (e : Ev) : EvKeeps e (setTimeBase now e) :=
  (keeps_now (vitals e.toCore) h).trans (.of_eq (by simp [vitals, setTimeBase]))

theorem snap_keeps (e : Ev) : EvKeeps e (snap e) := setTimeBase_keeps (moveTime_lt _ _) e

theorem setGood_keeps {n : Nat} (h : n ≤ 3) (e : Ev) : EvKeeps e (setGood n e) := keeps_good (vitals e.toCore) h

theorem loseLock_keeps (c : TimeCause) (e : Ev) : EvKeeps e (loseLock c e) := setGood_keeps (Nat.zero_le 3) e

theorem pulseFree_keeps (e : Ev) : EvKeeps e (pulseFree e) := by
  unfold pulseFree
  split
  · exact setGood_keeps (by decide) e
  · simp only []
    split
    · split
      · rename_i few
        exact (snap_keeps e).trans (setGood_keeps (Nat.succ_le_of_lt (few.trans (by decide))) _)
      · exact (snap_keeps e).trans (setGood_keeps le_rfl _)
    · exact (snap_keeps e).trans (setGood_keeps (Nat.zero_le 3) _)

theorem pulseLocked_keeps (e : Ev) : EvKeeps e (pulseLocked e) := by
  unfold pulseLocked
  split
  · exact loseLock_keeps _ e
  · simp only []
    split
    · exact snap_keeps e
    · exact (snap_keeps e).trans (loseLock_keeps _ _)

theorem pulse_keeps (e : Ev) : EvKeeps e (pulse e) := by
  unfold pulse
  split
  · exact .refl e
  · exact pulseFree_keeps e
  · exact pulseLocked_keeps e

theorem missing_keeps (e : Ev) : EvKeeps e (missing e) := by
  unfold missing
  split
  · exact .refl e
  · split
    · split
      · exact .refl e
      · exact setGood_keeps (Nat.zero_le 3) e
      · exact loseLock_keeps _ e
    · exact .refl e

theorem setTime_keeps {now : Nat} (h : now < Config.day) (e : Ev) : EvKeeps e (setTime now e) := by
  have set : EvKeeps e { setTimeBase now e with
      time := { (setTimeBase now e).time with good := 0, lastPulse := none } } :=
    (setTimeBase_keeps h e).trans (keeps_good _ (Nat.zero_le 3))
  unfold setTime
  simp only []
  split <;> exact set

/-! ### What commands do in the blocks -/

/-- No reply is selected exactly when no condition holds (R187). -/
theorem select_eq_none_iff {cs : List Condition} : select cs = none ↔ ∀ c ∈ cs, c.1 = false := by
  induction cs with
  | nil => simp [select]
  | cons c cs ih =>
    obtain ⟨holds, code⟩ := c
    cases holds
    · simp [select, ih]
    · cases rest : select cs <;> simp [select, rest]
      split <;> simp

theorem unlessEv_keeps (cs : List Condition) {f : Ev → Ev × Answer} {e : Ev} (h : EvKeeps e (f e).1) :
    EvKeeps e (unlessEv cs f e).1 := by
  unfold unlessEv
  split
  · exact .refl e
  · exact h

theorem reading_keeps (rs : List Ref) {f : Ev → Ev × Answer} {e : Ev} (h : EvKeeps e (f e).1) :
    EvKeeps e (reading rs f e).1 := by
  unfold reading
  split
  · exact faultAt_keeps _ e
  · exact h

theorem onItem_keeps (cs : List Condition) (b : Bool) (r : Ref) (d : Core → Bool) {f : Ev → Ev × Answer} {e : Ev}
    (h : EvKeeps e (f e).1) : EvKeeps e (onItem cs b r d f e).1 := by
  unfold onItem
  split
  · exact reading_keeps _ (unlessEv_keeps _ h)
  · exact unlessEv_keeps _ h

theorem onCase_keeps (cs : List Condition) (x : CaseName) {f : Case → Ev → Ev × Answer} {e : Ev}
    (h : ∀ k, EvKeeps e (f k e).1) : EvKeeps e (onCase cs x f e).1 := by
  unfold onCase
  split
  · refine reading_keeps _ (unlessEv_keeps _ ?_)
    split
    · exact h _
    · exact .refl e
  · exact unlessEv_keeps _ (.refl e)

theorem dismissCase_keeps (x : CaseName) (k : Case) (e : Ev) : EvKeeps e (dismissCase x k e).1 := by
  unfold dismissCase
  split
  · exact freeCase_keeps _ k _ _ e
  · exact freeCase_keeps _ k _ _ e
  · exact .refl e

theorem closeCase_keeps (x : CaseName) (k : Case) (e : Ev) : EvKeeps e (closeCase x k e).1 := by
  unfold closeCase
  split
  · exact freeCase_keeps _ k _ _ e
  · exact freeCase_keeps _ k _ _ e
  · exact .refl e

theorem isolateCase_keeps (x : CaseName) (k : Case) (e : Ev) : EvKeeps e (isolateCase x k e).1 := by
  unfold isolateCase
  split
  · exact reading_keeps _ (isolate_keeps _ _ e)
  · exact .refl e

theorem listCases_keeps (e : Ev) : EvKeeps e (listCases e).1 := reading_keeps _ (.refl e)

theorem toMonitoring_keeps {e : Ev} (h : e.mode ≠ .halted) : EvKeeps e (toMonitoring e).1 := by
  refine reading_keeps _ ?_
  split
  · exact .refl e
  · exact keeps_mode (vitals e.toCore) h (m := .monitoring) (by decide)

theorem withdrawWatch_keeps (n : Nat) (e : Ev) : EvKeeps e (withdrawWatch n e) := by
  unfold withdrawWatch
  split
  · exact .refl e
  · split
    · exact freeCase_keeps n _ _ _ e
    · exact .refl e

theorem enterConfiguring_keeps {e : Ev} (h : e.mode ≠ .halted) : EvKeeps e (enterConfiguring e) :=
  (keeps_mode (vitals e.toCore) h (m := .configuring) (by decide)).trans
    ((foldl_evKeeps _ (fun x n => withdrawWatch_keeps n x) _ { e with mode := .configuring }).trans
      (withdrawEach_keeps _ _ _))

theorem toConfiguring_keeps {e : Ev} (h : e.mode ≠ .halted) : EvKeeps e (toConfiguring e).1 := by
  refine reading_keeps _ ?_
  split
  · exact reading_keeps _ (enterConfiguring_keeps h)
  · exact .refl e

theorem changeMode_keeps (m : Mode) {e : Ev} (h : e.mode ≠ .halted) : EvKeeps e (changeMode m e).1 := by
  unfold changeMode
  split
  · exact .refl e
  · split
    · exact toMonitoring_keeps h
    · exact toConfiguring_keeps h
    · exact .refl e

theorem defineSegment_keeps (x : SegmentEdit) (e : Ev) : EvKeeps e (defineSegment x e).1 :=
  reading_keeps _ (unlessEv_keeps _ ((withdrawBarred_keeps _).after rfl))

theorem deleteSegment_keeps (n : Nat) (e : Ev) : EvKeeps e (deleteSegment n e).1 :=
  reading_keeps _ (unlessEv_keeps _ ((withdrawBarred_keeps _).after rfl))

theorem bindSensor_keeps (x : SensorBinding) (e : Ev) : EvKeeps e (bindSensor x e).1 := by
  refine reading_keeps _ (unlessEv_keeps _ ?_)
  simp only []
  split
  · exact .refl e
  · exact keeps_discovery (vitals e.toCore) (.inl (List.length_filter_le _ _))

theorem unbindSensor_keeps (a : Nat) (e : Ev) : EvKeeps e (unbindSensor a e).1 := by
  unfold unbindSensor
  split
  · exact .refl e
  · exact reading_keeps _ (.of_eq rfl)

theorem defineDevice_keeps (x : DeviceEdit) (e : Ev) : EvKeeps e (defineDevice x e).1 :=
  reading_keeps _ (unlessEv_keeps _ (.of_eq rfl))

theorem deleteDevice_keeps (n : Nat) (e : Ev) : EvKeeps e (deleteDevice n e).1 :=
  reading_keeps _ (unlessEv_keeps _ (.of_eq rfl))

theorem definePlan_keeps (x : PlanEdit) (e : Ev) : EvKeeps e (definePlan x e).1 :=
  reading_keeps _ (unlessEv_keeps _ (.of_eq rfl))

theorem deletePlan_keeps (n : Nat) (e : Ev) : EvKeeps e (deletePlan n e).1 :=
  reading_keeps _ (unlessEv_keeps _ (.of_eq rfl))

theorem reserve_keeps (q : Port) (n : Nat) (e : Ev) : EvKeeps e (reserve q n e).1 := by
  unfold reserve
  split
  · exact .of_eq rfl
  · split <;> exact .refl e

theorem release_keeps (q : Port) (n : Nat) (e : Ev) : EvKeeps e (release q n e).1 := by
  unfold release
  split <;> exact .of_eq rfl

/-- An OPERATE that no condition bars finds room in the queue and no order of its device (R159). -/
theorem operate_keeps (env : Env) (q : Port) (tag : Byte) (x : OperateRequest) (e : Ev) :
    EvKeeps e (operate env q tag x e).1 := by
  refine reading_keeps _ ?_
  unfold unlessEv
  split
  · exact .refl e
  · rename_i free
    have room := select_eq_none_iff.1 free (decide (Config.orders ≤ e.orders.length), .orderQueueFull) (by simp [operateConditions])
    have new := select_eq_none_iff.1 free ((orderOf e.toCore x.device).isSome, .deviceOrderInFlight) (by simp [operateConditions])
    have absent : x.device ∉ e.orders.map (·.device) := by
      intro k
      obtain ⟨o, member, device⟩ := List.mem_map.1 k
      simp only [orderOf, List.find?_isSome, Bool.eq_false_iff, ne_eq, not_exists, not_and] at new
      exact new o member (by simpa using device)
    refine (keeps_joined (vitals e.toCore) ?_ absent).trans (queueOrder_keeps_from env x.device _ _ _ e)
    simpa [vitals] using room

theorem applyHold_keeps (q : Port) (x : HoldRequest) (e : Ev) : EvKeeps e (applyHold q x e) := by
  unfold applyHold
  simp only []
  split
  · exact (withdrawEach_keeps _ _ e).trans ((freeWatchOn_keeps _ _).after rfl)
  · exact (freeWatchOn_keeps _ _).after rfl

theorem setHold_keeps (q : Port) (x : HoldRequest) (e : Ev) : EvKeeps e (setHold q x e).1 := by
  refine reading_keeps _ ?_
  split
  · exact .refl e
  · exact reading_keeps _ (applyHold_keeps q x e)

theorem clearHold_keeps (q : Port) (n : Nat) (e : Ev) : EvKeeps e (clearHold q n e).1 := by
  unfold clearHold
  split
  · exact .refl e
  · split <;> exact .of_eq rfl

theorem judgeDeadlines_keeps (env : Env) (e : Ev) : EvKeeps e (judgeDeadlines env e) := by
  unfold judgeDeadlines
  split
  · exact (faultsAt_keeps _ e).trans (foldl_evKeeps _ (fun x n => judgeDeadline_keeps env n x) _ _)
  · exact .refl e

theorem judgeAbsence_keeps (env : Env) (e : Ev) : EvKeeps e (judgeAbsence env e) := by
  unfold judgeAbsence
  split
  · simp only []
    split
    · exact (isolateConfirmed_keeps _ _).after rfl
    · exact .of_eq rfl
  · exact .refl e

theorem settingEffects_keeps (i : SettingId) (env : Env) (e : Ev) : EvKeeps e (settingEffects i env e) := by
  unfold settingEffects
  split
  · split
    · exact isolateConfirmed_keeps _ e
    · exact .refl e
  · exact judgeDeadlines_keeps env e
  · exact silenceAll_keeps env e
  · exact judgeAbsence_keeps env e
  · exact .refl e

end Sys2Proof.Machine
end

