-- ==== Sys2Proof/Proofs/CommandMeanings.lean ====
section
/-! PROOF. The port commands as one family: what each does and answers once it is taken, and what all of them keep,
the replies their ports owe among it. -/

namespace Sys2Proof.Machine

/-! ### What a command does once it is taken -/

/-- What a port command does and answers once it is taken, as its frame leaves the part. -/
def meaning : Instr → Part → Part × Answer
  | .identify _ _ b => onBody b fun _ => identify
  | .getStatus q _ b => onBody b fun _ p => (p, .now .accepted (.status (statusFor q p)))
  | .resetPort q _ b => onBody b fun _ p => unless_ [(isHalted p, .wrongMode)] (resetPort q) p
  | .restart q _ b => onBody b fun _ => unless_ [(q == .b, .notPermitted)] fun p =>
      ({ p with run := .restartTaken }, plain .accepted)
  | .setNoticeMask q _ b => onBody b fun codes p =>
      unless_ [(codes.any fun c => (maskable c).isNone, .malformed), (isHalted p, .wrongMode)]
        (setMasks q (codes.filterMap maskable)) p
  | .setMode q _ b => onBody b fun m p => unless_ (modeConditions p q m) (viaCore fun _ e => changeMode m e) p
  | .defineSegment q _ b => onBody b fun x p =>
      unless_ ((!phasesNonempty x.phases, .malformed) :: editConditions p q (segmentInRange x))
        (viaCore fun _ e => defineSegment x e) p
  | .deleteSegment q _ b => onBody b fun n p =>
      unless_ (editConditions p q (decide (n < Config.segments))) (viaCore fun _ e => deleteSegment n e) p
  | .readSegments _ _ b => onBody b fun x p =>
      unless_ (readConditions p (rangeOk x 0 Config.segments 64)) (viaCore fun _ e => readSegments x e) p
  | .bindSensor q _ b => onBody b fun x p =>
      unless_ ((!phasesNonempty x.phases, .malformed)
          :: editConditions p q (sensorAddress x.address && decide (x.segment < Config.segments)))
        (viaCore fun _ e => bindSensor x e) p
  | .unbindSensor q _ b => onBody b fun a p =>
      unless_ (editConditions p q (sensorAddress a)) (viaCore fun _ e => unbindSensor a e) p
  | .readRoster _ _ b => onBody b fun x p =>
      unless_ (readConditions p (rangeOk x 1 65535 32)) (viaCore fun _ e => readRoster x e) p
  | .defineDevice q _ b => onBody b fun x p =>
      unless_ (editConditions p q (deviceInRange x)) (viaCore fun _ e => defineDevice x e) p
  | .deleteDevice q _ b => onBody b fun n p =>
      unless_ (editConditions p q (decide (n < Config.devices))) (viaCore fun _ e => deleteDevice n e) p
  | .readDevices _ _ b => onBody b fun _ p =>
      unless_ (readConditions p true) (viaCore fun _ e => readDevices e) p
  | .readDiscovery _ _ b => onBody b fun _ p =>
      unless_ [(isHalted p, .wrongMode)] (fun p => (p, .now .accepted (.discovery p.core.discovery))) p
  | .setTime q _ b => onBody b fun v p =>
      unless_ [(decide (Config.day ≤ v), .outOfRange), (uncontrolled p q, .notPermitted), (isHalted p, .wrongMode)]
        (viaCore fun _ e => (setTime v e, plain .accepted)) p
  | .readTime _ _ b => onBody b fun _ p =>
      unless_ [(isHalted p, .wrongMode)] (fun p => (p, .now .accepted (timeBody p.core.time))) p
  | .dismissCase q _ b => onBody b (caseCommand q true dismissCase)
  | .closeCase q _ b => onBody b (caseCommand q true closeCase)
  | .isolateCase q _ b => onBody b (caseCommand q true isolateCase)
  | .listCases _ _ b => onBody b fun _ p => unless_ (caseConditions p false true) (viaCore fun _ e => listCases e) p
  | .readCase q _ b => onBody b (caseCommand q false readCase)
  | .definePlan q _ b => onBody b fun x p =>
      unless_ ((!stepsWellFormed x.steps, .malformed) :: editConditions p q (planInRange x))
        (viaCore fun _ e => definePlan x e) p
  | .deletePlan q _ b => onBody b fun n p =>
      unless_ (editConditions p q (decide (n < Config.plans))) (viaCore fun _ e => deletePlan n e) p
  | .readPlans _ _ b => onBody b fun x p =>
      unless_ (readConditions p (rangeOk x 0 Config.plans 16)) (viaCore fun _ e => readPlans x e) p
  | .reserve q _ b => onBody b fun n => deviceClaim n [] (reserve q n)
  | .release q _ b => onBody b fun n => deviceClaim n [] (release q n)
  | .operate q tag b => onBody b fun x p =>
      if x.action = .query then (p, plain .malformed)
      else deviceClaim x.device (operateBars p q) (operate (envOf p) q tag x) p
  | .setHold q _ b => onBody b fun x p =>
      let inRange := decide (x.segment < Config.segments) && decide (x.label < 65536)
      viaCore (fun _ e =>
        onItem (claimConditions p inRange) inRange { table := .segment, index := x.segment }
          (fun c => (entryAt c.segments x.segment).isSome) (setHold q x) e) p
  | .clearHold q _ b => onBody b fun n p =>
      let inRange := decide (n < Config.segments)
      let cs := claimConditions p inRange
      viaCore (fun _ e =>
        match holdOf e.toCore n with
        | some _ => unlessEv cs (clearHold q n) e
        | none =>
          onItem cs inRange { table := .segment, index := n }
            (fun c => (entryAt c.segments n).isSome) (clearHold q n) e) p
  | .readClaims _ _ b => onBody b fun _ p =>
      unless_ [(isHalted p, .wrongMode)]
        (fun p => (p, .now .accepted (.claims (present p.core.reservations) (present p.core.holds)))) p
  | .readFaultRecord q _ b => onBody b fun clear p =>
      unless_ [(q == .b && clear, .notPermitted)]
        (fun p => (if clear then emptyRecord p else p, .now .accepted (faultBody p.core))) p
  | .programCounter q _ b => onBody b fun x p =>
      unless_ ((!scopeInRange x.scope, .outOfRange) :: (!scopeAllowed x.select x.scope, .outOfRange)
          :: counterConditions p q x.number)
        (fun p => (setCounter x.number (fun _ => programmed x) p, plain .accepted)) p
  | .clearCounter q _ b => onBody b fun n p =>
      unless_ (counterConditions p q n)
        (fun p => (setCounter n (fun c => { c with value := 0, overflow := false }) p, plain .accepted)) p
  | .readCounters q _ b => onBody b fun x p =>
      unless_
        [(!(decide (x.first < Config.counters) && decide (1 ≤ x.count) && decide (x.count ≤ 16)), .outOfRange),
         (q == .b && p.inForce.options.bReadCountersOnly && decide (x.first < 8), .notPermitted),
         (isHalted p, .wrongMode)]
        (fun p => (p, .now .accepted (.counters (countersIn p.counters x)))) p
  | .readSetting _ _ b => onBody b fun x p =>
      match settingId x.group x.index with
      | none => (p, plain .noSuchItem)
      | some i =>
        unless_ [(isHalted p, .wrongMode)] (fun p => (p, .now .accepted (settingBody i p.settings))) p
  | .writeSetting q _ b => onBody b fun x p =>
      match settingId x.group x.index with
      | none => (p, plain .noSuchItem)
      | some i =>
        let v := maskedWrite (i.get p.settings) x.value x.mask
        unless_ (writeConditions p q i v) (writeSetting i v) p
  | .saveConfiguration q _ b => onBody b fun _ p => unless_ (saveConditions p q) beginSave p
  | .stageOptions q _ b => onBody b fun x p =>
      unless_ [(q == .b, .notPermitted), (isHalted p, .wrongMode), (burnedOrBurning p, .optionsBurned)]
        (fun p => ({ p with staged := some x }, plain .accepted)) p
  | .burnOptions q _ b => onBody b fun _ p =>
      unless_ (burnConditions p q) (fun p => ({ p with burning := true }, .later .burn)) p
  | .readOptions _ _ b => onBody b fun _ p =>
      unless_ [(isHalted p, .wrongMode)]
        (fun p => (p, .now .accepted (.options p.options p.staged p.inForce p.burning))) p
  | .unknownKindCommand _ _ _ => fun p => (p, plain .unknownKind)
  | _ => fun p => (p, plain .accepted)

/-- A port command arrives with its frame, and is taken or discarded by the state of its port. -/
theorem exec_eq_answer {c : Instr} {x : Sent} (h : sentBy c = some x) (s : State) :
    exec c s = answer x.port x.kind x.tag (meaning c) s := by
  cases c <;> cases h <;> rfl

theorem meaning_malformed {c : Instr} {x : Sent} (h : sentBy c = some x) (g : x.malformed = true) (p : Part) :
    meaning c p = (p, plain .malformed) := by
  cases c <;> cases h
  case unknownKindCommand => cases g
  all_goals
    rename_i body
    cases body
    · cases g
    · rfl

/-! ### The bounds of a part -/

def SettingsIn (p : Part) : Prop :=
  SettingsOk p.settings ∧ SettingsOk p.store.image.settings ∧ ∀ img, p.save = some img → SettingsOk img.settings

def PortsIn (p : Part) : Prop := PortBounded p.portA ∧ PortBounded p.portB

def CountersIn (cs : List Counter) : Prop :=
  cs.length = Config.counters ∧ ∀ c ∈ cs, c.value < 4294967296

theorem portsIn_iff (p : Part) : PortsIn p ↔ ∀ q, PortBounded (portOf q p) :=
  ⟨fun ⟨a, b⟩ q => by cases q; exacts [a, b], fun h => ⟨h .a, h .b⟩⟩

/-- Every bound of the part is kept, each by itself. -/
structure PartKeeps (p p' : Part) : Prop where
  blocks : Keeps (vitals p.core) (vitals p'.core)
  settings : SettingsIn p → SettingsIn p'
  ports : PortsIn p → PortsIn p'
  counters : CountersIn p.counters → CountersIn p'.counters

theorem PartKeeps.refl (p : Part) : PartKeeps p p := ⟨.refl _, id, id, id⟩

theorem PartKeeps.trans {p p' p'' : Part} (h : PartKeeps p p') (g : PartKeeps p' p'') : PartKeeps p p'' :=
  ⟨h.blocks.trans g.blocks, g.settings ∘ h.settings, g.ports ∘ h.ports, g.counters ∘ h.counters⟩

/-- The ports owe the replies they owed, and the same wait. -/
def SameReplies (p p' : Part) : Prop :=
  ∀ q, (portOf q p').tx = (portOf q p).tx ∧ (portOf q p').ready = (portOf q p).ready
    ∧ (portOf q p').waiting = (portOf q p).waiting

theorem SameReplies.trans {p p' p'' : Part} (h : SameReplies p p') (g : SameReplies p' p'') : SameReplies p p'' := by
  intro q
  obtain ⟨a, b, c⟩ := h q
  obtain ⟨a', b', c'⟩ := g q
  exact ⟨a'.trans a, b'.trans b, c'.trans c⟩

/-- What every act of a command keeps: the bounds, and the replies its ports owe. -/
structure ActKeeps (p p' : Part) : Prop where
  bounds : PartKeeps p p'
  replies : SameReplies p p'

theorem ActKeeps.refl (p : Part) : ActKeeps p p := ⟨.refl p, fun _ => ⟨rfl, rfl, rfl⟩⟩

theorem ActKeeps.trans {p p' p'' : Part} (h : ActKeeps p p') (g : ActKeeps p' p'') : ActKeeps p p'' :=
  ⟨h.bounds.trans g.bounds, h.replies.trans g.replies⟩

/-- An act on the blocks alone. -/
theorem actKeeps_core {p : Part} {c : Core} (h : Keeps (vitals p.core) (vitals c)) : ActKeeps p { p with core := c } :=
  ⟨⟨h, id, id, id⟩, fun q => by cases q <;> exact ⟨rfl, rfl, rfl⟩⟩

/-! ### A port -/

theorem pump_bounded {p : PortState} (h : PortBounded p) : PortBounded (pump p) := by
  obtain ⟨replies, notices, overrun, sequence, categories, withheld⟩ := h
  cases tx : p.tx with
  | some f => rw [pump_busy tx]; exact ⟨replies, notices, overrun, sequence, categories, withheld⟩
  | none =>
    cases ready : p.ready with
    | cons r rest =>
      rw [pump_reply tx ready]
      refine ⟨?_, notices, overrun, sequence, categories, withheld⟩
      rw [ready, List.length_cons] at replies
      show rest.length + p.waiting.length ≤ Config.replies
      omega
    | nil =>
      cases queue : p.notices with
      | cons n rest =>
        rw [pump_notice tx ready queue]
        rw [queue, List.length_cons] at notices
        exact ⟨replies, Nat.le_of_succ_le notices, overrun, Nat.mod_lt _ (by decide), categories, withheld⟩
      | nil => rw [pump_idle tx ready queue]; exact ⟨replies, notices, overrun, sequence, categories, withheld⟩

theorem joinNotices_bounded (n : Notice) {p : PortState} (h : PortBounded p) : PortBounded (joinNotices n p) := by
  obtain ⟨replies, notices, overrun, sequence, categories, withheld⟩ := h
  unfold joinNotices
  split
  · refine ⟨replies, ?_, overrun, sequence, categories, withheld⟩
    simpa using ‹p.notices.length < Config.notices›
  · refine ⟨replies, ?_, overrun, sequence, categories, withheld⟩
    simp only [Config.notices, List.length_append, List.length_drop, List.length_singleton] at *
    omega

theorem offer_bounded (n : Notice) {p : PortState} (h : PortBounded p) : PortBounded (offer n p) := by
  unfold offer
  split
  · split
    · obtain ⟨replies, notices, overrun, sequence, categories, withheld⟩ := h
      refine ⟨replies, notices, overrun, sequence, by simpa using categories, fun c hc => ?_⟩
      obtain old | rfl := List.mem_or_eq_of_mem_set hc
      · exact withheld c old
      · exact Nat.min_le_left _ _
    · exact joinNotices_bounded n h
  · exact joinNotices_bounded n h

theorem enqueue_bounded (kind : Nat) (tag : Byte) (a : Answer) {p : PortState} (room : repliesFull p = false)
    (h : PortBounded p) : PortBounded (enqueue kind tag a p) := by
  obtain ⟨_, notices, overrun, sequence, categories, withheld⟩ := h
  have few : p.ready.length + p.waiting.length < Config.replies := by simpa [repliesFull] using room
  cases a
  · refine ⟨?_, notices, overrun, sequence, categories, withheld⟩
    simp only [enqueue, List.length_append, List.length_singleton]
    omega
  · refine ⟨?_, notices, overrun, sequence, categories, withheld⟩
    simp only [enqueue, List.length_append, List.length_singleton]
    omega

theorem powerOn_bounded : PortBounded PortState.powerOn := by
  refine ⟨by decide, by decide, by decide, by decide, by decide, fun c hc => ?_⟩
  rw [(List.mem_replicate.1 hc).2]
  exact Nat.zero_le _

/-- A change of a port that keeps its bounds. -/
theorem partKeeps_setPort (q : Port) {f : PortState → PortState} {p : Part}
    (h : PortBounded (portOf q p) → PortBounded (f (portOf q p))) : PartKeeps p (setPort q f p) := by
  cases q
  · exact ⟨.refl _, id, fun ⟨a, b⟩ => ⟨h a, b⟩, id⟩
  · exact ⟨.refl _, id, fun ⟨a, b⟩ => ⟨a, h b⟩, id⟩

/-- A change of a port that keeps its bounds and its replies. -/
theorem actKeeps_setPort (q : Port) {f : PortState → PortState} {p : Part}
    (h : PortBounded (portOf q p) → PortBounded (f (portOf q p)))
    (g : (f (portOf q p)).tx = (portOf q p).tx ∧ (f (portOf q p)).ready = (portOf q p).ready
      ∧ (f (portOf q p)).waiting = (portOf q p).waiting) : ActKeeps p (setPort q f p) := by
  refine ⟨partKeeps_setPort q h, fun r => ?_⟩
  cases q <;> cases r
  · exact g
  · exact ⟨rfl, rfl, rfl⟩
  · exact ⟨rfl, rfl, rfl⟩
  · exact g

theorem finish_keeps (p : Part) : PartKeeps p (finish p) := by
  refine ⟨.of_eq (by rw [finish_core]), by simp only [SettingsIn, finish_settings, finish_store, finish_save]; exact id,
    fun h => ?_, by rw [finish_counters]; exact id⟩
  rw [portsIn_iff] at h ⊢
  intro q
  rw [finish_ports]
  split
  · exact pump_bounded (h q)
  · exact h q

/-! ### Notices and counters -/

theorem offerTo_eq_setPorts (d : Dest) (n : Notice) (p : Part) :
    offerTo d n p = match d with
      | .both => setPort .b (offer n) (setPort .a (offer n) p)
      | .only q => setPort q (offer n) p := by
  obtain _ | (_ | _) := d <;> rfl

theorem offer_actKeeps (q : Port) (n : Notice) (p : Part) : ActKeeps p (setPort q (offer n) p) := by
  obtain ⟨ready, waiting, tx, -, -⟩ := offer_keeps n (portOf q p)
  exact actKeeps_setPort q (offer_bounded n) ⟨tx, ready, waiting⟩

theorem offerTo_actKeeps (d : Dest) (n : Notice) (p : Part) : ActKeeps p (offerTo d n p) := by
  rw [offerTo_eq_setPorts]
  cases d
  · exact (offer_actKeeps .a n p).trans (offer_actKeeps .b n _)
  · exact offer_actKeeps _ n p

theorem offerAll_actKeeps (ns : List (Dest × Notice)) (p : Part) : ActKeeps p (offerAll ns p) :=
  foldl_keeps (ActKeeps p) _ (fun _ x k => k.trans (offerTo_actKeeps x.1 x.2 _)) ns p (.refl p)

theorem getElem?_mapFrom {α β : Type} (f : Nat → α → β) (l : List α) (n i : Nat) :
    (mapFrom f n l)[i]? = l[i]?.map (f (n + i)) := by
  induction l generalizing n i with
  | nil => simp [mapFrom]
  | cons x xs ih =>
    cases i with
    | zero => rfl
    | succ i => simp only [mapFrom, List.getElem?_cons_succ, ih]; rw [Nat.add_right_comm, Nat.add_assoc]

/-- A counter that sees an occurrence stands, or is added to. -/
theorem countOne_fst (now n : Nat) (o : Occurrence) (c : Counter) :
    (countOne now n o c).1 = if follows c o then addTo c o.amount else c := by
  unfold countOne
  split
  · simp only []
    split <;> rfl
  · rfl

theorem getElem?_countOccurrence (now : Nat) (o : Occurrence) (cs : List Counter) (n : Nat) :
    (countOccurrence now o cs).1[n]? = cs[n]?.map fun c => if follows c o then addTo c o.amount else c := by
  simp only [countOccurrence, List.getElem?_map, getElem?_mapFrom, Option.map_map, Nat.zero_add]
  congr 1
  funext c
  exact countOne_fst now n o c

theorem addTo_value_lt (c : Counter) (a : Int) : (addTo c a).value < 4294967296 := by
  simp only [addTo, counterSpan]
  omega

theorem countOccurrence_in (now : Nat) (o : Occurrence) {cs : List Counter} (h : CountersIn cs) :
    CountersIn (countOccurrence now o cs).1 := by
  refine ⟨(countOccurrence_keeps now o cs).trans h.1, fun c hc => ?_⟩
  obtain ⟨n, hn⟩ := List.getElem?_of_mem hc
  rw [getElem?_countOccurrence, Option.map_eq_some_iff] at hn
  obtain ⟨c', old, rfl⟩ := hn
  split
  · exact addTo_value_lt c' o.amount
  · exact h.2 c' (List.mem_of_getElem? old)

theorem emissions_in (now : Nat) (xs : List Emit) {cs : List Counter} (h : CountersIn cs) :
    CountersIn (emissions now xs cs).1 := by
  induction xs generalizing cs with
  | nil => exact h
  | cons x xs ih =>
    cases x with
    | tell d n => exact ih h
    | count o => exact ih (countOccurrence_in now o h)

theorem deliver_actKeeps (now : Nat) (xs : List Emit) (p : Part) : ActKeeps p (deliver now xs p) := by
  refine ActKeeps.trans (p' := { p with counters := (emissions now xs p.counters).1 }) ?_ (offerAll_actKeeps _ _)
  exact ⟨⟨.refl _, id, id, emissions_in now xs⟩, fun q => by cases q <;> exact ⟨rfl, rfl, rfl⟩⟩

/-! ### An event in the part -/

/-- The store's mark may fall with an event that finds it failed; its image stands. -/
theorem actKeeps_storeMark {p : Part} {st : Store} (h : st.image = p.store.image) : ActKeeps p { p with store := st } := by
  refine ⟨⟨.refl _, fun ⟨a, b, c⟩ => ⟨a, ?_, c⟩, id, id⟩, fun q => by cases q <;> exact ⟨rfl, rfl, rfl⟩⟩
  show SettingsOk st.image.settings
  rw [h]
  exact b

theorem commit_actKeeps {e : Ev} {p : Part} (h : Keeps (vitals p.core) (vitals e.toCore)) : ActKeeps p (commit e p) := by
  refine (actKeeps_core h).trans (ActKeeps.trans ?_ (deliver_actKeeps _ _ _))
  refine actKeeps_storeMark ?_
  split <;> rfl

theorem runEvent_actKeeps {f : Env → Ev → Ev} {p : Part}
    (h : EvKeeps (startEvent p.core) (f (envOf p) (startEvent p.core))) : ActKeeps p (runEvent f p) :=
  commit_actKeeps (h.settled (envOf p))

theorem runQuiet_actKeeps {f : Env → Ev → Ev} {p : Part}
    (h : EvKeeps (startEvent p.core) (f (envOf p) (startEvent p.core))) : ActKeeps p (runQuiet f p) := by
  refine (actKeeps_core (h.settled (envOf p))).trans ?_
  exact ⟨⟨.refl _, id, id, emissions_in _ _⟩, fun q => by cases q <;> exact ⟨rfl, rfl, rfl⟩⟩

theorem viaCore_actKeeps {f : Env → Ev → Ev × Answer} {p : Part}
    (h : EvKeeps (startEvent p.core) (f (envOf p) (startEvent p.core)).1) : ActKeeps p (viaCore f p).1 :=
  commit_actKeeps (h.settled (envOf p))

/-! ### The stages of a command -/

theorem onBody_actKeeps {α : Type} (b : Body α) {f : α → Part → Part × Answer} {p : Part}
    (h : ∀ x, ActKeeps p (f x p).1) : ActKeeps p (onBody b f p).1 := by
  cases b
  · exact h _
  · exact .refl p

theorem unless_actKeeps {cs : List Condition} {f : Part → Part × Answer} {p : Part}
    (h : select cs = none → ActKeeps p (f p).1) : ActKeeps p (unless_ cs f p).1 := by
  unfold unless_
  split
  · exact .refl p
  · exact h ‹_›

/-- A stage that goes on into the blocks. -/
theorem unless_viaCore_actKeeps {cs : List Condition} {f : Env → Ev → Ev × Answer} {p : Part}
    (h : EvKeeps (startEvent p.core) (f (envOf p) (startEvent p.core)).1) :
    ActKeeps p (unless_ cs (viaCore f) p).1 :=
  unless_actKeeps fun _ => viaCore_actKeeps h

theorem caseCommand_actKeeps (q : Port) (changes : Bool) {f : CaseName → Case → Ev → Ev × Answer} (x : CaseName)
    {p : Part} (h : ∀ k e, EvKeeps e (f x k e).1) : ActKeeps p (caseCommand q changes f x p).1 := by
  unfold caseCommand
  exact viaCore_actKeeps (onCase_keeps _ x fun k => h k _)

theorem deviceClaim_actKeeps (n : Nat) (extra : List Condition) {f : Ev → Ev × Answer} {p : Part}
    (h : ∀ e, EvKeeps e (f e).1) : ActKeeps p (deviceClaim n extra f p).1 := by
  unfold deviceClaim
  exact viaCore_actKeeps (onItem_keeps _ _ _ _ (h _))

/-! ### The commands that act on the part itself -/

theorem resetPort_actKeeps (q : Port) (p : Part) : ActKeeps p (resetPort q p).1 := by
  have emptied : ActKeeps p (setPort q resetNotices p) := by
    refine actKeeps_setPort q (fun ⟨replies, _, _, _, _, _⟩ => ?_) ⟨rfl, rfl, rfl⟩
    refine ⟨replies, Nat.zero_le _, Nat.zero_le _, Nat.zero_lt_succ 255, rfl, fun c hc => ?_⟩
    rw [(List.mem_replicate.1 hc).2]
    exact Nat.zero_le _
  have released : ActKeeps (setPort q resetNotices p) { setPort q resetNotices p with core :=
      { (setPort q resetNotices p).core with
        reservations := releaseAll q (setPort q resetNotices p).core.reservations } } := actKeeps_core (.of_eq rfl)
  unfold resetPort
  exact (emptied.trans released).trans (offerTo_actKeeps _ _ _)

theorem remask_withheld (masked : List Category) (c : Category) {x : CategoryState} (h : x.withheld ≤ 255) :
    (remask masked c x).withheld ≤ 255 := by
  unfold remask
  split
  · exact h
  · split
    · exact Nat.zero_le _
    · exact h

theorem joinNotices_replies (n : Notice) (p : PortState) :
    (joinNotices n p).tx = p.tx ∧ (joinNotices n p).ready = p.ready ∧ (joinNotices n p).waiting = p.waiting := by
  unfold joinNotices
  split <;> exact ⟨rfl, rfl, rfl⟩

theorem setMasks_actKeeps (q : Port) (masked : List Category) (p : Part) : ActKeeps p (setMasks q masked p).1 := by
  unfold setMasks
  simp only []
  refine actKeeps_setPort q (p := p) (fun ⟨replies, notices, overrun, sequence, eight, withheld⟩ => ?_) ?_
  · refine foldl_keeps PortBounded _ (fun s n => joinNotices_bounded n) _ _
      ⟨replies, notices, overrun, sequence, ?_, fun c hc => ?_⟩
    · simp [categories, eight]
    · obtain ⟨n, hn⟩ := List.getElem?_of_mem hc
      simp only [List.getElem?_zipWith] at hn
      split at hn
      · cases hn
        exact remask_withheld masked _ (withheld _ (List.mem_of_getElem? ‹_›))
      · cases hn
  · refine foldl_keeps (fun s : PortState => s.tx = (portOf q p).tx ∧ s.ready = (portOf q p).ready
      ∧ s.waiting = (portOf q p).waiting) _ (fun s n ⟨a, b, c⟩ => ?_) _ _ ⟨rfl, rfl, rfl⟩
    obtain ⟨a', b', c'⟩ := joinNotices_replies n s
    exact ⟨a'.trans a, b'.trans b, c'.trans c⟩

theorem setCounter_actKeeps (n : Nat) {f : Counter → Counter} (h : ∀ c, (f c).value = 0) (p : Part) :
    ActKeeps p (setCounter n f p) := by
  unfold setCounter
  split
  · refine ⟨⟨.refl _, id, id, fun ⟨length, values⟩ => ⟨by simpa using length, fun c hc => ?_⟩⟩,
      fun q => by cases q <;> exact ⟨rfl, rfl, rfl⟩⟩
    obtain old | rfl := List.mem_or_eq_of_mem_set hc
    · exact values c old
    · rw [h]; decide
  · exact .refl p

/-- A setting that takes a value, and every other that does not. -/
theorem get_put (i j : SettingId) (v : Nat) (s : Settings) : j.get (i.put v s) = if j = i then v else j.get s := by
  cases i <;> cases j <;> rfl

theorem put_settingsOk {i : SettingId} {v : Nat} {s : Settings} (h : resultInRange i v s = true) (g : SettingsOk s) :
    SettingsOk (i.put v s) := by
  simp only [resultInRange, Bool.and_eq_true, decide_eq_true_eq] at h
  refine ⟨fun j => ?_, h.2⟩
  rw [get_put]
  split
  · rename_i same
    rw [same]
    exact h.1
  · exact g.1 j

theorem writeSetting_actKeeps {i : SettingId} {v : Nat} {p : Part} (h : resultInRange i v p.settings = true) :
    ActKeeps p (writeSetting i v p).1 := by
  unfold writeSetting
  simp only []
  split
  · exact .refl p
  · refine ActKeeps.trans (p' := { p with settings := i.put v p.settings }) ?_
      (runEvent_actKeeps (settingEffects_keeps i _ _))
    exact ⟨⟨.refl _, fun ⟨a, b, c⟩ => ⟨put_settingsOk h a, b, c⟩, id, id⟩, fun q => by cases q <;> exact ⟨rfl, rfl, rfl⟩⟩

theorem beginSave_actKeeps (p : Part) : ActKeeps p (beginSave p).1 := by
  unfold beginSave
  split
  · exact runEvent_actKeeps (f := fun _ e => faultAt _ e) (faultAt_keeps _ _)
  · refine ⟨⟨.refl _, fun ⟨a, b, _⟩ => ⟨a, b, fun img saved => ?_⟩, id, id⟩, fun q => by cases q <;> exact ⟨rfl, rfl, rfl⟩⟩
    cases saved
    exact a

/-- What the bounds and the replies do not look at may change: the options, a burn and the run state. -/
theorem actKeeps_rest (p : Part) (o o' : OptionsRecord) (st : Option Options) (b i : Bool) (n : Nat) (r : RunState) :
    ActKeeps p { p with
      options := o, inForce := o', staged := st, burning := b, nextSample := n, run := r, inService := i } :=
  ⟨⟨.refl _, id, id, id⟩, fun q => by cases q <;> exact ⟨rfl, rfl, rfl⟩⟩

theorem emptyRecord_actKeeps (p : Part) : ActKeeps p (emptyRecord p) :=
  actKeeps_core (keeps_window (vitals p.core) (Nat.zero_le _))

/-! ### Every command -/

/-- Of the conditions of a stage that has gone on, each does not hold. -/
theorem not_halted_of_select {cs : List Condition} {p : Part} (h : select cs = none)
    (g : (isHalted p, ReplyCode.wrongMode) ∈ cs) : p.core.mode ≠ .halted :=
  (isHalted_eq_false_iff p).1 (select_eq_none_iff.1 h _ g)

theorem meaning_actKeeps (c : Instr) (p : Part) : ActKeeps p (meaning c p).1 := by
  cases c
  case resetPort => exact onBody_actKeeps _ fun _ => unless_actKeeps fun _ => resetPort_actKeeps _ p
  case restart =>
    exact onBody_actKeeps _ fun _ => unless_actKeeps fun _ => actKeeps_rest p _ _ _ _ _ _ .restartTaken
  case setNoticeMask => exact onBody_actKeeps _ fun _ => unless_actKeeps fun _ => setMasks_actKeeps _ _ p
  case setMode =>
    exact onBody_actKeeps _ fun m => unless_actKeeps fun free =>
      viaCore_actKeeps (changeMode_keeps m (not_halted_of_select free (by simp [modeConditions])))
  case setTime =>
    refine onBody_actKeeps _ fun v => unless_actKeeps fun free => viaCore_actKeeps (setTime_keeps ?_ _)
    simpa using select_eq_none_iff.1 free _ (List.mem_cons_self)
  case defineSegment => exact onBody_actKeeps _ fun x => unless_viaCore_actKeeps (defineSegment_keeps x _)
  case deleteSegment => exact onBody_actKeeps _ fun n => unless_viaCore_actKeeps (deleteSegment_keeps n _)
  case bindSensor => exact onBody_actKeeps _ fun x => unless_viaCore_actKeeps (bindSensor_keeps x _)
  case unbindSensor => exact onBody_actKeeps _ fun a => unless_viaCore_actKeeps (unbindSensor_keeps a _)
  case defineDevice => exact onBody_actKeeps _ fun x => unless_viaCore_actKeeps (defineDevice_keeps x _)
  case deleteDevice => exact onBody_actKeeps _ fun n => unless_viaCore_actKeeps (deleteDevice_keeps n _)
  case definePlan => exact onBody_actKeeps _ fun x => unless_viaCore_actKeeps (definePlan_keeps x _)
  case deletePlan => exact onBody_actKeeps _ fun n => unless_viaCore_actKeeps (deletePlan_keeps n _)
  case readSegments => exact onBody_actKeeps _ fun _ => unless_viaCore_actKeeps (reading_keeps _ (.refl _))
  case readRoster => exact onBody_actKeeps _ fun _ => unless_viaCore_actKeeps (reading_keeps _ (.refl _))
  case readDevices => exact onBody_actKeeps _ fun _ => unless_viaCore_actKeeps (reading_keeps _ (.refl _))
  case readPlans => exact onBody_actKeeps _ fun _ => unless_viaCore_actKeeps (reading_keeps _ (.refl _))
  case listCases => exact onBody_actKeeps _ fun _ => unless_viaCore_actKeeps (listCases_keeps _)
  case dismissCase => exact onBody_actKeeps _ fun x => caseCommand_actKeeps _ _ x (dismissCase_keeps x)
  case closeCase => exact onBody_actKeeps _ fun x => caseCommand_actKeeps _ _ x (closeCase_keeps x)
  case isolateCase => exact onBody_actKeeps _ fun x => caseCommand_actKeeps _ _ x (isolateCase_keeps x)
  case readCase => exact onBody_actKeeps _ fun x => caseCommand_actKeeps _ _ x fun _ e => .refl e
  case reserve q _ _ => exact onBody_actKeeps _ fun n => deviceClaim_actKeeps n _ (reserve_keeps q n)
  case release q _ _ => exact onBody_actKeeps _ fun n => deviceClaim_actKeeps n _ (release_keeps q n)
  case operate q tag _ =>
    refine onBody_actKeeps _ fun x => ?_
    split
    · exact .refl p
    · exact deviceClaim_actKeeps _ _ (operate_keeps _ q tag x)
  case setHold q _ _ => exact onBody_actKeeps _ fun x => viaCore_actKeeps (onItem_keeps _ _ _ _ (setHold_keeps q x _))
  case clearHold q _ _ =>
    refine onBody_actKeeps _ fun n => viaCore_actKeeps ?_
    split
    · exact unlessEv_keeps _ (clearHold_keeps q n _)
    · exact onItem_keeps _ _ _ _ (clearHold_keeps q n _)
  case readFaultRecord =>
    refine onBody_actKeeps _ fun clear => unless_actKeeps fun _ => ?_
    cases clear
    · exact .refl p
    · exact emptyRecord_actKeeps p
  case programCounter =>
    exact onBody_actKeeps _ fun x => unless_actKeeps fun _ => setCounter_actKeeps _ (fun _ => rfl) p
  case clearCounter =>
    exact onBody_actKeeps _ fun n => unless_actKeeps fun _ => setCounter_actKeeps _ (fun _ => rfl) p
  case writeSetting =>
    refine onBody_actKeeps _ fun x => ?_
    simp only []
    split
    · exact .refl p
    · refine unless_actKeeps fun free => writeSetting_actKeeps ?_
      simpa using select_eq_none_iff.1 free _ List.mem_cons_self
  case readSetting =>
    refine onBody_actKeeps _ fun x => ?_
    split
    · exact .refl p
    · exact unless_actKeeps fun _ => .refl p
  case saveConfiguration => exact onBody_actKeeps _ fun _ => unless_actKeeps fun _ => beginSave_actKeeps p
  case stageOptions =>
    exact onBody_actKeeps _ fun x => unless_actKeeps fun _ => actKeeps_rest p _ _ (some x) _ _ _ _
  case burnOptions => exact onBody_actKeeps _ fun _ => unless_actKeeps fun _ => actKeeps_rest p _ _ _ true _ _ _
  case identify => exact onBody_actKeeps _ fun _ => .refl p
  case getStatus => exact onBody_actKeeps _ fun _ => .refl p
  case readDiscovery => exact onBody_actKeeps _ fun _ => unless_actKeeps fun _ => .refl p
  case readTime => exact onBody_actKeeps _ fun _ => unless_actKeeps fun _ => .refl p
  case readClaims => exact onBody_actKeeps _ fun _ => unless_actKeeps fun _ => .refl p
  case readCounters => exact onBody_actKeeps _ fun _ => unless_actKeeps fun _ => .refl p
  case readOptions => exact onBody_actKeeps _ fun _ => unless_actKeeps fun _ => .refl p
  all_goals exact .refl p

/-! ### A command arriving -/

theorem hearFrame_actKeeps (q : Port) (taken : Bool) (p : Part) : ActKeeps p (hearFrame q taken p) := by
  have hunted : ∀ q, ActKeeps p (setPort q (fun s => { s with rx := .hunt }) p) := fun q =>
    actKeeps_setPort q id ⟨rfl, rfl, rfl⟩
  cases q
  · by_cases supervised : p.inForce.options.supervisePortA = true
    · cases present : (p.core.supervision.absent && taken)
      · rw [hearFrame_a_timed taken p supervised present]
        exact (hunted .a).trans (actKeeps_core (by exact .of_eq rfl))
      · obtain ⟨absent, rfl⟩ := Bool.and_eq_true_iff.1 present
        rw [hearFrame_a_present p supervised absent]
        exact ((hunted .a).trans (offerTo_actKeeps .both
          (.supervision true false p.settings.supervisionInterval p.core.time.now) _)).trans
          (actKeeps_core (by exact .of_eq rfl))
    · rw [hearFrame_a_free taken p (by simpa using supervised)]
      exact hunted .a
  · exact hunted .b

/-- What a taken command leaves owes the replies that were owed, with room as there was. -/
theorem repliesFull_of_sameReplies {p p' : Part} (h : SameReplies p p') (q : Port) :
    repliesFull (portOf q p') = repliesFull (portOf q p) := by
  obtain ⟨-, ready, waiting⟩ := h q
  rw [repliesFull, repliesFull, ready, waiting]

theorem takeCommand_keeps (q : Port) (kind : Nat) (tag : Byte) (c : Instr) (p : Part) :
    PartKeeps p (takeCommand q kind tag (meaning c) p) := by
  unfold takeCommand
  split
  · split
    · refine (hearFrame_actKeeps q false p).bounds.trans (partKeeps_setPort q ?_)
      rintro ⟨replies, notices, _, sequence, categories, withheld⟩
      exact ⟨replies, notices, Nat.min_le_left _ _, sequence, categories, withheld⟩
    · rename_i room
      have act := (hearFrame_actKeeps q true p).trans (meaning_actKeeps c _)
      refine act.bounds.trans (partKeeps_setPort q (enqueue_bounded kind tag _ ?_))
      rw [repliesFull_of_sameReplies act.replies]
      exact Bool.eq_false_iff.2 room
  · exact .refl p

end Sys2Proof.Machine
end

