-- ==== Sys2Proof/Proofs/Invariants.lean ====
section
/-! PROOF. The invariants of the part. Each command and event keeps every bound, so each step does; and each command
taken leaves its port one reply more. -/

namespace Sys2Proof.Machine

/-! ### Power-on, start-up and restart -/

theorem cutSave_keeps (p : Part) : PartKeeps p (cutSave p) := by
  unfold cutSave
  split
  · exact .refl p
  · exact ⟨.refl _, fun ⟨a, b, _⟩ => ⟨a, b, fun img none => nomatch none⟩, id, id⟩

theorem cutBurn_keeps (p : Part) : PartKeeps p (cutBurn p) := by
  unfold cutBurn
  split
  · exact (actKeeps_rest p _ _ _ _ _ _ _).bounds
  · exact .refl p

theorem clearCounters_in : CountersIn (List.replicate Config.counters Counter.clear) := by
  refine ⟨List.length_replicate, fun c hc => ?_⟩
  rw [(List.mem_replicate.1 hc).2]
  decide

theorem powerOn_keeps (p : Part) : PartKeeps p (powerOn p) := by
  refine (cutSave_keeps p).trans ((cutBurn_keeps _).trans ?_)
  exact ⟨keeps_window _ (Nat.zero_le _), id, fun _ => ⟨powerOn_bounded, powerOn_bounded⟩, fun _ => clearCounters_in⟩

theorem default_settingsOk : SettingsOk Settings.default := by
  refine ⟨fun i => ?_, by decide⟩
  cases i <;> decide

/-- AUTHORITY falls to ADVISORY where AUTO is not permitted, within its range (R109). -/
theorem loadSettings_ok (o : Options) {s : Settings} (h : SettingsOk s) : SettingsOk (loadSettings o s) := by
  unfold loadSettings
  split
  · refine ⟨fun i => ?_, h.2⟩
    have advisory := get_put .authority i 0 s
    simp only [SettingId.put] at advisory
    rw [advisory]
    split
    · rename_i same
      rw [same]
      decide
    · exact h.1 i
  · exact h

/-- The blocks that start-up has cleared and loaded meet every bound of the blocks. -/
theorem started_vitals (o : Options) (st : Store) (c : Core) :
    ∃ m, m ≠ Mode.halted ∧ vitals { loadTables st (clearedCore c) with
        mode := startMode o st.valid (loadTables st (clearedCore c)) }
      = { now := 0, good := 0, window := 0, mode := m, recovering := false, intake := 0, discovery := 0
          ordered := [] } := by
  refine ⟨startMode o st.valid (loadTables st (clearedCore c)), ?_, ?_⟩
  · unfold startMode
    split
    · decide
    · split <;> decide
  · unfold loadTables
    split <;> rfl

theorem startedPart_keeps (p : Part) : PartKeeps p (startedPart p) := by
  obtain ⟨m, mode, cleared⟩ := started_vitals p.inForce.options
    { p.store with valid := p.store.valid && p.store.codeMatches } p.core
  refine ⟨?_, fun ⟨_, image, saved⟩ => ⟨?_, image, saved⟩, id, id⟩
  · show Keeps _ (vitals { loadTables _ (clearedCore p.core) with mode := _ })
    rw [cleared]
    refine ⟨fun _ => ⟨?_, Nat.zero_le 3⟩, fun _ => ⟨Nat.zero_le _, fun _ => ?_, fun k => absurd k mode⟩,
      fun _ => ⟨Nat.zero_le _, Nat.zero_le _, Nat.zero_le _, List.nodup_nil⟩⟩
    · show 0 < Config.day
      decide
    · show 0 < Config.faultLimit
      decide
  · show SettingsOk (if _ then _ else _)
    split
    · exact loadSettings_ok _ image
    · exact default_settingsOk

theorem finishStart_keeps (p : Part) : PartKeeps p (finishStart p) :=
  (startedPart_keeps p).trans (runQuiet_actKeeps (f := fun _ e => beginPolling e) (.of_eq rfl)).bounds

theorem startStore_keeps (p : Part) : PartKeeps p (startStore p) := by
  have options : PartKeeps p { p with inForce := p.options } := (actKeeps_rest p _ _ _ _ _ _ _).bounds
  unfold startStore
  simp only []
  split
  · exact options.trans (actKeeps_rest _ _ _ _ _ _ _ _).bounds
  · exact options.trans (finishStart_keeps _)

theorem beginStart_keeps (p : Part) : PartKeeps p (beginStart p) := by
  unfold beginStart
  split
  · exact (actKeeps_rest p _ _ _ _ _ _ _).bounds
  · exact startStore_keeps p

theorem restartPort_bounded (s : PortState) : PortBounded (restartPort s) := by
  obtain ⟨replies, notices, overrun, sequence, categories, withheld⟩ := powerOn_bounded
  exact ⟨replies, notices, overrun, sequence, categories, withheld⟩

theorem beginRestart_keeps (p : Part) : PartKeeps p (beginRestart p) := by
  refine PartKeeps.trans ?_ (beginStart_keeps _)
  exact ⟨.of_eq rfl, id, fun _ => ⟨restartPort_bounded _, restartPort_bounded _⟩, id⟩

/-! ### The lines and the completions -/

theorem abandonFrame_bounded (now : Nat) {x : PortState} (h : PortBounded x) : PortBounded (abandonFrame now x) := by
  unfold abandonFrame
  split
  · exact h
  · split <;> exact h

theorem endFrame_keeps (q : Port) (p : Part) : PartKeeps p (endFrame q p) := by
  have free : PartKeeps p (setPort q (fun s => { s with tx := none }) p) := partKeeps_setPort q id
  unfold endFrame
  split
  · exact .refl p
  · simp only []
    split
    · split
      · exact free.trans (actKeeps_rest _ _ _ _ _ _ _ _).bounds
      · exact free
    · exact free

/-- Frames handed on are taken one by one, each in an event of its own. -/
theorem foldl_runEvent_keeps {α : Type} (f : α → Env → Ev → Ev) (h : ∀ x env e, EvKeeps e (f x env e)) (l : List α)
    (p : Part) : PartKeeps p (l.foldl (fun p x => runEvent (f x) p) p) :=
  foldl_keeps (PartKeeps p) _ (fun _ x k => k.trans (runEvent_actKeeps (h x _ _)).bounds) l p (.refl p)

theorem fieldLine_keeps (chars : List RxChar) (p : Part) : PartKeeps p (fieldLine chars p) :=
  PartKeeps.trans (actKeeps_core (by exact .of_eq rfl)).bounds
    (foldl_runEvent_keeps (fun f _ e => arriveField f e) (fun f _ e => arriveField_keeps f e) _ _)

theorem deviceLine_keeps (chars : List RxChar) (p : Part) : PartKeeps p (deviceLine chars p) :=
  PartKeeps.trans (actKeeps_core (by exact .of_eq rfl)).bounds
    (foldl_runEvent_keeps (fun f env e => takeDeviceFrame env f e) (fun f env e => takeDeviceFrame_keeps env f e) _ _)

theorem readyWaiting_bounded (op : StoreOp) (code : ReplyCode) {s : PortState} (h : PortBounded s) :
    PortBounded (readyWaiting op code s) := by
  unfold readyWaiting
  split
  · exact h
  · rename_i w found
    obtain ⟨replies, notices, overrun, sequence, categories, withheld⟩ := h
    have fewer : (s.waiting.filter fun x => x.op != op).length < s.waiting.length :=
      List.length_filter_lt_length_iff_exists.2 ⟨w, List.mem_of_find?_eq_some found, by
        simpa using List.find?_some found⟩
    refine ⟨?_, notices, overrun, sequence, categories, withheld⟩
    simp only [List.length_append, List.length_singleton]
    omega

theorem replyWaiting_keeps (op : StoreOp) (code : ReplyCode) (p : Part) : PartKeeps p (replyWaiting op code p) :=
  ⟨.refl _, id, fun ⟨a, b⟩ => ⟨readyWaiting_bounded op code a, readyWaiting_bounded op code b⟩, id⟩

theorem completeSave_keeps (written ok : Bool) {img : Image} {p : Part} (h : p.save = some img) :
    PartKeeps p (completeSave written ok img p) := by
  have stored : PartKeeps p { p with
      save := none, store := { image := img, codeMatches := written, valid := written } } :=
    ⟨.refl _, fun ⟨a, _, c⟩ => ⟨a, c img h, fun _ none => nomatch none⟩, id, id⟩
  have told := stored.trans (replyWaiting_keeps .save (storeCode written) _)
  unfold completeSave
  simp only []
  split
  · exact told.trans (finishStart_keeps _)
  · exact told
  · exact told
  · exact told.trans (runEvent_actKeeps (f := fun env e => waitingReload env ok e) (waitingReload_keeps _ ok _)).bounds

theorem completeBurn_keeps (written : Bool) (p : Part) : PartKeeps p (completeBurn written p) := by
  have burned : PartKeeps p { p with
      burning := false
      options := if written then { burned := true, options := p.staged.getD clearOptions }
        else { burned := false, options := clearOptions }
      staged := if written then none else p.staged } := (actKeeps_rest p _ _ _ _ _ _ _).bounds
  have told := burned.trans (replyWaiting_keeps .burn (storeCode written) _)
  unfold completeBurn
  simp only []
  split
  · exact told.trans (startStore_keeps _)
  · exact told

/-! ### Every command and event -/

theorem act_keeps {f : Part → Part} {s t : State} (h : PartKeeps s.part (f s.part)) (g : act f s = .next t) :
    PartKeeps s.part t.part := by
  cases g
  exact h.trans (finish_keeps _)

theorem happen_keeps {f : Env → Ev → Ev} {s t : State} (h : ∀ env e, EvKeeps e (f env e)) (g : happen f s = .next t) :
    PartKeeps s.part t.part := by
  refine act_keeps ?_ g
  split
  · exact (runEvent_actKeeps (h _ _)).bounds
  · exact .refl _

theorem happenTimed_keeps {f : Ev → Ev} {s t : State} (h : ∀ e, EvKeeps e (f e)) (g : happenTimed f s = .next t) :
    PartKeeps s.part t.part := by
  refine act_keeps ?_ g
  split
  · exact .refl _
  · exact (runQuiet_actKeeps (h _)).bounds
  · exact (runEvent_actKeeps (h _)).bounds

theorem sentCommand_keeps {c : Instr} {x : Sent} {s t : State} (h : sentBy c = some x) (g : exec c s = .next t) :
    PartKeeps s.part t.part := by
  rw [exec_eq_answer h] at g
  exact act_keeps (takeCommand_keeps _ _ _ c _) g

theorem nonCommandFrame_keeps {q : Port} {k : Byte} {s t : State} (g : exec (.nonCommandFrame q k) s = .next t) :
    PartKeeps s.part t.part := by
  change execNonCommandFrame q k s = .next t at g
  unfold execNonCommandFrame at g
  refine act_keeps ?_ g
  split
  · exact (hearFrame_actKeeps q true _).bounds
  · exact .refl _

/-- The command that a good frame on a port spells is a port command of that port, or a frame that is none
(R185, R217). -/
theorem portCommand_sentBy (q : Port) (kind tag : Byte) (cs : List Byte) :
    (∃ x, sentBy (portCommand q kind tag cs) = some x ∧ x.port = q)
      ∨ portCommand q kind tag cs = .nonCommandFrame q kind := by
  unfold portCommand
  split
  case h_43 =>
    split
    · exact .inl ⟨_, rfl, rfl⟩
    · exact .inr rfl
  all_goals exact .inl ⟨_, rfl, rfl⟩

/-- A command that a frame spells is carried out by its own meaning. -/
theorem runFramed_eq_exec {c : Instr} {x : Sent} (h : sentBy c = some x) (s : State) : runFramed c s = exec c s := by
  cases c <;> cases h <;> rfl

/-- Each frame handed on is one command, or one frame that is no command. -/
theorem runFramed_portCommand (q : Port) (kind tag : Byte) (cs : List Byte) (s : State) :
    (∃ c x, sentBy c = some x ∧ runFramed (portCommand q kind tag cs) s = exec c s)
      ∨ runFramed (portCommand q kind tag cs) s = exec (.nonCommandFrame q kind) s := by
  obtain ⟨x, sent, _⟩ | none := portCommand_sentBy q kind tag cs
  · exact .inl ⟨_, x, sent, runFramed_eq_exec sent s⟩
  · rw [none]
    exact .inr rfl

theorem handFrames_keeps (q : Port) (fs : List Frame) {s t : State} (h : handFrames q fs s = .next t) :
    PartKeeps s.part t.part := by
  induction fs generalizing s with
  | nil => cases h; exact .refl _
  | cons f fs ih =>
    obtain ⟨u, first, rest⟩ := andThen_eq_next.1 h
    refine PartKeeps.trans ?_ (ih rest)
    obtain ⟨c, x, sent, run⟩ | run := runFramed_portCommand q (BitVec.ofNat 8 f.kind) f.tag f.body s
    · exact sentCommand_keeps sent (run.symm.trans first)
    · exact nonCommandFrame_keeps (run.symm.trans first)

theorem portFrameDropped_keeps {q : Port} {chars : List RxChar} {s t : State}
    (h : execPortFrameDropped q chars s = .next t) : PartKeeps s.part t.part := by
  unfold execPortFrameDropped at h
  split at h
  · exact act_keeps (f := id) (.refl _) h
  · obtain ⟨u, frames, last⟩ := andThen_eq_next.1 h
    exact (handFrames_keeps q _ frames).trans (act_keeps (partKeeps_setPort q id) last)

theorem exec_keeps {c : Instr} {s t : State} (h : exec c s = .next t) : PartKeeps s.part t.part := by
  cases c
  case powerOn => exact act_keeps (powerOn_keeps _) h
  case startUp =>
    change execStartUp s = .next t at h
    unfold execStartUp at h
    refine act_keeps ?_ h
    split
    · exact beginStart_keeps _
    · exact .refl _
  case restartBegin =>
    change execRestartBegin s = .next t at h
    unfold execRestartBegin at h
    refine act_keeps ?_ h
    split
    · exact beginRestart_keeps _
    · exact .refl _
  case nonCommandFrame => exact nonCommandFrame_keeps h
  case portFrameDropped => exact portFrameDropped_keeps h
  case interCharacterTimeout q => exact act_keeps (partKeeps_setPort q (abandonFrame_bounded _)) h
  case portTransmitEnd q => exact act_keeps (endFrame_keeps q _) h
  case portAAbsent => exact happen_keeps judgeAbsence_keeps h
  case timePulse => exact happenTimed_keeps pulse_keeps h
  case pulseMissing => exact happenTimed_keeps missing_keeps h
  case reportArrival =>
    refine act_keeps ?_ h
    split
    · exact fieldLine_keeps _ _
    · exact .refl _
  case helloArrival =>
    refine act_keeps ?_ h
    split
    · exact fieldLine_keeps _ _
    · exact .refl _
  case reportTaking => exact happen_keeps takeReport_keeps h
  case helloTaking => exact happen_keeps (fun _ => takeHello_keeps) h
  case silenceExpiry a => exact happen_keeps (fun env => silenceExpiry_keeps env a) h
  case deferredSilenceExpiry a => exact happen_keeps (fun env => deferredSilence_keeps env a) h
  case evidenceItemHandling => exact happen_keeps handleItem_keeps h
  case windowExpiry n => exact happen_keeps (fun _ => expireWindow_keeps n) h
  case isolationDeadlineReached n => exact happen_keeps (fun env => judgeDeadline_keeps env n) h
  case orderReply =>
    refine act_keeps ?_ h
    split
    · exact deviceLine_keeps _ _
    · exact .refl _
  case stateReport =>
    refine act_keeps ?_ h
    split
    · exact deviceLine_keeps _ _
    · exact .refl _
  case deviceTransmitEnd =>
    change execDeviceTransmitEnd s = .next t at h
    unfold execDeviceTransmitEnd at h
    refine act_keeps ?_ h
    split
    · exact (runEvent_actKeeps (transmitEnd_keeps _ _)).bounds
    · exact (actKeeps_core (by exact .of_eq rfl)).bounds
  case replyDeadlineExpiry d => exact happen_keeps (fun env => replyDeadline_keeps env d) h
  case settleExpiry d => exact happen_keeps (fun _ => settleExpired_keeps d) h
  case pollDue d => exact happen_keeps (fun env => pollFallsDue_keeps env d) h
  case recoverySweepStep ok =>
    refine act_keeps ?_ h
    split
    · exact (runEvent_actKeeps (f := fun env e => sweepStep env s.part.save.isSome ok e)
        (sweepStep_keeps _ _ _ _)).bounds
    · exact .refl _
  case heldWindowExpiry n => exact happen_keeps (fun _ => heldWindow_keeps n) h
  case heldAuthorityMove => exact happen_keeps heldAuthority_keeps h
  case heldIsolationLateNotice n => exact happen_keeps (fun env => heldLate_keeps env n) h
  case heldRoomListJudging => exact happen_keeps (fun _ => heldRoom_keeps) h
  case heldPollRequest => exact happen_keeps heldPolls_keeps h
  case faultWindowExpiry => exact happen_keeps (fun _ => expireFaults_keeps) h
  case occupancySample =>
    refine act_keeps ?_ h
    split
    · exact (actKeeps_rest _ _ _ _ _ _ _ _).bounds.trans
        (runEvent_actKeeps (f := fun _ e => sampleOccupancy e) (.of_eq rfl)).bounds
    · exact .refl _
  case saveCompletion written ok =>
    change execSaveCompletion written ok s = .next t at h
    unfold execSaveCompletion at h
    refine act_keeps ?_ h
    split
    · exact .refl _
    · exact completeSave_keeps written ok ‹_›
  case burnCompletion =>
    refine act_keeps ?_ h
    split
    · exact completeBurn_keeps _ _
    · exact .refl _
  all_goals exact sentCommand_keeps rfl h

/-- An idle step passes one millisecond, and the time base wraps at midnight. -/
theorem idle_keeps (s : State) : PartKeeps s.part (idle s).part :=
  (actKeeps_core (c := (idle s).part.core)
    (keeps_now (vitals s.part.core) (n := (s.part.core.time.now + 1) % Config.day) (Nat.mod_lt _ (by decide)))).bounds

theorem step_keeps {s t : State} (h : step s = .next t) : PartKeeps s.part t.part := by
  unfold step at h
  split at h
  · cases h
    exact idle_keeps s
  · have kept := exec_keeps h
    exact kept

/-! ### The invariants -/

/-- Settles O13: a setting takes a value by a write in its range, a load of the image, or the defaults. -/
theorem settingsStayInRange : Obligations.SettingsStayInRange :=
  fun _ _ before h => (step_keeps h).settings before

/-- Settles O14: a reply joins where there is room, a notice makes room, and every count saturates or wraps. -/
theorem portQueuesStayBounded : Obligations.PortQueuesStayBounded :=
  fun _ _ before h => (step_keeps h).ports before

/-- Settles O15: a counter's sum is taken modulo 2 to the 32, and a time of day modulo the day. -/
theorem countersAndTimeStayInRange : Obligations.CountersAndTimeStayInRange :=
  ⟨fun _ _ before h => (step_keeps h).counters before, fun _ _ before h => (step_keeps h).blocks.time before⟩

/-- Settles O16: the third fault in the window is the one that halts the part. -/
theorem faultWindowHaltsPart : Obligations.FaultWindowHaltsPart :=
  fun _ _ before h => (step_keeps h).blocks.window before

/-- Settles O17: an order joins only where it is granted, or takes the place of its device's own. -/
theorem blockQueuesStayBounded : Obligations.BlockQueuesStayBounded := by
  intro s t before h
  rw [queuesBounded_iff] at before ⊢
  exact (step_keeps h).blocks.queues before

end Sys2Proof.Machine
end

