-- ==== Sys2Proof/Proofs/Replies.lean ====
section
/-! PROOF. What every command shares: it answers a next state, one reply for each taken, a malformed body refused; and
the priority rule, the end of an event and the offering of a notice. -/

namespace Sys2Proof.Machine

/-! ### A next state -/

theorem handFrames_next (q : Port) (fs : List Frame) (s : State) :
    ∃ t, handFrames q fs s = .next t ∧ t.pending = s.pending := by
  induction fs generalizing s with
  | nil => exact ⟨s, rfl, rfl⟩
  | cons f fs ih =>
    have first : ∃ u, runFramed (portCommand q (BitVec.ofNat 8 f.kind) f.tag f.body) s = .next u
        ∧ u.pending = s.pending := by
      obtain ⟨c, x, sent, run⟩ | run := runFramed_portCommand q (BitVec.ofNat 8 f.kind) f.tag f.body s
      · exact ⟨_, run.trans (exec_eq_answer sent s), rfl⟩
      · exact ⟨_, run, rfl⟩
    obtain ⟨u, run, same⟩ := first
    obtain ⟨t, rest, kept⟩ := ih u
    exact ⟨t, by rw [handFrames, run]; exact rest, kept.trans same⟩

theorem execPortFrameDropped_next (q : Port) (chars : List RxChar) (s : State) :
    ∃ t, execPortFrameDropped q chars s = .next t ∧ t.pending = s.pending := by
  unfold execPortFrameDropped
  split
  · exact ⟨_, rfl, rfl⟩
  · obtain ⟨u, frames, kept⟩ := handFrames_next q
      (receiveChars s.part.core.time.elapsed (portOf q s.part).rx chars).2 s
    exact ⟨_, andThen_eq_next.2 ⟨u, frames, rfl⟩, kept⟩

/-- Settles O3: every meaning is one act on the part, but for a port's line, whose frames are such acts in turn. -/
theorem execAnswersNext : Obligations.ExecAnswersNext := by
  intro c s
  by_cases line : ∃ q chars, c = .portFrameDropped q chars
  · obtain ⟨q, chars, rfl⟩ := line
    exact execPortFrameDropped_next q chars s
  · obtain ⟨p, ends⟩ := exec_eq_ended c s fun q chars eq => line ⟨q, chars, eq⟩
    exact ⟨_, ends, rfl⟩

/-- Settles O1: the step's own branch for a queue that is not empty. -/
theorem stepRunsFrontCommand : Obligations.StepRunsFrontCommand := by
  intro c rest s front
  rw [step, front]

/-- Settles O2: the step's own branch for an empty queue. -/
theorem idleStepPassesMillisecond : Obligations.IdleStepPassesMillisecond := by
  intro s empty
  simp [step, empty, idle, passMillisecond, Config.day]

/-! ### The reply of a command -/

theorem waiting_finish (q : Port) (p : Part) : (portOf q (finish p)).waiting = (portOf q p).waiting := by
  obtain ⟨-, -, -, waiting, -⟩ := pump_keeps (portOf q p)
  rw [finish_ports]
  split
  · exact waiting
  · rfl

theorem outgoing_of_sameReplies {p p' : Part} (h : SameReplies p p') (q : Port) :
    outgoing (portOf q p') = outgoing (portOf q p) := by
  obtain ⟨tx, ready, -⟩ := h q
  rw [outgoing, outgoing, tx, ready]

/-- A ready reply is the last that its port owes. -/
theorem outgoing_enqueue_now (kind : Nat) (tag : Byte) (code : ReplyCode) (body : ReplyBody) (p : PortState) :
    outgoing (enqueue kind tag (.now code body) p)
      = outgoing p ++ [{ kind := kind + 0x80, tag := tag, code := code, body := body }] := by
  simp [outgoing, enqueue]

/-- Settles O4: a command's act leaves the replies of both ports, and its answer joins its own port alone. -/
theorem takenCommandGetsOneReply : Obligations.TakenCommandGetsOneReply := by
  intro c x s sent taken
  have same := ((hearFrame_actKeeps x.port true s.part).trans (meaning_actKeeps c (heard x.port s))).replies
  have own := outgoing_of_sameReplies same x.port
  have ownWaiting := (same x.port).2.2
  refine ⟨_, (exec_eq_answer sent s).trans (answer_taken _ _ _ _ s taken), ?_, ?_, ?_⟩
  · simp only [ended, outgoing_finish, waiting_finish, portOf_setPort]
    cases (meaning c (heard x.port s)).2 with
    | now code body => exact .inl ⟨code, body, by rw [outgoing_enqueue_now, own], ownWaiting⟩
    | later op => exact .inr ⟨op, own, congrArg (· ++ _) ownWaiting⟩
  · simp only [ended, outgoing_finish, portOf_setPort_other]
    exact outgoing_of_sameReplies same (otherPort x.port)
  · simp only [ended, waiting_finish, portOf_setPort_other]
    exact (same (otherPort x.port)).2.2

/-- Settles O5: a command's frame is judged on the run state and its port's reply queue before its meaning is. -/
theorem commandDiscarded : Obligations.CommandDiscarded := by
  intro c x s sent
  rw [exec_eq_answer sent s]
  exact ⟨answer_notRunning _ _ _ _ s, answer_full _ _ _ _ s⟩

/-- Settles O6: the body is judged first, and a malformed one answers with the part as its frame leaves it. -/
theorem malformedBodyRefused : Obligations.MalformedBodyRefused := by
  intro c x s sent malformed taken
  rw [exec_eq_answer sent s]
  exact answer_replied taken (meaning_malformed sent malformed _)

/-! ### The priority rule (R187) -/

theorem select_mem {cs : List Condition} {c : ReplyCode} (h : select cs = some c) : (true, c) ∈ cs := by
  induction cs generalizing c with
  | nil => cases h
  | cons x cs ih =>
    obtain ⟨holds, code⟩ := x
    unfold select at h
    split at h
    · exact List.mem_cons_of_mem _ (ih h)
    · cases h
      exact List.mem_cons_self
    · rename_i rest
      split at h
      · cases h
        exact List.mem_cons_self
      · cases h
        exact List.mem_cons_of_mem _ (ih rest)

theorem select_least {cs : List Condition} {c d : ReplyCode} (h : select cs = some c) (g : (true, d) ∈ cs) :
    c.rank ≤ d.rank := by
  induction cs generalizing c with
  | nil => cases h
  | cons x cs ih =>
    obtain ⟨holds, code⟩ := x
    unfold select at h
    split at h
    · obtain eq | rest := List.mem_cons.1 g
      · cases eq
      · exact ih h rest
    · rename_i none
      cases h
      obtain eq | rest := List.mem_cons.1 g
      · cases eq
        exact le_rfl
      · cases select_eq_none_iff.1 none _ rest
    · rename_i r some
      obtain eq | rest := List.mem_cons.1 g
      · cases eq
        split at h <;> cases h <;> omega
      · have below := ih some rest
        split at h <;> cases h <;> omega

theorem rank_le (c : ReplyCode) : c.rank ≤ 24 := by
  cases c <;> decide

/-- Class and substatus grow with the rank: each class is a run of ranks, and the substatus the place in it. -/
theorem rank_eq_of_cls (c : ReplyCode) :
    (c.cls = 0 ∧ c.rank = 24 ∧ c.sub = 0) ∨ (c.cls = 1 ∧ c.rank = c.sub - 1 ∧ 1 ≤ c.sub ∧ c.sub ≤ 6)
      ∨ (c.cls = 2 ∧ c.rank = c.sub + 5 ∧ 1 ≤ c.sub ∧ c.sub ≤ 8)
      ∨ (c.cls = 3 ∧ c.rank = c.sub + 13 ∧ 1 ≤ c.sub ∧ c.sub ≤ 3)
      ∨ (c.cls = 4 ∧ c.rank = c.sub + 16 ∧ 1 ≤ c.sub ∧ c.sub ≤ 2)
      ∨ (c.cls = 5 ∧ c.rank = c.sub + 18 ∧ 1 ≤ c.sub ∧ c.sub ≤ 5) := by
  cases c <;> decide

theorem rank_lt_iff (c d : ReplyCode) : c.rank < d.rank ↔
    (d.cls = 0 ∧ c.cls ≠ 0)
      ∨ (d.cls ≠ 0 ∧ c.cls ≠ 0 ∧ (c.cls < d.cls ∨ (c.cls = d.cls ∧ c.sub < d.sub))) := by
  have hc := rank_eq_of_cls c
  have hd := rank_eq_of_cls d
  omega

/-- A list is a class's when its codes have the class and the substatus of their places, and it misses none. -/
theorem listed_iff {k : Nat} {l : List ReplyCode}
    (h : ∀ i : Fin l.length, (l[i]).cls = k ∧ (l[i]).sub = i + 1)
    (g : ∀ c : ReplyCode, c.cls = k → 1 ≤ c.sub ∧ l[c.sub - 1]? = some c) (i : Nat) (c : ReplyCode) :
    l[i]? = some c ↔ c.cls = k ∧ c.sub = i + 1 := by
  constructor
  · intro at_
    obtain ⟨lt, rfl⟩ := List.getElem?_eq_some_iff.1 at_
    exact h ⟨i, lt⟩
  · rintro ⟨cls, sub⟩
    have place := (g c cls).2
    rwa [sub, Nat.add_sub_cancel] at place

/-- Settles O7: the rank is the order of the classes and of the places in each class's list. -/
theorem priorityRuleSelectsHighest : Obligations.PriorityRuleSelectsHighest := by
  refine ⟨fun cs => ⟨select_eq_none_iff, fun c h => ⟨select_mem h, fun d => select_least h⟩⟩, rank_lt_iff,
    ⟨listed_iff (by decide) ?_, listed_iff (by decide) ?_, listed_iff (by decide) ?_, listed_iff (by decide) ?_,
      listed_iff (by decide) ?_, ?_⟩, by decide⟩
  all_goals
    intro c
    cases c <;> decide

/-! ### The end of an event (R20, R186, R191) -/

theorem portsSend_iff (p : Part) : portsSend p = true ↔ p.run = .running ∨ p.run = .restartTaken := by
  unfold portsSend
  cases p.run <;> simp

/-- The end of an event takes frames from what the ports owe, and leaves the rest of each port. -/
theorem finish_keepsPort (q : Port) (p : Part) :
    outgoing (portOf q (finish p)) = outgoing (portOf q p)
      ∧ noticeStream (portOf q (finish p)) = noticeStream (portOf q p)
      ∧ (portOf q (finish p)).rx = (portOf q p).rx ∧ (portOf q (finish p)).waiting = (portOf q p).waiting
      ∧ (portOf q (finish p)).categories = (portOf q p).categories
      ∧ (portOf q (finish p)).overrun = (portOf q p).overrun := by
  rw [finish_ports]
  split
  · exact pump_keeps _
  · exact ⟨rfl, rfl, rfl, rfl, rfl, rfl⟩

theorem noticeHeader_eq (n : Notice) (lost : Bool) :
    noticeHeader n lost
      = [BitVec.ofNat 8 n.category.code, if lost then 1#8 else 0#8, BitVec.ofNat 8 n.form] := by
  cases lost <;> rfl

/-- Settles O8: the transmitters' frames are the pump's, and their headers those of section 12.3. -/
theorem endOfEventKeepsStreams : Obligations.EndOfEventKeepsStreams := by
  refine ⟨fun q p => ?_, fun p r rest free ready => pump_reply free ready,
    fun p n rest free ready queue => pump_notice free ready queue, fun p f busy => pump_busy busy,
    fun p free ready queue => pump_idle free ready queue, fun n seq lost => ?_, fun r => ?_⟩
  · obtain ⟨replies, notices, rx, waiting, categories, overrun⟩ := finish_keepsPort q p
    refine ⟨finish_ports q p, portsSend_iff p, finish_inService p, serviceHigh_iff p, replies, notices, rx, waiting,
      categories, overrun, ?_⟩
    rw [finish_inService]
    exact finish_rest p
  · refine ⟨arrangeNotice n.category.code n.form (noticeFields n), ?_⟩
    rw [portFrameChars, PortFrame.body, noticeHeader_eq]
    rfl
  · exact ⟨contentChars r.kind r.body, rfl⟩

/-! ### A notice offered (R190, R192) -/

theorem joinNotices_room (n : Notice) {p : PortState} (h : p.notices.length < 32) :
    joinNotices n p = { p with notices := p.notices ++ [n] } := if_pos h

theorem joinNotices_full (n : Notice) {p : PortState} (h : 32 ≤ p.notices.length) :
    joinNotices n p = { p with notices := p.notices.drop 1 ++ [n], lostPending := true } := if_neg (Nat.not_lt.2 h)

/-- A SUMMARY notice, and one of a category that is not masked, joins the queue. -/
theorem offer_unmasked {n : Notice} {p : PortState} (eight : p.categories.length = 8)
    (h : n.category = .summary ∨ ∃ c, p.categories[n.category.code - 1]? = some c ∧ c.mask = false) :
    offer n p = joinNotices n p := by
  obtain summary | ⟨c, at_, open_⟩ := h
  · have none : p.categories[categoryIndex n.category]? = none := by
      rw [summary, List.getElem?_eq_none_iff, eight]
      decide
    rw [offer, none]
  · rw [offer, show p.categories[categoryIndex n.category]? = some c from at_]
    simp [open_]

theorem offer_masked {n : Notice} {p : PortState} {c : CategoryState}
    (h : p.categories[n.category.code - 1]? = some c) (masked : c.mask = true) :
    offer n p = { p with
      categories := p.categories.set (n.category.code - 1)
        { mask := true, latch := true, withheld := min 255 (c.withheld + 1) } } := by
  rw [offer, show p.categories[categoryIndex n.category]? = some c from h]
  simp [masked, categoryIndex]

/-- Settles O9: a masked category withholds, and every other notice joins the queue, which makes room. -/
theorem noticeOfferedUnderMask : Obligations.NoticeOfferedUnderMask := by
  intro n p eight
  refine ⟨fun unmasked => ⟨fun room => ?_, fun full => ?_⟩, fun c _ at_ masked => offer_masked at_ masked⟩
  · rw [offer_unmasked eight unmasked, joinNotices_room n room]
  · rw [offer_unmasked eight unmasked, joinNotices_full n full]

/-! ### The state of reset -/

theorem entryAt_replicate_none {α : Type} (n : Nat) (x : Check) (m : Nat) :
    entryAt (List.replicate n { content := (none : Option α), check := x }) m = none := by
  rw [entryAt, List.getElem?_replicate]
  split
  · rename_i at_
    split at at_
    · cases at_; rfl
    · cases at_
  · rfl

theorem emptyTable_undefined (α : Type) (n m : Nat) : entryAt (emptyTable α n) m = none := entryAt_replicate_none n 0 m

theorem emptyTable_sound (α : Type) (n : Nat) : Sound (emptyTable α n) := by
  intro m
  rw [badAt, emptyTable, List.getElem?_replicate]
  split
  · rename_i at_
    split at at_
    · cases at_; rfl
    · cases at_
  · rfl

/-- Settles O11: the tables of reset are empty and sound, and each invariant is judged on empty queues. -/
theorem resetState : Obligations.ResetState := by
  refine ⟨rfl, rfl, rfl, rfl, rfl, emptyTable_undefined _ _, emptyTable_undefined _ _, emptyTable_undefined _ _,
    emptyTable_undefined _ _, emptyTable_undefined _ _,
    ⟨emptyTable_sound _ _, emptyTable_sound _ _, emptyTable_sound _ _, emptyTable_sound _ _, emptyTable_sound _ _⟩,
    rfl, rfl, rfl, rfl, rfl, rfl, fun c hc => (List.mem_replicate.1 hc).2, rfl, rfl, rfl, rfl, ?_,
    ⟨default_settingsOk, default_settingsOk, fun _ saved => nomatch saved⟩, ⟨powerOn_bounded, powerOn_bounded⟩,
    clearCounters_in, ⟨by decide, by decide⟩, ⟨by decide, fun _ => by decide, fun _ => rfl⟩,
    ⟨by decide, by decide, by decide, List.nodup_nil⟩⟩
  simp [PinAgrees, State.reset, Part.reset, Core.reset]

/-! ### Times of day (R28) -/

/-- Settles O18: each operation is integer arithmetic modulo the day. -/
theorem timesOfDayWrap : Obligations.TimesOfDayWrap := by
  refine ⟨fun _ _ => rfl, fun t d => ?_, fun a b => ?_, fun now e => decide_eq_true_iff, by decide⟩
  · rw [moveTime, Int.toNat_of_nonneg (Int.emod_nonneg _ (by decide))]
    rfl
  · simp only [diffTime, Config.day, Config.halfDay]
    omega

/-! ### The confirmation test (R82, R83) -/

theorem confirmTest_noFinding (env : Env) {n : Nat} {k : Case} {e : Ev} (h : entryAt e.cases n = some k)
    (watch : k.state = .watch) (none_ : findingFor env.settings e.time.lock k = none) : confirmTest env n e = e := by
  simp only [confirmTest, h, watch, none_]

theorem confirmTest_finding (env : Env) {n : Nat} {k : Case} {f : Finding} {e : Ev}
    (h : entryAt e.cases n = some k) (watch : k.state = .watch)
    (found : findingFor env.settings e.time.lock k = some f) : confirmTest env n e = confirmCase n k f e := by
  simp only [confirmTest, h, watch, found]

/-- Settles O23: the finding follows the two conditions, and a case with one is confirmed by `confirmCase`. -/
theorem confirmationTest : Obligations.ConfirmationTest := by
  intro env n k e entry watch readable
  refine ⟨fun broken downed => ?_, fun f found => ?_⟩
  · refine confirmTest_noFinding env entry watch ?_
    simp only [findingFor, broken, downed]
  · have finding : findingFor env.settings e.time.lock k = some f := by
      obtain ⟨broken, downed, rfl⟩ | ⟨broken, downed, rfl⟩ | ⟨broken, downed, rfl⟩ := found <;>
        simp only [findingFor, broken, downed]
    rw [confirmTest_finding env entry watch finding]
    simp [confirmCase, changeCase, putCase, raise, countSegment, occur, caseNotice, putAt, watch, readable]

end Sys2Proof.Machine
end

