-- ==== Sys2Proof/Proofs/Refusals.lean ====
section
/-! PROOF. The refusals that many commands share: the conditions each command is judged on before any entry is read, as
one list, and what holds among them. -/

namespace Sys2Proof.Machine

/-! ### The stages of a command -/

/-- A code is the one of its rank. -/
theorem code_of_rank (c : ReplyCode) :
    [ReplyCode.malformed, .unknownKind, .noSuchItem, .outOfRange, .notPermitted, .wrongMode, .notReserved,
      .segmentHeld, .caseOnPath, .wrongCaseState, .topologyInvalid, .inUse, .optionsBurned, .nothingStaged, .tableFull,
      .orderQueueFull, .planStoreFull, .faultRecovery, .storeFailure, .otherPortInControl, .deviceOrderInFlight,
      .isolationInProgress, .closeInFlight, .saveInProgress, .accepted][c.rank]? = some c := by
  cases c <;> rfl

theorem rank_injective {c d : ReplyCode} (h : c.rank = d.rank) : c = d :=
  Option.some.inj ((code_of_rank c).symm.trans (h ▸ code_of_rank d))

/-- The condition that holds and has the least rank is the one selected. -/
theorem select_eq_some {cs : List Condition} {c : ReplyCode} (holds : (true, c) ∈ cs)
    (least : ∀ d, (true, d) ∈ cs → c.rank ≤ d.rank) : select cs = some c := by
  cases selected : select cs with
  | none => cases select_eq_none_iff.1 selected _ holds
  | some d =>
    have same := Nat.le_antisymm (select_least selected holds) (least d (select_mem selected))
    rw [rank_injective same]

theorem unless_passes {cs : List Condition} (h : select cs = none) (f : Part → Part × Answer) (p : Part) :
    unless_ cs f p = f p := by
  rw [unless_, h]

theorem unless_refuses {cs : List Condition} {c : ReplyCode} (h : select cs = some c) (f : Part → Part × Answer)
    (p : Part) : unless_ cs f p = (p, plain c) := by
  rw [unless_, h]

theorem unlessEv_passes {cs : List Condition} (h : select cs = none) (f : Ev → Ev × Answer) (e : Ev) :
    unlessEv cs f e = f e := by
  rw [unlessEv, h]

theorem unlessEv_refuses {cs : List Condition} {c : ReplyCode} (h : select cs = some c) (f : Ev → Ev × Answer)
    (e : Ev) : unlessEv cs f e = (e, plain c) := by
  rw [unlessEv, h]

/-- A condition that does not hold decides nothing. -/
theorem select_false (c : ReplyCode) (cs : List Condition) : select ((false, c) :: cs) = select cs := rfl

/-- A command that leaves the blocks as they are only answers. -/
theorem viaCore_same {f : Env → Ev → Ev × Answer} {p : Part} {a : Answer}
    (h : f (envOf p) (startEvent p.core) = (startEvent p.core, a)) : viaCore f p = (p, a) := by
  rw [viaCore_eq, h, commit_start]

/-- A command that leaves no work, and does not find the store failed, leaves the blocks as its event does. -/
theorem viaCore_done {f : Env → Ev → Ev × Answer} {p : Part} {e : Ev} {a : Answer} {xs : List Emit} {core : Core}
    (h : f (envOf p) (startEvent p.core) = (e, a)) (idle : e.todo = []) (store : e.storeFailed = false)
    (out : e.out = xs) (blocks : e.toCore = core) : viaCore f p = (outcome xs core p, a) := by
  rw [viaCore_eq, h, settle_nil _ _ idle, commit_eq _ _ store, out, blocks]

/-- A command taken leaves what its meaning leaves, and is answered with what its meaning answers. -/
theorem exec_replied {c : Instr} {q : Port} {kind : Nat} {tag : Byte} {m : Bool} {s : State} {p : Part}
    {code : ReplyCode} {body : ReplyBody} (sent : sentBy c = some ⟨q, kind, tag, m⟩) (taken : Takes q s)
    (h : meaning c (heard q s) = (p, .now code body)) : exec c s = .next (replied q kind tag code body p s) := by
  rw [exec_eq_answer sent s, answer_taken _ _ _ _ s taken, h]
  rfl

theorem exec_refused {c : Instr} {q : Port} {kind : Nat} {tag : Byte} {m : Bool} {s : State} {code : ReplyCode}
    (sent : sentBy c = some ⟨q, kind, tag, m⟩) (taken : Takes q s)
    (h : meaning c (heard q s) = (heard q s, plain code)) : exec c s = .next (refused q kind tag code s) :=
  exec_replied sent taken h

/-! ### The conditions judged before any entry is read -/

/-- The conditions of a command that need no read, as its meaning judges them. -/
def common : Instr → Part → List Condition
  | .resetPort _ _ _, p | .readDiscovery _ _ _, p | .readTime _ _ _, p | .readClaims _ _ _, p | .readSetting _ _ _, p
  | .readOptions _ _ _, p => [(isHalted p, .wrongMode)]
  | .restart q _ _, _ => [(q == .b, .notPermitted)]
  | .setNoticeMask _ _ (.ok codes), p =>
    [(codes.any fun c => (maskable c).isNone, .malformed), (isHalted p, .wrongMode)]
  | .setMode q _ (.ok m), p => modeConditions p q m
  | .defineSegment q _ (.ok x), p =>
    (!phasesNonempty x.phases, .malformed) :: editConditions p q (segmentInRange x)
  | .deleteSegment q _ (.ok n), p => editConditions p q (decide (n < Config.segments))
  | .readSegments _ _ (.ok x), p => readConditions p (rangeOk x 0 Config.segments 64)
  | .bindSensor q _ (.ok x), p =>
    (!phasesNonempty x.phases, .malformed)
      :: editConditions p q (sensorAddress x.address && decide (x.segment < Config.segments))
  | .unbindSensor q _ (.ok a), p => editConditions p q (sensorAddress a)
  | .readRoster _ _ (.ok x), p => readConditions p (rangeOk x 1 65535 32)
  | .defineDevice q _ (.ok x), p => editConditions p q (deviceInRange x)
  | .deleteDevice q _ (.ok n), p => editConditions p q (decide (n < Config.devices))
  | .readDevices _ _ _, p => readConditions p true
  | .setTime q _ (.ok v), p =>
    [(decide (Config.day ≤ v), .outOfRange), (uncontrolled p q, .notPermitted), (isHalted p, .wrongMode)]
  | .dismissCase q _ (.ok x), p | .closeCase q _ (.ok x), p | .isolateCase q _ (.ok x), p =>
    caseConditions p (true && uncontrolled p q) (decide (x.entry < Config.cases))
  | .listCases _ _ _, p => caseConditions p false true
  | .readCase q _ (.ok x), p => caseConditions p (false && uncontrolled p q) (decide (x.entry < Config.cases))
  | .definePlan q _ (.ok x), p => (!stepsWellFormed x.steps, .malformed) :: editConditions p q (planInRange x)
  | .deletePlan q _ (.ok n), p => editConditions p q (decide (n < Config.plans))
  | .readPlans _ _ (.ok x), p => readConditions p (rangeOk x 0 Config.plans 16)
  | .reserve _ _ (.ok n), p | .release _ _ (.ok n), p => claimConditions p (decide (n < Config.devices))
  | .operate q _ (.ok x), p => operateBars p q ++ claimConditions p (decide (x.device < Config.devices))
  | .setHold _ _ (.ok x), p =>
    claimConditions p (decide (x.segment < Config.segments) && decide (x.label < 65536))
  | .clearHold _ _ (.ok n), p => claimConditions p (decide (n < Config.segments))
  | .readFaultRecord q _ (.ok clear), _ => [(q == .b && clear, .notPermitted)]
  | .programCounter q _ (.ok x), p =>
    (!scopeInRange x.scope, .outOfRange) :: (!scopeAllowed x.select x.scope, .outOfRange)
      :: counterConditions p q x.number
  | .clearCounter q _ (.ok n), p => counterConditions p q n
  | .readCounters q _ (.ok x), p =>
    [(!(decide (x.first < Config.counters) && decide (1 ≤ x.count) && decide (x.count ≤ 16)), .outOfRange),
     (q == .b && p.inForce.options.bReadCountersOnly && decide (x.first < 8), .notPermitted),
     (isHalted p, .wrongMode)]
  | .writeSetting q _ (.ok x), p =>
    match settingId x.group x.index with
    | none => []
    | some i => writeConditions p q i (maskedWrite (i.get p.settings) x.value x.mask)
  | .saveConfiguration q _ _, p => saveConditions p q
  | .stageOptions q _ _, p =>
    [(q == .b, .notPermitted), (isHalted p, .wrongMode), (burnedOrBurning p, .optionsBurned)]
  | .burnOptions q _ _, p => burnConditions p q
  | _, _ => []

theorem healthy_iff (c : Core) : healthy c = true ↔ c.mode ≠ .halted ∧ c.recovery.recovering = false := by
  simp [healthy, and_comm]

/-- An item is named, if it is in its range and may be read: the conditions of its command then stand alone. -/
theorem onCase_barred {cs : List Condition} {x : CaseName} {e : Ev} {code : ReplyCode}
    (h : select cs = some code)
    (there : healthy e.toCore = true → x.entry < Config.cases →
      badAt e.cases x.entry = false ∧ namesCase e.toCore x = true)
    (f : Case → Ev → Ev × Answer) : onCase cs x f e = (e, plain code) := by
  unfold onCase
  split
  · rename_i reads
    obtain ⟨sound, named⟩ := there reads.1 reads.2
    rw [reading_sound _ _ _ (by simpa [isBad] using sound), named]
    exact unlessEv_refuses ((select_false _ cs).trans h) _ e
  · exact unlessEv_refuses h _ e

theorem onItem_barred {cs : List Condition} {inRange : Bool} {r : Ref} {isDefined : Core → Bool} {e : Ev}
    {code : ReplyCode} (h : select cs = some code)
    (there : healthy e.toCore = true → inRange = true → isBad e.toCore r = false ∧ isDefined e.toCore = true)
    (f : Ev → Ev × Answer) : onItem cs inRange r isDefined f e = (e, plain code) := by
  unfold onItem
  split
  · rename_i reads
    obtain ⟨well, inside⟩ := Bool.and_eq_true_iff.1 reads
    obtain ⟨sound, defined⟩ := there well inside
    rw [reading_sound _ _ _ (by simpa using sound), defined]
    exact unlessEv_refuses ((select_false _ cs).trans h) _ e
  · exact unlessEv_refuses h _ e

/-- The conditions of a claim past its item hold only where no entry is read. -/
theorem claimConditions_unread {p : Part} {inRange : Bool} {code : ReplyCode}
    (h : select (claimConditions p inRange) = some code) (well : healthy p.core = true) (inside : inRange = true) :
    False := by
  have none : select (claimConditions p inRange) = none := by
    obtain ⟨running, calm⟩ := (healthy_iff p.core).1 well
    refine select_eq_none_iff.2 ?_
    simp [claimConditions, inside, (isHalted_eq_false_iff p).2 running, calm]
  rw [none] at h
  cases h

/-- What a command says of the item that it names before its port is judged. -/
def NamesItem (c : Instr) (p : Part) : Prop :=
  itemThere p.core c = true ∨ healthy p.core = false ∨ fieldsOk p.settings c = false

theorem caseCommand_barred {q : Port} {changes : Bool} {f : CaseName → Case → Ev → Ev × Answer} {x : CaseName}
    {p : Part} {code : ReplyCode}
    (h : select (caseConditions p (changes && uncontrolled p q) (decide (x.entry < Config.cases))) = some code)
    (there : healthy p.core = true → x.entry < Config.cases →
      badAt p.core.cases x.entry = false ∧ namesCase p.core x = true) :
    caseCommand q changes f x p = (p, plain code) := by
  unfold caseCommand
  refine viaCore_same ?_
  exact onCase_barred (e := startEvent p.core) h there (f x)

/-- A case command that its port may send reads its entry where no condition on it holds. -/
theorem caseConditions_unread {p : Part} {n : Nat} {code : ReplyCode}
    (h : select (caseConditions p false (decide (n < Config.cases))) = some code) (well : healthy p.core = true)
    (inside : n < Config.cases) : False := by
  have none : select (caseConditions p false (decide (n < Config.cases))) = none := by
    obtain ⟨running, calm⟩ := (healthy_iff p.core).1 well
    refine select_eq_none_iff.2 ?_
    simp [caseConditions, inside, (isHalted_eq_false_iff p).2 running, calm]
  rw [none] at h
  cases h

theorem itemCommand_barred {cs : List Condition} {inRange : Bool} {r : Ref} {isDefined : Core → Bool}
    {f : Ev → Ev × Answer} {p : Part} {code : ReplyCode} (h : select cs = some code)
    (there : healthy p.core = true → inRange = true → isBad p.core r = false ∧ isDefined p.core = true) :
    viaCore (fun _ e => onItem cs inRange r isDefined f e) p = (p, plain code) :=
  viaCore_same (onItem_barred (e := startEvent p.core) h there f)

theorem deviceClaim_barred {n : Nat} {extra : List Condition} {f : Ev → Ev × Answer} {p : Part} {code : ReplyCode}
    (h : select (extra ++ claimConditions p (decide (n < Config.devices))) = some code)
    (there : healthy p.core = true → decide (n < Config.devices) = true →
      badAt p.core.devices n = false ∧ (entryAt p.core.devices n).isSome = true) :
    deviceClaim n extra f p = (p, plain code) := by
  unfold deviceClaim
  exact itemCommand_barred h there

theorem namesCase_eq (c : Core) (x : CaseName) :
    namesCase c x = (entryAt c.cases x.entry).any fun k => k.serial == x.serial := by
  unfold namesCase
  cases entryAt c.cases x.entry <;> rfl

/-- A case command names its case wherever it reads it. -/
theorem case_there {c : Core} {x : CaseName}
    (h : (!badAt c.cases x.entry && (entryAt c.cases x.entry).any fun k => k.serial == x.serial) = true
      ∨ healthy c = false ∨ decide (x.entry < 32) = false) (well : healthy c = true) (inside : x.entry < Config.cases) :
    badAt c.cases x.entry = false ∧ namesCase c x = true := by
  obtain there | ill | outside := h
  · rw [namesCase_eq]
    simpa using there
  · rw [ill] at well
    cases well
  · exact absurd inside (of_decide_eq_false outside)

/-- A command one of whose common conditions holds is refused on them, whatever else holds, and changes nothing. -/
theorem meaning_barred {c : Instr} {x : Sent} {p : Part} {code : ReplyCode} (sent : sentBy c = some x)
    (good : x.malformed = false) (form : formOk c = true) (there : NamesItem c p)
    (h : select (common c p) = some code) : meaning c p = (p, plain code) := by
  unfold NamesItem at there
  cases c <;> cases sent
  case unknownKindCommand => cases form
  all_goals
    rename_i body
    cases body
    case malformed => cases good
    rename_i x
  case dismissCase | closeCase | isolateCase => exact caseCommand_barred h (case_there there)
  case readCase =>
    exact caseCommand_barred h fun well inside => (caseConditions_unread h well inside).elim
  case reserve | release => exact deviceClaim_barred h fun well inside => (claimConditions_unread h well inside).elim
  case setHold => exact itemCommand_barred h fun well inside => (claimConditions_unread h well inside).elim
  case clearHold =>
    simp only [meaning, onBody]
    refine viaCore_same ?_
    split
    · exact unlessEv_refuses h _ _
    · exact onItem_barred h (fun well inside => (claimConditions_unread h well inside).elim) _
  case operate =>
    have notQuery : x.action ≠ .query := by simpa [formOk] using form
    simp only [meaning, onBody, if_neg notQuery]
    refine deviceClaim_barred h fun well inside => ?_
    obtain there | ill | outside := there
    · simpa [itemThere, isBad] using there
    · rw [show healthy p.core = true from well] at ill
      cases ill
    · simp only [fieldsOk, Bool.and_eq_false_iff, decide_eq_false_iff_not] at outside
      obtain outside | query := outside
      · exact absurd (of_decide_eq_true inside) outside
      · exact absurd (by simpa using query) notQuery
  case readSetting =>
    simp only [meaning, onBody]
    split
    · simp_all [formOk]
    · exact unless_refuses h _ p
  case writeSetting =>
    simp only [meaning, onBody]
    simp only [common] at h
    split
    · simp_all [formOk]
    · rename_i i named
      rw [named] at h
      exact unless_refuses h _ p
  case identify | getStatus => cases h
  all_goals
    simp only [meaning, onBody]
    exact unless_refuses h _ p

/-! ### What each of those conditions says -/

theorem port_ne_a (q : Port) : ¬ q = .a ↔ q = .b := by
  cases q <;> simp

theorem port_a_or_b (q : Port) : q = .a ∨ q = .b := by
  cases q <;> simp

theorem optBelow_eq (n : Option Nat) {bound : Nat} (h : 0 < bound) : optBelow n bound = decide (n.getD 0 < bound) := by
  cases n <;> simp [optBelow, h]

theorem maskable_eq_none (n : Nat) : maskable n = none ↔ ¬ (1 ≤ n ∧ n ≤ 8) := by
  by_cases inside : 1 ≤ n ∧ n ≤ 8
  · obtain ⟨low, high⟩ := inside
    interval_cases n <;> simp [maskable]
  · unfold maskable
    split <;> simp_all

theorem ownerOf_eq (n : Nat) (q : Port) : ownerOf n = q ↔ (q = .a ↔ n < 8) := by
  unfold ownerOf
  cases q <;> by_cases h : n < 8 <;> simp [h]

/-- Why a command of a possible form is refused before any entry is read. -/
def Bars (c : Instr) (p : Part) (code : ReplyCode) : Prop :=
  (code = .outOfRange ∧ fieldsOk p.settings c = false)
  ∨ (code = .notPermitted ∧ portAllows p.inForce.options p.settings c = false)
  ∨ (code = .wrongMode ∧ modeServes p.core.mode c = false)
  ∨ (code = .faultRecovery ∧ p.core.recovery.recovering = true ∧ usesTables c = true)
  ∨ (code = .saveInProgress ∧ p.save.isSome = true ∧ heldBySave c = true)
  ∨ (code = .optionsBurned ∧ (p.options.burned = true ∨ p.burning = true)
      ∧ ((∃ q tag b, c = .stageOptions q tag b) ∨ ∃ q tag b, c = .burnOptions q tag b))
  ∨ (code = .nothingStaged ∧ p.staged = none ∧ ∃ q tag b, c = .burnOptions q tag b)

theorem common_holds_iff {c : Instr} {x : Sent} (p : Part) (code : ReplyCode) (sent : sentBy c = some x)
    (good : x.malformed = false) (form : formOk c = true) : (true, code) ∈ common c p ↔ Bars c p code := by
  cases c <;> cases sent
  case unknownKindCommand => cases form
  all_goals
    rename_i body
    cases body
    case malformed => cases good
    rename_i x
  case writeSetting port _ =>
    obtain ⟨i, named⟩ := Option.isSome_iff_exists.1 (show (settingId x.group x.index).isSome = true from form)
    simp only [common, Bars, fieldsOk, portAllows, named]
    by_cases authority : i = .authority
    · subst authority
      simp [writeConditions, modeServes, usesTables, heldBySave, isEdit, isHalted, SettingId.get]
      grind [port_a_or_b port]
    · simp [writeConditions, modeServes, usesTables, heldBySave, isEdit, isHalted, authority, port_ne_a]
      grind
  all_goals
    simp only [common, formOk] at form ⊢
    simp [Bars, editConditions, readConditions, modeConditions, caseConditions, claimConditions, counterConditions,
      saveConditions, burnConditions, operateBars, fieldsOk, portAllows, modeServes, usesTables,
      heldBySave, isEdit, segmentInRange, deviceInRange, planInRange, stepsWellFormed, rangeOk, sensorAddress,
      burnedOrBurning, isHalted, optBelow_eq, Config.segments, Config.plans, Config.devices, Config.cases,
      Config.counters, Config.planSteps, Config.day, uncontrolled, port_ne_a, maskable_eq_none, ownerOf_eq] at form ⊢
  all_goals grind

/-! ### The part as the command's frame leaves it -/

theorem bars_heard (c : Instr) (q : Port) (s : State) (code : ReplyCode) :
    Bars c (heard q s) code ↔ Bars c s.part code := by
  simp only [Bars, heard_settings, heard_inForce, heard_mode, heard_recovery, heard_save, heard_options, heard_burning,
    heard_staged]

theorem namesItem_heard (c : Instr) (q : Port) (s : State) : NamesItem c (heard q s) ↔ NamesItem c s.part := by
  have core := heard_core q s
  have there : itemThere (heard q s).core c = itemThere s.part.core c := by
    rw [core]
    cases c <;> rfl
  simp only [NamesItem, there, healthy, heard_mode, heard_recovery, heard_settings]

/-- A command is refused with the bar of the least rank among those on it. -/
theorem exec_barred {c : Instr} {x : Sent} {s : State} {code : ReplyCode} (sent : sentBy c = some x)
    (good : x.malformed = false) (taken : Takes x.port s) (form : formOk c = true) (there : NamesItem c s.part)
    (bar : Bars c s.part code) (least : ∀ d, Bars c s.part d → code.rank ≤ d.rank) :
    exec c s = .next (refused x.port x.kind x.tag code s) := by
  have holds := common_holds_iff (heard x.port s) (sent := sent) (good := good) (form := form)
  refine exec_refused (m := x.malformed) sent taken (meaning_barred sent good form
    ((namesItem_heard c x.port s).2 there) (select_eq_some ((holds code).2 ((bars_heard c x.port s code).2 bar))
      fun d isBar => least d ((bars_heard c x.port s d).1 ((holds d).1 isBar))))

theorem formOk_of_fieldsOk {s : Settings} {c : Instr} {x : Sent} (sent : sentBy c = some x)
    (h : fieldsOk s c = true) : formOk c = true := by
  cases c <;> cases sent
  case writeSetting q tag body =>
    cases body with
    | malformed => rfl
    | ok x => cases named : settingId x.group x.index <;> simp_all [fieldsOk, formOk]
  case unknownKindCommand => cases h
  all_goals
    rename_i body
    cases body <;> simp_all [fieldsOk, formOk]

/-- In HALTED four commands alone are served (R189). -/
theorem modeServes_halted {c : Instr} {x : Sent} (sent : sentBy c = some x)
    (other : x.kind ∉ [0x01, 0x02, 0x04, 0x2C]) : modeServes .halted c = false := by
  cases c <;> cases sent
  case identify | getStatus | restart | readFaultRecord => simp at other
  all_goals rfl

/-! ### The order of the bars -/

theorem outOfRange_least {c : Instr} {p : Part} {d : ReplyCode} (h : Bars c p d) :
    ReplyCode.outOfRange.rank ≤ d.rank := by
  obtain ⟨rfl, _⟩ | ⟨rfl, _⟩ | ⟨rfl, _⟩ | ⟨rfl, _⟩ | ⟨rfl, _⟩ | ⟨rfl, _⟩ | ⟨rfl, _⟩ := h <;> decide

theorem notPermitted_least {c : Instr} {p : Part} {d : ReplyCode} (fields : fieldsOk p.settings c = true)
    (h : Bars c p d) : ReplyCode.notPermitted.rank ≤ d.rank := by
  obtain ⟨_, bad⟩ | ⟨rfl, _⟩ | ⟨rfl, _⟩ | ⟨rfl, _⟩ | ⟨rfl, _⟩ | ⟨rfl, _⟩ | ⟨rfl, _⟩ := h
  · rw [fields] at bad
    cases bad
  all_goals decide

theorem wrongMode_least {c : Instr} {p : Part} {d : ReplyCode} (fields : fieldsOk p.settings c = true)
    (allowed : portAllows p.inForce.options p.settings c = true) (h : Bars c p d) :
    ReplyCode.wrongMode.rank ≤ d.rank := by
  obtain ⟨_, bad⟩ | ⟨_, barred⟩ | ⟨rfl, _⟩ | ⟨rfl, _⟩ | ⟨rfl, _⟩ | ⟨rfl, _⟩ | ⟨rfl, _⟩ := h
  · rw [fields] at bad
    cases bad
  · rw [allowed] at barred
    cases barred
  all_goals decide

/-- A command on the tables is no command on the options. -/
theorem faultRecovery_least {c : Instr} {p : Part} {d : ReplyCode} (fields : fieldsOk p.settings c = true)
    (allowed : portAllows p.inForce.options p.settings c = true) (served : modeServes p.core.mode c = true)
    (tables : usesTables c = true) (h : Bars c p d) : ReplyCode.faultRecovery.rank ≤ d.rank := by
  obtain ⟨_, bad⟩ | ⟨_, barred⟩ | ⟨_, unserved⟩ | ⟨rfl, _⟩ | ⟨rfl, _⟩ | ⟨_, _, options⟩ | ⟨_, _, options⟩ := h
  · rw [fields] at bad
    cases bad
  · rw [allowed] at barred
    cases barred
  · rw [served] at unserved
    cases unserved
  · decide
  · decide
  · obtain ⟨_, _, _, rfl⟩ | ⟨_, _, _, rfl⟩ := options <;> cases tables
  · obtain ⟨_, _, _, rfl⟩ := options
    cases tables

theorem saveInProgress_least {c : Instr} {x : Sent} {p : Part} {d : ReplyCode} (sent : sentBy c = some x)
    (fields : fieldsOk p.settings c = true)
    (allowed : portAllows p.inForce.options p.settings c = true) (served : modeServes p.core.mode c = true)
    (held : heldBySave c = true) (calm : usesTables c = false ∨ p.core.recovery.recovering = false)
    (burn : x.kind = 0x38 → p.options.burned = false ∧ p.burning = false ∧ p.staged.isSome = true)
    (h : Bars c p d) : ReplyCode.saveInProgress.rank ≤ d.rank := by
  obtain ⟨_, bad⟩ | ⟨_, barred⟩ | ⟨_, unserved⟩ | ⟨_, recovering, tables⟩ | ⟨rfl, _⟩ | ⟨_, taken, options⟩
    | ⟨_, unstaged, options⟩ := h
  · rw [fields] at bad
    cases bad
  · rw [allowed] at barred
    cases barred
  · rw [served] at unserved
    cases unserved
  · simp [recovering, tables] at calm
  · decide
  · obtain ⟨_, _, _, rfl⟩ | ⟨_, _, _, rfl⟩ := options <;> cases sent
    · cases held
    · obtain ⟨unburned, idle, _⟩ := burn rfl
      simp [unburned, idle] at taken
  · obtain ⟨_, _, _, rfl⟩ := options
    cases sent
    obtain ⟨_, _, staged⟩ := burn rfl
    simp [unstaged] at staged

/-- Settles O10: of the bars on a command the one of the least rank is its reply. -/
theorem portAndModeRefusals : Obligations.PortAndModeRefusals := by
  intro c x s sent good taken
  have ill : ¬ Healthy s → healthy s.part.core = false := fun sick =>
    Bool.eq_false_iff.2 fun well => sick ((healthy_iff _).1 well)
  have there_of : itemThere s.part.core c = true ∨ ¬ Healthy s → NamesItem c s.part := fun there =>
    there.imp id fun sick => .inl (ill sick)
  refine ⟨fun form bad => ?_, fun fields => ?_⟩
  · exact exec_barred sent good taken form (.inr (.inr bad)) (.inl ⟨rfl, bad⟩) fun _ => outOfRange_least
  have refuse := fun code => exec_barred (code := code) sent good taken (formOk_of_fieldsOk sent fields)
  refine ⟨fun barred there => ?_, fun halted allowed other => ?_, fun allowed unserved there => ?_,
    fun allowed served recovering tables => ?_, fun allowed served saving held calm burn => ?_⟩
  · exact refuse _ (there_of there) (.inr (.inl ⟨rfl, barred⟩)) fun _ => notPermitted_least fields
  · have unserved := halted ▸ modeServes_halted sent other
    exact refuse _ (there_of (.inr fun well => well.1 halted)) (.inr (.inr (.inl ⟨rfl, unserved⟩)))
      fun _ => wrongMode_least fields allowed
  · exact refuse _ (there_of there) (.inr (.inr (.inl ⟨rfl, unserved⟩))) fun _ => wrongMode_least fields allowed
  · refine refuse _ (there_of (.inr fun well => ?_)) (.inr (.inr (.inr (.inl ⟨rfl, recovering, tables⟩))))
      fun _ => faultRecovery_least fields allowed served tables
    rw [well.2] at recovering
    cases recovering
  · refine refuse _ (.inl ?_) (.inr (.inr (.inr (.inr (.inl ⟨rfl, saving, held⟩)))))
      fun _ => saveInProgress_least sent fields allowed served held calm burn
    cases c with
    | dismissCase => cases held
    | closeCase => cases held
    | isolateCase => cases held
    | operate => cases held
    | _ => rfl

end Sys2Proof.Machine
end

