-- ==== Sys2Proof/Proofs/PlainCommands.lean ====
section
/-! PROOF. The commands that settle in their own event: device definitions, reservations, counters, options, the reads
of what is not checked, and the time base. -/

namespace Sys2Proof.Machine

/-! ### Conditions that do not hold -/

/-- The conditions of R2 on a topology or plan edit pass where the part may be edited. -/
theorem editConditions_pass {q : Port} {s : State} {inRange : Bool} (h : MayEdit q s) (inside : inRange = true) :
    select (editConditions (heard q s) q inRange) = none := by
  obtain ⟨-, controls, mode, calm, unsaved⟩ := h
  refine select_eq_none_iff.2 ?_
  obtain rfl | allowed := controls
  · simp [editConditions, inside, uncontrolled, mode, calm, unsaved]
  · simp [editConditions, inside, uncontrolled, mode, calm, unsaved, allowed]

theorem healthy_heard (q : Port) {s : State} (h : Healthy s) : healthy (heard q s).core = true := by
  simpa [healthy_iff] using h

/-- Of conditions that share a code one holds. -/
theorem select_shared {cs : List Condition} {c : ReplyCode} (shared : ∀ x ∈ cs, x.2 = c) (holds : ∃ x ∈ cs, x.1 = true) :
    select cs = some c := by
  obtain ⟨⟨b, d⟩, mem, rfl⟩ := holds
  obtain rfl : d = c := shared _ mem
  refine select_eq_some mem fun e isHeld => le_of_eq ?_
  rw [show e = d from shared _ isHeld]

/-- Entries that a predicate finds. -/
theorem entriesWhere_nonempty_iff {α : Type} (l : List (Checked α)) (f : α → Bool) :
    (!(entriesWhere l f).isEmpty) = true ↔ ∃ n v, entryAt l n = some v ∧ f v = true := by
  rw [Bool.not_eq_true', List.isEmpty_eq_false_iff_exists_mem]
  simp only [mem_entriesWhere]

/-! ### An edit in the blocks -/

/-- An edit that its own conditions refuse. -/
theorem edit_refused {q : Port} {kind : Nat} {tag : Byte} {m : Bool} {s : State} {c : Instr} {inRange : Bool}
    {f : Env → Ev → Ev × Answer} {code : ReplyCode} (sent : sentBy c = some ⟨q, kind, tag, m⟩) (may : MayEdit q s)
    (eq : meaning c (heard q s) = unless_ (editConditions (heard q s) q inRange) (viaCore f) (heard q s))
    (inside : inRange = true)
    (h : f (envOf (heard q s)) (startEvent (heard q s).core) = (startEvent (heard q s).core, plain code)) :
    exec c s = .next (refused q kind tag code s) := by
  refine exec_refused sent may.1 ?_
  rw [eq, unless_passes (editConditions_pass may inside)]
  exact viaCore_same h

/-- An edit that is made. -/
theorem edit_made {q : Port} {kind : Nat} {tag : Byte} {m : Bool} {s : State} {c : Instr} {inRange : Bool}
    {f : Env → Ev → Ev × Answer} {e : Ev} {core : Core} (sent : sentBy c = some ⟨q, kind, tag, m⟩) (may : MayEdit q s)
    (eq : meaning c (heard q s) = unless_ (editConditions (heard q s) q inRange) (viaCore f) (heard q s))
    (inside : inRange = true)
    (h : f (envOf (heard q s)) (startEvent (heard q s).core) = (e, plain .accepted))
    (left : e = startEvent core) :
    exec c s = .next (replied q kind tag .accepted .empty (outcome [] core (heard q s)) s) := by
  subst left
  refine exec_replied sent may.1 ?_
  rw [eq, unless_passes (editConditions_pass may inside)]
  exact viaCore_done h rfl rfl rfl rfl

/-! ### Device definitions (R11, R12) -/

theorem isReserved_eq (c : Core) (n : Nat) : isReserved c n = (reservationOf c n).isSome := by
  unfold isReserved reservationOf
  rcases c.reservations[n]? with _ | _ | _ <;> rfl

/-- What keeps a device from being redefined: its link address at another, an order, or a reservation. -/
def DeviceInUse (x : DeviceEdit) (c : Core) : Prop :=
  (∃ n v, entryAt c.devices n = some v ∧ v.link = x.link ∧ n ≠ x.number)
    ∨ ((entryAt c.devices x.number).isSome = true ∧ ((orderOf c x.number).isSome = true ∨ isReserved c x.number = true))

theorem linkTaken_iff (x : DeviceEdit) (c : Core) :
    (!((devicesAtLink c x.link).filter (· != x.number)).isEmpty) = true ↔
      ∃ n v, entryAt c.devices n = some v ∧ v.link = x.link ∧ n ≠ x.number := by
  rw [Bool.not_eq_true', List.isEmpty_eq_false_iff_exists_mem]
  simp only [devicesAtLink, List.mem_filter, mem_entriesWhere, beq_iff_eq, bne_iff_ne]
  constructor
  · rintro ⟨n, ⟨v, at_, link⟩, other⟩
    exact ⟨n, v, at_, link, other⟩
  · rintro ⟨n, v, at_, link, other⟩
    exact ⟨n, ⟨v, at_, link⟩, other⟩

theorem defineDevice_inUse {x : DeviceEdit} {e : Ev} (sound : Sound e.devices) (used : DeviceInUse x e.toCore) :
    defineDevice x e = (e, plain .inUse) := by
  rw [defineDevice, reading_sound _ _ _ (allRefs_devices_sound sound)]
  refine unlessEv_refuses (select_shared (by simp) ?_) _ e
  obtain taken | ⟨defined, order | reserved⟩ := used
  · exact ⟨_, List.mem_cons_self, (linkTaken_iff x e.toCore).2 taken⟩
  · exact ⟨_, List.mem_cons_of_mem _ List.mem_cons_self, by simp [defined, order]⟩
  · exact ⟨_, List.mem_cons_of_mem _ (List.mem_cons_of_mem _ List.mem_cons_self), by simp [defined, reserved]⟩

theorem defineDevice_free {x : DeviceEdit} {e : Ev} (sound : Sound e.devices) (free : ¬ DeviceInUse x e.toCore) :
    defineDevice x e =
      ({ e with
          devices := putAt e.devices x.number (some
            { link := x.link, kind := x.kind, segment := x.segment
              run := keptRun (entryAt e.devices x.number) x.link }) },
        plain .accepted) := by
  rw [defineDevice, reading_sound _ _ _ (allRefs_devices_sound sound)]
  refine unlessEv_passes (select_eq_none_iff.2 ?_) _ e
  simp only [DeviceInUse, not_or, not_and, ← linkTaken_iff] at free
  obtain ⟨untaken, unused⟩ := free
  simp only [List.forall_mem_cons, Bool.and_eq_false_iff]
  refine ⟨by simpa using untaken, ?_, ?_, by simp⟩
  · by_cases defined : (entryAt e.devices x.number).isSome = true
    · exact .inr (Bool.eq_false_iff.2 (unused defined).1)
    · exact .inl (Bool.eq_false_iff.2 defined)
  · by_cases defined : (entryAt e.devices x.number).isSome = true
    · exact .inr (Bool.eq_false_iff.2 (unused defined).2)
    · exact .inl (Bool.eq_false_iff.2 defined)

/-- A device keeps its run-time fields only through a definition at its own link address (R11). -/
theorem keptRun_eq {old : Option Device} {link : Nat} {run : DeviceRun}
    (h : (∃ v, old = some v ∧ v.link = link ∧ run = v.run)
      ∨ ((∀ v, old = some v → v.link ≠ link) ∧ run = DeviceRun.powerOn)) : keptRun old link = run := by
  obtain ⟨v, rfl, same, rfl⟩ | ⟨other, rfl⟩ := h
  · rw [keptRun, if_pos same]
  · cases old with
    | none => rfl
    | some v => rw [keptRun, if_neg (other v rfl)]

theorem readsDevice_sound {l : List (Checked Device)} {c : Core} (same : c.devices = l) {n : Nat} (h : badAt l n = false) :
    ∀ r ∈ [({ table := .device, index := n } : Ref)], isBad c r = false := by
  simpa [isBad, same] using h

theorem deleteDevice_undefined {n : Nat} {e : Ev} (sound : badAt e.devices n = false)
    (none_ : entryAt e.devices n = none) : deleteDevice n e = (e, plain .noSuchItem) := by
  rw [deleteDevice, reading_sound _ _ _ (readsDevice_sound rfl sound)]
  refine unlessEv_refuses (select_eq_some (by simp [none_]) fun d holds => ?_) _ e
  simp only [List.mem_cons, Prod.mk.injEq, List.not_mem_nil, or_false] at holds
  obtain ⟨_, rfl⟩ | ⟨_, rfl⟩ | ⟨_, rfl⟩ := holds <;> decide

theorem deleteDevice_inUse {n : Nat} {e : Ev} (sound : badAt e.devices n = false)
    (defined : (entryAt e.devices n).isSome = true)
    (used : (orderOf e.toCore n).isSome = true ∨ isReserved e.toCore n = true) :
    deleteDevice n e = (e, plain .inUse) := by
  rw [deleteDevice, reading_sound _ _ _ (readsDevice_sound rfl sound)]
  have there : (entryAt e.devices n).isNone = false := by simpa using defined
  rw [there]
  refine unlessEv_refuses ((select_false _ _).trans (select_shared (by simp) ?_)) _ e
  obtain order | reserved := used
  · exact ⟨_, List.mem_cons_self, order⟩
  · exact ⟨_, List.mem_cons_of_mem _ List.mem_cons_self, reserved⟩

theorem deleteDevice_free {n : Nat} {e : Ev} (sound : badAt e.devices n = false)
    (defined : (entryAt e.devices n).isSome = true)
    (free : ¬ ((orderOf e.toCore n).isSome = true ∨ isReserved e.toCore n = true)) :
    deleteDevice n e = ({ e with devices := putAt e.devices n none }, plain .accepted) := by
  rw [deleteDevice, reading_sound _ _ _ (readsDevice_sound rfl sound)]
  refine unlessEv_passes (select_eq_none_iff.2 ?_) _ e
  simp only [not_or, Bool.not_eq_true] at free
  obtain ⟨unordered, unreserved⟩ := free
  simp [unordered, unreserved, defined]

/-- Settles O33: the edits of the device table, and what refuses them. -/
theorem deviceDefinitions : Obligations.DeviceDefinitions := by
  intro q tag s may p c sound
  refine ⟨fun x number low high segment => ⟨fun used => ?_, fun run free kept => ?_⟩, fun n inside => ⟨fun none => ?_,
    fun defined used => ?_, fun defined free => ?_⟩⟩
  · have inRange : deviceInRange x = true := by simp [deviceInRange, Config.devices, Config.segments, *]
    exact edit_refused rfl may rfl inRange (defineDevice_inUse sound used)
  · have inRange : deviceInRange x = true := by simp [deviceInRange, Config.devices, Config.segments, *]
    rw [← keptRun_eq kept]
    exact edit_made rfl may rfl inRange (defineDevice_free sound free) rfl
  · exact edit_refused rfl may rfl (decide_eq_true inside) (deleteDevice_undefined (sound n) none)
  · exact edit_refused rfl may rfl (decide_eq_true inside) (deleteDevice_inUse (sound n) defined used)
  · exact edit_made rfl may rfl (decide_eq_true inside) (deleteDevice_free (sound n) defined free) rfl

/-! ### Reservations (R155 to R157) -/

/-- A claim on a device that is there goes on with its own meaning. -/
theorem deviceClaim_passes {n : Nat} {f : Ev → Ev × Answer} {p : Part} (well : healthy p.core = true)
    (inside : n < 24) (sound : badAt p.core.devices n = false) (defined : (entryAt p.core.devices n).isSome = true) :
    deviceClaim n [] f p = viaCore (fun _ => f) p := by
  obtain ⟨running, calm⟩ := (healthy_iff p.core).1 well
  have free : select ((!(entryAt p.core.devices n).isSome, .noSuchItem)
      :: claimConditions p (decide (n < Config.devices))) = none := by
    refine select_eq_none_iff.2 ?_
    simp [claimConditions, defined, Config.devices, inside, (isHalted_eq_false_iff p).2 running, calm]
  have item : onItem (claimConditions p (decide (n < Config.devices))) (decide (n < Config.devices))
      { table := .device, index := n } (fun c => (entryAt c.devices n).isSome) f (startEvent p.core)
        = f (startEvent p.core) := by
    rw [onItem, if_pos (by simp [Config.devices, inside, well]),
      reading_sound _ _ _ (readsDevice_sound rfl sound)]
    exact unlessEv_passes free f _
  rw [deviceClaim, viaCore_eq, viaCore_eq]
  simp only [List.nil_append, item]

theorem reserve_free {q : Port} {n : Nat} {e : Ev} (h : reservationOf e.toCore n = none) :
    reserve q n e = (setReservation n (some q) e, plain .accepted) := by
  rw [reserve, h]

theorem reserve_own {q : Port} {n : Nat} {e : Ev} (h : reservationOf e.toCore n = some q) :
    reserve q n e = (e, plain .accepted) := by
  rw [reserve, h]
  exact if_pos rfl

theorem reserve_other {q : Port} {n : Nat} {e : Ev} (h : reservationOf e.toCore n = some (otherPort q)) :
    reserve q n e = (e, .now .otherPortInControl (.holder (otherPort q))) := by
  rw [reserve, h]
  exact if_neg (by cases q <;> simp [otherPort])

theorem release_own {q : Port} {n : Nat} {e : Ev} (h : reservationOf e.toCore n = some q) :
    release q n e = (setReservation n none e, plain .accepted) := if_pos h

theorem release_notOwn {q : Port} {n : Nat} {e : Ev} (h : reservationOf e.toCore n ≠ some q) :
    release q n e = (e, plain .notReserved) := if_neg h

/-- Settles O40: the reservation of the device, as its port finds it, decides both commands. -/
theorem reserveAndRelease : Obligations.ReserveAndRelease := by
  intro q tag n s taken well inside p c sound defined
  have well : healthy p.core = true := healthy_heard q well
  have claim : ∀ f, deviceClaim n [] f (heard q s) = viaCore (fun _ => f) (heard q s) := fun f =>
    deviceClaim_passes well inside sound defined
  refine ⟨fun free => ⟨?_, ?_⟩, fun own => ⟨?_, ?_⟩, fun other => ⟨?_, ?_⟩⟩
  · exact exec_replied rfl taken ((claim _).trans (viaCore_done (reserve_free free) rfl rfl rfl rfl))
  · exact exec_refused rfl taken ((claim _).trans (viaCore_same (release_notOwn (by simp [c, p, free]))))
  · exact exec_replied rfl taken ((claim _).trans (viaCore_same (reserve_own own)))
  · exact exec_replied rfl taken ((claim _).trans (viaCore_done (release_own own) rfl rfl rfl rfl))
  · exact exec_replied rfl taken ((claim _).trans (viaCore_same (reserve_other other)))
  · refine exec_refused rfl taken ((claim _).trans (viaCore_same (release_notOwn ?_)))
    show reservationOf c n ≠ some q
    rw [other]
    cases q <;> simp [otherPort]

/-! ### Refusals by the bars alone -/

/-- A command whose fields stand, with no item to name, is refused by what bars its port. -/
theorem exec_notPermitted {c : Instr} {q : Port} {kind : Nat} {tag : Byte} {s : State}
    (sent : sentBy c = some ⟨q, kind, tag, false⟩) (taken : Takes q s) (fields : fieldsOk s.part.settings c = true)
    (barred : portAllows s.part.inForce.options s.part.settings c = false) (there : itemThere s.part.core c = true) :
    exec c s = .next (refused q kind tag .notPermitted s) := by
  obtain ⟨-, refusals⟩ := portAndModeRefusals c _ s sent rfl taken
  obtain ⟨notPermitted, -⟩ := refusals fields
  exact notPermitted barred (.inl there)

theorem exec_outOfRange {c : Instr} {q : Port} {kind : Nat} {tag : Byte} {s : State}
    (sent : sentBy c = some ⟨q, kind, tag, false⟩) (taken : Takes q s) (form : formOk c = true)
    (bad : fieldsOk s.part.settings c = false) : exec c s = .next (refused q kind tag .outOfRange s) := by
  obtain ⟨outOfRange, -⟩ := portAndModeRefusals c _ s sent rfl taken
  exact outOfRange form bad

/-! ### Counters (R204 to R206) -/

theorem setCounter_at {n : Nat} {old : Counter} {p : Part} (f : Counter → Counter) (h : p.counters[n]? = some old) :
    setCounter n f p = { p with counters := p.counters.set n (f old) } := by
  rw [setCounter, h]

theorem counterConditions_pass {p : Part} {q : Port} {n : Nat} (inside : n < 16) (owns : n < 8 ↔ q = .a)
    (running : p.core.mode ≠ .halted) : select (counterConditions p q n) = none := by
  have owner : ownerOf n = q := (ownerOf_eq n q).2 owns.symm
  refine select_eq_none_iff.2 ?_
  simp [counterConditions, Config.counters, inside, owner, (isHalted_eq_false_iff p).2 running]

theorem notOwner_iff (q : Port) (n : Nat) : ((q == .a) == decide (n < 8)) = false ↔ ¬ (n < 8 ↔ q = .a) := by
  cases q <;> by_cases h : n < 8 <;> simp [h]

/-- Settles O43: a counter of the port's group takes its new fields; the bars of O10 refuse the rest. -/
theorem counterCommands : Obligations.CounterCommands := by
  intro q tag s taken running p
  have running' : p.core.mode ≠ .halted := by simpa [p] using running
  refine ⟨fun x old inside inScope allowed at_ => ⟨fun owns => ?_, fun other => ?_⟩, fun x bad => ?_,
    fun n old inside at_ => ⟨fun owns => ?_, fun other => ?_⟩⟩
  · refine exec_replied rfl taken ?_
    rw [meaning, onBody_ok, unless_passes, setCounter_at _ at_]
    · rfl
    · simpa [inScope, allowed, select_false] using counterConditions_pass inside owns running'
  · exact exec_notPermitted rfl taken (by simp [fieldsOk, inside, inScope, allowed]) ((notOwner_iff q x.number).2 other) rfl
  · exact exec_outOfRange rfl taken rfl (by simp [fieldsOk, bad])
  · refine exec_replied rfl taken ?_
    rw [meaning, onBody_ok, unless_passes (counterConditions_pass inside owns running'), setCounter_at _ at_]
    rfl
  · exact exec_notPermitted rfl taken (decide_eq_true inside) ((notOwner_iff q n).2 other) rfl

/-! ### Options (R213, R214) -/

/-- A command whose reply waits for its operation. -/
theorem exec_waiting {c : Instr} {q : Port} {kind : Nat} {tag : Byte} {m : Bool} {s : State} {p : Part} {op : StoreOp}
    (sent : sentBy c = some ⟨q, kind, tag, m⟩) (taken : Takes q s) (h : meaning c (heard q s) = (p, .later op)) :
    exec c s = .next (ended
      (setPort q (fun x => { x with waiting := x.waiting ++ [{ op := op, kind := kind + 0x80, tag := tag }] }) p) s) := by
  rw [exec_eq_answer sent s, answer_taken _ _ _ _ s taken, h]
  rfl

/-- An option record that is burned, or being burned, is the least of what bars a command on the options. -/
theorem optionsBurned_least {c : Instr} {p : Part} {d : ReplyCode} (fields : fieldsOk p.settings c = true)
    (allowed : portAllows p.inForce.options p.settings c = true) (served : modeServes p.core.mode c = true)
    (options : usesTables c = false) (h : Bars c p d) : ReplyCode.optionsBurned.rank ≤ d.rank := by
  obtain ⟨_, bad⟩ | ⟨_, barred⟩ | ⟨_, unserved⟩ | ⟨_, _, tables⟩ | ⟨rfl, _⟩ | ⟨rfl, _⟩ | ⟨rfl, _⟩ := h
  · rw [fields] at bad
    cases bad
  · rw [allowed] at barred
    cases barred
  · rw [served] at unserved
    cases unserved
  · rw [options] at tables
    cases tables
  all_goals decide

/-- A reply that waits for an operation other than the one that has completed stays. -/
theorem readyWaiting_none {op : StoreOp} (code : ReplyCode) {p : PortState} (h : ∀ w ∈ p.waiting, w.op ≠ op) :
    readyWaiting op code p = p := by
  have none_ : p.waiting.find? (fun w => w.op == op) = none := by
    simpa [List.find?_eq_none] using h
  rw [readyWaiting, none_]

/-- The first waiting reply, alone of its operation, becomes the last ready one. -/
theorem readyWaiting_head {op : StoreOp} (code : ReplyCode) {p : PortState} {w : WaitingReply}
    {rest : List WaitingReply} (waits : p.waiting = w :: rest) (own : w.op = op) (others : ∀ x ∈ rest, x.op ≠ op) :
    readyWaiting op code p = { p with
      waiting := rest, ready := p.ready ++ [{ kind := w.kind, tag := w.tag, code := code, body := .empty }] } := by
  have kept : rest.filter (fun x => x.op != op) = rest := List.filter_eq_self.2 fun x mem => by simpa using others x mem
  rw [readyWaiting, waits]
  simp [own, kept]

theorem op_ne_burn {w : WaitingReply} (h : w.op = .save) : w.op ≠ .burn := by simp [h]

theorem op_ne_save {w : WaitingReply} (h : w.op = .burn) : w.op ≠ .save := by simp [h]

theorem exec_burnCompletion_idle (written : Bool) {s : State} (h : s.part.burning = false) :
    exec (.burnCompletion written) s = .next (ended s.part s) := by
  show act _ s = _
  rw [act_eq, if_neg (by simp [h])]

theorem exec_burnCompletion_running (written : Bool) {s : State} (burning : s.part.burning = true)
    (running : s.part.run = .running) :
    exec (.burnCompletion written) s = .next (ended (replyWaiting .burn (storeCode written)
      { s.part with
        burning := false
        options := if written then { burned := true, options := s.part.staged.getD clearOptions }
          else { burned := false, options := clearOptions }
        staged := if written then none else s.part.staged }) s) := by
  show act _ s = _
  rw [act_eq, if_pos burning, completeBurn]
  simp [replyWaiting, running]

/-- Settles O46: staging and burning pass their conditions, and the completion answers the waiting reply. -/
theorem optionsStagedAndBurned : Obligations.OptionsStagedAndBurned := by
  refine ⟨fun tag x s taken running => ⟨fun unburned idle => ?_, fun burned => ?_⟩,
    fun tag s taken mode => ⟨fun unburned idle staged unsaved => ?_, fun burned => ?_, fun unburned idle unstaged => ?_⟩,
    fun written x w rest s burning running staged waits own others quiet => ?_,
    fun written s idle => exec_burnCompletion_idle written idle⟩
  · refine exec_replied rfl taken ?_
    rw [meaning, onBody_ok, unless_passes (select_eq_none_iff.2 ?_)]
    · rfl
    · simpa [isHalted, burnedOrBurning, unburned, idle] using running
  · refine exec_barred (x := ⟨.a, 0x37, tag, false⟩) rfl rfl taken rfl (.inl rfl)
      (.inr (.inr (.inr (.inr (.inr (.inl ⟨rfl, burned, .inl ⟨_, _, _, rfl⟩⟩))))))
      fun d => optionsBurned_least rfl rfl (by simpa [modeServes, isEdit] using running) rfl
  · refine exec_waiting rfl taken ?_
    rw [meaning, onBody_ok, unless_passes (select_eq_none_iff.2 ?_)]
    simp [burnConditions, burnedOrBurning, unburned, idle, unsaved, mode, Option.isNone_eq_false_iff, staged]
  · refine exec_barred (x := ⟨.a, 0x38, tag, false⟩) rfl rfl taken rfl (.inl rfl)
      (.inr (.inr (.inr (.inr (.inr (.inl ⟨rfl, burned, .inr ⟨_, _, _, rfl⟩⟩))))))
      fun d => optionsBurned_least rfl rfl (by simp [modeServes, mode]) rfl
  · refine exec_refused rfl taken ?_
    rw [meaning, onBody_ok, unless_refuses (select_eq_some (c := .nothingStaged) ?_ fun d holds => ?_)]
    · simp [burnConditions, unstaged]
    · simp only [burnConditions, burnedOrBurning, heard_options, heard_burning, heard_mode, unburned, idle, mode,
        List.mem_cons, Prod.mk.injEq] at holds
      obtain ⟨bad, _⟩ | ⟨bad, _⟩ | ⟨bad, _⟩ | ⟨_, rfl⟩ | ⟨_, rfl⟩ | bad := holds
      · cases bad
      · cases bad
      · cases bad
      · decide
      · decide
      · cases bad
  · rw [exec_burnCompletion_running written burning running, replyWaiting, readyWaiting_head _ waits own
      fun x mem => op_ne_burn (others x mem), readyWaiting_none _ fun w mem => op_ne_burn (quiet w mem), staged]
    rfl

/-! ### Reads of what is not checked (R16, R31, R168, R207, R209, R213) -/

theorem mem_mapFrom {α β : Type} (f : Nat → α → β) (l : List α) (y : β) :
    y ∈ mapFrom f 0 l ↔ ∃ n x, l[n]? = some x ∧ f n x = y := by
  rw [List.mem_iff_getElem?]
  simp only [getElem?_mapFrom, Nat.zero_add, Option.map_eq_some_iff]

/-- The numbers along a list ascend. -/
theorem mapFrom_pairwise {α β : Type} {f : Nat → α → β} {R : β → β → Prop}
    (h : ∀ m n x y, m < n → R (f m x) (f n y)) (l : List α) (n : Nat) : (mapFrom f n l).Pairwise R := by
  rw [List.pairwise_iff_getElem]
  intro i j hi hj lt
  obtain ⟨x, -, hx⟩ := Option.map_eq_some_iff.1 ((getElem?_mapFrom f l n i).symm.trans (List.getElem?_eq_getElem hi))
  obtain ⟨y, -, hy⟩ := Option.map_eq_some_iff.1 ((getElem?_mapFrom f l n j).symm.trans (List.getElem?_eq_getElem hj))
  rw [← hx, ← hy]
  exact h _ _ x y (by omega)

theorem mem_present {α : Type} (l : List (Option α)) (n : Nat) (v : α) :
    (n, v) ∈ present l ↔ l[n]? = some (some v) := by
  simp only [present, List.mem_filterMap, mem_mapFrom, id]
  constructor
  · rintro ⟨_, ⟨m, x, at_, rfl⟩, some_⟩
    obtain ⟨y, rfl, pair⟩ := Option.map_eq_some_iff.1 some_
    cases pair
    exact at_
  · intro at_
    exact ⟨some (n, v), ⟨n, some v, at_, rfl⟩, rfl⟩

theorem present_pairwise {α : Type} (l : List (Option α)) : (present l).Pairwise fun a b => a.1 < b.1 := by
  refine List.Pairwise.filterMap (R := fun (a b : Option (Nat × α)) => ∀ x y, a = some x → b = some y → x.1 < y.1) _
    (fun a b lt x isX y isY => lt x y isX isY) (mapFrom_pairwise (fun m n x y lt u w isU isW => ?_) l 0)
  obtain ⟨_, _, rfl⟩ := Option.map_eq_some_iff.1 isU
  obtain ⟨_, _, rfl⟩ := Option.map_eq_some_iff.1 isW
  exact lt

theorem mem_countersIn (l : List Counter) (x : ReadRange) (n : Nat) (r : Counter) :
    (n, r) ∈ countersIn l x ↔ x.first ≤ n ∧ n < x.first + x.count ∧ l[n]? = some r := by
  rw [countersIn, List.mem_iff_getElem?]
  simp only [List.getElem?_take, List.getElem?_drop, getElem?_mapFrom, Nat.zero_add]
  constructor
  · rintro ⟨i, at_⟩
    split at at_
    · obtain ⟨c, isC, pair⟩ := Option.map_eq_some_iff.1 at_
      cases pair
      exact ⟨by omega, by omega, isC⟩
    · cases at_
  · rintro ⟨low, high, at_⟩
    refine ⟨n - x.first, ?_⟩
    rw [if_pos (by omega), Nat.add_sub_cancel' low, at_]
    rfl

theorem countersIn_pairwise (l : List Counter) (x : ReadRange) : (countersIn l x).Pairwise fun a b => a.1 < b.1 := by
  have all : (mapFrom (fun n c => (n, c)) 0 l).Pairwise fun a b => a.1 < b.1 :=
    mapFrom_pairwise (f := fun n c => (n, c)) (fun _ _ _ _ lt => lt) l 0
  exact (all.sublist (List.drop_sublist _ _)).sublist (List.take_sublist _ _)

/-- Settles O35: each read's one condition is the mode, but for the counters' range and the name of a setting. -/
theorem readsServedInRecovery : Obligations.ReadsServedInRecovery := by
  intro q tag s taken running p c
  have served : isHalted (heard q s) = false := by simpa [isHalted_eq_false_iff] using running
  refine ⟨?_, ?_, ?_, fun x i named => ?_, fun x unnamed => ?_, fun x first low high may => ?_, fun x first low high b only => ?_,
    fun x => mem_countersIn _ x, fun x => countersIn_pairwise _ x, fun α l => ⟨mem_present l, present_pairwise l⟩⟩
  · refine exec_replied rfl taken ?_
    rw [meaning, onBody_ok, unless_single_fails served]
  · refine exec_replied rfl taken ?_
    rw [meaning, onBody_ok, unless_single_fails served]
  · refine exec_replied rfl taken ?_
    rw [meaning, onBody_ok, unless_single_fails served]
  · refine exec_replied rfl taken ?_
    rw [meaning, onBody_ok]
    simp only [named]
    exact unless_single_fails served _ _ _
  · refine exec_refused rfl taken ?_
    rw [meaning, onBody_ok]
    simp only [unnamed]
  · refine exec_replied rfl taken ?_
    rw [meaning, onBody_ok, unless_passes (select_eq_none_iff.2 ?_)]
    have may' : q = .a ∨ s.part.inForce.options.bReadCountersOnly = false ∨ 8 ≤ x.first := by simpa [p] using may
    obtain rfl | free | above := may'
    · simp [Config.counters, first, low, high, served]
    · simp [Config.counters, first, low, high, served, free]
    · simp [Config.counters, first, low, high, served, above]
  · refine exec_notPermitted rfl taken (by simp [fieldsOk, low, high]; omega) ?_ rfl
    have only' : s.part.inForce.options.bReadCountersOnly = true := by simpa [p] using only
    simp [portAllows, b, only', first]

/-! ### What is served in every mode (R181, R196, R197) -/

/-- Settles O25: no condition bars the first two, and the third only its clear on Port B. -/
theorem commandsServedInEveryMode : Obligations.CommandsServedInEveryMode := by
  intro q tag s taken p c record
  refine ⟨exec_replied rfl taken rfl, exec_replied rfl taken rfl, exec_replied rfl taken ?_, ?_⟩
  · rw [meaning, onBody_ok, unless_single_fails (by simp)]
    rfl
  · rintro rfl
    refine exec_replied rfl taken ?_
    rw [meaning, onBody_ok, unless_single_fails (by simp)]
    rfl

/-! ### SET_TIME (R29, R30) -/

theorem setTime_locked {e : Ev} (v : Nat) (h : e.time.lock = .locked) :
    setTime v e = { e with
      toCore := { timesMoved v e.toCore with
        time := { now := v, lock := .free, good := 0, lastPulse := none, elapsed := e.time.elapsed } }
      out := e.out ++ [.tell .both (.time .locked .free .setTime v)] } := by
  simp only [setTime, setTimeBase, h]
  simp [changeLock, raise, timesMoved, h]

theorem setTime_unlocked {e : Ev} (v : Nat) (h : e.time.lock ≠ .locked) :
    setTime v e = { e with
      toCore := { timesMoved v e.toCore with
        time := { now := v, lock := .free, good := 0, lastPulse := none, elapsed := e.time.elapsed } } } := by
  cases lock : e.time.lock
  · simp only [setTime, setTimeBase, lock]
    simp [timesMoved]
  · simp only [setTime, setTimeBase, lock]
    simp [timesMoved]
  · exact absurd lock h

theorem setTime_left (v : Nat) (c : Core) :
    (setTime v (startEvent c)).out = (if c.time.lock = .locked then [.tell .both (.time .locked .free .setTime v)] else [])
    ∧ (setTime v (startEvent c)).toCore = { timesMoved v c with
        time := { now := v, lock := .free, good := 0, lastPulse := none, elapsed := c.time.elapsed } }
    ∧ (setTime v (startEvent c)).todo = [] ∧ (setTime v (startEvent c)).storeFailed = false := by
  by_cases h : c.time.lock = .locked
  · rw [setTime_locked v (e := startEvent c) h, if_pos h]
    exact ⟨rfl, rfl, rfl, rfl⟩
  · rw [setTime_unlocked v (e := startEvent c) h, if_neg h]
    exact ⟨rfl, rfl, rfl, rfl⟩

/-- Settles O37: every time the blocks hold moves with the base, and the loss of LOCKED is told. -/
theorem setTimeMovesTimes : Obligations.SetTimeMovesTimes := by
  intro q tag v s taken controls running p c
  refine ⟨fun inDay => ?_, fun late => ?_⟩
  · refine exec_replied rfl taken ?_
    rw [meaning, onBody_ok, unless_passes (select_eq_none_iff.2 ?_)]
    · obtain ⟨out, blocks, idle, store⟩ := setTime_left v (heard q s).core
      exact viaCore_done rfl idle store out blocks
    · have before : decide (Config.day ≤ v) = false := decide_eq_false (Nat.not_le.2 inDay)
      obtain rfl | allowed := controls
      · simp [before, uncontrolled, isHalted, running]
      · simp [before, uncontrolled, isHalted, running, allowed]
  · exact exec_outOfRange rfl taken rfl (decide_eq_false (Nat.not_lt.2 late))

end Sys2Proof.Machine
end

