-- ==== Sys2Proof/Proofs/BlockEvents.lean ====
section
/-! PROOF. The events of the blocks that end with their own act: the expiries, the arrival of field frames, the pulses
and the sample. -/

namespace Sys2Proof.Machine

/-! ### An event that leaves no work -/

/-- An event that leaves no work, and does not find the store failed, is placed in the part as its act leaves it. -/
theorem runEvent_done {f : Env → Ev → Ev} {p : Part} {e : Ev} {xs : List Emit} {core : Core}
    (h : f (envOf p) (startEvent p.core) = e) (idle : e.todo = []) (store : e.storeFailed = false)
    (out : e.out = xs) (blocks : e.toCore = core) : runEvent f p = outcome xs core p := by
  rw [runEvent_eq, h, settle_nil _ _ idle, commit_eq _ _ store, out, blocks]

theorem runEvent_same {f : Env → Ev → Ev} {p : Part} (h : f (envOf p) (startEvent p.core) = startEvent p.core) :
    runEvent f p = p := by
  rw [runEvent_eq, h, commit_start]

theorem happen_done {f : Env → Ev → Ev} {s : State} {e : Ev} {xs : List Emit} {core : Core}
    (runs : blocksRun s.part = true) (h : f (envOf s.part) (startEvent s.part.core) = e) (idle : e.todo = [])
    (store : e.storeFailed = false) (out : e.out = xs) (blocks : e.toCore = core) :
    happen f s = .next (ended (outcome xs core s.part) s) := by
  rw [happen_eq f s runs, runEvent_done h idle store out blocks]

theorem happen_same {f : Env → Ev → Ev} {s : State} (runs : blocksRun s.part = true)
    (h : f (envOf s.part) (startEvent s.part.core) = startEvent s.part.core) :
    happen f s = .next (ended s.part s) := by
  rw [happen_eq f s runs, runEvent_same h]

/-! ### What runs on time -/

theorem reached_false_iff (now t : Nat) : reached now t = false ↔ diffTime now t < 0 := by
  simp [reached]

theorem settleExpired_reached {e : Ev} {d t : Nat} {v : Device} (hv : entryAt e.devices d = some v)
    (sound : badAt e.devices d = false) (settles : v.run.settleUntil = some t) (mode : e.mode ≠ .halted)
    (due : reached e.time.now t = true) :
    settleExpired d e = { e with
      devices := putAt e.devices d (some { v with run := { v.run with settleUntil := none } }) } := by
  have written := updateAt_sound (fun x : Device => { x with run := { x.run with settleUntil := none } }) hv sound
  simp [settleExpired, hv, settles, mode, due, sound, setRun, written]

theorem settleExpired_early {e : Ev} {d t : Nat} {v : Device} (hv : entryAt e.devices d = some v)
    (settles : v.run.settleUntil = some t) (early : e.mode = .halted ∨ reached e.time.now t = false) :
    settleExpired d e = e := by
  simp only [settleExpired, hv, settles]
  rw [if_neg]
  rintro ⟨mode, due⟩
  obtain halted | notDue := early
  · exact mode halted
  · exact Bool.false_ne_true (notDue.symm.trans due)

theorem expireFaults_running {e : Ev} (mode : e.mode ≠ .halted) :
    expireFaults e = { e with
      window := e.window.filter fun t => decide (diffTime e.time.now ((t + 60000) % 86400000) < 0) } := by
  have same : (fun t => !reached e.time.now (addTime t Config.faultWindow))
      = fun t => decide (diffTime e.time.now ((t + 60000) % 86400000) < 0) := by
    funext t
    rw [Bool.eq_iff_iff]
    simp [reached_false_iff, addTime, Config.faultWindow, Config.day]
  rw [expireFaults, if_neg mode, same]

theorem expireFaults_halted {e : Ev} (mode : e.mode = .halted) : expireFaults e = e :=
  if_pos mode

/-- Settles O60. -/
theorem timedEvents : Obligations.TimedEvents := by
  intro s runs
  refine ⟨fun d v t hv sound settles => ⟨fun mode due => ?_, fun early => ?_⟩, fun mode => ?_, fun mode => ?_,
    fun due => ?_, fun early => ?_⟩
  · exact happen_done runs (settleExpired_reached (e := startEvent _) hv sound settles mode due) rfl rfl rfl rfl
  · exact happen_same runs (settleExpired_early hv settles early)
  · exact happen_done runs (expireFaults_running mode) rfl rfl rfl rfl
  · exact happen_same runs (expireFaults_halted mode)
  · show act _ s = _
    rw [act_eq]
    have taken : (blocksRun s.part && decide (s.part.nextSample ≤ s.part.core.time.elapsed)) = true := by
      rw [runs, decide_eq_true due]; rfl
    rw [if_pos taken]
    exact congrArg (fun p => Host.Outcome.next (ended p s)) (runEvent_done rfl rfl rfl rfl rfl)
  · show act _ s = _
    rw [act_eq, if_neg (by simp [Nat.not_le.2 early])]

/-! ### The freeing of a case (R84) -/

/-- A case whose fields read in their ranges is freed with its notice, and counted when it was in WATCH. -/
theorem freeCase_told {k : Case} (readable : k.unreadable = []) (n : Nat) (reason : CaseReason) (d : Option Nat)
    (e : Ev) :
    freeCase n k reason d e = { e with
      toCore := freed n e.toCore
      out := e.out ++ caseTold n k (some k.state) none reason d e.time.now
        :: if k.state = .watch then [segmentCount .casesClosedUnconfirmed (some k.segment) 1] else [] } := by
  unfold freeCase
  by_cases watch : k.state = .watch
  · simp [watch, readable, raise, clearCase, dropWalk, countSegment, occur, segmentCount, freed, putAt,
      ← caseNotice_told readable]
  · simp [watch, readable, raise, clearCase, dropWalk, freed, putAt, ← caseNotice_told readable]

/-! ### The window of a WATCH case (R85) -/

theorem expireWindow_due {n : Nat} {k : Case} {e : Ev} (calm : healthy e.toCore = true)
    (hk : entryAt e.cases n = some k) (sound : badAt e.cases n = false) (watch : k.state = .watch)
    (due : reached e.time.now k.windowEnd = true) : expireWindow n e = freeCase n k .expired none e := by
  simp [expireWindow, calm, hk, sound, watch, due]

theorem expireWindow_notDue {n : Nat} {k : Case} {e : Ev} (hk : entryAt e.cases n = some k)
    (early : ¬ (k.state = .watch ∧ reached e.time.now k.windowEnd = true)) : expireWindow n e = e := by
  unfold expireWindow
  simp only [hk, if_neg early, ite_self]

theorem heldWindow_held {n : Nat} {c : Core} (calm : healthy c = true) (held : n ∈ c.held.windows) :
    heldWindow n (startEvent c)
      = expireWindow n (startEvent { c with
          held := { c.held with windows := c.held.windows.filter (· != n) } }) :=
  if_pos ⟨calm, held⟩

/-- Settles O53. -/
theorem watchWindowExpires : Obligations.WatchWindowExpires := by
  intro n k s runs calm p c c' hk sound readable due expired
  have healthy' : healthy c = true := (healthy_iff c).2 calm
  have freedBy : ∀ core : Core, core.time = c.time → due →
      freeCase n k .expired none (startEvent core) = { startEvent core with
        toCore := freed n core
        out := [caseTold n k (some .watch) none .expired none c.time.now,
          segmentCount .casesClosedUnconfirmed (some k.segment) 1] } := by
    rintro core time ⟨watch, -⟩
    rw [freeCase_told readable, watch, if_pos rfl, startEvent_core, time]
    rfl
  refine ⟨fun isDue => ?_, fun notDue => ?_, fun isDue held => ?_, fun notDue held => ?_, fun free => ?_⟩
  · exact happen_done runs ((expireWindow_due (e := startEvent c) healthy' hk sound isDue.1 isDue.2).trans (freedBy c rfl isDue))
      rfl rfl rfl rfl
  · exact happen_same runs (expireWindow_notDue (e := startEvent c) hk notDue)
  · exact happen_done runs ((heldWindow_held healthy' held).trans
      ((expireWindow_due (e := startEvent c') healthy' hk sound isDue.1 isDue.2).trans (freedBy c' rfl isDue))) rfl rfl rfl rfl
  · exact happen_done runs ((heldWindow_held healthy' held).trans (expireWindow_notDue (e := startEvent c') hk notDue))
      rfl rfl rfl rfl
  · exact happen_same runs (if_neg fun h => free h.2)

/-! ### The isolation deadline (R126) -/

theorem isLate_iff {env : Env} {now : Nat} {k : Case} {r : IsolationRecord} (record : k.isolation = some r) :
    isLate env now k = true ↔ k.state = .isolating ∧ r.late = false
      ∧ reached now (addTime r.confirmedAt env.settings.isolationDeadline) = true := by
  simp [isLate, record]

theorem judgeDeadline_due {env : Env} {n : Nat} {k : Case} {r : IsolationRecord} {e : Ev}
    (calm : healthy e.toCore = true) (hk : entryAt e.cases n = some k) (sound : badAt e.cases n = false)
    (record : k.isolation = some r) (late : isLate env e.time.now k = true) :
    judgeDeadline env n e = { e with
      toCore := withCase n { k with isolation := some { r with late := true } } e.toCore
      out := e.out ++ [.tell .both
        (.isolationLate n k.serial k.segment k.phase r.confirmedAt r.plan r.step r.depth e.time.now)] } := by
  simp [judgeDeadline, calm, hk, sound, record, late, raise, setRecord, putCase, withCase, putAt]

theorem judgeDeadline_notDue {env : Env} {n : Nat} {k : Case} {e : Ev} (hk : entryAt e.cases n = some k)
    (early : isLate env e.time.now k = false) : judgeDeadline env n e = e := by
  unfold judgeDeadline
  simp only [hk, early, Bool.false_eq_true, if_false, ite_self]

theorem heldLate_held {env : Env} {n : Nat} {c : Core} (calm : healthy c = true) (held : n ∈ c.held.late) :
    heldLate env n (startEvent c)
      = judgeDeadline env n (startEvent { c with held := { c.held with late := c.held.late.filter (· != n) } }) :=
  if_pos ⟨calm, held⟩

/-- Settles O54. -/
theorem isolationDeadlineNotice : Obligations.IsolationDeadlineNotice := by
  intro n k r s runs calm p c c' hk sound record due late
  have healthy' : healthy c = true := (healthy_iff c).2 calm
  have isDue : due ↔ isLate (envOf p) c.time.now k = true := (isLate_iff (env := envOf p) (now := c.time.now) record).symm
  have notDue : ¬ due ↔ isLate (envOf p) c.time.now k = false := by simp [isDue]
  refine ⟨fun h => ?_, fun h => ?_, fun h held => ?_, fun h held => ?_, fun free => ?_⟩
  · exact happen_done runs (judgeDeadline_due (e := startEvent c) healthy' hk sound record (isDue.1 h)) rfl rfl rfl rfl
  · exact happen_same runs (judgeDeadline_notDue (e := startEvent c) hk (notDue.1 h))
  · exact happen_done runs ((heldLate_held healthy' held).trans
      (judgeDeadline_due (e := startEvent c') healthy' hk sound record (isDue.1 h))) rfl rfl rfl rfl
  · exact happen_done runs ((heldLate_held healthy' held).trans (judgeDeadline_notDue (e := startEvent c') hk (notDue.1 h)))
      rfl rfl rfl rfl
  · exact happen_same runs (if_neg fun h => free h.2)

/-! ### Silence (R44) -/

theorem frameWaits_iff (c : Core) (a : Nat) : frameWaits c a = true ↔ ∃ x ∈ c.intake, x.address = a := by
  simp [frameWaits]

theorem silenceDue_iff (env : Env) (now : Nat) (v : Sensor) :
    silenceDue env now v = true ↔ v.state ≠ .silent
      ∧ reached now (addTime v.lastHeard (1000 * env.settings.silenceInterval)) = true := by
  simp [silenceDue]

section
variable {env : Env} {a n : Nat} {v : Sensor} {e : Ev} (place : sensorPlace e.toCore a = some n)
  (hv : entryAt e.roster n = some v)
include place hv

theorem judgeSilence_early (early : silenceDue env e.time.now v = false) : judgeSilence env a e = e := by
  simp [judgeSilence, place, hv, early]

theorem judgeSilence_waits (sound : badAt e.roster n = false) (due : silenceDue env e.time.now v = true)
    (waits : frameWaits e.toCore a = true) : judgeSilence env a e = { e with deferred := e.deferred ++ [a] } := by
  simp [judgeSilence, place, hv, sound, due, waits]

theorem judgeSilence_silent (sound : badAt e.roster n = false) (due : silenceDue env e.time.now v = true)
    (none_ : frameWaits e.toCore a = false) : judgeSilence env a e = { e with
      roster := putAt e.roster n (some { v with state := .silent })
      out := e.out ++ [.tell .both
        (.sensor v.address v.segment v.side v.state .silent v.lastHeard v.lastSequence)] } := by
  have changed : v.state ≠ .silent := ((silenceDue_iff _ _ _).1 due).1
  simp [judgeSilence, place, hv, sound, due, none_, putSensor, changed, raise]

end

theorem silenceExpiry_apart {env : Env} {a : Nat} {e : Ev} (mode : e.mode ≠ .halted) (apart : a ∉ e.deferred) :
    silenceExpiry env a e = judgeSilence env a e :=
  if_neg fun h => h.elim mode apart

theorem deferredSilence_waits {env : Env} {a : Nat} {e : Ev} (waits : frameWaits e.toCore a = true) :
    deferredSilence env a e = e :=
  if_neg fun h => Bool.false_ne_true (h.2.2.symm.trans waits)

theorem deferredSilence_free {env : Env} {a : Nat} {c : Core} (mode : c.mode ≠ .halted) (deferred : a ∈ c.deferred)
    (none_ : frameWaits c a = false) :
    deferredSilence env a (startEvent c)
      = judgeSilence env a (startEvent { c with deferred := c.deferred.filter (· != a) }) :=
  if_pos ⟨mode, deferred, none_⟩

/-- Settles O51. -/
theorem sensorSilence : Obligations.SensorSilence := by
  intro a n v s runs mode p c place hv sound due waits silent resumed
  have isDue : due ↔ silenceDue (envOf p) c.time.now v = true := by
    exact (silenceDue_iff (envOf p) c.time.now v).symm
  have notDue : ¬ due ↔ silenceDue (envOf p) c.time.now v = false := by simp [isDue]
  have isWaiting : waits ↔ frameWaits c a = true := (frameWaits_iff c a).symm
  have notWaiting : ¬ waits ↔ frameWaits c a = false := by simp [isWaiting]
  refine ⟨fun apart => ⟨fun early => ?_, fun h w => ?_, fun h w => ?_⟩, fun _ w => ?_,
    fun deferred w => ⟨fun early => ?_, fun h => ?_⟩⟩
  · exact happen_same runs ((silenceExpiry_apart (e := startEvent c) mode apart).trans
      (judgeSilence_early (e := startEvent c) place hv (notDue.1 early)))
  · exact happen_done runs ((silenceExpiry_apart (e := startEvent c) mode apart).trans
      (judgeSilence_waits (e := startEvent c) place hv sound (isDue.1 h) (isWaiting.1 w))) rfl rfl rfl rfl
  · exact happen_done runs ((silenceExpiry_apart (e := startEvent c) mode apart).trans
      (judgeSilence_silent (e := startEvent c) place hv sound (isDue.1 h) (notWaiting.1 w))) rfl rfl rfl rfl
  · exact happen_same runs (deferredSilence_waits (e := startEvent c) (isWaiting.1 w))
  · exact happen_done runs ((deferredSilence_free mode deferred (notWaiting.1 w)).trans
      (judgeSilence_early (e := startEvent resumed) place hv (notDue.1 early))) rfl rfl rfl rfl
  · exact happen_done runs ((deferredSilence_free mode deferred (notWaiting.1 w)).trans
      (judgeSilence_silent (e := startEvent resumed) place hv sound (isDue.1 h) (notWaiting.1 w))) rfl rfl rfl rfl

/-! ### The arrival of field frames (R37, R38) -/

theorem arriveField_undecoded {f : Frame} {e : Ev} (room : e.intake.length < 24) (h : decodeField f = none) :
    arriveField f e = e := by
  simp [arriveField, Config.intake, Nat.not_le.2 room, h]

theorem arriveField_decoded {f : Frame} {a : Nat} {x : FieldFrame} {e : Ev} (room : e.intake.length < 24)
    (h : decodeField f = some (a, x)) :
    arriveField f e
      = { e with intake := e.intake ++ [{ address := a, frame := x, arrival := e.time.now }] } := by
  simp [arriveField, Config.intake, Nat.not_le.2 room, h]

theorem arriveField_full {f : Frame} {e : Ev} (full : 24 ≤ e.intake.length) :
    arriveField f e = discardFrame f e :=
  if_pos full

/-- Characters that complete no frame only pass the receiver. -/
theorem fieldLine_none {chars : List RxChar} {rx : Receiver} {p : Part}
    (h : receiveChars p.core.time.elapsed p.core.fieldRx chars = (rx, [])) :
    fieldLine chars p = { p with core := { p.core with fieldRx := rx } } := by
  rw [fieldLine, h]
  rfl

theorem fieldLine_one {chars : List RxChar} {rx : Receiver} {f : Frame} {p : Part}
    (h : receiveChars p.core.time.elapsed p.core.fieldRx chars = (rx, [f])) :
    fieldLine chars p
      = runEvent (fun _ e => arriveField f e) { p with core := { p.core with fieldRx := rx } } := by
  rw [fieldLine, h]
  rfl

/-- Settles O49. -/
theorem fieldFrameArrival : Obligations.FieldFrameArrival := by
  intro chars rx frames s runs received p c both
  have arrives : ∀ {t : Part}, fieldLine chars p = t → both (ended t s) := by
    intro t h
    have acts : act (fun p => if blocksRun p then fieldLine chars p else p) s = .next (ended t s) := by
      rw [act_eq, if_pos runs, ← h]
    exact ⟨acts, acts⟩
  refine ⟨?_, ?_⟩
  · rintro rfl
    exact arrives (fieldLine_none received)
  · rintro f rfl
    have takes : ∀ {e : Ev} {xs : List Emit} {core : Core}, arriveField f (startEvent c) = e → e.todo = [] →
        e.storeFailed = false → e.out = xs → e.toCore = core → both (ended (outcome xs core p) s) :=
      fun h idle store out blocks =>
        arrives ((fieldLine_one received).trans (runEvent_done h idle store out blocks))
    refine ⟨fun room h => ?_, fun a x room h => ?_, fun full hello => ?_, fun a full kind named => ?_,
      fun full kind unnamed => ?_⟩
    · exact takes (arriveField_undecoded (e := startEvent c) room h) rfl rfl rfl rfl
    · exact takes (arriveField_decoded (e := startEvent c) room h) rfl rfl rfl rfl
    · exact takes ((arriveField_full (e := startEvent c) full).trans (if_pos hello)) rfl rfl rfl rfl
    · refine takes ((arriveField_full (e := startEvent c) full).trans
        (show _ = countSensor .reportsDiscarded a (startEvent c) from ?_)) rfl rfl rfl rfl
      rw [discardFrame, if_neg kind, named]
    · refine takes ((arriveField_full (e := startEvent c) full).trans
        (show _ = countAll .reportsDiscarded 1 (startEvent c) from ?_)) rfl rfl rfl rfl
      rw [discardFrame, if_neg kind, unnamed]

/-! ### The commands that name a case (R95 to R98) -/

/-- A condition that holds alone decides. -/
theorem select_only {cs : List Condition} (h : select cs = none) (c : ReplyCode) : select ((true, c) :: cs) = some c := by
  refine select_eq_some List.mem_cons_self fun d holds => ?_
  obtain same | among := List.mem_cons.1 holds
  · rw [(Prod.mk.inj same).2]
  · cases select_eq_none_iff.1 h _ among

theorem caseConditions_pass {q : Port} {changes : Bool} {s : State} {n : Nat} (well : Healthy s)
    (controls : changes = true → Controls q s) (inside : n < 32) :
    select (caseConditions (heard q s) (changes && uncontrolled (heard q s) q) (decide (n < Config.cases))) = none := by
  obtain ⟨running, calm⟩ := well
  have controlled : (changes && uncontrolled (heard q s) q) = false := by
    cases changes with
    | false => rfl
    | true =>
      obtain rfl | allowed := controls rfl
      · simp [uncontrolled]
      · simp [uncontrolled, allowed]
  refine select_eq_none_iff.2 ?_
  simp [caseConditions, controlled, Config.cases, inside, isHalted, running, calm]

theorem readsCase_sound {c : Core} {n : Nat} (h : badAt c.cases n = false) :
    ∀ r ∈ [({ table := .case, index := n } : Ref)], isBad c r = false := by
  simpa [isBad] using h

section
variable {cs : List Condition} {x : CaseName} {e : Ev} (well : healthy e.toCore = true) (inside : x.entry < 32)
  (sound : badAt e.cases x.entry = false) (pass : select cs = none)
include well inside sound pass

theorem onCase_missing (missing : ∀ k, entryAt e.cases x.entry = some k → k.serial ≠ x.serial)
    (f : Case → Ev → Ev × Answer) : onCase cs x f e = (e, plain .noSuchItem) := by
  have unnamed : namesCase e.toCore x = false := by
    rw [namesCase_eq]
    cases there : entryAt e.cases x.entry with
    | none => rfl
    | some k => simpa using missing k there
  rw [onCase, if_pos ⟨well, inside⟩, reading_sound _ _ _ (readsCase_sound sound), unnamed]
  exact unlessEv_refuses (select_only pass _) _ e

theorem onCase_named {k : Case} (there : entryAt e.cases x.entry = some k) (serial : k.serial = x.serial)
    (f : Case → Ev → Ev × Answer) : onCase cs x f e = f k e := by
  have named : namesCase e.toCore x = true := by
    rw [namesCase_eq, there]
    simpa using serial
  rw [onCase, if_pos ⟨well, inside⟩, reading_sound _ _ _ (readsCase_sound sound), named]
  refine (unlessEv_passes ((select_false _ _).trans pass) _ e).trans ?_
  simp only [there]

end

section
variable {q : Port} {changes : Bool} {x : CaseName} {s : State} (well : Healthy s)
  (controls : changes = true → Controls q s) (inside : x.entry < 32) (sound : badAt (heard q s).core.cases x.entry = false)
include well controls inside sound

/-- A name that no case has. -/
theorem caseCommand_missing (f : CaseName → Case → Ev → Ev × Answer)
    (missing : ∀ k, entryAt (heard q s).core.cases x.entry = some k → k.serial ≠ x.serial) :
    caseCommand q changes f x (heard q s) = (heard q s, plain .noSuchItem) := by
  have refused := onCase_missing (e := startEvent (heard q s).core) (healthy_heard q well) inside sound
    (caseConditions_pass (changes := changes) well controls inside) missing (f x)
  rw [caseCommand, viaCore_eq]
  simp only [refused]
  rw [commit_start]

/-- A command that names its case goes on with it. -/
theorem caseCommand_named (f : CaseName → Case → Ev → Ev × Answer) {k : Case}
    (there : entryAt (heard q s).core.cases x.entry = some k) (serial : k.serial = x.serial) :
    caseCommand q changes f x (heard q s) = viaCore (fun _ => f x k) (heard q s) := by
  have named := onCase_named (e := startEvent (heard q s).core) (healthy_heard q well) inside sound
    (caseConditions_pass (changes := changes) well controls inside) there serial (f x)
  rw [caseCommand, viaCore_eq, viaCore_eq]
  simp only [named]

end

/-- A command that frees a case whose fields read in their ranges. -/
theorem viaCore_freed {f : Env → Ev → Ev × Answer} {p : Part} {n : Nat} {k : Case} {reason : CaseReason}
    {xs : List Emit} (readable : k.unreadable = [])
    (h : f (envOf p) (startEvent p.core) = (freeCase n k reason none (startEvent p.core), plain .accepted))
    (counted : (if k.state = .watch then [segmentCount .casesClosedUnconfirmed (some k.segment) 1] else []) = xs) :
    viaCore f p = (outcome (caseTold n k (some k.state) none reason none p.core.time.now :: xs) (freed n p.core) p,
      plain .accepted) := by
  rw [freeCase_told readable, counted] at h
  exact viaCore_done h rfl rfl rfl rfl

/-- Settles O38: the state of the case named decides both commands, and a case freed is told of. -/
theorem dismissAndCloseCase : Obligations.DismissAndCloseCase := by
  intro q tag x s taken well controls inside p c sound
  have named := fun f {k : Case} => caseCommand_named (k := k) (changes := true) well (fun _ => controls) inside sound f
  refine ⟨fun missing => ⟨?_, ?_⟩, fun k there serial readable => ⟨fun watch => ?_, fun confirmed => ?_, fun state => ?_,
    fun state => ?_, fun state => ?_⟩⟩
  · exact exec_refused rfl taken (caseCommand_missing well (fun _ => controls) inside sound _ missing)
  · exact exec_refused rfl taken (caseCommand_missing well (fun _ => controls) inside sound _ missing)
  · exact exec_replied rfl taken ((named dismissCase there serial).trans
      (viaCore_freed readable (by simp only [dismissCase, watch]) (if_pos watch)))
  · exact exec_replied rfl taken ((named dismissCase there serial).trans
      (viaCore_freed readable (by simp only [dismissCase, confirmed]) (if_neg (by simp [confirmed]))))
  · refine exec_refused rfl taken ((named dismissCase there serial).trans (viaCore_same ?_))
    obtain isolating | isolated | blocked := state <;> simp [dismissCase, *]
  · refine exec_replied rfl taken ((named closeCase there serial).trans
      (viaCore_freed readable ?_ (if_neg ?_)))
    · obtain isolated | blocked := state <;> simp [closeCase, *]
    · obtain isolated | blocked := state <;> simp [*]
  · refine exec_refused rfl taken ((named closeCase there serial).trans (viaCore_same ?_))
    obtain watch | confirmed | isolating := state <;> simp [closeCase, *]

/-! ### Pulses (R32 to R35) -/

theorem pulseOffset_eq (now : Nat) :
    pulseOffset now = if now % 1000 < 500 then ((now % 1000 : Nat) : Int) else ((now % 1000 : Nat) : Int) - 1000 := rfl

theorem nearestSecond_eq (now : Nat) : moveTime (-(pulseOffset now)) now = nearestSecond now := by
  unfold moveTime nearestSecond
  rw [pulseOffset_eq]
  simp only [Config.day]
  split <;> omega

theorem isEarly_iff (t : TimeBase) : isEarly t = true ↔ ∃ m, t.lastPulse = some m ∧ t.elapsed - m < 500 := by
  unfold isEarly
  cases t.lastPulse <;> simp

theorem within_iff (o bound : Int) : within o bound = true ↔ -bound ≤ o ∧ o ≤ bound := by
  simp [within]

/-- The event with the lock state and the good-pulse count at values. -/
def lockedAs (lock : LockState) (good : Nat) (e : Ev) : Ev :=
  { e with time := { e.time with lock := lock, good := good } }

/-- The event snapped to a whole second, with the lock state and the good-pulse count at values. -/
def snappedTo (v : Nat) (lock : LockState) (good : Nat) (e : Ev) : Ev :=
  { e with toCore := { timesMoved v e.toCore with
      time := { now := v, lock := lock, good := good, lastPulse := some e.time.elapsed, elapsed := e.time.elapsed } } }

theorem snap_eq (e : Ev) : snap e = snappedTo (nearestSecond e.time.now) e.time.lock e.time.good e := by
  rw [snap, nearestSecond_eq]
  rfl

/-- The notice of a change of the lock state. -/
def lockTold (old new : LockState) (cause : TimeCause) (now : Nat) : Emit := .tell .both (.time old new cause now)

section
variable {e : Ev}

theorem pulse_unset (lock : e.time.lock = .unset) : pulse e = e := by
  simp only [pulse, lock]

theorem pulse_free_early (lock : e.time.lock = .free) (early : isEarly e.time = true) : pulse e = lockedAs .free 0 e := by
  simp only [pulse, lock, pulseFree, if_pos early, setGood, lockedAs]

theorem pulse_free_off (lock : e.time.lock = .free) (onTime : isEarly e.time = false)
    (off : within (pulseOffset e.time.now) 2 = false) :
    pulse e = snappedTo (nearestSecond e.time.now) .free 0 e := by
  simp only [pulse, lock, pulseFree, onTime, off, snap_eq, Bool.false_eq_true, if_false]
  rfl

theorem pulse_free_counts (lock : e.time.lock = .free) (onTime : isEarly e.time = false)
    (good : within (pulseOffset e.time.now) 2 = true) (few : e.time.good < 2) :
    pulse e = snappedTo (nearestSecond e.time.now) .free (e.time.good + 1) e := by
  simp only [pulse, lock, pulseFree, onTime, good, few, snap_eq, Bool.false_eq_true, if_false, if_true]
  rfl

theorem pulse_free_locks (lock : e.time.lock = .free) (onTime : isEarly e.time = false)
    (good : within (pulseOffset e.time.now) 2 = true) (enough : 2 ≤ e.time.good) :
    pulse e = { snappedTo (nearestSecond e.time.now) .locked 3 e with
      out := e.out ++ [lockTold .free .locked .thirdGoodPulse (nearestSecond e.time.now)] } := by
  simp only [pulse, lock, pulseFree, onTime, good, Nat.not_lt.2 enough, snap_eq, Bool.false_eq_true, if_false, if_true]
  rfl

theorem pulse_locked_early (lock : e.time.lock = .locked) (early : isEarly e.time = true) :
    pulse e = { lockedAs .free 0 e with out := e.out ++ [lockTold .locked .free .earlyPulse e.time.now] } := by
  simp only [pulse, lock, pulseLocked, if_pos early, loseLock, changeLock, setGood]
  rfl

theorem pulse_locked_near (lock : e.time.lock = .locked) (onTime : isEarly e.time = false)
    (near : within (pulseOffset e.time.now) 5 = true) :
    pulse e = snappedTo (nearestSecond e.time.now) .locked e.time.good e := by
  simp only [pulse, lock, pulseLocked, onTime, near, snap_eq, Bool.false_eq_true, if_false, if_true]

theorem pulse_locked_off (lock : e.time.lock = .locked) (onTime : isEarly e.time = false)
    (off : within (pulseOffset e.time.now) 5 = false) :
    pulse e = { snappedTo (nearestSecond e.time.now) .free 0 e with
      out := e.out ++ [lockTold .locked .free .pulseOff (nearestSecond e.time.now)] } := by
  simp only [pulse, lock, pulseLocked, onTime, off, snap_eq, Bool.false_eq_true, if_false, loseLock, changeLock, setGood]
  rfl

theorem missing_early (h : ∀ m, e.time.lastPulse = some m → e.time.elapsed - m < 1500) : missing e = e := by
  unfold missing
  cases last : e.time.lastPulse with
  | none => rfl
  | some m => exact if_neg (Nat.not_le.2 (h m last))

section
variable {m : Nat} (last : e.time.lastPulse = some m) (late : 1500 ≤ e.time.elapsed - m)
include last late

theorem missing_unset (lock : e.time.lock = .unset) : missing e = e := by
  simp only [missing, last, late, if_true, lock]

theorem missing_free (lock : e.time.lock = .free) : missing e = lockedAs .free 0 e := by
  simp only [missing, last, late, if_true, lock, setGood, lockedAs]

theorem missing_locked (lock : e.time.lock = .locked) :
    missing e = { lockedAs .free 0 e with out := e.out ++ [lockTold .locked .free .pulseMissing e.time.now] } := by
  have lost : missing e = loseLock .pulseMissing e := by simp only [missing, last, late, if_true, lock]
  rw [lost]
  simp only [loseLock, changeLock, setGood, lock]
  rfl

end
end

/-- What a time event shows: nothing while start-up waits for a save or a burn (R215; log 50). -/
def Shows (p : Part) (xs shown : List Emit) : Prop :=
  (∀ o, p.run = .startingUp o → shown = []) ∧ ((∀ o, p.run ≠ .startingUp o) → shown = xs)

theorem happenTimed_done {f : Ev → Ev} {s : State} {e : Ev} {core : Core} {xs shown : List Emit}
    (awake : s.part.run ≠ .resetAsserted) (h : f (startEvent s.part.core) = e) (idle : e.todo = [])
    (store : e.storeFailed = false) (out : e.out = xs) (blocks : e.toCore = core)
    (uncounted : ∀ now cs, (emissions now xs cs).1 = cs) (shows_ : Shows s.part xs shown) :
    happenTimed f s = .next (ended (outcome shown core s.part) s) := by
  obtain ⟨waiting, free⟩ := shows_
  have placed : runEvent (fun _ e => f e) s.part = outcome xs core s.part := runEvent_done h idle store out blocks
  rw [happenTimed, act_eq]
  congr 2
  cases run : s.part.run with
  | resetAsserted => exact absurd run awake
  | startingUp o =>
    rw [waiting o run, outcome_nil]
    simp only [runQuiet, h, settle_nil _ _ idle, out, blocks, uncounted]
  | _ =>
    rw [free fun o starting => by rw [run] at starting; cases starting]
    exact placed

theorem happenTimed_silent {f : Ev → Ev} {s : State} {e : Ev} {core : Core} (awake : s.part.run ≠ .resetAsserted)
    (h : f (startEvent s.part.core) = e) (idle : e.todo = []) (store : e.storeFailed = false) (out : e.out = [])
    (blocks : e.toCore = core) : happenTimed f s = .next (ended (outcome [] core s.part) s) :=
  happenTimed_done awake h idle store out blocks (fun _ _ => rfl) ⟨fun _ _ => rfl, fun _ => rfl⟩

theorem happenTimed_told {f : Ev → Ev} {s : State} {e : Ev} {core : Core} {old new : LockState} {cause : TimeCause}
    {now : Nat} {shown : List Emit} (awake : s.part.run ≠ .resetAsserted) (h : f (startEvent s.part.core) = e)
    (shows_ : Shows s.part [lockTold old new cause now] shown) (idle : e.todo = []) (store : e.storeFailed = false)
    (out : e.out = [lockTold old new cause now]) (blocks : e.toCore = core) :
    happenTimed f s = .next (ended (outcome shown core s.part) s) :=
  happenTimed_done awake h idle store out blocks (fun _ _ => rfl) shows_

/-- Settles O48: each case of a pulse and of a missing one, as the lock state and the offset have it. -/
theorem pulsesAndLock : Obligations.PulsesAndLock := by
  intro s awake p c t early v offset snapped at_ told
  have shows_ : ∀ old new cause now, Shows p [lockTold old new cause now] (told old new cause now) := by
    intro old new cause now
    refine ⟨fun o starting => ?_, fun awake => ?_⟩
    · simp only [told, starting]
    · cases run : s.part.run with
      | startingUp o => exact absurd run (awake o)
      | _ => simp only [told, p, run, lockTold]
  have onTime : ¬ early → isEarly c.time = false := fun h => Bool.eq_false_iff.2 fun g => h ((isEarly_iff _).1 g)
  have inside : ∀ bound : Int, -bound ≤ offset → offset ≤ bound → within (pulseOffset c.time.now) bound = true :=
    fun bound low high => (within_iff _ _).2 ⟨low, high⟩
  have outside : ∀ bound : Int, offset < -bound ∨ bound < offset → within (pulseOffset c.time.now) bound = false := by
    intro bound off
    refine Bool.eq_false_iff.2 fun g => ?_
    obtain ⟨low, high⟩ := (within_iff _ _).1 g
    exact off.elim (not_lt.2 low) (not_lt.2 high)
  refine ⟨fun lock => ?_, fun lock => ⟨fun h => ?_, fun h off => ?_, fun h low high few => ?_, fun h low high enough => ?_⟩,
    fun lock => ⟨fun h => ?_, fun h low high => ?_, fun h off => ?_⟩,
    fun m last late => ⟨fun lock => ?_, fun lock => ?_, fun lock => ?_⟩, fun h => ?_⟩
  · exact happenTimed_silent awake (pulse_unset (e := startEvent c) lock) rfl rfl rfl rfl
  · exact happenTimed_silent awake (pulse_free_early (e := startEvent c) lock ((isEarly_iff _).2 h)) rfl rfl rfl rfl
  · exact happenTimed_silent awake (pulse_free_off (e := startEvent c) lock (onTime h) (outside 2 off)) rfl rfl rfl rfl
  · exact happenTimed_silent awake (pulse_free_counts (e := startEvent c) lock (onTime h) (inside 2 low high) few)
      rfl rfl rfl rfl
  · exact happenTimed_told awake (pulse_free_locks (e := startEvent c) lock (onTime h) (inside 2 low high) enough)
      (shows_ _ _ _ _) rfl rfl rfl rfl
  · exact happenTimed_told awake (pulse_locked_early (e := startEvent c) lock ((isEarly_iff _).2 h))
      (shows_ _ _ _ _) rfl rfl rfl rfl
  · exact happenTimed_silent awake (pulse_locked_near (e := startEvent c) lock (onTime h) (inside 5 low high))
      rfl rfl rfl rfl
  · exact happenTimed_told awake (pulse_locked_off (e := startEvent c) lock (onTime h) (outside 5 off))
      (shows_ _ _ _ _) rfl rfl rfl rfl
  · exact happenTimed_silent awake (missing_unset (e := startEvent c) last late lock) rfl rfl rfl rfl
  · exact happenTimed_silent awake (missing_free (e := startEvent c) last late lock) rfl rfl rfl rfl
  · exact happenTimed_told awake (missing_locked (e := startEvent c) last late lock)
      (shows_ _ _ _ _) rfl rfl rfl rfl
  · exact happenTimed_silent awake (missing_early (e := startEvent c) h) rfl rfl rfl rfl

end Sys2Proof.Machine
end

