-- ==== Sys2Proof/Proofs/SensorReports.lean ====
section
/-! PROOF. The taking of a REPORT or a HELLO, and the items a report yields. -/

namespace Sys2Proof.Machine

/-! ### The tests and the items of a report (R40 to R51) -/

theorem isStale_eq_false_iff (limit now stamp : Nat) :
    isStale limit now stamp = false ↔ diffTime now stamp ≤ limit ∧ diffTime stamp now ≤ limit := by
  simp [isStale]

theorem admissionAsStated (env : Env) (t : TimeBase) (v : Sensor) (r : Report) : AdmissionAsStated env t v r := by
  have newest : (match v.lastSequence with
      | some l => newer r.sequence l
      | none => true) = true ↔ ∀ l, v.lastSequence = some l → newer r.sequence l = true := by
    cases v.lastSequence <;> simp
  have fresh : (!(t.lock == .locked && isStale env.settings.staleLimit t.now r.timestamp)) = true
      ↔ (t.lock = .locked → diffTime t.now r.timestamp ≤ env.settings.staleLimit
        ∧ diffTime r.timestamp t.now ≤ env.settings.staleLimit) := by
    rw [← isStale_eq_false_iff]
    cases isStale env.settings.staleLimit t.now r.timestamp <;> simp
  unfold AdmissionAsStated reportPasses
  rw [Bool.and_eq_true, Bool.and_eq_true, fresh, List.all_eq_true, and_assoc]
  exact and_congr_left' newest

/-- The items of one record, kind by kind. -/
theorem kindOrder_items {α : Type} (f : EvidenceKind → Bool) (g : EvidenceKind → α) :
    (kindOrder.filter f).map g
      = (if f .tailDead then [g .tailDead] else []) ++ (if f .headCurrentDrop then [g .headCurrentDrop] else [])
        ++ (if f .arcBursts then [g .arcBursts] else []) ++ (if f .tailRestored then [g .tailRestored] else [])
        ++ (if f .headLive then [g .headLive] else []) ++ (if f .groundCurrent then [g .groundCurrent] else []) := by
  have step : ∀ k ks, (List.filter f (k :: ks)).map g = (if f k then [g k] else []) ++ (ks.filter f).map g := by
    intro k ks
    cases holds : f k <;> simp [holds]
  simp only [kindOrder, step, List.filter_nil, List.map_nil, List.append_nil, List.append_assoc]

theorem derivationAsStated (s : Settings) (v : Sensor) (stamp : Nat) (records : List PhaseRecord) :
    DerivationAsStated s v stamp records := by
  refine ⟨by simp [outagePattern, and_assoc], ?_⟩
  unfold derivedItems
  simp only []
  congr 1
  funext p
  rw [kindOrder_items]
  simp only [yields, Bool.and_eq_true, Bool.or_eq_true, beq_iff_eq, decide_eq_true_eq, Bool.not_eq_true', and_assoc]
  rfl

/-! ### The discovery list (R15) -/

theorem discover_new {a : Nat} {phases : Option PhaseSet} {e : Ev} (unlisted : ∀ x ∈ e.discovery, x.address ≠ a) :
    discover a phases e = { e with
      discovery := (if e.discovery.length < 8 then e.discovery else e.discovery.drop 1)
        ++ [{ address := a, firstHeard := e.time.now, phases := phases }] } := by
  have absent : (e.discovery.any fun x => x.address == a) = false := by simpa using unlisted
  have kept : (if Config.discovery ≤ e.discovery.length then e.discovery.drop 1 else e.discovery)
      = if e.discovery.length < 8 then e.discovery else e.discovery.drop 1 := by
    rw [show Config.discovery = 8 from rfl]
    by_cases room : e.discovery.length < 8
    · rw [if_pos room, if_neg (Nat.not_le.2 room)]
    · rw [if_neg room, if_pos (Nat.not_lt.1 room)]
  simp only [discover, absent, kept, Bool.false_eq_true, if_false]

theorem listed_any {a : Nat} {c : Core} (listed : ¬ ∀ x ∈ c.discovery, x.address ≠ a) :
    (c.discovery.any fun x => x.address == a) = true := by
  simpa using listed

theorem discover_heard {a : Nat} {e : Ev} (listed : ¬ ∀ x ∈ e.discovery, x.address ≠ a) :
    discover a none e = e := by
  simp [discover, listed_any listed]

theorem discover_announced {a : Nat} {ps : PhaseSet} {e : Ev} (listed : ¬ ∀ x ∈ e.discovery, x.address ≠ a) :
    discover a (some ps) e = { e with
      discovery := e.discovery.map fun x => if x.address = a then { x with phases := some ps } else x } := by
  simp [discover, listed_any listed]

/-! ### The taking of an entry (R39 to R45) -/

theorem takeReport_front {env : Env} {c : Core} {a t : Nat} {r : Report} {rest : List IntakeEntry}
    (well : healthy c = true) (idle : c.items = [])
    (front : c.intake = { address := a, frame := .report r, arrival := t } :: rest) :
    takeReport env (startEvent c)
      = judgeReport env a r t (countSensor .reportsTaken a (startEvent { c with intake := rest })) := by
  have may : mayTake c = true := by simp [mayTake, well, idle]
  simp only [takeReport, startEvent_core, front, may, if_true]
  rfl

theorem takeHello_front {c : Core} {a t : Nat} {ps : PhaseSet} {rest : List IntakeEntry}
    (well : healthy c = true) (idle : c.items = [])
    (front : c.intake = { address := a, frame := .hello ps, arrival := t } :: rest) :
    takeHello (startEvent c) = judgeHello a ps t (startEvent { c with intake := rest }) := by
  have may : mayTake c = true := by simp [mayTake, well, idle]
  simp only [takeHello, startEvent_core, front, may, if_true]
  rfl

section
variable {env : Env} {a n t : Nat} {v : Sensor} {r : Report} {e : Ev}

theorem judgeReport_unknown (unknown : sensorPlace e.toCore a = none) :
    judgeReport env a r t e = countSensor .reportsDiscarded a (discover a none e) := by
  simp only [judgeReport, unknown]

theorem judgeHello_unknown {ps : PhaseSet} (unknown : sensorPlace e.toCore a = none) :
    judgeHello a ps t e = discover a (some ps) e := by
  simp only [judgeHello, unknown]

variable (place : sensorPlace e.toCore a = some n) (sound : badAt e.roster n = false)
  (hv : entryAt e.roster n = some v)
include place sound hv

theorem judgeReport_fails (fails : reportPasses env e.time v r = false) :
    judgeReport env a r t e = countSensor .reportsDiscarded a e := by
  simp [judgeReport, place, sound, hv, fails]

theorem judgeReport_passes (passes : reportPasses env e.time v r = true) :
    judgeReport env a r t e = admitReport env n v r t e := by
  simp [judgeReport, place, sound, hv, passes]

theorem judgeHello_known {ps : PhaseSet} :
    judgeHello a ps t e = { e with roster := putAt e.roster n (some { v with lastHeard := t }) } := by
  simp [judgeHello, place, sound, hv, putSensor]

end

/-- A report's sensor is REPORTING, and its SENSOR notice tells a change. -/
def reportedBy (n : Nat) (v : Sensor) (r : Report) (arrival : Nat) (e : Ev) : Ev :=
  { e with
    roster := putAt e.roster n (some
      { v with lastSequence := some r.sequence, lastHeard := arrival, state := .reporting })
    out := e.out ++ if v.state = .reporting then []
      else [Emit.tell .both (.sensor v.address v.segment v.side v.state .reporting arrival (some r.sequence))] }

theorem putSensor_reported (n : Nat) (v : Sensor) (r : Report) (arrival : Nat) (e : Ev) :
    putSensor n v { v with lastSequence := some r.sequence, lastHeard := arrival, state := .reporting } e
      = reportedBy n v r arrival e := by
  by_cases same : v.state = .reporting <;> simp [putSensor, reportedBy, same, raise]

theorem effectiveStamp_eq (lock : LockState) (r : Report) (arrival : Nat) :
    effectiveStamp lock r arrival = if lock = .locked then r.timestamp else arrival := by
  cases lock <;> rfl

theorem admitReport_monitoring {env : Env} {n : Nat} {v : Sensor} {r : Report} {arrival : Nat} {e : Ev}
    (idle : e.items = []) (mode : e.mode = .monitoring) :
    admitReport env n v r arrival e = { reportedBy n v r arrival e with
      items := derivedItems env.settings v
        (if e.time.lock = .locked then r.timestamp else arrival) r.records
      out := (reportedBy n v r arrival e).out ++ if outagePattern env.settings v.side r.records then
        [sensorCount .evidenceMasked (some v.segment) v.address] else [] } := by
  have mode' : (reportedBy n v r arrival e).mode = .monitoring := mode
  simp only [admitReport, putSensor_reported, mode', derive, effectiveStamp_eq]
  cases outagePattern env.settings v.side r.records <;> simp [countEvidence, occur, sensorCount, reportedBy, idle]

theorem admitReport_elsewhere {env : Env} {n : Nat} {v : Sensor} {r : Report} {arrival : Nat} {e : Ev}
    (mode : e.mode ≠ .monitoring) : admitReport env n v r arrival e = reportedBy n v r arrival e := by
  simp only [admitReport, putSensor_reported]
  cases h : (reportedBy n v r arrival e).mode with
  | monitoring => exact absurd h mode
  | _ => rfl

/-- Settles O50: the oldest entry is the one taken, and the roster place of its address decides what it does. -/
theorem intakeTaking : Obligations.IntakeTaking := by
  refine ⟨fun a arrival rest s runs calm idle => ⟨fun r front => ⟨fun n v place sound hv => ⟨fun fails => ?_,
    fun passes => ?_⟩, fun unknown => ⟨fun unlisted => ?_, fun listed => ?_⟩⟩, fun ps front =>
    ⟨fun n v place sound hv => ?_, fun unknown => ⟨fun unlisted => ?_, fun listed => ?_⟩⟩⟩,
    admissionAsStated, derivationAsStated⟩
  all_goals
    have well := (healthy_iff s.part.core).2 calm
    have report := fun {r} => takeReport_front (env := envOf s.part) (a := a) (t := arrival) (r := r) (rest := rest)
      well idle
    have hello := fun {ps} => takeHello_front (a := a) (t := arrival) (ps := ps) (rest := rest) well idle
  · exact happen_done runs ((report front).trans (judgeReport_fails place sound hv fails)) rfl rfl rfl rfl
  · intro v' told outage stamp
    by_cases mode : s.part.core.mode = .monitoring
    · rw [if_pos mode]
      exact happen_done runs ((report front).trans ((judgeReport_passes place sound hv passes).trans
        (admitReport_monitoring idle mode))) rfl rfl rfl rfl
    · rw [if_neg mode]
      exact happen_done runs ((report front).trans ((judgeReport_passes place sound hv passes).trans
        (admitReport_elsewhere mode))) rfl rfl rfl rfl
  · exact happen_done runs ((report front).trans ((judgeReport_unknown unknown).trans
      (congrArg _ (discover_new unlisted)))) rfl rfl rfl rfl
  · exact happen_done runs ((report front).trans ((judgeReport_unknown unknown).trans
      (congrArg _ (discover_heard listed)))) rfl rfl rfl rfl
  · exact happen_done runs ((hello front).trans (judgeHello_known place sound hv)) rfl rfl rfl rfl
  · exact happen_done runs ((hello front).trans ((judgeHello_unknown unknown).trans
      (discover_new unlisted))) rfl rfl rfl rfl
  · exact happen_done runs ((hello front).trans ((judgeHello_unknown unknown).trans
      (discover_announced listed))) rfl rfl rfl rfl

end Sys2Proof.Machine
end

