-- ==== Sys2Proof/Proofs/StoreAndFaults.lean ====
section
/-! PROOF. The save of the description, and the fault that a read finds. -/

namespace Sys2Proof.Machine

/-! ### SAVE_CONFIGURATION (R211, R212) -/

/-- Reads of every entry of a table that matches find no mismatch. -/
theorem refs_sound {α : Type} {c : Core} {t : Table} {l : List (Checked α)} (sound : Sound l)
    (same : ∀ n, isBad c { table := t, index := n } = badAt l n) (ns : List Nat) :
    ∀ r ∈ refs t ns, isBad c r = false := by
  intro r mem
  obtain ⟨n, -, rfl⟩ := List.mem_map.1 mem
  rw [same, sound]

theorem saveReads_sound {c : Core} (segments : Sound c.segments) (roster : Sound c.roster) (devices : Sound c.devices)
    (plans : Sound c.plans) : firstBad c (saveReads c) = none := by
  refine (firstBad_none_iff _ _).2 fun r mem => ?_
  simp only [saveReads, List.mem_append] at mem
  obtain ((inSegments | inRoster) | inDevices) | inPlans := mem
  · exact allRefs_segments_sound segments r inSegments
  · exact allRefs_roster_sound roster r inRoster
  · exact allRefs_devices_sound devices r inDevices
  · exact refs_sound plans (fun _ => rfl) _ r inPlans

theorem contents_id {α : Type} (l : List (Checked α)) : contents id l = l.map (·.content) := by
  simp [contents]

theorem exec_saveCompletion (written reloadOk : Bool) (s : State) :
    exec (.saveCompletion written reloadOk) s = execSaveCompletion written reloadOk s := rfl

theorem exec_saveCompletion_idle (written reloadOk : Bool) {s : State} (h : s.part.save = none) :
    exec (.saveCompletion written reloadOk) s = .next (ended s.part s) := by
  rw [exec_saveCompletion, execSaveCompletion, act_eq, h]

theorem waitingReload_none {env : Env} {writesOk : Bool} {e : Ev} (h : e.recovery.waiting = none) :
    waitingReload env writesOk e = e := by
  rw [waitingReload, h]

/-- With no reload waiting for it, a save that completes changes the store and answers its reply. -/
theorem completeSave_running (written reloadOk : Bool) (img : Image) {p : Part} (running : p.run = .running)
    (none_ : p.core.recovery.waiting = none) :
    completeSave written reloadOk img p = replyWaiting .save (storeCode written)
      { p with save := none, store := { image := img, codeMatches := written, valid := written } } := by
  simp only [completeSave, replyWaiting, running]
  exact runEvent_same (waitingReload_none none_)

/-- Settles O45: the image is the tables and settings as they stand, and its completion answers the waiting reply. -/
theorem saveAndCompletion : Obligations.SaveAndCompletion := by
  refine ⟨fun tag s taken well unsaved segments roster devices plans => ?_,
    fun written reloadOk img w rest s saving running idle waits own others quiet => ?_,
    fun written reloadOk s idle => exec_saveCompletion_idle written reloadOk idle⟩
  · obtain ⟨mode, calm⟩ := well
    refine exec_waiting rfl taken ?_
    rw [meaning, onBody_ok, unless_passes (select_eq_none_iff.2 ?_), beginSave,
      saveReads_sound segments roster devices plans]
    · simp only [imageOf, contents_id]
      rfl
    · simp [saveConditions, isHalted, mode, calm, unsaved]
  · rw [exec_saveCompletion, execSaveCompletion, act_eq, saving]
    simp only []
    rw [completeSave_running written reloadOk img running idle, replyWaiting,
      readyWaiting_head _ waits own fun x mem => op_ne_save (others x mem),
      readyWaiting_none _ fun w mem => op_ne_save (quiet w mem)]
    rfl

/-! ### The fault that a read finds (R169 to R172) -/

/-- Of reads that run up a table, the first that finds a mismatch is that of the lowest entry. -/
theorem firstBad_lowest {c : Core} {n : Nat} (inside : n < c.devices.length) (bad : badAt c.devices n = true)
    (below : ∀ m, m < n → badAt c.devices m = false) :
    firstBad c (allRefs c .device) = some { table := .device, index := n } := by
  have found : (List.range c.devices.length).find? (fun m => badAt c.devices m) = some n := by
    rw [List.find?_range_eq_some]
    exact ⟨bad, List.mem_range.2 inside, fun m lt => by simp [below m lt]⟩
  rw [firstBad, allRefs, refs, List.find?_map]
  exact congrArg (Option.map _) found

/-- What a first fault records (R172). -/
def faultRecorded (t : Table) (n : Option Nat) (c : Core) : FaultRecord :=
  { c.record with
    first := some (c.record.first.getD { table := t, entry := n, time := c.time.now, mode := c.mode })
    total := min 255 (c.record.total + 1) }

theorem recordFault_eq (t : Table) (n : Option Nat) (e : Ev) :
    recordFault t n e = { e with record := faultRecorded t n e.toCore } := by
  unfold recordFault faultRecorded
  cases e.record.first <;> rfl

section
variable {t : Table} {n : Option Nat} {e : Ev} (well : healthy e.toCore = true) (table : t ≠ .store)
include well table

theorem internalFault_recovers (few : e.window.length + 1 < 3) :
    internalFault t n e = { e with
      record := faultRecorded t n e.toCore
      window := e.window ++ [e.time.now]
      recovery := { Recovery.idle with recovering := true, sweep := [.segment, .device, .roster, .plan, .case] }
      out := e.out ++ [.tell .both (.faultFound t n e.time.now (faultRecorded t n e.toCore).total
        (e.window.length + 1) .recovering none)] } := by
  obtain ⟨mode, calm⟩ := (healthy_iff e.toCore).1 well
  simp [internalFault, recordFault_eq, mode, calm, table, Config.faultLimit, Nat.not_le.2 few, raise, enterRecovery]

theorem internalFault_halts (many : 3 ≤ e.window.length + 1) :
    internalFault t n e = { e with
      record := faultRecorded t n e.toCore
      window := e.window ++ [e.time.now]
      mode := .halted
      recovery := Recovery.idle
      devices := mapContents (fun v => { v with run := { v.run with nextPoll := none } }) e.devices
      out := e.out ++ [.tell .both (.faultFound t n e.time.now (faultRecorded t n e.toCore).total
        (e.window.length + 1) .halted none)] } := by
  obtain ⟨mode, -⟩ := (healthy_iff e.toCore).1 well
  simp [internalFault, recordFault_eq, mode, table, Config.faultLimit, many, raise, enterHalted, clearPolls]

end

/-- A first fault of an event. -/
theorem faultAt_first {r : Ref} {e : Ev} (first : e.met = []) :
    faultAt r e = internalFault r.table (faultEntry e.toCore r) { e with met := [r] } := by
  simp [faultAt, first]

/-- Settles O59: the reads of READ_DEVICES find the lowest entry that does not match, and its fault is handled. -/
theorem mismatchIsInternalFault : Obligations.MismatchIsInternalFault := by
  intro q tag n s taken well p c inside bad below first record window told
  have well' : healthy c = true := healthy_heard q well
  have served : select (readConditions (heard q s) true) = none := by
    obtain ⟨mode, calm⟩ := well
    refine select_eq_none_iff.2 ?_
    simp [readConditions, isHalted, mode, calm]
  have reads : readDevices (startEvent c) = (faultAt { table := .device, index := n } (startEvent c), plain .faultRecovery) :=
    reading_bad _ _ (startEvent c) _ (firstBad_lowest inside bad below)
  have length : window.length = c.window.length + 1 := List.length_append
  refine ⟨fun few => ?_, fun many => ?_⟩
  · refine exec_replied rfl taken ?_
    rw [meaning, onBody_ok, unless_passes served]
    refine viaCore_done (reads.trans (congrArg (·, _) ((faultAt_first rfl).trans
      (internalFault_recovers well' (fun h => nomatch h) (length ▸ few))))) rfl rfl ?_ rfl
    simp only [told, length]
    rfl
  · refine exec_replied rfl taken ?_
    rw [meaning, onBody_ok, unless_passes served]
    refine viaCore_done (reads.trans (congrArg (·, _) ((faultAt_first rfl).trans
      (internalFault_halts well' (fun h => nomatch h) (length ▸ many))))) rfl rfl ?_ rfl
    simp only [told, length]
    rfl

end Sys2Proof.Machine
end

