-- ==== Sys2Proof/Proofs/TableCommands.lean ====
section
/-! PROOF. The bindings of sensors, and the reads of the checked tables. -/

namespace Sys2Proof.Machine

/-! ### Bindings (R7, R8) -/

/-- What keeps a sensor from being bound: its address is bound, or its end has a sensor on one of its phases. -/
def BindingInUse (x : SensorBinding) (c : Core) : Prop :=
  (∃ n v, entryAt c.roster n = some v ∧ v.address = x.address)
    ∨ ∃ n v, entryAt c.roster n = some v ∧ v.segment = x.segment ∧ v.side = x.side
        ∧ phasesMeet v.phases x.phases = true

theorem sensorPlace_isSome_iff (c : Core) (a : Nat) :
    (sensorPlace c a).isSome = true ↔ ∃ n v, entryAt c.roster n = some v ∧ v.address = a := by
  have found : (sensorPlace c a).isSome = !(entriesWhere c.roster fun r => r.address == a).isEmpty := by
    unfold sensorPlace
    cases entriesWhere c.roster fun r => r.address == a <;> rfl
  rw [found, entriesWhere_nonempty_iff]
  simp

/-- A place found holds the first sensor with the address. -/
theorem sensorPlace_some {c : Core} {a n : Nat} (h : sensorPlace c a = some n) :
    ∃ v, entryAt c.roster n = some v ∧ v.address = a := by
  have mem : n ∈ entriesWhere c.roster fun r => r.address == a := List.mem_of_mem_head? h
  obtain ⟨v, at_, address⟩ := (mem_entriesWhere _ _ _).1 mem
  exact ⟨v, at_, by simpa using address⟩

theorem endOverlaps_iff (c : Core) (x : SensorBinding) :
    endOverlaps c x = true ↔ ∃ n v, entryAt c.roster n = some v ∧ v.segment = x.segment ∧ v.side = x.side
      ∧ phasesMeet v.phases x.phases = true := by
  rw [endOverlaps, entriesWhere_nonempty_iff]
  simp [and_assoc]

section
variable {x : SensorBinding} {e : Ev} (sound : Sound e.roster)
include sound

theorem bindSensor_inUse (used : BindingInUse x e.toCore) : bindSensor x e = (e, plain .inUse) := by
  rw [bindSensor, reading_sound _ _ _ (allRefs_roster_sound sound)]
  refine unlessEv_refuses (select_eq_some ?_ fun d holds => ?_) _ e
  · rw [BindingInUse, ← sensorPlace_isSome_iff, ← endOverlaps_iff] at used
    obtain there | overlap := used
    · simp [there]
    · simp [overlap]
  · simp only [List.mem_cons, Prod.mk.injEq, List.not_mem_nil, or_false] at holds
    obtain ⟨_, rfl⟩ | ⟨_, rfl⟩ | ⟨_, rfl⟩ | ⟨_, rfl⟩ := holds <;> decide

theorem bindSensor_full (free : ¬ BindingInUse x e.toCore)
    (full : freePlace e.toCore = none ∨ 3 ≤ (boundAt e.toCore x.segment x.side).length) :
    bindSensor x e = (e, plain .tableFull) := by
  rw [BindingInUse, ← sensorPlace_isSome_iff, ← endOverlaps_iff, not_or, Bool.not_eq_true, Bool.not_eq_true] at free
  obtain ⟨unbound, apart⟩ := free
  rw [bindSensor, reading_sound _ _ _ (allRefs_roster_sound sound), unbound, apart]
  refine unlessEv_refuses ?_ _ e
  rw [select_false, select_false]
  refine select_shared (by simp) ?_
  obtain none_ | crowded := full
  · exact ⟨_, List.mem_cons_self, by simp [none_]⟩
  · exact ⟨_, List.mem_cons_of_mem _ List.mem_cons_self, by simp [Config.sensorsPerEnd, crowded]⟩

theorem bindSensor_free (free : ¬ BindingInUse x e.toCore) {n : Nat} (place : freePlace e.toCore = some n)
    (room : (boundAt e.toCore x.segment x.side).length < 3) :
    bindSensor x e = ({ e with
      roster := putAt e.roster n (some
        { address := x.address, segment := x.segment, side := x.side, phases := x.phases
          state := .waiting, lastSequence := none, lastHeard := e.time.now })
      discovery := e.discovery.filter fun d => d.address != x.address }, plain .accepted) := by
  rw [BindingInUse, ← sensorPlace_isSome_iff, ← endOverlaps_iff, not_or, Bool.not_eq_true, Bool.not_eq_true] at free
  obtain ⟨unbound, apart⟩ := free
  rw [bindSensor, reading_sound _ _ _ (allRefs_roster_sound sound), unbound, apart]
  refine (unlessEv_passes (select_eq_none_iff.2 ?_) _ e).trans ?_
  · simp only [place, List.forall_mem_cons, Config.sensorsPerEnd]
    exact ⟨trivial, trivial, rfl, decide_eq_false (Nat.not_le.2 room), by simp⟩
  · simp only [place]
    rfl

end

theorem unbindSensor_unbound {a : Nat} {e : Ev} (h : sensorPlace e.toCore a = none) :
    unbindSensor a e = (e, plain .noSuchItem) := by
  rw [unbindSensor, h]

theorem unbindSensor_bound {a n : Nat} {e : Ev} (sound : Sound e.roster) (h : sensorPlace e.toCore a = some n) :
    unbindSensor a e = ({ e with
      roster := putAt e.roster n none, deferred := e.deferred.filter (· != a) }, plain .accepted) := by
  rw [unbindSensor, h]
  exact reading_sound _ _ _ (by simpa [isBad] using sound n)

/-- Settles O32: the bindings of an address and of an end decide what is refused, and the lowest free place is taken. -/
theorem sensorBindings : Obligations.SensorBindings := by
  intro q tag s may p c sound
  have address : ∀ {a : Nat}, 1 ≤ a → a ≤ 65534 → sensorAddress a = true := fun low high => by
    simp [sensorAddress, low, high]
  refine ⟨fun x low high segment phases => ⟨fun used => ?_, fun unbound apart full => ?_,
    fun n unbound apart place room => ?_⟩, fun a low high => ⟨fun unbound => ?_, fun n place => ?_⟩⟩
  · have inRange : (sensorAddress x.address && decide (x.segment < Config.segments)) = true := by
      simp [address low high, Config.segments, segment]
    refine edit_refused (f := fun _ e => bindSensor x e) rfl may ?_ inRange (bindSensor_inUse (e := startEvent c) sound used)
    rw [meaning, onBody_ok, phases]
    rfl
  · have inRange : (sensorAddress x.address && decide (x.segment < Config.segments)) = true := by
      simp [address low high, Config.segments, segment]
    refine edit_refused (f := fun _ e => bindSensor x e) rfl may ?_ inRange (bindSensor_full (e := startEvent c) sound (not_or.2 ⟨unbound, apart⟩) full)
    rw [meaning, onBody_ok, phases]
    rfl
  · have inRange : (sensorAddress x.address && decide (x.segment < Config.segments)) = true := by
      simp [address low high, Config.segments, segment]
    refine edit_made (f := fun _ e => bindSensor x e) rfl may ?_ inRange (bindSensor_free (e := startEvent c) sound (not_or.2 ⟨unbound, apart⟩) place room) rfl
    rw [meaning, onBody_ok, phases]
    rfl
  · exact edit_refused rfl may rfl (address low high) (unbindSensor_unbound unbound)
  · exact edit_made rfl may rfl (address low high) (unbindSensor_bound sound place) rfl

/-! ### Reads of the checked tables (R5, R9, R13, R99, R100, R106, R151) -/

theorem mem_entriesFrom {α : Type} (l : List (Checked α)) (first n : Nat) (v : α) :
    (n, v) ∈ entriesFrom l first ↔ first ≤ n ∧ entryAt l n = some v := by
  simp only [entriesFrom, List.mem_filterMap, List.mem_range]
  constructor
  · rintro ⟨m, -, found⟩
    split at found
    · rename_i from_
      obtain ⟨x, at_, pair⟩ := Option.map_eq_some_iff.1 found
      cases pair
      exact ⟨from_, at_⟩
    · cases found
  · rintro ⟨from_, at_⟩
    exact ⟨n, entryAt_lt at_, by simp [from_, at_]⟩

theorem entriesFrom_pairwise {α : Type} (l : List (Checked α)) (first : Nat) :
    (entriesFrom l first).Pairwise fun x y => x.1 < y.1 := by
  refine List.Pairwise.filterMap _ (fun m n lt x isX y isY => ?_) List.pairwise_lt_range
  have number : ∀ {k : Nat} {z : Nat × α},
      (if first ≤ k then (entryAt l k).map fun x => (k, x) else none) = some z → z.1 = k := by
    intro k z found
    split at found
    · obtain ⟨_, -, rfl⟩ := Option.map_eq_some_iff.1 found
      rfl
    · cases found
  rw [number isX, number isY]
  exact lt

theorem ascending_eq (l : List Nat) : ascending l = l.insertionSort (· ≤ ·) := by
  have insert : ∀ (n : Nat) (l : List Nat), insertAscending n l = l.orderedInsert (· ≤ ·) n := by
    intro n l
    induction l with
    | nil => rfl
    | cons x xs ih => simp only [insertAscending, List.orderedInsert_cons, ih]
  induction l with
  | nil => rfl
  | cons n l ih => rw [List.insertionSort_cons, ← ih, ← insert]; rfl

theorem ascending_perm (l : List Nat) : (ascending l).Perm l := ascending_eq l ▸ List.perm_insertionSort _ l

theorem ascending_pairwise (l : List Nat) : (ascending l).Pairwise (· ≤ ·) :=
  ascending_eq l ▸ List.pairwise_insertionSort _ l

theorem mem_addressesWhere (c : Core) (f : Sensor → Bool) (a : Nat) :
    a ∈ addressesWhere c f ↔ ∃ n v, entryAt c.roster n = some v ∧ f v = true ∧ v.address = a := by
  simp only [addressesWhere, List.mem_filterMap, mem_entriesWhere]
  constructor
  · rintro ⟨n, ⟨v, at_, holds⟩, address⟩
    rw [at_] at address
    exact ⟨n, v, at_, holds, Option.some.inj address⟩
  · rintro ⟨n, v, at_, holds, rfl⟩
    exact ⟨n, ⟨v, at_, holds⟩, by rw [at_]; rfl⟩

/-- The sensor that a look-up of an address finds. -/
def sensorAt (c : Core) (a : Nat) : Option Sensor := (sensorPlace c a).bind (entryAt c.roster)

theorem sensorAt_some {c : Core} {a : Nat} {v : Sensor} (h : sensorAt c a = some v) :
    v.address = a ∧ ∃ n, sensorPlace c v.address = some n ∧ entryAt c.roster n = some v := by
  obtain ⟨n, place, at_⟩ := Option.bind_eq_some_iff.1 h
  obtain ⟨u, atN, address⟩ := sensorPlace_some place
  obtain rfl : u = v := Option.some.inj (atN.symm.trans at_)
  exact ⟨address, n, by rw [address, place], at_⟩

/-- A bound address has a sensor. -/
theorem sensorAt_bound {c : Core} {n : Nat} {v : Sensor} (h : entryAt c.roster n = some v) :
    ∃ u, sensorAt c v.address = some u := by
  obtain ⟨m, place⟩ := Option.isSome_iff_exists.1 ((sensorPlace_isSome_iff c v.address).2 ⟨n, v, h, rfl⟩)
  obtain ⟨u, at_, -⟩ := sensorPlace_some place
  exact ⟨u, by rw [sensorAt, place]; exact at_⟩

theorem sensorsFrom_eq (c : Core) (first : Nat) :
    sensorsFrom c first = (ascending (addressesWhere c fun r => decide (first ≤ r.address))).filterMap (sensorAt c) := rfl

theorem mem_listedAddresses {c : Core} {first a : Nat} :
    a ∈ ascending (addressesWhere c fun r => decide (first ≤ r.address)) ↔
      first ≤ a ∧ ∃ n v, entryAt c.roster n = some v ∧ v.address = a := by
  rw [(ascending_perm _).mem_iff, mem_addressesWhere]
  constructor
  · rintro ⟨n, v, at_, from_, rfl⟩
    exact ⟨of_decide_eq_true from_, n, v, at_, rfl⟩
  · rintro ⟨from_, n, v, at_, rfl⟩
    exact ⟨n, v, at_, decide_eq_true from_, rfl⟩

/-- The roster's entries from an address on, each the one that a look-up of its address finds, ascending. -/
theorem sensorsFrom_listed (c : Core) (first : Nat) :
    (∀ v ∈ sensorsFrom c first, first ≤ v.address
        ∧ ∃ n, sensorPlace c v.address = some n ∧ entryAt c.roster n = some v)
      ∧ (∀ n v, entryAt c.roster n = some v → first ≤ v.address → ∃ u ∈ sensorsFrom c first, u.address = v.address)
      ∧ (sensorsFrom c first).Pairwise (fun u v => u.address ≤ v.address)
      ∧ (sensorsFrom c first).length = (entriesWhere c.roster fun v => decide (first ≤ v.address)).length := by
  rw [sensorsFrom_eq]
  refine ⟨fun v mem => ?_, fun n v at_ from_ => ?_, ?_, ?_⟩
  · obtain ⟨a, listed, found⟩ := List.mem_filterMap.1 mem
    obtain ⟨rfl, there⟩ := sensorAt_some found
    exact ⟨(mem_listedAddresses.1 listed).1, there⟩
  · obtain ⟨u, found⟩ := sensorAt_bound at_
    exact ⟨u, List.mem_filterMap.2 ⟨v.address, mem_listedAddresses.2 ⟨from_, n, v, at_, rfl⟩, found⟩,
      (sensorAt_some found).1⟩
  · refine List.Pairwise.filterMap _ (fun a b le u isU v isV => ?_) (ascending_pairwise _)
    rw [(sensorAt_some isU).1, (sensorAt_some isV).1]
    exact le
  · have eachFound : ∀ a ∈ ascending (addressesWhere c fun r => decide (first ≤ r.address)),
        (sensorAt c a).isSome = true := by
      intro a listed
      obtain ⟨-, n, v, at_, rfl⟩ := mem_listedAddresses.1 listed
      exact Option.isSome_iff_exists.2 (sensorAt_bound at_)
    have eachDefined : ∀ n ∈ entriesWhere c.roster fun v => decide (first ≤ v.address),
        ((entryAt c.roster n).map (·.address)).isSome = true := by
      intro n mem
      obtain ⟨v, at_, -⟩ := (mem_entriesWhere _ _ _).1 mem
      rw [at_]
      rfl
    rw [List.length_filterMap_eq_countP, List.countP_eq_length.2 eachFound, (ascending_perm _).length_eq,
      addressesWhere, List.length_filterMap_eq_countP, List.countP_eq_length.2 eachDefined]

theorem readConditions_pass {q : Port} {s : State} {inRange : Bool} (well : Healthy s) (inside : inRange = true) :
    select (readConditions (heard q s) inRange) = none := by
  obtain ⟨mode, calm⟩ := well
  refine select_eq_none_iff.2 ?_
  simp [readConditions, isHalted, mode, calm, inside]

/-- Settles O34: each read finds its entries matching, and the lists hold what they should in ascending order. -/
theorem tableReads : Obligations.TableReads := by
  intro q tag s taken well p c sound
  obtain ⟨segments, roster, devices, plans, cases⟩ := sound
  refine ⟨fun x first low high => ?_, fun x first last low high => ?_, ?_, fun x first low high => ?_, ?_,
    fun x k inside there serial => ?_, fun x inside missing => ?_,
    fun α l first => ⟨mem_entriesFrom l first, entriesFrom_pairwise l first⟩, fun first => sensorsFrom_listed c first⟩
  · have inRange : rangeOk x 0 Config.segments 64 = true := by simp [rangeOk, Config.segments, first, low, high]
    refine exec_replied rfl taken ?_
    rw [meaning, onBody_ok, unless_passes (readConditions_pass well inRange)]
    exact viaCore_same (reading_sound _ _ (startEvent c) (refs_sound segments (fun _ => rfl) _))
  · have inRange : rangeOk x 1 65535 32 = true := by simp [rangeOk, first, low, high]; omega
    refine exec_replied rfl taken ?_
    rw [meaning, onBody_ok, unless_passes (readConditions_pass well inRange)]
    exact viaCore_same (reading_sound _ _ (startEvent c) (allRefs_roster_sound roster))
  · refine exec_replied rfl taken ?_
    rw [meaning, onBody_ok, unless_passes (readConditions_pass well rfl)]
    exact viaCore_same (reading_sound _ _ (startEvent c) (allRefs_devices_sound devices))
  · have inRange : rangeOk x 0 Config.plans 16 = true := by simp [rangeOk, Config.plans, first, low, high]
    refine exec_replied rfl taken ?_
    rw [meaning, onBody_ok, unless_passes (readConditions_pass well inRange)]
    exact viaCore_same (reading_sound _ _ (startEvent c) (refs_sound plans (fun _ => rfl) _))
  · refine exec_replied rfl taken ?_
    rw [meaning, onBody_ok, unless_passes (select_eq_none_iff.2 ?_)]
    · refine viaCore_same ((reading_sound _ _ (startEvent c) (allRefs_cases_sound cases)).trans ?_)
      simp only [List.length_map]
      rfl
    · obtain ⟨mode, calm⟩ := well
      simp [caseConditions, isHalted, mode, calm]
  · exact exec_replied rfl taken ((caseCommand_named (changes := false) well (fun h => nomatch h) inside (cases _)
      readCase there serial).trans (viaCore_same rfl))
  · exact exec_refused rfl taken (caseCommand_missing (changes := false) well (fun h => nomatch h) inside (cases _) readCase missing)

end Sys2Proof.Machine
end

