-- ==== Sys2Proof/Proofs/PortEvents.lean ====
section
/-! PROOF. The commands on a port's notices. -/

namespace Sys2Proof.Machine

/-! ### A command answered -/

theorem keepsRest_ended {s : State} {p : Part} {c : Core} {a b : PortState}
    (h : p = { s.part with core := c, portA := a, portB := b }) : KeepsRest s (ended p s) := by
  subst h
  refine ⟨rfl, ?_⟩
  show finish _ = _
  conv_lhs => rw [finish_rest]
  simp [ended, finish_core]

/-- A command that changes its own port alone leaves the rest. -/
theorem keepsRest_replied (q : Port) (kind : Nat) (tag : Byte) (code : ReplyCode) (body : ReplyBody)
    (f : PortState → PortState) (s : State) :
    KeepsRest s (replied q kind tag code body (setPort q f (heard q s)) s) := by
  have rest := hearFrame_rest q true s.part
  cases q
  · refine keepsRest_ended (c := { s.part.core with supervision := (heard .a s).core.supervision })
      (a := enqueue kind tag (.now code body) (f (heard .a s).portA))
      (b := (heard .a s).portB) ?_
    rw [heard]
    conv_lhs => rw [rest]
    rfl
  · refine keepsRest_ended (c := { s.part.core with supervision := (heard .b s).core.supervision })
      (a := (heard .b s).portA)
      (b := enqueue kind tag (.now code body) (f (heard .b s).portB)) ?_
    rw [heard]
    conv_lhs => rw [rest]
    rfl

/-- What a command leaves owes its reply and no other. -/
theorem answered_replied {c : Instr} {q : Port} {kind : Nat} {tag : Byte} {s : State} {p : Part}
    {code : ReplyCode} {body : ReplyBody} (h : meaning c (heard q s) = (p, .now code body)) :
    Answered q kind tag code body s (replied q kind tag code body p s) := by
  have same := ((hearFrame_actKeeps q true s.part).trans (meaning_actKeeps c (heard q s))).replies
  rw [h] at same
  refine ⟨?_, ?_⟩
  · rw [replied, ended, outgoing_finish, portOf_setPort, outgoing_enqueue_now, outgoing_of_sameReplies same]
  · rw [replied, ended, outgoing_finish, portOf_setPort_other, outgoing_of_sameReplies same]

/-! ### SET_NOTICE_MASK (R193) -/

theorem categories_at (i : Nat) : categories[i]? = maskable (i + 1) := by
  by_cases inside : i < 8
  · interval_cases i <;> rfl
  · rw [(maskable_eq_none _).2 (by omega)]
    exact List.getElem?_eq_none (Nat.not_lt.1 inside)

theorem maskable_eq_some {n : Nat} {c : Category} (h : maskable n = some c) : n = c.code := by
  by_cases inside : 1 ≤ n ∧ n ≤ 8
  · obtain ⟨low, high⟩ := inside
    interval_cases n <;> cases h <;> rfl
  · rw [(maskable_eq_none n).2 inside] at h
    cases h

/-- The categories a command masks are those of its codes. -/
theorem mem_masked {codes : List Nat} (inside : ∀ n ∈ codes, 1 ≤ n ∧ n ≤ 8) (c : Category) :
    c ∈ codes.filterMap maskable ↔ c.code ∈ codes := by
  rw [List.mem_filterMap]
  constructor
  · rintro ⟨n, mem, named⟩
    rwa [← maskable_eq_some named]
  · intro mem
    obtain ⟨low, high⟩ := inside _ mem
    refine ⟨c.code, mem, ?_⟩
    cases c
    case summary => simp [Category.code] at high
    all_goals rfl

theorem zipWith_flatten {α β γ : Type} (f : α → β → List γ) (cs : List α) (l : List β) :
    (List.zipWith f cs l).flatten
      = (List.range cs.length).flatMap fun i => ((cs[i]?).bind fun c => (l[i]?).map (f c)).getD [] := by
  induction cs generalizing l with
  | nil => rfl
  | cons c cs ih =>
    cases l with
    | nil => simp
    | cons x l => simp [ih, List.range_succ_eq_map, List.flatMap_map]

/-- Notices that the queue has room for join it in turn. -/
theorem foldl_joinNotices (ns : List Notice) {p : PortState} (room : p.notices.length + ns.length ≤ 32) :
    ns.foldl (fun s n => joinNotices n s) p = { p with notices := p.notices ++ ns } := by
  induction ns generalizing p with
  | nil => simp
  | cons n ns ih =>
    rw [List.length_cons] at room
    rw [List.foldl_cons, joinNotices_room n (by omega), ih (by simp; omega)]
    simp

theorem foldl_joinNotices_keeps (ns : List Notice) (p : PortState) :
    (ns.foldl (fun s n => joinNotices n s) p).categories = p.categories := by
  refine foldl_keeps (fun x => x.categories = p.categories) _ (fun x n h => ?_) ns p rfl
  unfold joinNotices
  split <;> exact h

theorem remask_eq {codes : List Nat} (inside : ∀ n ∈ codes, 1 ≤ n ∧ n ≤ 8) (old : List CategoryState) :
    List.zipWith (remask (codes.filterMap maskable)) categories old
      = List.zipWith (fun (n : Nat) (x : CategoryState) =>
          if n ∈ codes then { x with mask := true }
          else if x.mask then { mask := false, latch := false, withheld := 0 } else x)
          [1, 2, 3, 4, 5, 6, 7, 8] old := by
  have numbers : [1, 2, 3, 4, 5, 6, 7, 8] = categories.map Category.code := rfl
  rw [numbers, List.zipWith_map_left]
  congr 1
  funext c x
  simp only [remask, mem_masked inside]

/-- The SUMMARY notices of the categories that a command unmasks with their latches set, in their order. -/
def summaries (codes : List Nat) (old : List CategoryState) : List Notice :=
  (List.zipWith (summaryOf (codes.filterMap maskable)) categories old).flatten

theorem summaries_eq (codes : List Nat) (old : List CategoryState) :
    summaries codes old = (List.range 8).flatMap fun i =>
      ((maskable (i + 1)).bind fun c => (old[i]?).map (summaryOf (codes.filterMap maskable) c)).getD [] := by
  rw [summaries, zipWith_flatten]
  simp only [categories_at]
  rfl

theorem summaryOf_length (masked : List Category) (c : Category) (x : CategoryState) :
    (summaryOf masked c x).length ≤ 1 := by
  unfold summaryOf
  split <;> simp

theorem summaries_length (codes : List Nat) (old : List CategoryState) : (summaries codes old).length ≤ 8 := by
  have each : ∀ l ∈ List.zipWith (summaryOf (codes.filterMap maskable)) categories old, l.length ≤ 1 := by
    intro l mem
    obtain ⟨i, lt, rfl⟩ := List.getElem_of_mem mem
    rw [List.getElem_zipWith]
    exact summaryOf_length _ _ _
  have sum := List.sum_le_card_nsmul _ 1 fun n mem => by
    obtain ⟨l, inList, rfl⟩ := List.mem_map.1 mem
    exact each l inList
  rw [summaries, List.length_flatten]
  refine sum.trans ?_
  simp [categories]

theorem summaries_none {codes : List Nat} {old : List CategoryState}
    (quiet : ∀ x ∈ old, x.mask = true → x.latch = false) : summaries codes old = [] := by
  refine List.flatten_eq_nil_iff.2 fun l mem => ?_
  obtain ⟨i, lt, rfl⟩ := List.getElem_of_mem mem
  rw [List.getElem_zipWith, summaryOf, if_neg]
  rintro ⟨-, mask, latch⟩
  rw [quiet _ (List.getElem_mem _) mask] at latch
  cases latch

/-- What SET_NOTICE_MASK leaves of a port. -/
def remasked (codes : List Nat) (x : PortState) : PortState :=
  (summaries codes x.categories).foldl (fun s n => joinNotices n s)
    { x with categories := List.zipWith (remask (codes.filterMap maskable)) categories x.categories }

theorem setMasks_eq (q : Port) (codes : List Nat) (p : Part) :
    setMasks q (codes.filterMap maskable) p = (setPort q (remasked codes) p,
      .now .accepted (.masks (List.zipWith (remask (codes.filterMap maskable)) categories (portOf q p).categories))) := by
  cases q <;> rfl

theorem noticeStream_remasked {codes : List Nat} {x : PortState} (room : x.notices.length + 8 ≤ 32) :
    noticeStream (remasked codes x) = noticeStream x ++ summaries codes x.categories := by
  have few := summaries_length codes x.categories
  rw [remasked, foldl_joinNotices _ (by simp only []; omega)]
  simp [noticeStream]

theorem noticeStream_remasked_quiet {codes : List Nat} {x : PortState}
    (quiet : ∀ y ∈ x.categories, y.mask = true → y.latch = false) :
    noticeStream (remasked codes x) = noticeStream x := by
  rw [remasked, summaries_none quiet]
  rfl

theorem noticeStream_enqueue (kind : Nat) (tag : Byte) (code : ReplyCode) (body : ReplyBody) (p : PortState) :
    noticeStream (enqueue kind tag (.now code body) p) = noticeStream p := rfl

/-- Settles O26: both commands change the notices of a port alone, and the SUMMARY notices are those of the categories
in their order. -/
theorem portNoticeCommands : Obligations.PortNoticeCommands := by
  intro q tag s taken running p c
  have running' : isHalted p = false := by simpa [isHalted, p] using running
  refine ⟨?_, fun codes inside => ?_⟩
  · refine exec_replied rfl taken ?_
    rw [meaning, onBody_ok, unless_single_fails running']
    cases q <;> rfl
  · have known : (codes.any fun n => (maskable n).isNone) = false := by
      simp only [List.any_eq_false, Option.isNone_iff_eq_none, maskable_eq_none, not_not]
      exact inside
    have left : meaning (.setNoticeMask q tag (.ok codes)) p = (setPort q (remasked codes) p,
        .now .accepted (.masks (List.zipWith (remask (codes.filterMap maskable)) categories (portOf q p).categories))) := by
      rw [meaning, onBody_ok, unless_passes (select_eq_none_iff.2 ?_), setMasks_eq]
      simp [known, running']
    intro old new
    have newIs : List.zipWith (remask (codes.filterMap maskable)) categories (portOf q p).categories = new :=
      remask_eq inside old
    rw [newIs] at left
    have stream : (portOf q p).notices.length + 8 ≤ 32 →
        noticeStream (portOf q (finish (setPort q (enqueue 0x05 tag (.now .accepted (.masks new)))
          (setPort q (remasked codes) p)))) = noticeStream (portOf q p) ++ summaries codes old := fun room => by
      rw [noticeStream_finish, portOf_setPort, noticeStream_enqueue, portOf_setPort, noticeStream_remasked room]
    refine ⟨_, exec_replied rfl taken left, answered_replied left, ?_, ?_, ?_, ?_, fun quiet => ?_,
      fun i x cat at_ mask latch named unmasked room => ?_, fun room => ?_⟩
    · exact keepsRest_replied q _ _ _ _ _ s
    · rw [replied, ended_core, setPort_core, setPort_core]
    · rw [replied, ended, (finish_keepsPort q _).2.2.2.2.1, portOf_setPort, ← newIs]
      exact (congrArg PortState.categories (portOf_setPort q _ p)).trans (foldl_joinNotices_keeps _ _)
    · rw [replied, ended, noticeStream_finish, portOf_setPort_other, portOf_setPort_other]
    · rw [replied, ended, noticeStream_finish, portOf_setPort, noticeStream_enqueue, portOf_setPort,
        noticeStream_remasked_quiet quiet]
    · refine (stream room).symm ▸ List.mem_append_right _ ?_
      rw [summaries_eq, List.mem_flatMap]
      have inRange : i ∈ List.range 8 := by
        by_contra outside
        rw [(maskable_eq_none _).2 (by simpa using outside)] at named
        cases named
      have code := maskable_eq_some named
      refine ⟨i, inRange, ?_⟩
      simp [named, at_, summaryOf, mem_masked inside, ← code, unmasked, mask, latch]
    · refine (stream room).trans (congrArg _ ?_)
      rw [summaries_eq]
      conv_rhs => rw [List.filterMap_eq_flatMap_toList]
      refine List.flatMap_congr fun i _ => ?_
      cases at_ : old[i]? with
      | none => cases maskable (i + 1) <;> rfl
      | some x =>
        cases named : maskable (i + 1) with
        | none => rfl
        | some cat =>
          have code := maskable_eq_some named
          simp only [summaryOf, Option.bind_some, Option.map_some, Option.getD_some, mem_masked inside, ← code]
          by_cases shown : x.mask = true ∧ x.latch = true ∧ i + 1 ∉ codes
          · obtain ⟨mask, latch, unmasked⟩ := shown
            simp [mask, latch, unmasked]
          · rw [if_neg shown, if_neg fun ⟨unmasked, mask, latch⟩ => shown ⟨mask, latch, unmasked⟩]
            rfl

end Sys2Proof.Machine
end

