-- ==== Sys2Proof/Proofs/Polls.lean ====
section
/-! PROOF. A request for the polls due: what it queues, and the one it sends over a free link. -/

namespace Sys2Proof.Machine

/-! ### The polls taken -/

/-- Whether a request in MONITORING takes a device: it is due, and has no order. -/
def pollTakes (c : Core) (d : Nat) : Bool :=
  ((entryAt c.devices d).any fun v =>
    (v.run.state == .unknown || !v.run.reachable) && v.run.nextPoll.any (reached c.time.now))
    && (orderOf c d).isNone

theorem pollsTaken_eq (c : Core) :
    pollsTaken c = ((List.range 24).filter (pollTakes c)).take (16 - c.orders.length) := by
  unfold pollsTaken
  congr 2
  funext d
  unfold pollTakes
  cases entryAt c.devices d <;> rfl

theorem pollDue_eq {c : Core} (mode : c.mode = .monitoring) (d : Nat) :
    pollDue c d = (entryAt c.devices d).any fun v =>
      (v.run.state == .unknown || !v.run.reachable) && v.run.nextPoll.any (reached c.time.now) := by
  unfold pollDue pollEligible
  cases entryAt c.devices d with
  | none => rfl
  | some v => cases h : v.run.nextPoll <;> simp [mode, h]

theorem pollDue_grants {c : Core} (mode : c.mode = .monitoring) (well : healthy c = true) (d : Nat) :
    (pollDue c d && grants c d) = (pollTakes c d && decide (c.orders.length < 16)) := by
  rw [pollDue_eq mode, grants, pollTakes, well, Bool.true_and, Bool.and_assoc]
  rfl

/-! ### The polls queued -/

/-- A device polled under an order number. -/
def polledAs (s : Settings) (now number : Nat) (v : Device) : Device :=
  { v with run := { v.run with
      nextPoll := some ((now + 1000 * s.pollInterval) % 86400000)
      currentOrder := some number } }

/-- The device entries, those of some devices polled under their numbers. -/
def polledAmong (s : Settings) (now : Nat) (number : Nat → Nat) (ds : List Nat) (n : Nat) (x : Checked Device) :
    Checked Device :=
  { x with content := x.content.map fun v => if n ∈ ds then polledAs s now (number n) v else v }

/-- The QUEUED order of a poll. -/
def pollOrder (number d : Nat) : Order :=
  { number := number, device := d, action := .query, cls := .poll, origin := .none
    state := .queued, resend := false, sends := none, deadline := none, left := false }

/-- The blocks with the polls of devices queued in turn. -/
def pollsFor (s : Settings) (ds : List Nat) (c : Core) : Core :=
  let number := fun d : Nat => (c.orderNumber + 1 + ds.idxOf d) % 256
  { c with
    orderNumber := if ds = [] then c.orderNumber else (c.orderNumber + ds.length) % 256
    orders := c.orders ++ ds.map fun d => pollOrder (number d) d
    devices := mapFrom (polledAmong s c.time.now number ds) 0 c.devices }

theorem pollsQueued_eq (s : Settings) (c : Core) : pollsQueued s c = pollsFor s (pollsTaken c) c := rfl

theorem mapFrom_same {α : Type} {f : Nat → α → α} {l : List α} (h : ∀ n x, l[n]? = some x → f n x = x) :
    mapFrom f 0 l = l := by
  refine List.ext_getElem? fun n => ?_
  rw [getElem?_mapFrom, Nat.zero_add]
  cases at_ : l[n]? with
  | none => rfl
  | some x => rw [Option.map_some, h n x at_]

theorem pollsFor_nil (s : Settings) (c : Core) : pollsFor s [] c = c := by
  have same := mapFrom_same (l := c.devices)
    (f := polledAmong s c.time.now (fun d => (c.orderNumber + 1 + [].idxOf d) % 256) []) fun n x _ => by simp [polledAmong]
  simp only [pollsFor, List.map_nil, List.append_nil, if_true, same]

theorem mapFrom_twice {α : Type} (f g : Nat → α → α) (l : List α) :
    mapFrom g 0 (mapFrom f 0 l) = mapFrom (fun n x => g n (f n x)) 0 l := by
  refine List.ext_getElem? fun n => ?_
  simp only [getElem?_mapFrom, Option.map_map]
  rfl

theorem core_queue_congr {c : Core} {number number' : Nat} {orders orders' : List Order}
    {devices devices' : List (Checked Device)} (h : number = number') (g : orders = orders') (k : devices = devices') :
    ({ c with orderNumber := number, orders := orders, devices := devices } : Core)
      = { c with orderNumber := number', orders := orders', devices := devices' } := by
  subst h g k
  rfl

/-- Polls queued in turn are the first queued, and then the rest. -/
theorem pollsFor_cons (s : Settings) {d : Nat} {ds : List Nat} (once : d ∉ ds) (c : Core) :
    pollsFor s (d :: ds) c = pollsFor s ds (pollsFor s [d] c) := by
  have number : ∀ n ∈ ds, (c.orderNumber + 1 + (d :: ds).idxOf n) % 256
      = ((c.orderNumber + 1) % 256 + 1 + ds.idxOf n) % 256 := by
    intro n mem
    have other : d ≠ n := fun same => once (same ▸ mem)
    rw [List.idxOf_cons_ne _ other]
    omega
  have first : (c.orderNumber + 1 + (d :: ds).idxOf d) % 256 = (c.orderNumber + 1 + [d].idxOf d) % 256 := by
    rw [List.idxOf_cons_self, List.idxOf_cons_self]
  have orders : (d :: ds).map (fun n => pollOrder ((c.orderNumber + 1 + (d :: ds).idxOf n) % 256) n)
      = pollOrder ((c.orderNumber + 1 + [d].idxOf d) % 256) d
        :: ds.map fun n => pollOrder (((c.orderNumber + 1) % 256 + 1 + ds.idxOf n) % 256) n := by
    rw [List.map_cons, first]
    exact congrArg _ (List.map_congr_left fun n mem => by rw [number n mem])
  have last : (c.orderNumber + (d :: ds).length) % 256
      = if ds = [] then (c.orderNumber + 1) % 256 else ((c.orderNumber + 1) % 256 + ds.length) % 256 := by
    cases ds with
    | nil => rfl
    | cons e es => simp; omega
  refine core_queue_congr last ?_ ?_
  · rw [orders]
    exact List.append_cons _ _ _
  · refine Eq.trans ?_ (mapFrom_twice _ _ _).symm
    congr 1
    funext n x
    simp only [polledAmong]
    rw [Option.map_map]
    congr 2
    funext v
    by_cases same : n = d
    · subst same
      simp [once]
    · have inSingle : n ∉ [d] := by simpa using same
      by_cases mem : n ∈ ds
      · rw [if_pos (List.mem_cons_of_mem d mem)]
        simp only [Function.comp, if_neg inSingle, if_pos mem, number n mem]
        rfl
      · have outside : n ∉ d :: ds := by simp [same, mem]
        simp only [Function.comp, if_neg outside, if_neg inSingle, if_neg mem]

theorem pollsFor_one (s : Settings) (d : Nat) (c : Core) :
    pollsFor s [d] c = { c with
      orderNumber := (c.orderNumber + 1) % 256
      orders := c.orders ++ [pollOrder ((c.orderNumber + 1) % 256) d]
      devices := mapFrom (polledAmong s c.time.now (fun _ => (c.orderNumber + 1) % 256) [d]) 0 c.devices } := by
  refine core_queue_congr rfl ?_ ?_
  · simp
  · congr 1
    funext m x
    simp only [polledAmong]
    congr 2
    funext v
    by_cases mem : m ∈ [d]
    · obtain rfl : m = d := by simpa using mem
      simp
    · rw [if_neg mem, if_neg mem]

/-- Polling leaves the entries matching that matched. -/
theorem sound_polledAmong {s : Settings} {now : Nat} {number : Nat → Nat} {ds : List Nat} {l : List (Checked Device)}
    (sound : Sound l) : Sound (mapFrom (polledAmong s now number ds) 0 l) := by
  intro n
  have bad := sound n
  unfold badAt at bad ⊢
  rw [getElem?_mapFrom, Nat.zero_add]
  cases at_ : l[n]? with
  | none => rfl
  | some x =>
    rw [at_] at bad
    exact bad

theorem entryAt_polledAmong {s : Settings} {now : Nat} {number : Nat → Nat} {ds : List Nat} {n : Nat}
    (other : n ∉ ds) (l : List (Checked Device)) :
    entryAt (mapFrom (polledAmong s now number ds) 0 l) n = entryAt l n := by
  unfold entryAt
  rw [getElem?_mapFrom, Nat.zero_add]
  cases l[n]? with
  | none => rfl
  | some x => simp [polledAmong, other]

theorem entryAt_polledAmong_mem {s : Settings} {now : Nat} {number : Nat → Nat} {ds : List Nat} {n : Nat} {v : Device}
    (mem : n ∈ ds) {l : List (Checked Device)} (hv : entryAt l n = some v) :
    entryAt (mapFrom (polledAmong s now number ds) 0 l) n = some (polledAs s now (number n) v) := by
  unfold entryAt at hv ⊢
  rw [getElem?_mapFrom, Nat.zero_add]
  cases at_ : l[n]? with
  | none => simp [at_] at hv
  | some x =>
    have content : x.content = some v := by simpa [at_] using hv
    simp [polledAmong, content, mem]

/-- A poll queued for one device is not taken for another. -/
theorem pollTakes_pollsFor (s : Settings) {d n : Nat} (other : n ≠ d) (c : Core) :
    pollTakes (pollsFor s [d] c) n = pollTakes c n := by
  have order : orderOf (pollsFor s [d] c) n = orderOf c n := by
    rw [pollsFor_one]
    simp only [orderOf, List.find?_append]
    cases c.orders.find? fun o => o.device == n with
    | some o => rfl
    | none => simp [pollOrder, Ne.symm other]
  have entry : entryAt (pollsFor s [d] c).devices n = entryAt c.devices n :=
    entryAt_polledAmong (by simpa using other) c.devices
  rw [pollTakes, pollTakes, order, entry]
  rfl

/-! ### One request -/

section
variable {env : Env} {d : Nat} {e : Ev} (mode : e.mode = .monitoring) (well : healthy e.toCore = true)
include mode well

theorem requestPoll_passed (passed : pollTakes e.toCore d = false ∨ 16 ≤ e.orders.length) :
    requestPoll env d e = e := by
  have none_ : (pollDue e.toCore d && grants e.toCore d) = false := by
    rw [pollDue_grants mode well, Bool.and_eq_false_iff, decide_eq_false_iff_not, Nat.not_lt]
    exact passed
  rw [requestPoll, none_]
  rfl

omit mode well in
/-- An entry of a table whose entries match is changed where it stands. -/
theorem updateAt_eq_mapFrom {α : Type} {l : List (Checked α)} {n : Nat} {v : α} (g : α → α) (sound : Sound l)
    (hv : entryAt l n = some v) :
    updateAt l n g
      = mapFrom (fun m x => { x with content := x.content.map fun v => if m ∈ [n] then g v else v }) 0 l := by
  rw [updateAt_sound g hv (sound n)]
  refine List.ext_getElem? fun m => ?_
  rw [getElem?_mapFrom, Nat.zero_add, putAt, List.getElem?_set]
  by_cases same : n = m
  · subst same
    rw [if_pos rfl, if_pos (entryAt_lt hv), badAt_check hv (sound n)]
    simp
  · rw [if_neg same]
    have other : m ∉ [n] := by simpa using fun h => same h.symm
    cases l[m]? with
    | none => rfl
    | some x => simp only [if_neg other, Option.map_some, Option.map_id']

omit mode well in
theorem updateAt_twice {α : Type} {l : List (Checked α)} {n : Nat} {v : α} (f g : α → α) (sound : badAt l n = false)
    (hv : entryAt l n = some v) : updateAt (updateAt l n f) n g = updateAt l n (g ∘ f) := by
  have written : entryAt (putAt l n (some (f v))) n = some (f v) := by
    rw [entryAt_putAt _ _ _ _ (entryAt_lt hv), if_pos rfl]
  have good : badAt (putAt l n (some (f v))) n = false := by
    rw [badAt_putAt, if_pos rfl]
  rw [updateAt_sound f hv sound, updateAt_sound g written good, putAt_putAt, updateAt_sound _ hv sound]
  rfl

/-- A request that is taken queues its order, which the arbiter then sees. -/
theorem requestPoll_taken (takes : pollTakes e.toCore d = true) (room : e.orders.length < 16)
    (sound : Sound e.devices) :
    requestPoll env d e = arbitrate env { e with toCore := pollsFor env.settings [d] e.toCore } := by
  have granted : (pollDue e.toCore d && grants e.toCore d) = true := by
    rw [pollDue_grants mode well, takes, decide_eq_true room]
    rfl
  obtain ⟨v, hv⟩ : ∃ v, entryAt e.devices d = some v := by
    cases hv : entryAt e.devices d with
    | none => simp [pollTakes, hv] at takes
    | some v => exact ⟨v, rfl⟩
  have devices := (updateAt_twice (fun v : Device => { v with run := { v.run with
      nextPoll := some (addTime e.time.now (1000 * env.settings.pollInterval)) } })
    (fun v => { v with run := { v.run with currentOrder := some ((e.orderNumber + 1) % 256) } })
    (sound d) hv).trans (updateAt_eq_mapFrom _ sound hv)
  rw [requestPoll, granted, sound d]
  simp only [if_true, Bool.false_eq_true, if_false, queueOrder, setRun, devices]
  rw [pollsFor_one]
  rfl

end

/-! ### The requests of an event -/

/-- The devices of a list that a request takes, while the queue has room. -/
def takenFrom (c : Core) (l : List Nat) : List Nat := (l.filter (pollTakes c)).take (16 - c.orders.length)

theorem takenFrom_full {c : Core} (full : 16 ≤ c.orders.length) (l : List Nat) : takenFrom c l = [] := by
  rw [takenFrom, Nat.sub_eq_zero_of_le full, List.take_zero]

theorem takenFrom_passed {c : Core} {d : Nat} {l : List Nat} (passed : pollTakes c d = false ∨ 16 ≤ c.orders.length) :
    takenFrom c (d :: l) = takenFrom c l := by
  obtain idle | full := passed
  · rw [takenFrom, List.filter_cons, idle]
    rfl
  · rw [takenFrom_full full, takenFrom_full full]

theorem takenFrom_taken (s : Settings) {c : Core} {d : Nat} {l : List Nat} (fresh : d ∉ l)
    (takes : pollTakes c d = true) (room : c.orders.length < 16) :
    takenFrom c (d :: l) = d :: takenFrom (pollsFor s [d] c) l := by
  have rest : l.filter (pollTakes (pollsFor s [d] c)) = l.filter (pollTakes c) :=
    List.filter_congr fun n mem => pollTakes_pollsFor s (fun same : n = d => fresh (same ▸ mem)) c
  have length : (pollsFor s [d] c).orders.length = c.orders.length + 1 := by
    rw [pollsFor_one, List.length_append]
    rfl
  rw [takenFrom, takenFrom, rest, length, List.filter_cons_of_pos takes,
    show 16 - c.orders.length = (16 - (c.orders.length + 1)) + 1 by omega, List.take_succ_cons]

theorem orderOf_isNone_iff (c : Core) (d : Nat) : (orderOf c d).isNone = true ↔ d ∉ c.orders.map (·.device) := by
  simp [orderOf]

/-- What a request takes depends on the devices with an order, not on the state of the orders. -/
theorem takenFrom_congr {c c' : Core} (devices : c'.devices = c.devices) (time : c'.time = c.time)
    (orders : c'.orders.map (·.device) = c.orders.map (·.device)) (l : List Nat) : takenFrom c' l = takenFrom c l := by
  have same : pollTakes c' = pollTakes c := by
    funext d
    have order : (orderOf c' d).isNone = (orderOf c d).isNone := by
      rw [Bool.eq_iff_iff, orderOf_isNone_iff, orderOf_isNone_iff, orders]
    rw [pollTakes, pollTakes, devices, time, order]
  have length : c'.orders.length = c.orders.length := by
    simpa using congrArg List.length orders
  rw [takenFrom, takenFrom, same, length]

theorem notMem_takenFrom {c : Core} {d : Nat} {l : List Nat} (fresh : d ∉ l) : d ∉ takenFrom c l := fun mem =>
  fresh (List.mem_of_mem_filter (List.mem_of_mem_take mem))

/-- A request is taken or passed over. -/
theorem taken_or_passed (c : Core) (d : Nat) :
    (pollTakes c d = true ∧ c.orders.length < 16) ∨ (pollTakes c d = false ∨ 16 ≤ c.orders.length) := by
  cases pollTakes c d <;> simp
  omega

/-- A busy link leaves the polls queued. -/
theorem foldl_requestPoll_busy {env : Env} (l : List Nat) (once : l.Nodup) {e : Ev} (mode : e.mode = .monitoring)
    (well : healthy e.toCore = true) (sound : Sound e.devices) (busy : e.linkTx.isSome = true) :
    l.foldl (fun e d => requestPoll env d e) e
      = { e with toCore := pollsFor env.settings (takenFrom e.toCore l) e.toCore } := by
  induction l generalizing e with
  | nil => rw [takenFrom, List.filter_nil, List.take_nil, pollsFor_nil]; rfl
  | cons d l ih =>
    obtain ⟨fresh, once⟩ := List.nodup_cons.1 once
    rw [List.foldl_cons]
    obtain ⟨takes, room⟩ | passed := taken_or_passed e.toCore d
    · rw [requestPoll_taken mode well takes room sound, arbitrate_busy env (by exact busy),
        ih once (by exact mode) (by exact well) (by exact sound_polledAmong sound) (by exact busy),
        takenFrom_taken env.settings fresh takes room, pollsFor_cons _ (notMem_takenFrom fresh)]
    · rw [requestPoll_passed mode well passed, ih once mode well sound busy, takenFrom_passed passed]

/-- A free link with no order takes the first. -/
theorem arbitrate_first {env : Env} {e : Ev} {o : Order} {v : Device} (free : e.linkTx = none) (only : e.orders = [o])
    (waits : o.state = .queued) (unleft : o.left = false) (mode : e.mode ≠ .halted)
    (hv : entryAt e.devices o.device = some v) (sound : badAt e.devices o.device = false) :
    arbitrate env e = sendOrder env o v.link e := by
  have candidate : isCandidate e.toCore o = true := by simp [isCandidate, unleft, waits, mode]
  have chosen : chooseOrder e.toCore = some o := by
    cases cls : o.cls <;> simp [chooseOrder, oldestOf, only, candidate, cls]
  unfold arbitrate Config.orders arbitrateFrom
  simp only [free, Option.isSome_none, Bool.false_eq_true, if_false, chosen, sound, hv]

/-- What a request for the polls of the devices of a list leaves, and counts. -/
def asked (s : Settings) (ds : List Nat) (c : Core) : List Emit × Core :=
  match c.linkTx, ds with
  | none, d :: _ =>
    ([deviceCount .ordersSent d],
      { pollsFor s ds c with
        orders := (pollsFor s ds c).orders.map fun o =>
          if o.device = d then
            { o with state := .sent, sends := some 1
                     deadline := some ((c.time.now + s.replyTimeout) % 86400000) }
          else o
        linkTx := (entryAt c.devices d).map fun v =>
          orderFrame v.link ((c.orderNumber + 1) % 256) .query })
  | _, _ => ([], pollsFor s ds c)

theorem pollsRequested_eq (s : Settings) (c : Core) : pollsRequested s c = asked s (takenFrom c (List.range 24)) c := by
  rw [takenFrom, ← pollsTaken_eq]
  rfl

theorem asked_nil (s : Settings) (c : Core) : asked s [] c = ([], c) := by
  unfold asked
  cases c.linkTx <;> rw [pollsFor_nil]

theorem asked_busy (s : Settings) (ds : List Nat) {c : Core} (busy : c.linkTx.isSome = true) :
    asked s ds c = ([], pollsFor s ds c) := by
  obtain ⟨f, h⟩ := Option.isSome_iff_exists.1 busy
  unfold asked
  rw [h]

/-- The blocks with a poll sent over a free link, where no other order stands. -/
def firstSent (s : Settings) (d : Nat) (v : Device) (c : Core) : Core :=
  { pollsFor s [d] c with
    orders := [{ pollOrder ((c.orderNumber + 1) % 256) d with
      state := .sent, sends := some 1, deadline := some ((c.time.now + s.replyTimeout) % 86400000) }]
    linkTx := some (orderFrame v.link ((c.orderNumber + 1) % 256) .query) }

theorem takenFrom_firstSent {s : Settings} {d : Nat} {v : Device} {c : Core} (empty : c.orders = []) (l : List Nat) :
    takenFrom (firstSent s d v c) l = takenFrom (pollsFor s [d] c) l :=
  takenFrom_congr (c' := firstSent s d v c) (c := pollsFor s [d] c) rfl rfl (by rw [pollsFor_one, empty]; rfl) l

/-- Over a free link the first poll is sent, and the rest wait behind it. -/
theorem asked_free (s : Settings) {d : Nat} {ds : List Nat} {c : Core} {v : Device} (free : c.linkTx = none)
    (empty : c.orders = []) (hv : entryAt c.devices d = some v) (once : d ∉ ds) :
    asked s (d :: ds) c = ([deviceCount .ordersSent d], pollsFor s ds (firstSent s d v c)) := by
  have orders : (pollsFor s ds (pollsFor s [d] c)).orders.map (fun o => if o.device = d then
        { o with state := .sent, sends := some 1, deadline := some ((c.time.now + s.replyTimeout) % 86400000) } else o)
      = { pollOrder ((c.orderNumber + 1) % 256) d with
          state := .sent, sends := some 1, deadline := some ((c.time.now + s.replyTimeout) % 86400000) }
        :: ds.map fun n => pollOrder (((c.orderNumber + 1) % 256 + 1 + ds.idxOf n) % 256) n := by
    have others : ∀ n ∈ ds, n ≠ d := fun n mem same => once (same ▸ mem)
    rw [pollsFor_one]
    simp only [pollsFor, empty, List.nil_append, List.map_cons, List.map_map, List.cons_append]
    exact List.cons_eq_cons.2 ⟨if_pos rfl, List.map_congr_left fun n mem => if_neg (others n mem)⟩
  unfold asked
  simp only [free, pollsFor_cons s once]
  rw [orders, hv, firstSent, pollsFor_one]
  rfl

/-- The requests over a link that is busy, or without an order in the queue. -/
theorem foldl_requestPoll {env : Env} (l : List Nat) (once : l.Nodup) {e : Ev} (mode : e.mode = .monitoring)
    (well : healthy e.toCore = true) (sound : Sound e.devices) (link : e.linkTx.isSome = true ∨ e.orders = []) :
    l.foldl (fun e d => requestPoll env d e) e = { e with
      toCore := (asked env.settings (takenFrom e.toCore l) e.toCore).2
      out := e.out ++ (asked env.settings (takenFrom e.toCore l) e.toCore).1 } := by
  by_cases busy : e.linkTx.isSome = true
  · rw [foldl_requestPoll_busy l once mode well sound busy, asked_busy _ _ busy, List.append_nil]
  · have empty := link.resolve_left busy
    have free : e.linkTx = none := by simpa using busy
    have room : e.orders.length < 16 := by rw [empty]; decide
    induction l with
    | nil => 
      rw [takenFrom, List.filter_nil, List.take_nil, asked_nil, List.append_nil]
      rfl
    | cons d l ih =>
      obtain ⟨fresh, once⟩ := List.nodup_cons.1 once
      rw [List.foldl_cons]
      by_cases takes : pollTakes e.toCore d = true
      · obtain ⟨v, hv⟩ : ∃ v, entryAt e.devices d = some v := by
          cases hv : entryAt e.devices d with
          | none => simp [pollTakes, hv] at takes
          | some v => exact ⟨v, rfl⟩
        rw [requestPoll_taken mode well takes room sound, takenFrom_taken env.settings fresh takes room,
          asked_free _ free empty hv (notMem_takenFrom fresh)]
        have first : arbitrate env { e with toCore := pollsFor env.settings [d] e.toCore }
            = { e with
                toCore := firstSent env.settings d v e.toCore, out := e.out ++ [deviceCount .ordersSent d] } := by
          have entry : entryAt (pollsFor env.settings [d] e.toCore).devices d
              = some (polledAs env.settings e.time.now ((e.orderNumber + 1) % 256) v) := by
            rw [pollsFor_one]
            exact entryAt_polledAmong_mem List.mem_cons_self hv
          rw [arbitrate_first (o := pollOrder ((e.orderNumber + 1) % 256) d) (by exact free)
            (by rw [pollsFor_one, empty]; rfl) rfl rfl (by rw [pollsFor_one, mode]; exact fun h => nomatch h) entry
            (sound_polledAmong sound d), firstSent, pollsFor_one]
          simp [sendOrder, setOrder, empty, pollOrder, countDevice, occur, deviceCount, polledAs, addTime, Config.day]
        rw [first, foldl_requestPoll_busy l once (by exact mode) (by exact well) (by exact sound_polledAmong sound) rfl,
          takenFrom_firstSent empty]
      · rw [requestPoll_passed mode well (.inl (by simpa using takes)), ih once,
          takenFrom_passed (.inl (by simpa using takes))]

/-! ### The request for the polls due (R148) -/

/-- A request for the polls due, in MONITORING with the device entries matching. -/
theorem requestPolls_eq {env : Env} {e : Ev} (mode : e.mode = .monitoring) (well : healthy e.toCore = true)
    (sound : Sound e.devices) (link : e.linkTx.isSome = true ∨ e.orders = []) :
    requestPolls env e = { e with
      toCore := (pollsRequested env.settings e.toCore).2
      out := e.out ++ (pollsRequested env.settings e.toCore).1 } := by
  rw [pollsRequested_eq]
  by_cases room : e.orders.length < 16
  · rw [requestPolls_sound env e mode well room sound]
    exact foldl_requestPoll _ List.nodup_range mode well sound link
  · rw [requestPolls_full env e (Nat.not_lt.1 room), takenFrom_full (Nat.not_lt.1 room), asked_nil, List.append_nil]

theorem sound_mapContents {α : Type} (f : α → α) {l : List (Checked α)} (sound : Sound l) : Sound (mapContents f l) := by
  intro n
  have bad := sound n
  unfold badAt at bad ⊢
  rw [mapContents, List.getElem?_map]
  cases at_ : l[n]? with
  | none => rfl
  | some x =>
    rw [at_] at bad
    exact bad

/-- On entering MONITORING the devices that are UNKNOWN or unreachable fall due, and are polled. -/
theorem settle_beginPolling {env : Env} {e : Ev} (mode : e.mode = .monitoring) (calm : e.recovery.recovering = false)
    (sound : Sound e.devices) (link : e.linkTx.isSome = true ∨ e.orders = []) (idle : e.todo = []) :
    settle env (beginPolling e) = { e with
      toCore := (pollsBegun env.settings e.toCore).2
      out := e.out ++ (pollsBegun env.settings e.toCore).1 } := by
  have well : healthy e.toCore = true := (healthy_iff e.toCore).2 ⟨by simp [mode], calm⟩
  have due : (fun v : Device => if pollEligible e.toCore v then
        { v with run := { v.run with nextPoll := some e.time.now } } else v)
      = fun v => if v.run.state = .unknown ∨ v.run.reachable = false then
        { v with run := { v.run with nextPoll := some e.time.now } } else v := by
    funext v
    simp only [pollEligible, mode, beq_self_eq_true, Bool.true_and, Bool.or_eq_true, beq_iff_eq, Bool.not_eq_true']
  have started : startPolls e = { e with devices := mapContents (fun v =>
      if v.run.state = .unknown ∨ v.run.reachable = false then
        { v with run := { v.run with nextPoll := some e.time.now } } else v) e.devices } := by
    rw [startPolls, due]
  have begun : pollsRequested env.settings (startPolls e).toCore = pollsBegun env.settings e.toCore :=
    congrArg (pollsRequested env.settings) (congrArg Ev.toCore started)
  have cleared : { beginPolling e with todo := [] } = startPolls e := by
    simp [beginPolling, later, startPolls, idle]
  have polled : doWork env .polls (startPolls e) = { e with
      toCore := (pollsBegun env.settings e.toCore).2
      out := e.out ++ (pollsBegun env.settings e.toCore).1 } := by
    rw [← begun]
    exact requestPolls_eq (env := env) (e := startPolls e) mode well (sound_mapContents _ sound) link
  rw [settle_cons env .polls [] (beginPolling e) (by simp [beginPolling, later, startPolls, idle]), cleared, polled]
  simp only [idle, List.append_nil, runWork_nil]

end Sys2Proof.Machine
end

