-- ==== Sys2Proof/Proofs/StartUps.lean ====
section
/-! PROOF. Power-on, start-up and restart. -/

namespace Sys2Proof.Machine

/-! ### What start-up leaves (R215) -/

/-- A part from which start-up goes on for a state, with the options it has taken. -/
structure StartsFrom (taken : OptionsRecord) (s : State) (p : Part) : Prop where
  record : p.core.record = s.part.core.record
  linkTx : p.core.linkTx = s.part.core.linkTx
  elapsed : p.core.time.elapsed = s.part.core.time.elapsed
  store : p.store = s.part.store
  options : p.options = s.part.options
  inForce : p.inForce = taken
  save : p.save = none
  burning : p.burning = false
  counters : p.counters = s.part.counters

theorem sound_writeTable {α : Type} (l : List (Option α)) : Sound (writeTable l) := by
  refine sound_of _ (List.all_eq_true.2 fun x mem => ?_)
  obtain ⟨y, -, rfl⟩ := List.mem_map.1 mem
  rfl

/-- The blocks as start-up leaves them, before any poll. -/
def startCore (p : Part) : Core := (startedPart p).core

theorem startMode_cases (o : Options) (valid : Bool) (c : Core) :
    startMode o valid c = .configuring ∨ startMode o valid c = .monitoring := by
  unfold startMode
  split
  · exact .inl rfl
  · split
    · exact .inr rfl
    · exact .inl rfl

theorem loadTables_rest (st : Store) (c : Core) : loadTables st c = { c with
    segments := (loadTables st c).segments, roster := (loadTables st c).roster
    devices := (loadTables st c).devices, plans := (loadTables st c).plans
    stepsInUse := (loadTables st c).stepsInUse } := by
  unfold loadTables
  split <;> rfl

/-- Start-up clears the blocks but for the tables and the mode. -/
theorem startCore_eq (p : Part) : startCore p = { clearedCore p.core with
    segments := (startCore p).segments, roster := (startCore p).roster, devices := (startCore p).devices
    plans := (startCore p).plans, stepsInUse := (startCore p).stepsInUse, mode := (startCore p).mode } := by
  have rest := loadTables_rest { p.store with valid := p.store.valid && p.store.codeMatches } (clearedCore p.core)
  show ({ loadTables { p.store with valid := p.store.valid && p.store.codeMatches } (clearedCore p.core) with
    mode := (startCore p).mode } : Core) = _
  rw [rest]
  rfl

theorem startCore_sound (p : Part) : AllSound (startCore p) := by
  have tables : Sound (startCore p).segments ∧ Sound (startCore p).roster ∧ Sound (startCore p).devices
      ∧ Sound (startCore p).plans := by
    show Sound (loadTables _ _).segments ∧ Sound (loadTables _ _).roster ∧ Sound (loadTables _ _).devices
      ∧ Sound (loadTables _ _).plans
    unfold loadTables
    split
    · exact ⟨sound_writeTable _, sound_writeTable _, sound_writeTable _, sound_writeTable _⟩
    · exact ⟨emptyTable_sound _ _, emptyTable_sound _ _, emptyTable_sound _ _, emptyTable_sound _ _⟩
  obtain ⟨segments, roster, devices, plans⟩ := tables
  refine ⟨segments, roster, devices, plans, ?_⟩
  rw [startCore_eq]
  exact emptyTable_sound _ _

/-- Without a valid store the tables are empty. -/
theorem startCore_invalid {p : Part} (invalid : (p.store.valid && p.store.codeMatches) = false) :
    (startCore p).mode = .configuring ∧ (startCore p).stepsInUse = 0
      ∧ (∀ n, entryAt (startCore p).segments n = none) ∧ (∀ n, entryAt (startCore p).roster n = none)
      ∧ (∀ n, entryAt (startCore p).devices n = none) ∧ ∀ n, entryAt (startCore p).plans n = none := by
  simp only [startCore, startedPart, loadTables, invalid, Bool.false_eq_true, if_false]
  refine ⟨by simp [startMode], trivial, emptyTable_undefined _ _, emptyTable_undefined _ _, emptyTable_undefined _ _,
    emptyTable_undefined _ _⟩

theorem loadDevice_eq : loadDevice = fun d =>
    { link := d.link, kind := d.kind, segment := d.segment
      run := { state := .unknown, reachable := true, settleUntil := none, currentOrder := none
               lastRefusal := none, nextPoll := none } } := rfl

/-- With a valid store the tables are those of its image, and pass the checks or leave the mode CONFIGURING. -/
theorem startCore_valid {p : Part} (valid : (p.store.valid && p.store.codeMatches) = true) :
    (startCore p).segments = p.store.image.segments.map (fun x => { content := x, check := 0 })
      ∧ (startCore p).plans = p.store.image.plans.map (fun x => { content := x, check := 0 })
      ∧ (startCore p).stepsInUse = (p.store.image.plans.map fun x => (x.map (·.steps.length)).getD 0).sum
      ∧ (startCore p).roster = p.store.image.roster.map (fun x =>
          { content := x.map fun b =>
              { address := b.address, segment := b.segment, side := b.side, phases := b.phases
                state := .waiting, lastSequence := none, lastHeard := 0 }
            check := 0 })
      ∧ (startCore p).devices = p.store.image.devices.map (fun x =>
          { content := x.map fun d =>
              { link := d.link, kind := d.kind, segment := d.segment
                run := { state := .unknown, reachable := true, settleUntil := none, currentOrder := none
                         lastRefusal := none, nextPoll := none } }
            check := 0 }) := by
  simp only [startCore, startedPart, loadTables, valid, if_true, writeTable, stepsUsed, List.map_map]
  exact ⟨trivial, trivial, rfl, rfl, rfl⟩

theorem startMode_quiet {o : Options} (quiet : o.quietStart = true) (valid : Bool) (c : Core) :
    startMode o valid c = .configuring := by
  simp [startMode, quiet]

theorem startMode_valid {o : Options} (loud : o.quietStart = false) (c : Core) :
    startMode o true c = .monitoring ↔ validation c = none := by
  cases h : validation c <;> simp [startMode, loud, h]

/-- Outside MONITORING no device falls due. -/
theorem startPolls_elsewhere {e : Ev} (mode : e.mode = .configuring) : startPolls e = e := by
  have unmoved : (fun v : Device => if pollEligible e.toCore v then
      { v with run := { v.run with nextPoll := some e.time.now } } else v) = id := by
    funext v
    simp [pollEligible, mode]
  have same : mapContents (id : Device → Device) e.devices = e.devices := by simp [mapContents]
  rw [startPolls, unmoved, same]

theorem beginPolling_configuring {env : Env} {c : Core} (mode : c.mode = .configuring) :
    settle env (beginPolling (startEvent c)) = startEvent c := by
  rw [beginPolling, startPolls_elsewhere mode, settle_cons env .polls [] _ rfl]
  have quiet : doWork env .polls { later [.polls] (startEvent c) with todo := [] } = startEvent c :=
    requestPolls_elsewhere env _ (by simp [later, mode])
  rw [quiet]
  rfl

theorem pollsBegun_time (s : Settings) (c : Core) : (pollsBegun s c).2.time = c.time := by
  unfold pollsBegun
  rw [pollsRequested_eq]
  unfold asked
  split <;> rfl

theorem finishStart_eq (p : Part) : finishStart p = { startedPart p with
    core := (settle (envOf (startedPart p)) (beginPolling (startEvent (startCore p)))).toCore
    counters := (emissions (settle (envOf (startedPart p)) (beginPolling (startEvent (startCore p)))).time.now
      (settle (envOf (startedPart p)) (beginPolling (startEvent (startCore p)))).out p.counters).1 } := rfl

theorem startedAs_finishStart {taken : OptionsRecord} {s : State} {p : Part} (h : StartsFrom taken s p) :
    StartedAs taken s (ended (finishStart p) s) := by
  obtain ⟨record, linkTx, elapsed, store, options, inForce, save, burning, counters⟩ := h
  have field := fun {α : Type} (f : Core → α) => congrArg f (startCore_eq p)
  unfold StartedAs
  rw [← record, ← linkTx, ← elapsed, ← store, ← options, ← counters, ← inForce]
  intro valid img
  refine ⟨startCore p, rfl, finish_run _, finish_options _, finish_inForce _,
    finish_staged _, (finish_save _).trans save, (finish_burning _).trans burning, finish_store _,
    finish_nextSample _, fun mode => ?_, fun mode => ?_, ?time, fun n => (field fun c => entryAt c.cases n).trans (emptyTable_undefined _ _ n),
    field Core.serial, field Core.counted, field Core.opened, field Core.orders, field Core.orderNumber,
    field Core.items, field Core.intake, field Core.deferred, field Core.walks, field Core.room, field Core.discovery,
    field Core.held, field Core.fieldRx, field Core.deviceRx,
    fun r mem => (List.mem_replicate.1 (field Core.reservations ▸ mem)).2,
    fun r mem => (List.mem_replicate.1 (field Core.holds ▸ mem)).2,
    field Core.record, field Core.window, field Core.recovery, field Core.linkTx, field Core.supervision,
    startMode_cases _ _ _, fun invalid => ?_, fun isValid => ?_⟩
  case time => exact (field Core.time).trans rfl
  · have settled := beginPolling_configuring (env := envOf (startedPart p)) mode
    refine ⟨(finish_core _).trans ?_, (finish_counters _).trans ?_⟩
    · rw [finishStart_eq, settled]
      rfl
    · rw [finishStart_eq, settled]
      rfl
  · have settled := settle_beginPolling (env := envOf (startedPart p)) (e := startEvent (startCore p)) mode
      (congrArg Recovery.recovering (field Core.recovery)) (startCore_sound p).2.2.1 (.inr (field Core.orders)) rfl
    have settings : (ended (finishStart p) s).part.settings = (startedPart p).settings := finish_settings _
    rw [settings]
    refine ⟨(finish_core _).trans ?_, (finish_counters _).trans ?_⟩
    · rw [finishStart_eq, settled]
      rfl
    · rw [finishStart_eq, settled]
      simp only [pollsBegun_time, startEvent_out, List.nil_append, startEvent_core, field Core.time]
      rfl
  · exact ⟨(finish_settings _).trans (if_neg (fun isValid => Bool.false_ne_true (invalid.symm.trans isValid))), startCore_invalid invalid⟩
  · obtain ⟨segments, plans, steps, roster, devices⟩ := startCore_valid isValid
    refine ⟨segments, plans, steps, roster, devices, startCore_sound p, (finish_settings _).trans (if_pos isValid),
      fun quiet => startMode_quiet quiet _ _, fun loud => ?_⟩
    have chosen := startMode_valid loud
      (loadTables { p.store with valid := p.store.valid && p.store.codeMatches } (clearedCore p.core))
    rw [← isValid] at chosen
    exact chosen

/-! ### POWER_ON and START_UP -/

theorem exec_startUp (s : State) : exec .startUp s = execStartUp s := rfl
theorem exec_restartBegin (s : State) : exec .restartBegin s = execRestartBegin s := rfl
theorem exec_burnCompletion (written : Bool) (s : State) :
    exec (.burnCompletion written) s = execBurnCompletion written s := rfl

theorem powerOn_left (p : Part) :
    (powerOn p).run = .resetAsserted ∧ (powerOn p).save = none ∧ (powerOn p).burning = false
      ∧ (powerOn p).store = (if p.save.isSome then { p.store with codeMatches := false } else p.store)
      ∧ (powerOn p).options = (if p.burning then { burned := false, options := clearOptions } else p.options) := by
  unfold powerOn cutBurn cutSave
  cases saving : p.save <;> cases burning : p.burning <;> simp [saving, burning]

/-- The end of an event while the ports do not send leaves both ports. -/
theorem finish_silent {p : Part} (h : portsSend p = false) (q : Port) : portOf q (finish p) = portOf q p := by
  rw [finish_ports, h]
  rfl

theorem beginStart_eq {p : Part} (burning : p.burning = false) (save : p.save = none) :
    beginStart p = finishStart { p with inForce := p.options } := by
  simp [beginStart, startStore, burning, save]

theorem beginStart_burning {p : Part} (burning : p.burning = true) :
    beginStart p = { p with run := .startingUp .burn } := by
  simp [beginStart, burning]

theorem beginStart_saving {p : Part} (burning : p.burning = false) (saving : p.save.isSome = true) :
    beginStart p = { p with inForce := p.options, run := .startingUp .save } := by
  simp [beginStart, startStore, burning, saving]

/-- A reply made ready changes the ports alone. -/
theorem replyWaiting_rest (op : StoreOp) (code : ReplyCode) (p : Part) : replyWaiting op code p = { p with
    portA := (replyWaiting op code p).portA, portB := (replyWaiting op code p).portB } := rfl

/-- A burn that completes in a start-up that waits for it. -/
theorem completeBurn_starting (written : Bool) {p : Part} (waits : p.run = .startingUp .burn) :
    completeBurn written p = startStore (replyWaiting .burn (storeCode written) { p with
      burning := false
      options := if written then { burned := true, options := p.staged.getD clearOptions }
        else { burned := false, options := clearOptions }
      staged := if written then none else p.staged }) := by
  simp [completeBurn, replyWaiting, waits]

theorem completeSave_starting (written reloadOk : Bool) (img : Image) {p : Part} (waits : p.run = .startingUp .save) :
    completeSave written reloadOk img p = finishStart (replyWaiting .save (storeCode written)
      { p with save := none, store := { image := img, codeMatches := written, valid := written } }) := by
  simp [completeSave, replyWaiting, waits]

theorem completeSave_waitsForBurn (written reloadOk : Bool) (img : Image) {p : Part}
    (waits : p.run = .startingUp .burn) :
    completeSave written reloadOk img p = replyWaiting .save (storeCode written)
      { p with save := none, store := { image := img, codeMatches := written, valid := written } } := by
  simp [completeSave, replyWaiting, waits]

/-- Settles O28: each start-up that need not wait goes on from a part with the record, the store and the options it
takes. -/
theorem powerOnAndStartUp : Obligations.PowerOnAndStartUp := by
  refine ⟨fun s => ?_, fun s asserted burning save => ?_, fun s other => ?_, fun written s burning waits => ?_,
    fun written reloadOk img s saving => ?_, fun op code p none_ => ?_⟩
  · obtain ⟨run, save, burning, store, options⟩ := powerOn_left s.part
    have silent : portsSend (powerOn s.part) = false := by
      unfold portsSend
      rw [run]
    have stopped : serviceHigh (powerOn s.part) = false := by
      unfold serviceHigh blocksRun
      rw [run]
      simp
    refine ⟨_, rfl, rfl, (finish_run _).trans run, (finish_inService _).trans stopped, (finish_save _).trans save,
      (finish_burning _).trans burning, finish_staged _, (finish_store _).trans store, (finish_options _).trans options,
      finish_silent silent .a, finish_silent silent .b, finish_counters _, ?_, ?_⟩
    · exact congrArg Core.record (finish_core _)
    · exact congrArg Core.window (finish_core _)
  · rw [exec_startUp, execStartUp, act_eq, asserted]
    simp only [beginStart_eq burning save]
    exact ⟨_, rfl, startedAs_finishStart ⟨rfl, rfl, rfl, rfl, rfl, rfl, save, burning, rfl⟩⟩
  · rw [exec_startUp, execStartUp, act_eq]
    congr 2
    split
    · rename_i asserted
      exact absurd asserted other
    · rfl
  · intro record burned
    have completes : exec (.burnCompletion written) s
        = .next (ended (startStore (replyWaiting .burn (storeCode written) burned)) s) := by
      rw [exec_burnCompletion, execBurnCompletion, act_eq, if_pos burning, completeBurn_starting written waits]
    refine ⟨fun save => ⟨_, completes, ?_⟩, fun saving => ?_⟩
    · have goesOn : startStore (replyWaiting .burn (storeCode written) burned)
          = finishStart { replyWaiting .burn (storeCode written) burned with inForce := record } := by
        simp [startStore, replyWaiting, burned, record, save]
      rw [goesOn]
      exact startedAs_finishStart ⟨rfl, rfl, rfl, rfl, rfl, rfl, save, rfl, rfl⟩
    · rw [completes]
      congr 2
      simp [startStore, replyWaiting, burned, record, saving, storeCode]
  · intro stored
    refine ⟨fun waits burning => ⟨ended (finishStart (replyWaiting .save (storeCode written) stored)) s, ?_,
      startedAs_finishStart ⟨rfl, rfl, rfl, rfl, rfl, rfl, rfl, burning, rfl⟩⟩, fun waits => ?_⟩
    · rw [exec_saveCompletion, execSaveCompletion, act_eq, saving]
      simp only [completeSave_starting written reloadOk img waits]
      rfl
    · rw [exec_saveCompletion, execSaveCompletion, act_eq, saving]
      simp only [completeSave_waitsForBurn written reloadOk img waits]
      rfl
  · have quiet : ∀ x : PortState, x.waiting = [] → readyWaiting op code x = x := fun x h =>
      readyWaiting_none code (by simp [h])
    have portA : readyWaiting op code p.portA = p.portA := quiet _ (none_ .a)
    have portB : readyWaiting op code p.portB = p.portB := quiet _ (none_ .b)
    rw [replyWaiting, portA, portB]

/-! ### RESTART (R199) -/

theorem isRestartReply_iff (f : PortFrame) :
    isRestartReply f = true ↔ ∃ r, f = .reply r ∧ r.kind = 0x84 ∧ r.code = .accepted := by
  cases f <;> simp [isRestartReply]

theorem exec_portTransmitEnd (q : Port) (s : State) : exec (.portTransmitEnd q) s = .next (ended (endFrame q s.part) s) :=
  rfl

theorem endFrame_idle {q : Port} {p : Part} (h : (portOf q p).tx = none) : endFrame q p = p := by
  rw [endFrame, h]

theorem endFrame_busy {q : Port} {p : Part} {f : PortFrame} (h : (portOf q p).tx = some f) :
    endFrame q p = if p.run = .restartTaken ∧ isRestartReply f = true then
        { setPort q (fun x => { x with tx := none }) p with run := .restartDue }
      else setPort q (fun x => { x with tx := none }) p := by
  rw [endFrame, h]
  simp only [setPort_run]
  cases run : p.run <;> simp

theorem beginStart_ports {p : Part} (q : Port) (burning : p.burning = false) (save : p.save = none) :
    portOf q (beginStart p) = portOf q p := by
  rw [beginStart_eq burning save]
  cases q <;> rfl

/-- A port whose queues are empty sends nothing more at the end of an event. -/
theorem finish_quiet {q : Port} {p : Part} (ready : (portOf q p).ready = []) (notices : (portOf q p).notices = []) :
    portOf q (finish p) = portOf q p := by
  rw [finish_ports]
  split
  · cases tx : (portOf q p).tx with
    | some f => exact pump_busy tx
    | none => exact pump_idle tx ready notices
  · rfl

/-- The part as a restart finds it begun: both ports as after power-on, but for a frame being sent, and Port A PRESENT. -/
def restarted (p : Part) : Part :=
  { p with
    portA := { PortState.powerOn with tx := p.portA.tx }
    portB := { PortState.powerOn with tx := p.portB.tx }
    core := { p.core with supervision := { p.core.supervision with absent := false } } }

theorem exec_restartBegin_due {s : State} (due : s.part.run = .restartDue) :
    exec .restartBegin s = .next (ended (beginStart (restarted s.part)) s) := by
  rw [exec_restartBegin, execRestartBegin, act_eq, due]
  rfl

/-- Settles O27: the frame's end and the start of the restart each read the run state, and start-up goes on from the
part it leaves. -/
theorem restartSequence : Obligations.RestartSequence := by
  refine ⟨fun tag s taken => ?_, fun q s idle => ?_, fun q f s busy => ⟨fun taken reply => ?_, fun other => ?_⟩,
    fun s => ⟨fun due burning save => ?_, fun due burning => ?_, fun due burning saving => ?_, fun other => ?_⟩⟩
  · exact exec_replied rfl taken rfl
  · rw [exec_portTransmitEnd, endFrame_idle idle]
  · rw [exec_portTransmitEnd, endFrame_busy busy, if_pos ⟨taken, (isRestartReply_iff f).2 reply⟩]
  · rw [exec_portTransmitEnd, endFrame_busy busy, if_neg]
    rintro ⟨taken, reply⟩
    exact other.elim (fun h => h taken) fun h => h ((isRestartReply_iff f).1 reply)
  · have burning' : (restarted s.part).burning = false := burning
    have save' : (restarted s.part).save = none := save
    refine ⟨_, exec_restartBegin_due due, ?_, fun q => ?_⟩
    · rw [beginStart_eq burning' save']
      exact startedAs_finishStart ⟨rfl, rfl, rfl, rfl, rfl, rfl, save, burning, rfl⟩
    · have port := beginStart_ports q burning' save'
      have left : portOf q (restarted s.part) = { PortState.powerOn with tx := (portOf q s.part).tx } := by
        cases q <;> rfl
      refine (finish_quiet ?_ ?_).trans (port.trans left)
      · rw [port, left]
        rfl
      · rw [port, left]
        rfl
  · rw [exec_restartBegin_due due, beginStart_burning (p := restarted s.part) burning]
    rfl
  · rw [exec_restartBegin_due due, beginStart_saving (p := restarted s.part) burning saving]
    rfl
  · rw [exec_restartBegin, execRestartBegin, act_eq]
    congr 2
    split
    · rename_i due
      exact absurd due other
    · rfl

end Sys2Proof.Machine
end

