-- ==== Sys2Proof/Proofs/Validation.lean ====
section
/-! PROOF. The checks of a description, and SET_MODE MONITORING. -/

namespace Sys2Proof.Machine

/-! ### Searches -/

theorem entriesWhere_pairwise {α : Type} (l : List (Checked α)) (f : α → Bool) :
    (entriesWhere l f).Pairwise (· < ·) := List.pairwise_lt_range.filter _

/-- A search that gives the least number with a property finds it. -/
theorem finds_least {r : Option Nat} {item : Nat → FailingItem} {P : Nat → Prop} (none_ : r = none → ∀ n, ¬ P n)
    (some_ : ∀ x, r = some x → P x ∧ ∀ y, P y → x ≤ y) : Finds (r.map item) item P := by
  cases r with
  | none => exact ⟨⟨fun _ => none_ rfl, fun _ => rfl⟩, fun n holds _ => absurd holds (none_ rfl n)⟩
  | some x =>
    obtain ⟨holds, least⟩ := some_ x rfl
    refine ⟨⟨fun h => (nomatch h), fun none_ => absurd holds (none_ x)⟩, fun n isP lowest => ?_⟩
    obtain rfl : x = n := Nat.le_antisymm (least n isP) (Nat.not_lt.1 fun lt => lowest x lt holds)
    rfl

theorem finds_head {l : List Nat} {item : Nat → FailingItem} {P : Nat → Prop} (sorted : l.Pairwise (· < ·))
    (mem : ∀ n, n ∈ l ↔ P n) : Finds (l.head?.map item) item P := by
  refine finds_least (fun none_ n holds => ?_) fun x first => ?_
  · rw [List.head?_eq_none_iff] at none_
    subst none_
    cases (mem n).2 holds
  · cases l with
    | nil => cases first
    | cons y ys =>
      obtain rfl : y = x := Option.some.inj first
      refine ⟨(mem y).1 List.mem_cons_self, fun z holds => ?_⟩
      obtain rfl | later := List.mem_cons.1 ((mem z).2 holds)
      · exact Nat.le_refl _
      · exact Nat.le_of_lt ((List.pairwise_cons.1 sorted).1 z later)

theorem lowest_eq_none_iff (l : List Nat) : lowest l = none ↔ l = [] := by
  cases l with
  | nil => simp [lowest]
  | cons x xs => cases h : lowest xs <;> simp [lowest, h]

theorem lowest_eq_some {l : List Nat} {x : Nat} (h : lowest l = some x) : x ∈ l ∧ ∀ y ∈ l, x ≤ y := by
  induction l generalizing x with
  | nil => cases h
  | cons z zs ih =>
    cases rest : lowest zs with
    | none =>
      obtain rfl := (lowest_eq_none_iff zs).1 rest
      cases h
      simp
    | some w =>
      obtain ⟨inRest, least⟩ := ih rest
      simp only [lowest, rest, Option.some.injEq] at h
      subst h
      refine ⟨?_, fun y mem => ?_⟩
      · obtain le | le := Nat.le_total z w
        · rw [Nat.min_eq_left le]
          exact List.mem_cons_self
        · rw [Nat.min_eq_right le]
          exact List.mem_cons_of_mem _ inRest
      · obtain rfl | later := List.mem_cons.1 mem
        · exact Nat.min_le_left _ _
        · exact (Nat.min_le_right _ _).trans (least y later)

theorem finds_lowest {l : List Nat} {item : Nat → FailingItem} {P : Nat → Prop} (mem : ∀ n, n ∈ l ↔ P n) :
    Finds ((lowest l).map item) item P := by
  refine finds_least (fun none_ n holds => ?_) fun x found => ?_
  · rw [lowest_eq_none_iff] at none_
    subst none_
    cases (mem n).2 holds
  · obtain ⟨inList, least⟩ := lowest_eq_some found
    exact ⟨(mem x).1 inList, fun y holds => least y ((mem y).2 holds)⟩

/-! ### The checks (R23) -/

theorem firstFailing_eq_none_iff (k : Nat) (l : List (Option FailingItem)) :
    firstFailing k l = none ↔ ∀ r ∈ l, r = none := by
  induction l generalizing k with
  | nil => simp [firstFailing]
  | cons r rest ih => cases r <;> simp [firstFailing, ih]

theorem firstFailing_eq_some_iff (k : Nat) (l : List (Option FailingItem)) (n : Nat) (item : FailingItem) :
    firstFailing k l = some (n, item) ↔ k ≤ n ∧ l[n - k]? = some (some item) ∧ ∀ i, i < n - k → l[i]? = some none := by
  induction l generalizing k with
  | nil => simp [firstFailing]
  | cons r rest ih =>
    cases r with
    | some i =>
      simp only [firstFailing, Option.some.injEq, Prod.mk.injEq]
      constructor
      · rintro ⟨rfl, rfl⟩
        simp
      · rintro ⟨low, found, before⟩
        by_cases same : k = n
        · subst same
          simpa using found
        · cases before 0 (by omega)
    | none =>
      simp only [firstFailing, ih]
      constructor
      · rintro ⟨low, found, before⟩
        have up : n - k = n - (k + 1) + 1 := by omega
        refine ⟨by omega, by rw [up]; exact found, fun i lt => ?_⟩
        cases i with
        | zero => rfl
        | succ i => exact before i (by omega)
      · rintro ⟨low, found, before⟩
        have later : k ≠ n := by
          rintro rfl
          simp at found
        have up : n - k = n - (k + 1) + 1 := by omega
        rw [up] at found
        exact ⟨by omega, found, fun i lt => before (i + 1) (by omega)⟩

theorem segmentHas_iff (c : Core) (s : Nat) (f : Segment → Bool) :
    segmentHas c s f = true ↔ ∃ r, entryAt c.segments s = some r ∧ f r = true := by
  unfold segmentHas
  cases entryAt c.segments s <;> simp

theorem notCarries_iff (c : Core) (n : Nat) (ps : PhaseSet) :
    (!segmentHas c n fun q => phasesWithin ps q.phases) = true ↔ ¬ Carries c n ps := by
  rw [Bool.not_eq_true', Bool.eq_false_iff, Ne, segmentHas_iff]
  rfl

theorem mem_roots (c : Core) (n : Nat) : n ∈ entriesWhere c.segments (fun r => r.parent.isNone) ↔ IsRoot c n := by
  rw [mem_entriesWhere]
  simp [IsRoot]

theorem reachesRoot_iff (c : Core) (fuel s : Nat) :
    reachesRoot c.segments fuel s = true ↔ ∃ k t, k < fuel ∧ upBy c.segments k s = some t ∧ IsRoot c t := by
  induction fuel generalizing s with
  | zero => simp [reachesRoot]
  | succ fuel ih =>
    cases at_ : entryAt c.segments s with
    | none =>
      have nowhere : ∀ k, upBy c.segments k s = none := fun k => by cases k <;> simp [upBy, at_]
      simp [reachesRoot, at_, nowhere]
    | some r =>
      cases parent : r.parent with
      | none =>
        simp only [reachesRoot, at_, parent, true_iff]
        exact ⟨0, s, Nat.succ_pos _, by simp [upBy, at_], r, at_, parent⟩
      | some p =>
        simp only [reachesRoot, at_, parent, ih]
        have up : ∀ k, upBy c.segments (k + 1) s = upBy c.segments k p := fun k => by simp [upBy, at_, parent]
        constructor
        · rintro ⟨k, t, lt, reaches, root⟩
          exact ⟨k + 1, t, by omega, (up k).trans reaches, root⟩
        · rintro ⟨k, t, lt, reaches, root⟩
          cases k with
          | zero =>
            obtain rfl : s = t := by simpa [upBy, at_] using reaches
            obtain ⟨r', at', noParent⟩ := root
            rw [at_] at at'
            cases at'
            rw [parent] at noParent
            cases noParent
          | succ k => exact ⟨k, t, by omega, (up k).symm.trans reaches, root⟩

theorem check1_eq_none_iff (c : Core) : check1 c = none ↔ ∃ n, IsRoot c n ∧ ∀ m, IsRoot c m → m = n := by
  have sorted := entriesWhere_pairwise c.segments (fun r => r.parent.isNone)
  have mem := mem_roots c
  unfold check1
  generalize entriesWhere c.segments (fun r => r.parent.isNone) = l at sorted mem
  simp only [← mem]
  match l, sorted with
  | [], _ => simp
  | [a], _ => simp
  | a :: b :: rest, sorted =>
    have lt : a < b := List.rel_of_pairwise_cons sorted List.mem_cons_self
    refine ⟨fun h => (nomatch h), fun ⟨n, _, only⟩ => ?_⟩
    have first := only a List.mem_cons_self
    have second := only b (List.mem_cons_of_mem _ List.mem_cons_self)
    omega

theorem check1_eq_missing_iff (c : Core) : check1 c = some .none ↔ ∀ n, ¬ IsRoot c n := by
  have mem := mem_roots c
  unfold check1
  generalize entriesWhere c.segments (fun r => r.parent.isNone) = l at mem
  simp only [← mem]
  match l with
  | [] => simp
  | [a] => simp
  | a :: b :: rest => exact ⟨fun h => (nomatch h), fun none_ => absurd List.mem_cons_self (none_ a)⟩

theorem check1_eq_second_iff (c : Core) (n : Nat) : check1 c = some (.segment n) ↔
    IsRoot c n ∧ ∃ m, m < n ∧ IsRoot c m ∧ ∀ x, x < n → IsRoot c x → x = m := by
  have sorted := entriesWhere_pairwise c.segments (fun r => r.parent.isNone)
  have mem := mem_roots c
  unfold check1
  generalize entriesWhere c.segments (fun r => r.parent.isNone) = l at sorted mem
  simp only [← mem]
  match l, sorted with
  | [], _ => simp
  | [a], _ =>
    refine ⟨fun h => (nomatch h), fun ⟨isA, m, lt, alsoA, _⟩ => ?_⟩
    rw [List.mem_singleton] at isA alsoA
    omega
  | a :: b :: rest, sorted =>
    obtain ⟨fromA, sortedRest⟩ := List.pairwise_cons.1 sorted
    have fromB := (List.pairwise_cons.1 sortedRest).1
    have lt : a < b := fromA b List.mem_cons_self
    simp only [Option.some.injEq, FailingItem.segment.injEq]
    constructor
    · rintro rfl
      refine ⟨by simp, a, lt, by simp, fun x low isRoot => ?_⟩
      obtain rfl | rfl | later := by simpa using isRoot
      · rfl
      · omega
      · have := fromB x later
        omega
    · rintro ⟨isRoot, m, low, isM, only⟩
      obtain rfl | rfl | later := by simpa using isRoot
      · obtain rfl | later := List.mem_cons.1 isM
        · omega
        · have := fromA m later
          omega
      · rfl
      · have := fromB n later
        have first := only a (by omega) (by simp)
        have second := only b (by omega) (by simp)
        omega

theorem check2_finds (c : Core) : Finds (check2 c) .segment (fun n =>
    ∃ r p, entryAt c.segments n = some r ∧ r.parent = some p ∧ entryAt c.segments p = none) := by
  refine finds_head (entriesWhere_pairwise _ _) fun n => ?_
  rw [mem_entriesWhere]
  refine exists_congr fun r => ?_
  cases r.parent <;> simp

theorem check3_finds (c : Core) : Finds (check3 c) .segment (fun n =>
    (entryAt c.segments n).isSome = true ∧ ¬ ∃ k t, k < 16 ∧ upBy c.segments k n = some t ∧ IsRoot c t) := by
  refine finds_head ((entriesWhere_pairwise _ _).filter _) fun n => ?_
  rw [List.mem_filter, mem_entriesWhere, Bool.not_eq_true', Bool.eq_false_iff, Ne, reachesRoot_iff]
  simp [Option.isSome_iff_exists, Config.pathLength]

theorem check4_finds (c : Core) : Finds (check4 c) .segment (fun n =>
    ∃ r p, entryAt c.segments n = some r ∧ r.parent = some p ∧ ¬ Carries c p r.phases) := by
  refine finds_head (entriesWhere_pairwise _ _) fun n => ?_
  rw [mem_entriesWhere]
  refine exists_congr fun r => ?_
  cases r.parent with
  | none => simp
  | some p => simp [← notCarries_iff]

theorem check5_finds (c : Core) : Finds (check5 c) .sensor (fun a =>
    ∃ n v, entryAt c.roster n = some v ∧ v.address = a ∧ ¬ Carries c v.segment v.phases) := by
  refine finds_lowest fun a => ?_
  rw [mem_addressesWhere]
  simp only [notCarries_iff]
  refine exists_congr fun n => exists_congr fun v => ?_
  tauto

theorem check6_finds (c : Core) : Finds (check6 c) .sensor (fun a =>
    ∃ n v m u, entryAt c.roster n = some v ∧ v.address = a ∧ entryAt c.roster m = some u
      ∧ u.address < a ∧ u.segment = v.segment ∧ u.side = v.side ∧ phasesMeet u.phases v.phases = true) := by
  refine finds_lowest fun a => ?_
  rw [mem_addressesWhere]
  refine exists_congr fun n => exists_congr fun v => ?_
  have met : (!(entriesWhere c.roster fun q => decide (q.address < v.address) && q.segment == v.segment
        && q.side == v.side && phasesMeet q.phases v.phases).isEmpty) = true
      ↔ ∃ m u, entryAt c.roster m = some u ∧ u.address < v.address ∧ u.segment = v.segment ∧ u.side = v.side
        ∧ phasesMeet u.phases v.phases = true := by
    rw [Bool.not_eq_true', List.isEmpty_eq_false_iff_exists_mem]
    simp only [mem_entriesWhere, Bool.and_eq_true, decide_eq_true_eq, beq_iff_eq, and_assoc]
  rw [met]
  constructor
  · rintro ⟨at_, found, rfl⟩
    exact ⟨found.choose, found.choose_spec.choose, at_, rfl, found.choose_spec.choose_spec⟩
  · rintro ⟨m, u, at_, rfl, found⟩
    exact ⟨at_, ⟨m, u, found⟩, rfl⟩

theorem check7_finds (c : Core) : Finds (check7 c) .device (fun n =>
    ∃ v, entryAt c.devices n = some v
      ∧ (entryAt c.segments v.segment = none
        ∨ (v.kind = .sectionalizing ∧ ∃ m u, m < n ∧ entryAt c.devices m = some u
            ∧ u.kind = .sectionalizing ∧ u.segment = v.segment))) := by
  refine finds_head ((entriesWhere_pairwise _ _).filter _) fun n => ?_
  rw [List.mem_filter, mem_entriesWhere]
  cases at_ : entryAt c.devices n with
  | none => simp
  | some v =>
    have headed : (headingDevices c v.segment).any (fun m => decide (m < n)) = true
        ↔ ∃ m u, m < n ∧ entryAt c.devices m = some u ∧ u.kind = .sectionalizing ∧ u.segment = v.segment := by
      simp only [headingDevices, List.any_eq_true, mem_entriesWhere, decide_eq_true_eq, Bool.and_eq_true, beq_iff_eq]
      exact exists_congr fun m => ⟨fun ⟨⟨u, at', kind, seg⟩, lt⟩ => ⟨u, lt, at', kind, seg⟩,
        fun ⟨u, lt, at', kind, seg⟩ => ⟨⟨u, at', kind, seg⟩, lt⟩⟩
    simp [headed]

/-- A segment that names a plan that is not there. -/
def NamesNoPlan (c : Core) (n : Nat) : Prop :=
  ∃ r p, entryAt c.segments n = some r ∧ r.plan = some p ∧ entryAt c.plans p = none

/-- The segments that name a plan that is not there, ascending. -/
def unplanned (c : Core) : List Nat :=
  entriesWhere c.segments fun r => r.plan.any fun p => (entryAt c.plans p).isNone

/-- The plans that fail the plan checks, ascending. -/
def failingPlans (c : Core) : List Nat :=
  (entriesWhere c.plans fun _ => true).filter fun n => (entryAt c.plans n).any fun p => !planPasses c n p

theorem check8_eq (c : Core) :
    check8 c = ((unplanned c).head?.map .segment).or ((failingPlans c).head?.map .plan) := by
  have segments : (fun r : Segment => match r.plan with
      | none => false
      | some p => (entryAt c.plans p).isNone) = fun r => r.plan.any fun p => (entryAt c.plans p).isNone := by
    funext r
    cases r.plan <;> rfl
  have plans : (fun n => match entryAt c.plans n with
      | none => false
      | some p => !planPasses c n p) = fun n => (entryAt c.plans n).any fun p => !planPasses c n p := by
    funext n
    cases entryAt c.plans n <;> rfl
  have eq : check8 c = match (unplanned c).head? with
      | some s => some (.segment s)
      | none => (failingPlans c).head?.map .plan := by
    unfold unplanned failingPlans
    rw [← segments, ← plans]
    rfl
  rw [eq]
  cases (unplanned c).head? <;> rfl

theorem mem_unplanned (c : Core) (n : Nat) : n ∈ unplanned c ↔ NamesNoPlan c n := by
  rw [unplanned, mem_entriesWhere]
  refine exists_congr fun r => ?_
  cases r.plan <;> simp

theorem mem_failingPlans (c : Core) (n : Nat) :
    n ∈ failingPlans c ↔ ∃ p, entryAt c.plans n = some p ∧ planPasses c n p = false := by
  rw [failingPlans, List.mem_filter, mem_entriesWhere]
  cases at_ : entryAt c.plans n <;> simp

theorem check8_segments (c : Core) (h : ∃ n, NamesNoPlan c n) : Finds (check8 c) .segment (NamesNoPlan c) := by
  have found := finds_head (item := FailingItem.segment) (entriesWhere_pairwise _ _) (mem_unplanned c)
  rw [check8_eq]
  cases first : (unplanned c).head? with
  | none =>
    obtain ⟨n, names⟩ := h
    rw [List.head?_eq_none_iff] at first
    simp [← mem_unplanned, first] at names
  | some s =>
    show Finds ((some s).map _) _ _
    rw [← first]
    exact found

theorem check8_plans (c : Core) (h : ∀ n, ¬ NamesNoPlan c n) : Finds (check8 c) .plan (fun n =>
    ∃ p, entryAt c.plans n = some p ∧ planPasses c n p = false) := by
  have none_ : unplanned c = [] := List.eq_nil_iff_forall_not_mem.2 fun n mem => h n ((mem_unplanned c n).1 mem)
  rw [check8_eq, none_]
  exact finds_head ((entriesWhere_pairwise _ _).filter _) (mem_failingPlans c)

theorem checksAsStated (c : Core) : ChecksAsStated c :=
  ⟨check1_eq_none_iff c, check1_eq_missing_iff c, check1_eq_second_iff c, check2_finds c, check3_finds c,
    check4_finds c, check5_finds c, check6_finds c, check7_finds c, check8_segments c, check8_plans c⟩

/-! ### The plan checks (R107) -/

theorem noRepeat_iff (l : List Nat) : noRepeat l = true ↔ l.Nodup := by
  induction l with
  | nil => simp [noRepeat]
  | cons x xs ih => simp [noRepeat, ih]

theorem fallbackAfter_add (plans : List (Checked Plan)) (j k p : Nat) :
    fallbackAfter plans (j + k) p = (fallbackAfter plans j p).bind (fallbackAfter plans k) := by
  induction j generalizing p with
  | zero => simp [fallbackAfter]
  | succ j ih =>
    have up : j + 1 + k = j + k + 1 := by omega
    rw [up, fallbackAfter, fallbackAfter]
    cases next : (entryAt plans p).bind (·.fallback) with
    | none => rfl
    | some f => exact ih f

/-- A fallback chain from a plan ends, within a number of links, at a plan without a fallback. -/
def ChainEnds (plans : List (Checked Plan)) (links p : Nat) : Prop :=
  ∃ k last v, k ≤ links ∧ fallbackAfter plans k p = some last ∧ entryAt plans last = some v ∧ v.fallback = none

/-- A chain that comes back to its plan never ends. -/
theorem not_chainEnds_of_cycle {plans : List (Checked Plan)} {m p : Nat} (cycle : fallbackAfter plans (m + 1) p = some p)
    (links : Nat) : ¬ ChainEnds plans links p := by
  rintro ⟨k, last, v, -, reaches, at_, ends⟩
  induction k using Nat.strong_induction_on with
  | _ k ih =>
    by_cases within : k ≤ m
    · have up : m + 1 = k + (m - k + 1) := by omega
      rw [up, fallbackAfter_add, reaches] at cycle
      simp [fallbackAfter, at_, ends] at cycle
    · have up : k = m + 1 + (k - (m + 1)) := by omega
      rw [up, fallbackAfter_add, cycle] at reaches
      exact ih (k - (m + 1)) (by omega) reaches

theorem chainEnds_of_end {plans : List (Checked Plan)} {p : Nat} {v : Plan} (at_ : entryAt plans p = some v)
    (ends : v.fallback = none) (links : Nat) : ChainEnds plans links p := ⟨0, p, v, Nat.zero_le _, rfl, at_, ends⟩

theorem not_chainEnds_zero {plans : List (Checked Plan)} {p f : Nat} {v : Plan} (at_ : entryAt plans p = some v)
    (next : v.fallback = some f) : ¬ ChainEnds plans 0 p := by
  rintro ⟨k, last, w, within, reaches, at', ends⟩
  obtain rfl := Nat.le_zero.1 within
  obtain rfl : p = last := Option.some.inj reaches
  rw [at_] at at'
  cases at'
  rw [next] at ends
  cases ends

theorem chainEnds_succ_iff {plans : List (Checked Plan)} {links p f : Nat} {v : Plan} (at_ : entryAt plans p = some v)
    (next : v.fallback = some f) : ChainEnds plans (links + 1) p ↔ ChainEnds plans links f := by
  have step : ∀ k, fallbackAfter plans (k + 1) p = fallbackAfter plans k f := fun k => by simp [fallbackAfter, at_, next]
  constructor
  · rintro ⟨k, last, w, within, reaches, at', ends⟩
    cases k with
    | zero => exact absurd ⟨0, last, w, Nat.le_refl 0, reaches, at', ends⟩ (not_chainEnds_zero at_ next)
    | succ k => exact ⟨k, last, w, by omega, (step k).symm.trans reaches, at', ends⟩
  · rintro ⟨k, last, w, within, reaches, at', ends⟩
    exact ⟨k + 1, last, w, by omega, (step k).trans reaches, at', ends⟩

theorem not_chainEnds_undefined {plans : List (Checked Plan)} {p : Nat} (at_ : entryAt plans p = none) (links : Nat) :
    ¬ ChainEnds plans links p := by
  rintro ⟨k, last, v, -, reaches, at', -⟩
  cases k with
  | zero =>
    obtain rfl : p = last := Option.some.inj reaches
    rw [at_] at at'
    cases at'
  | succ k => simp [fallbackAfter, at_] at reaches

theorem chainOk_undefined {plans : List (Checked Plan)} {p : Nat} (at_ : entryAt plans p = none) (links : Nat)
    (seen : List Nat) : chainOk plans links seen p = false := by
  rw [chainOk, at_]

theorem chainOk_end {plans : List (Checked Plan)} {p : Nat} {v : Plan} (at_ : entryAt plans p = some v)
    (ends : v.fallback = none) (links : Nat) (seen : List Nat) : chainOk plans links seen p = true := by
  rw [chainOk, at_]
  simp only [ends]

theorem chainOk_zero {plans : List (Checked Plan)} {p f : Nat} {v : Plan} (at_ : entryAt plans p = some v)
    (next : v.fallback = some f) (seen : List Nat) : chainOk plans 0 seen p = false := by
  rw [chainOk, at_]
  simp only [next]

theorem chainOk_succ {plans : List (Checked Plan)} {p f : Nat} {v : Plan} (at_ : entryAt plans p = some v)
    (next : v.fallback = some f) (links : Nat) (seen : List Nat) :
    chainOk plans (links + 1) seen p = (!seen.contains f && chainOk plans links (f :: seen) f) := by
  rw [chainOk, at_]
  simp only [next]

/-- The chain passes exactly when it ends within its links, each plan reached before leading to the plan it stands at. -/
theorem chainOk_iff {plans : List (Checked Plan)} (links : Nat) (seen : List Nat) (p : Nat)
    (leads : ∀ s ∈ seen, ∃ j, fallbackAfter plans j s = some p) :
    chainOk plans links seen p = true ↔ ChainEnds plans links p := by
  cases at_ : entryAt plans p with
  | none => simp [chainOk_undefined at_, not_chainEnds_undefined at_]
  | some v =>
    cases next : v.fallback with
    | none => simp [chainOk_end at_ next, chainEnds_of_end at_ next]
    | some f =>
      cases links with
      | zero => simp [chainOk_zero at_ next, not_chainEnds_zero at_ next]
      | succ links =>
        have step : fallbackAfter plans 1 p = some f := by simp [fallbackAfter, at_, next]
        rw [chainEnds_succ_iff at_ next, chainOk_succ at_ next]
        by_cases again : f ∈ seen
        · obtain ⟨j, back⟩ := leads f again
          have cycle : fallbackAfter plans (j + 1) f = some f := by rw [fallbackAfter_add, back]; exact step
          simp [again, not_chainEnds_of_cycle cycle]
        · have leads' : ∀ s ∈ f :: seen, ∃ j, fallbackAfter plans j s = some f := by
            intro s mem
            obtain rfl | before := List.mem_cons.1 mem
            · exact ⟨0, rfl⟩
            · obtain ⟨j, reaches⟩ := leads s before
              exact ⟨j + 1, by rw [fallbackAfter_add, reaches]; exact step⟩
          simp [again, chainOk_iff links (f :: seen) f leads']

theorem planPasses_iff (c : Core) (n : Nat) (p : Plan) :
    planPasses c n p = true ↔ planStands c p = true
      ∧ (∀ f, p.fallback = some f → (entryAt c.plans f).isSome = true) ∧ ChainEnds c.plans 4 n := by
  have leads : ∀ s ∈ [n], ∃ j, fallbackAfter c.plans j s = some n := fun s mem =>
    ⟨0, congrArg some (List.mem_singleton.1 mem)⟩
  rw [planPasses, Bool.and_eq_true, Config.fallbackLinks, chainOk_iff 4 [n] n leads, Bool.and_eq_true, and_assoc]
  cases p.fallback <;> simp

theorem planChecksAsStated (c : Core) : PlanChecksAsStated c := by
  intro n p at_
  rw [planPasses_iff, planStands]
  simp only [Bool.and_eq_true, List.all_eq_true, List.any_eq_true, List.contains_iff_mem, noRepeat_iff, and_assoc]
  rfl

theorem validation_eq_none_iff (c : Core) : validation c = none ↔
    ∀ r ∈ [check1 c, check2 c, check3 c, check4 c, check5 c, check6 c, check7 c, check8 c], r = none :=
  firstFailing_eq_none_iff _ _

/-! ### What validation reads (R22; log 6) -/

theorem segmentReads_sound {c : Core} (segments : Sound c.segments) : ∀ r ∈ segmentReads c, isBad c r = false := by
  intro r mem
  unfold segmentReads at mem
  split at mem
  · exact refs_sound segments (fun _ => rfl) _ r mem
  · exact allRefs_segments_sound segments r mem

theorem deviceReads_sound {c : Core} (devices : Sound c.devices) : ∀ r ∈ deviceReads c, isBad c r = false := by
  intro r mem
  unfold deviceReads at mem
  split at mem
  · exact refs_sound devices (fun _ => rfl) _ r mem
  · exact allRefs_devices_sound devices r mem

theorem planStoreReads_sound {c : Core} (plans : Sound c.plans) : ∀ r ∈ planStoreReads c, isBad c r = false := by
  intro r mem
  unfold planStoreReads at mem
  split at mem
  · exact refs_sound plans (fun _ => rfl) _ r mem
  · exact refs_sound plans (fun _ => rfl) _ r mem
  · exact refs_sound plans (fun _ => rfl) _ r mem

theorem validation_of_check1 {c : Core} {item : FailingItem} (h : check1 c = some item) :
    validation c = some (1, item) := by
  rw [validation, h]
  rfl

theorem validationReads_of_check1 {c : Core} {item : FailingItem} (h : check1 c = some item) :
    validationReads c = segmentReads c := by
  rw [validationReads, validation_of_check1 h]
  simp

theorem validationReads_sound {c : Core} (segments : Sound c.segments) (roster : Sound c.roster)
    (devices : Sound c.devices) (plans : Sound c.plans) : ∀ r ∈ validationReads c, isBad c r = false := by
  intro r mem
  have inOne : r ∈ segmentReads c ∨ r ∈ allRefs c .roster ∨ r ∈ deviceReads c ∨ r ∈ planStoreReads c := by
    unfold validationReads at mem
    split at mem
    · simpa only [List.mem_append, or_assoc] using mem
    · next n _ _ =>
      simp only [List.mem_append, or_assoc] at mem
      refine mem.imp id (Or.imp (fun h => ?_) (Or.imp (fun h => ?_) fun h => ?_))
      · exact (List.mem_ite_nil_right.1 h).2
      · exact (List.mem_ite_nil_right.1 h).2
      · exact (List.mem_ite_nil_right.1 h).2
  obtain inSegments | inRoster | inDevices | inPlans := inOne
  · exact segmentReads_sound segments r inSegments
  · exact allRefs_roster_sound roster r inRoster
  · exact deviceReads_sound devices r inDevices
  · exact planStoreReads_sound plans r inPlans

/-! ### SET_MODE (R21, R22) -/

theorem modeConditions_pass {q : Port} {s : State} {m : Mode} (controls : Controls q s) (mode : m ≠ .halted)
    (running : s.part.core.mode ≠ .halted) (calm : s.part.core.recovery.recovering = false) :
    select (modeConditions (heard q s) q m) = none := by
  refine select_eq_none_iff.2 ?_
  have running' : isHalted (heard q s) = false := (isHalted_eq_false_iff _).2 (by simpa using running)
  obtain rfl | allowed := controls
  · simp [modeConditions, uncontrolled, mode, calm, running']
  · simp [modeConditions, uncontrolled, mode, calm, running', allowed]

theorem meaning_setMode {q : Port} {tag : Byte} {s : State} {m : Mode} (controls : Controls q s) (mode : m ≠ .halted)
    (running : s.part.core.mode ≠ .halted) (calm : s.part.core.recovery.recovering = false) :
    meaning (.setMode q tag (.ok m)) (heard q s) = viaCore (fun _ e => changeMode m e) (heard q s) := by
  rw [meaning, onBody_ok, unless_passes (modeConditions_pass controls mode running calm)]

theorem changeMode_same (e : Ev) : changeMode e.mode e = (e, plain .accepted) := if_pos rfl

theorem changeMode_monitoring {e : Ev} (h : e.mode = .configuring) : changeMode .monitoring e = toMonitoring e := by
  rw [changeMode, if_neg (by simp [h])]

theorem toMonitoring_invalid {e : Ev} {check : Nat} {item : FailingItem}
    (sound : ∀ r ∈ validationReads e.toCore, isBad e.toCore r = false) (fails : validation e.toCore = some (check, item)) :
    toMonitoring e = (e, .now .topologyInvalid (.validation check item)) := by
  rw [toMonitoring, reading_sound _ _ _ sound, fails]

theorem toMonitoring_valid {e : Ev} (sound : ∀ r ∈ validationReads e.toCore, isBad e.toCore r = false)
    (passes : validation e.toCore = none) : toMonitoring e = (enterMonitoring e, plain .accepted) := by
  rw [toMonitoring, reading_sound _ _ _ sound, passes]

/-- Settles O29: the checks find what R23 states, and the mode changes when none fails. -/
theorem setModeMonitoring : Obligations.SetModeMonitoring := by
  refine ⟨fun q tag s taken controls calm => ⟨?_, ?_, ?_⟩, fun c => ⟨validation_eq_none_iff c, fun check item =>
    firstFailing_eq_some_iff 1 _ check item, checksAsStated c, planChecksAsStated c⟩⟩
  · rintro m rfl running
    have running' : s.part.core.mode ≠ .halted := by simpa using running
    refine exec_replied rfl taken ((meaning_setMode controls running running' calm).trans (viaCore_same ?_))
    exact changeMode_same (startEvent (heard q s).core)
  · intro mode segments item fails
    have mode' : s.part.core.mode = .configuring := by simpa using mode
    refine exec_replied rfl taken ((meaning_setMode controls (by decide) (by simp [mode']) calm).trans (viaCore_same ?_))
    rw [changeMode_monitoring (e := startEvent (heard q s).core) mode]
    refine toMonitoring_invalid (e := startEvent (heard q s).core) (fun r mem => ?_) (validation_of_check1 fails)
    rw [startEvent_toCore, validationReads_of_check1 fails] at mem
    exact segmentReads_sound segments r mem
  · intro mode segments roster devices plans
    have mode' : s.part.core.mode = .configuring := by simpa using mode
    have sound := validationReads_sound segments roster devices plans
    have means := meaning_setMode (tag := tag) controls (m := .monitoring) (by decide) (by simp [mode']) calm
    refine ⟨fun check item fails => exec_replied rfl taken (means.trans (viaCore_same ?_)), fun passes link =>
      exec_replied rfl taken (means.trans ?_)⟩
    · rw [changeMode_monitoring (e := startEvent (heard q s).core) mode]
      exact toMonitoring_invalid (e := startEvent (heard q s).core) sound fails
    · rw [viaCore_eq, changeMode_monitoring (e := startEvent (heard q s).core) mode,
        toMonitoring_valid (e := startEvent (heard q s).core) sound passes]
      have settled := settle_beginPolling (env := envOf (heard q s))
        (e := { startEvent (heard q s).core with mode := .monitoring }) rfl (by simpa using calm) devices link rfl
      rw [enterMonitoring, settled, commit_eq _ _ rfl]
      rfl

end Sys2Proof.Machine
end

