-- ==== Sys2Proof/Proofs/Isolations.lean ====
section
/-! PROOF. The work of an event, and the start and the steps of an isolation. -/

namespace Sys2Proof.Machine

/-! ### The work of an event -/

/-- A piece of work that calls for no other is followed by the next. -/
theorem runWork_done {env : Env} {n : Nat} {w : Work} {rest : List Work} {e e' : Ev}
    (h : doWork env w { e with todo := [] } = e') (idle : e'.todo = []) :
    runWork env (n + 1) (w :: rest) e = runWork env n rest e' := by
  subst h
  rw [runWork_cons, idle]
  congr 1
  cases done : doWork env w { e with todo := [] }
  simp_all

/-- An event's one piece of work, which calls for no other. -/
theorem settle_one {env : Env} {w : Work} {e e' : Ev} (todo : e.todo = [w]) (h : doWork env w { e with todo := [] } = e')
    (idle : e'.todo = []) : settle env e = e' := by
  rw [settle, todo]
  exact (runWork_done (n := 65535) h idle).trans (runWork_nil _ _ _)

/-- A piece of work that calls for one other, which calls for none. -/
theorem runWork_two {env : Env} {n : Nat} {w x : Work} {rest : List Work} {e e' e'' : Ev}
    (h : doWork env w { e with todo := [] } = later [x] e') (idle : e'.todo = [])
    (g : doWork env x e' = e'') (idle' : e''.todo = []) :
    runWork env (n + 2) (w :: rest) e = runWork env n rest e'' := by
  have same : { e' with todo := [] } = e' := by
    rw [← idle]
  rw [runWork_cons, h]
  simp only [later, idle, List.nil_append, List.cons_append]
  exact runWork_done (by rw [← g, ← same]) idle'

/-! ### The start of an isolation (R114, R115) -/

/-- The plan of a case's segment. -/
def planFor (c : Core) (k : Case) : Option Nat := (entryAt c.segments k.segment).bind (·.plan)

/-- A case sent to ISOLATING, its record at the plan of its segment. -/
def isolatingCase (c : Core) (k : Case) (r : IsolationRecord) : Case :=
  { k with state := .isolating, isolation := some { r with plan := planFor c k, step := 0, depth := 0 } }

/-- The event with a case sent to ISOLATING and told of. -/
def isolationTold (n : Nat) (reason : CaseReason) (k : Case) (r : IsolationRecord) (e : Ev) : Ev :=
  { e with
    toCore := withCase n (isolatingCase e.toCore k r) e.toCore
    out := e.out ++ [caseTold n k (some .confirmed) (some .isolating) reason none e.time.now] }

theorem firstBad_sound {c : Core} (sound : AllSound c) (rs : List Ref) : firstBad c rs = none :=
  (firstBad_none_iff c rs).2 fun r _ => isBad_of_allSound sound r

theorem sound_set {α : Type} {l : List (Checked α)} (sound : Sound l) (n : Nat) (x : Option α) :
    Sound (l.set n { content := x, check := 0 }) := by
  intro m
  have written := badAt_putAt l n m x
  rw [putAt] at written
  rw [written]
  split
  · rfl
  · exact sound m

theorem allSound_withCase {c : Core} (sound : AllSound c) (n : Nat) (k : Case) : AllSound (withCase n k c) := by
  obtain ⟨segments, roster, devices, plans, cases⟩ := sound
  exact ⟨segments, roster, devices, plans, sound_set cases n (some k)⟩

/-- A case whose fields read in their ranges changes state with its notice. -/
theorem changeCase_told {k : Case} (readable : k.unreadable = []) (n : Nat) (state : CaseState) (reason : CaseReason)
    (d : Option Nat) (e : Ev) :
    changeCase n k state reason d e = { e with
      toCore := withCase n { k with state := state } e.toCore
      out := e.out ++ [caseTold n k (some k.state) (some state) reason d e.time.now] } := by
  simp [changeCase, raise, putCase, withCase, putAt, caseNotice, caseTold, readable]

/-- A CONFIRMED case is sent to ISOLATING, the CLOSE orders its segment bars are withdrawn, and its walk begins. -/
theorem isolate_eq {n : Nat} {reason : CaseReason} {k : Case} {r : IsolationRecord} {e : Ev}
    (well : healthy e.toCore = true) (sound : AllSound e.toCore) (hk : entryAt e.cases n = some k)
    (confirmed : k.state = .confirmed) (readable : k.unreadable = []) (record : k.isolation = some r) :
    isolate n reason e
      = later [.begin n] (withdrawBarredBySegment k.segment (isolationTold n reason k r e)) := by
  unfold isolate
  simp only [well, if_true, hk, confirmed, firstBad_sound sound]
  rw [changeCase_told]
  · simp only [isolationTold, isolatingCase, planFor, record, caseTold, Option.map_some]
    cases entryAt e.segments k.segment <;> rfl
  · exact readable

theorem judgeCloses_none (reads : Core → Nat → List Ref) (f : Nat → Device → Ev → Ev) {e : Ev}
    (h : queuedCloses e.toCore = []) : judgeCloses reads f e = e := by
  rw [judgeCloses, h]
  rfl

theorem queuedCloses_eq_nil {c : Core} (h : NoCloses c) : queuedCloses c = [] := by
  simp only [queuedCloses, List.map_eq_nil_iff, List.filter_eq_nil_iff]
  intro o mem
  simp [h o mem]

theorem withdrawBarredBySegment_none (s : Nat) {e : Ev} (h : NoCloses e.toCore) : withdrawBarredBySegment s e = e :=
  judgeCloses_none _ _ (queuedCloses_eq_nil h)

/-- The one order, a CLOSE, is withdrawn where it is QUEUED and its device barred. -/
theorem withdrawBarredBySegment_one {s : Nat} {o : Order} {v : Device} {e : Ev} (sound : AllSound e.toCore)
    (only : e.orders = [o]) (close : o.action = .close) (hv : entryAt e.devices o.device = some v)
    (running : e.mode ≠ .halted) (queued : o.state = .queued) (barred : barredBy e.segments v s = true) :
    withdrawBarredBySegment s e = orderWithdrawn .isolationOverride o v e := by
  have order : orderOf e.toCore o.device = some o := by simp [orderOf, only]
  have closes : queuedCloses e.toCore = [o.device] := by simp [queuedCloses, only, close, queued]
  rw [withdrawBarredBySegment, judgeCloses, closes]
  simp only [List.foldl_cons, List.foldl_nil, firstBad_sound sound, Option.isSome_none, Bool.false_eq_true, if_false, hv,
    running, barred, if_true]
  exact withdraw_queued .isolationOverride order queued hv (sound.2.2.1 o.device) running

theorem withdrawBarredBySegment_stays {s : Nat} {o : Order} {v : Device} {e : Ev} (sound : AllSound e.toCore)
    (only : e.orders = [o]) (hv : entryAt e.devices o.device = some v)
    (stays : ¬ (o.state = .queued ∧ barredBy e.segments v s = true)) : withdrawBarredBySegment s e = e := by
  by_cases queued : o.action = .close ∧ o.state = .queued
  · have unbarred : barredBy e.segments v s = false := by simpa [queued.2] using stays
    have closes : queuedCloses e.toCore = [o.device] := by simp [queuedCloses, only, queued]
    rw [withdrawBarredBySegment, judgeCloses, closes]
    simp only [List.foldl_cons, List.foldl_nil, firstBad_sound sound, Option.isSome_none, Bool.false_eq_true, if_false, hv,
      unbarred, ite_self]
  · have closes : queuedCloses e.toCore = [] := by simpa [queuedCloses, only] using queued
    exact judgeCloses_none _ _ closes

/-- A walk that has no plan leaves its case BLOCKED. -/
theorem beginWalk_unplanned {env : Env} {n : Nat} {k : Case} {r : IsolationRecord} {e : Ev} (running : e.mode ≠ .halted)
    (hk : entryAt e.cases n = some k) (isolating : k.state = .isolating) (readable : k.unreadable = [])
    (record : k.isolation = some r) (unplanned : r.plan = none) :
    beginWalk env n e = { e with
      toCore := withCase n { k with state := .blocked } e.toCore
      out := e.out ++ [caseTold n k (some .isolating) (some .blocked) .noPlan none e.time.now] } := by
  rw [← isolating, ← changeCase_told readable]
  unfold beginWalk
  rw [if_neg running]
  simp only [hk]
  split
  · next r' _ found =>
    obtain rfl : r = r' := Option.some.inj (record.symm.trans found)
    simp only [unplanned]
  · next other => exact absurd record (other r isolating)

theorem entryAt_withCase {c : Core} {n : Nat} {old : Case} (h : entryAt c.cases n = some old) (k : Case) (m : Nat) :
    entryAt (withCase n k c).cases m = if m = n then some k else entryAt c.cases m :=
  entryAt_putAt c.cases n m (some k) (entryAt_lt h)

/-- A case without a plan on its segment. -/
def blockedCase (k : Case) (r : IsolationRecord) : Case :=
  { k with state := .blocked, isolation := some { r with plan := none, step := 0, depth := 0 } }

/-- The notices of a case sent to ISOLATING and BLOCKED for want of a plan. -/
def blockedTold (n : Nat) (reason : CaseReason) (k : Case) (now : Nat) : List Emit :=
  [caseTold n k (some .confirmed) (some .isolating) reason none now,
   caseTold n k (some .isolating) (some .blocked) .noPlan none now]

theorem planFor_eq_none {c : Core} {k : Case} (h : ∀ sg, entryAt c.segments k.segment = some sg → sg.plan = none) :
    planFor c k = none := by
  unfold planFor
  cases hs : entryAt c.segments k.segment with
  | none => rfl
  | some sg => exact h sg hs

theorem withCase_twice (n : Nat) (k k' : Case) (c : Core) : withCase n k' (withCase n k c) = withCase n k' c := by
  simp [withCase, List.set_set]

section
variable {env : Env} {n : Nat} {reason : CaseReason} {k : Case} {r : IsolationRecord} {e : Ev}
  (well : healthy e.toCore = true) (sound : AllSound e.toCore) (unclosed : NoCloses e.toCore)
  (hk : entryAt e.cases n = some k) (confirmed : k.state = .confirmed) (readable : k.unreadable = [])
  (record : k.isolation = some r)
include well sound unclosed hk confirmed readable record

/-- With no CLOSE in the queue the walk of a case sent to ISOLATING begins. -/
theorem isolate_unclosed : isolate n reason e = later [.begin n] (isolationTold n reason k r e) := by
  rw [isolate_eq well sound hk confirmed readable record, withdrawBarredBySegment_none k.segment (by exact unclosed)]

omit sound unclosed confirmed record in
/-- A case sent to ISOLATING without a plan is BLOCKED in the same event. -/
theorem beginWalk_blocked (unplanned : ∀ sg, entryAt e.segments k.segment = some sg → sg.plan = none) :
    beginWalk env n (isolationTold n reason k r e) = { e with
      toCore := withCase n (blockedCase k r) e.toCore, out := e.out ++ blockedTold n reason k e.time.now } := by
  have running : e.mode ≠ .halted := ((healthy_iff e.toCore).1 well).1
  have there : entryAt (isolationTold n reason k r e).cases n = some (isolatingCase e.toCore k r) :=
    (entryAt_withCase hk _ n).trans (if_pos rfl)
  rw [beginWalk_unplanned (by exact running) there rfl readable rfl (planFor_eq_none unplanned)]
  simp only [isolationTold, withCase_twice, isolatingCase, planFor_eq_none unplanned, List.append_assoc]
  rfl

/-- The work of an event that sends one case, without a plan, to ISOLATING. -/
theorem settle_isolate_blocked (unplanned : ∀ sg, entryAt e.segments k.segment = some sg → sg.plan = none)
    (idle : e.todo = []) :
    settle env (later [.isolate n reason] e) = { e with
      toCore := withCase n (blockedCase k r) e.toCore, out := e.out ++ blockedTold n reason k e.time.now } := by
  have clear : { later [.isolate n reason] e with todo := [] } = e := by simp [later, ← idle]
  have todo : (later [.isolate n reason] e).todo = [.isolate n reason] := by simp [later, idle]
  rw [settle, todo]
  refine (runWork_two (n := 65534) (x := .begin n) (e' := isolationTold n reason k r e) ?_ idle
    (beginWalk_blocked well hk readable unplanned) idle).trans (runWork_nil _ _ _)
  rw [clear]
  exact isolate_unclosed well sound unclosed hk confirmed readable record

/-- The same, where the event's own act sends it. -/
theorem settle_isolated_blocked (unplanned : ∀ sg, entryAt e.segments k.segment = some sg → sg.plan = none)
    (idle : e.todo = []) :
    settle env (isolate n reason e) = { e with
      toCore := withCase n (blockedCase k r) e.toCore, out := e.out ++ blockedTold n reason k e.time.now } := by
  rw [isolate_unclosed well sound unclosed hk confirmed readable record]
  refine settle_one (w := .begin n) (by simp [later, isolationTold, idle]) ?_ idle
  rw [← beginWalk_blocked (env := env) well hk readable unplanned]
  simp [later, isolationTold, idle, doWork]

end

/-! ### The first step of a walk (R114, R116) -/

/-- The walk of a case that begins. -/
def firstWalk (n : Nat) (k : Case) : Walk := { entry := n, serial := k.serial, phase := .main, cond := .room none }

/-- What an event gives out counts nothing. -/
def TellsOnly (xs : List Emit) : Prop := ∃ ns : List (Dest × Notice), xs = ns.map fun x => .tell x.1 x.2

theorem tellsOnly_append {xs ys : List Emit} (h : TellsOnly xs) (g : TellsOnly ys) : TellsOnly (xs ++ ys) := by
  obtain ⟨ns, rfl⟩ := h
  obtain ⟨ms, rfl⟩ := g
  exact ⟨ns ++ ms, List.map_append.symm⟩

theorem tellsOnly_nil : TellsOnly [] := ⟨[], rfl⟩

theorem tellsOnly_one (d : Dest) (n : Notice) : TellsOnly [.tell d n] := ⟨[(d, n)], rfl⟩

theorem outcome_tellsOnly {xs : List Emit} (h : TellsOnly xs) (c : Core) (p : Part) :
    ∃ a b, outcome xs c p = { p with core := c, portA := a, portB := b } := by
  obtain ⟨ns, rfl⟩ := h
  have told : outcome (ns.map fun x => .tell x.1 x.2) c p = offerAll (inOrder ns) { p with core := c } := by
    unfold outcome deliver
    rw [emissions_tells]
  rw [told]
  exact ⟨_, _, offerAll_rest (inOrder ns) { p with core := c }⟩

/-- A command whose event counts nothing leaves all but the blocks and the ports. -/
theorem keepsRest_told (q : Port) (kind : Nat) (tag : Byte) (code : ReplyCode) (body : ReplyBody) {xs : List Emit}
    (h : TellsOnly xs) (c : Core) (s : State) : KeepsRest s (replied q kind tag code body (outcome xs c (heard q s)) s) := by
  obtain ⟨a, b, told⟩ := outcome_tellsOnly h c (heard q s)
  have rest : heard q s = { s.part with
      core := { s.part.core with supervision := (heard q s).core.supervision }
      portA := (heard q s).portA, portB := (heard q s).portB } := hearFrame_rest q true s.part
  rw [told, rest]
  cases q
  · exact keepsRest_ended (a := enqueue kind tag (.now code body) a) (b := b) rfl
  · exact keepsRest_ended (a := a) (b := enqueue kind tag (.now code body) b) rfl

theorem viaCore_settled {f : Env → Ev → Ev × Answer} {p : Part} {e e' : Ev} {a : Answer} {xs : List Emit} {core : Core}
    (h : f (envOf p) (startEvent p.core) = (e, a)) (done : settle (envOf p) e = e') (store : e'.storeFailed = false)
    (out : e'.out = xs) (blocks : e'.toCore = core) : viaCore f p = (outcome xs core p, a) := by
  rw [viaCore_eq, h, done, commit_eq _ _ store, out, blocks]

/-- The event in which the walk of a case has begun, its deadline judged. -/
def walkBegun (n i : Nat) (late : Bool) (xs : List Emit) (reason : CaseReason) (k : Case) (r : IsolationRecord) (e : Ev) :
    Ev :=
  { isolationTold n reason k r e with
    toCore := { withCase n { k with
        state := .isolating, isolation := some { r with plan := some i, step := 0, depth := 0, late := late } } e.toCore with
      walks := othersThan n e.walks ++ [firstWalk n k] }
    out := (isolationTold n reason k r e).out ++ xs }

/-- With a plan the deadline is judged, and the walk begins at its first step. -/
theorem beginWalk_planned {env : Env} {n i : Nat} {reason : CaseReason} {k : Case} {r : IsolationRecord} {e : Ev}
    (well : healthy e.toCore = true) (sound : Sound e.cases) (hk : entryAt e.cases n = some k)
    (planned : planFor e.toCore k = some i) : ∃ late xs, TellsOnly xs
      ∧ beginWalk env n (isolationTold n reason k r e) = later [.judge n] (walkBegun n i late xs reason k r e) := by
  have running : e.mode ≠ .halted := ((healthy_iff e.toCore).1 well).1
  have there : entryAt (isolationTold n reason k r e).cases n = some (isolatingCase e.toCore k r) :=
    (entryAt_withCase hk _ n).trans (if_pos rfl)
  have good : badAt (isolationTold n reason k r e).cases n = false := sound_set sound n _ n
  have begun : beginWalk env n (isolationTold n reason k r e)
      = later [.judge n] (judgeDeadline env n (putWalk (firstWalk n k) (isolationTold n reason k r e))) := by
    unfold beginWalk
    rw [if_neg (by exact running)]
    simp only [there, isolatingCase, planned]
    rfl
  rw [begun]
  cases late : isLate env e.time.now (isolatingCase e.toCore k r) with
  | true =>
    rw [judgeDeadline_due (e := putWalk (firstWalk n k) (isolationTold n reason k r e)) well there good rfl late]
    refine ⟨true, [.tell .both (.isolationLate n k.serial k.segment k.phase r.confirmedAt (some i) 0 0 e.time.now)],
      tellsOnly_one _ _, ?_⟩
    simp only [putWalk, isolationTold, withCase, List.set_set, isolatingCase, planned]
    rfl
  | false =>
    rw [judgeDeadline_notDue (e := putWalk (firstWalk n k) (isolationTold n reason k r e)) there late]
    refine ⟨r.late, [], tellsOnly_nil, ?_⟩
    simp only [walkBegun, putWalk, isolationTold, withCase, List.append_nil, isolatingCase, planned]
    rfl

/-! ### A step judged (R116 to R118) -/

section
variable {env : Env} {n : Nat} {w : Walk} {k : Case} {r : IsolationRecord} {pl : Plan} {d : Nat} {v : Device} {e : Ev}
  (step : AtStep n w k r pl d e)
include step

theorem judgeWalk_at : judgeWalk env n e = judgeDevice env w k r pl d e := withStep_at step (judgeDevice env)

theorem ownDone_at (m : Nat) : ownDone n m e
    = if deviceOpen e.toCore m then afterDone w k r pl m e else afterFailure w k r pl e := by
  rw [ownDone, withStep_at step]
  split
  · exact stepDone_eq step m
  · cases phase : w.phase with
    | main => exact failPlan_eq step phase
    | remainder => exact passOver_eq step phase

theorem judgeWalk_undefined (sound : badAt e.devices d = false) (none_ : entryAt e.devices d = none) :
    judgeWalk env n e = afterFailure w k r pl e := by
  rw [judgeWalk_at step, judgeDevice]
  cases phase : w.phase with
  | main =>
    simp only [sound, none_, Bool.false_eq_true, if_false]
    exact failPlan_eq step phase
  | remainder =>
    simp only [sound, none_, Bool.false_eq_true, if_false]
    exact passOver_eq step phase

variable (sound : badAt e.devices d = false) (hv : entryAt e.devices d = some v)
include sound hv

theorem judgeWalk_open (stands : standsOpen v.run.state = true) : judgeWalk env n e = afterDone w k r pl d e := by
  rw [judgeWalk_at step, judgeDevice, sound, hv, ← stepDone_eq step]
  exact if_pos stands

theorem judgeWalk_closed (stands : standsOpen v.run.state = false) : judgeWalk env n e = judgeClosed env w d e := by
  have closed : ¬ standsOpen v.run.state = true := by simp [stands]
  rw [judgeWalk_at step, judgeDevice, sound, hv]
  exact if_neg closed

end

section
variable {env : Env} {w : Walk} {d : Nat} {o : Order} {e : Ev}

theorem judgeClosed_awaits (order : orderOf e.toCore d = some o) (kept : ¬ (o.state = .queued ∧ o.cls ≠ .isolation)) :
    judgeClosed env w d e = { e with
      walks := othersThan w.entry e.walks ++ [{ w with cond := .awaiting d }], room := e.room.filter (· != w.entry) } := by
  unfold judgeClosed
  rw [order]
  cases state : o.state with
  | sent => simp [state, waitFor, putWalk, leaveRoom, othersThan]
  | queued =>
    have isolation : o.cls = .isolation := by simpa [state] using kept
    simp [state, isolation, waitFor, putWalk, leaveRoom, othersThan]

theorem judgeClosed_taken (order : orderOf e.toCore d = some o) (queued : o.state = .queued) (cls : o.cls ≠ .isolation) :
    judgeClosed env w d e = if e.recovery.recovering then stepInRoom w d e
      else queueIsolation env w d (withdraw .isolationOverride d e) := by
  unfold judgeClosed
  rw [order]
  cases class_ : o.cls with
  | isolation => exact absurd class_ cls
  | manual => simp only [queued, class_, waitRoom_eq]
  | poll => simp only [queued, class_, waitRoom_eq]

theorem judgeClosed_free (order : orderOf e.toCore d = none) (running : e.mode ≠ .halted) :
    judgeClosed env w d e = if e.recovery.recovering = false ∧ e.orders.length < 16 then queueIsolation env w d e
      else stepInRoom w d e := by
  have granted : grants e.toCore d = true ↔ e.recovery.recovering = false ∧ e.orders.length < 16 := by
    simp [grants, healthy, order, running, show Config.orders = 16 from rfl]
  unfold judgeClosed
  rw [order]
  simp only [granted, waitRoom_eq]

end

/-- A walk's order takes the place of a QUEUED one behind a busy link. -/
theorem queueIsolation_withdrawn (env : Env) {w : Walk} {d : Nat} {o : Order} {v : Device} {e : Ev}
    (order : orderOf e.toCore d = some o) (hv : entryAt e.devices d = some v) (busy : e.linkTx.isSome = true) :
    queueIsolation env w d (orderWithdrawn .isolationOverride o v e)
      = stepOrdered w d v (orderWithdrawn .isolationOverride o v e) := by
  obtain rfl := orderOf_device order
  have written : entryAt (orderWithdrawn .isolationOverride o v e).devices o.device
      = some { v with run := { v.run with currentOrder := none } } :=
    (entryAt_putAt _ _ _ _ (entryAt_lt hv)).trans (if_pos rfl)
  have good : badAt (orderWithdrawn .isolationOverride o v e).devices o.device = false :=
    (badAt_putAt _ _ _ _).trans (if_pos rfl)
  rw [queueIsolation_busy env written good busy]
  simp only [stepOrdered, orderWithdrawn, putAt_putAt]

theorem mem_walksWhere (c : Core) (f : Walk → Bool) (n : Nat) :
    n ∈ walksWhere c f ↔ n < 32 ∧ ∃ w, walkOf c n = some w ∧ f w = true := by
  rw [walksWhere, List.mem_filter, List.mem_range]
  refine and_congr_right fun _ => ?_
  cases walkOf c n <;> simp

/-! ### ISOLATE_CASE (R98, R114 to R124) -/

theorem isolateCase_confirmed {x : CaseName} {k : Case} {e : Ev} (sound : AllSound e.toCore) (state : k.state = .confirmed) :
    isolateCase x k e = (isolate x.entry .command e, plain .accepted) := by
  simp only [isolateCase, state]
  exact reading_sound _ _ _ fun r _ => isBad_of_allSound sound r

theorem isolateCase_elsewhere (x : CaseName) {k : Case} (e : Ev) (state : k.state ≠ .confirmed) :
    isolateCase x k e = (e, plain .wrongCaseState) := by
  unfold isolateCase
  cases h : k.state with
  | confirmed => exact absurd h state
  | watch => rfl
  | isolating => rfl
  | isolated => rfl
  | blocked => rfl

/-- The blocks of a case whose walk has queued the order of its first step behind a busy link. -/
def firstOrdered (n i d : Nat) (late : Bool) (k : Case) (r : IsolationRecord) (v : Device) (c : Core) : Core :=
  let number := (c.orderNumber + 1) % 256
  { withCase n { k with
      state := .isolating, isolation := some { r with plan := some i, step := 0, depth := 0, late := late } } c with
    orderNumber := number
    orders := c.orders ++
      [{ number := number, device := d, action := .open_, cls := .isolation, origin := .case k.serial
         state := .queued, resend := false, sends := none, deadline := none, left := false }]
    devices := putAt c.devices d (some { v with run := { v.run with currentOrder := some number } })
    walks := othersThan n c.walks ++ [{ firstWalk n k with cond := .ordered number d }]
    room := c.room.filter (· != n) }

theorem walkOf_added {c : Core} {n : Nat} {w : Walk} {ws : List Walk} (entry : w.entry = n)
    (h : c.walks = othersThan n ws ++ [w]) : walkOf c n = some w := by
  have others : (othersThan n ws).find? (fun x => x.entry == n) = none := by
    simp [othersThan, List.find?_eq_none]
  simp [walkOf, h, others, entry]

theorem othersThan_added {n : Nat} {w : Walk} (ws : List Walk) (entry : w.entry = n) :
    othersThan n (othersThan n ws ++ [w]) = othersThan n ws := by
  simp [othersThan, List.filter_append, entry]

/-- What the order of a step tells of. -/
def overrideTold (c : Core) (w : Walk) (d : Nat) : List Emit :=
  (reservationOf c d).toList.map fun q => .tell (.only q) (.isolationOverride d ((c.orderNumber + 1) % 256) w.serial)

theorem overrideTold_tells (c : Core) (w : Walk) (d : Nat) : TellsOnly (overrideTold c w d) :=
  ⟨(reservationOf c d).toList.map fun q => (.only q, .isolationOverride d ((c.orderNumber + 1) % 256) w.serial), by
    simp [overrideTold]⟩

theorem stepOrdered_out (w : Walk) (d : Nat) (v : Device) (e : Ev) :
    (stepOrdered w d v e).out = e.out ++ overrideTold e.toCore w d := by
  simp only [stepOrdered, overrideTold]
  cases reservationOf e.toCore d <;> rfl

section
variable {env : Env} {n i d : Nat} {reason : CaseReason} {k : Case} {r : IsolationRecord} {e : Ev} {sg : Segment}
  {pl : Plan} {rest : List Nat} {v : Device} (well : healthy e.toCore = true) (sound : AllSound e.toCore)
  (hk : entryAt e.cases n = some k) (readable : k.unreadable = [])
  (hpl : entryAt e.plans i = some pl) (steps : pl.steps = d :: rest)
  (hv : entryAt e.devices d = some v) (stands : standsOpen v.run.state = false) (unordered : e.orders = [])
  (busy : e.linkTx.isSome = true)
include well sound hk readable hpl steps hv stands unordered busy

/-- The first step of a walk, whose device stands closed, is ordered. -/
theorem judgeWalk_first (late : Bool) (xs : List Emit) :
    judgeWalk env n (walkBegun n i late xs reason k r e)
      = stepOrdered (firstWalk n k) d v (walkBegun n i late xs reason k r e) := by
  obtain ⟨running, calm⟩ := (healthy_iff e.toCore).1 well
  obtain ⟨-, -, devices, plans, cases⟩ := sound
  have step : AtStep n (firstWalk n k) { k with
      state := .isolating, isolation := some { r with plan := some i, step := 0, depth := 0, late := late } }
      { r with plan := some i, step := 0, depth := 0, late := late } pl d (walkBegun n i late xs reason k r e) :=
    { running := running
      walk := walkOf_added rfl rfl
      place := rfl
      occupied := (entryAt_withCase hk _ n).trans (if_pos rfl)
      caseMatches := sound_set cases n _ n
      readable := readable
      record := rfl
      stored := ⟨i, rfl, plans i, hpl⟩
      names := by simp [steps] }
  have orders : (walkBegun n i late xs reason k r e).orders = [] := unordered
  have order : orderOf (walkBegun n i late xs reason k r e).toCore d = none := by simp [orderOf, orders]
  rw [judgeWalk_closed step (devices d) hv stands, judgeClosed_free order running,
    if_pos ⟨calm, by simp [orders]⟩]
  exact queueIsolation_busy env hv (devices d) busy

/-- A case sent to ISOLATING, whose plan's first device stands closed, waits for the order it queues. -/
theorem settle_begin_ordered (hsg : entryAt e.segments k.segment = some sg) (hplan : sg.plan = some i)
    (idle : e.todo = []) : ∃ late xs, TellsOnly xs ∧
    settle env (later [.begin n] (isolationTold n reason k r e))
      = { e with toCore := firstOrdered n i d late k r v e.toCore, out := e.out ++ xs } := by
  have planned : planFor e.toCore k = some i := by simp [planFor, hsg, hplan]
  obtain ⟨late, xs, tells, begun⟩ :=
    beginWalk_planned (env := env) (reason := reason) (r := r) well sound.2.2.2.2 hk planned
  have ordered := judgeWalk_first (env := env) (reason := reason) (r := r) well sound hk readable hpl steps hv stands
    unordered busy late xs
  have todo : (later [.begin n] (isolationTold n reason k r e)).todo = [.begin n] := by
    simp [later, isolationTold, idle]
  have clear : { later [.begin n] (isolationTold n reason k r e) with todo := [] } = isolationTold n reason k r e := by
    simp [later, isolationTold, idle]
  have out := stepOrdered_out (firstWalk n k) d v (walkBegun n i late xs reason k r e)
  refine ⟨late, caseTold n k (some .confirmed) (some .isolating) reason none e.time.now :: xs
      ++ overrideTold e.toCore (firstWalk n k) d,
    tellsOnly_append (tellsOnly_append (tellsOnly_one _ _) tells) (overrideTold_tells _ _ _), ?_⟩
  rw [settle, todo]
  refine (runWork_two (n := 65534) (x := .judge n) (e' := walkBegun n i late xs reason k r e)
    (by rw [clear]; exact begun) idle ordered idle).trans ((runWork_nil _ _ _).trans ?_)
  have eta : stepOrdered (firstWalk n k) d v (walkBegun n i late xs reason k r e)
      = { e with
          toCore := (stepOrdered (firstWalk n k) d v (walkBegun n i late xs reason k r e)).toCore
          out := (stepOrdered (firstWalk n k) d v (walkBegun n i late xs reason k r e)).out } := rfl
  rw [eta, out]
  have walks := othersThan_added (n := n) (w := firstWalk n k) e.walks rfl
  simp only [stepOrdered, walkBegun, firstOrdered, isolationTold, withCase, List.append_assoc, firstWalk] at walks ⊢
  rw [walks]
  rfl

end

theorem isolateStarts_refused : ∀ (q : Port) (tag : Byte) (x : CaseName) (s : State), Takes q s → Healthy s → Controls q s →
    x.entry < 32 → badAt (heard q s).core.cases x.entry = false →
    ((∀ k, entryAt (heard q s).core.cases x.entry = some k → k.serial ≠ x.serial) →
      exec (.isolateCase q tag (.ok x)) s = .next (refused q 0x1A tag .noSuchItem s))
    ∧ ∀ k, entryAt (heard q s).core.cases x.entry = some k → k.serial = x.serial → k.state ≠ .confirmed →
      exec (.isolateCase q tag (.ok x)) s = .next (refused q 0x1A tag .wrongCaseState s) := by
  intro q tag x s taken well controls inside sound
  refine ⟨fun missing => ?_, fun k there serial elsewhere => ?_⟩
  · exact exec_refused rfl taken (caseCommand_missing well (fun _ => controls) inside sound _ missing)
  · exact exec_refused rfl taken ((caseCommand_named (changes := true) well (fun _ => controls) inside sound isolateCase
      there serial).trans (viaCore_same (isolateCase_elsewhere x _ elsewhere)))

/-- Settles O39: a CONFIRMED case is sent to ISOLATING, and its walk judged step by step. -/
theorem isolateCaseStarts : Obligations.IsolateCaseStarts := by
  refine ⟨isolateStarts_refused, ?_, ?_, ?_, ?_, ?_⟩
  · intro q tag x k r s taken well controls inside p c sound unclosed there serial readable record
    have well' : healthy (startEvent c).toCore = true := healthy_heard q well
    have named := caseCommand_named (changes := true) well (fun _ => controls) inside (sound.2.2.2.2 x.entry) isolateCase
      there serial
    refine ⟨fun confirmed unplanned => ?_,
      fun sg i pl d rest v confirmed hsg hplan hpl steps hv stands unordered busy => ?_⟩
    · refine exec_replied rfl taken (named.trans (viaCore_settled (e := isolate x.entry .command (startEvent c))
        (isolateCase_confirmed sound confirmed)
        (settle_isolated_blocked well' sound unclosed there confirmed readable record unplanned rfl) rfl rfl rfl))
    · obtain ⟨late, xs, tells, settled⟩ := settle_begin_ordered (env := envOf p) (reason := .command) (r := r) well' sound there
        readable hpl steps hv stands unordered busy hsg hplan rfl
      have means : meaning (.isolateCase q tag (.ok x)) (heard q s)
          = (outcome xs (firstOrdered x.entry i d late k r v c) p, plain .accepted) := by
        refine named.trans (viaCore_settled (e := isolate x.entry .command (startEvent c))
          (e' := { startEvent c with toCore := firstOrdered x.entry i d late k r v c, out := [] ++ xs })
          (isolateCase_confirmed sound confirmed) ?_ rfl rfl rfl)
        rw [isolate_unclosed well' sound unclosed there confirmed readable record]
        exact settled
      have core : (replied q 0x1A tag .accepted .empty (outcome xs (firstOrdered x.entry i d late k r v c) p) s).part.core
          = firstOrdered x.entry i d late k r v c := by simp [replied]
      have cases := entryAt_withCase there { k with
        state := .isolating, isolation := some { r with plan := some i, step := 0, depth := 0, late := late } }
      have devices := fun m => entryAt_putAt c.devices d m
        (some { v with run := { v.run with currentOrder := some ((c.orderNumber + 1) % 256) } }) (entryAt_lt hv)
      refine ⟨_, exec_replied rfl taken means, answered_replied means, keepsRest_told q _ tag _ _ tells _ s, ?_⟩
      rw [core]
      refine ⟨⟨late, (cases x.entry).trans (if_pos rfl)⟩, by simp [firstOrdered, unordered], rfl, walkOf_added rfl rfl,
        (devices d).trans (if_pos rfl), fun m other => (devices m).trans (if_neg other),
        fun m other => (cases m).trans (if_neg other), rfl, rfl, rfl, rfl, rfl, rfl, rfl, rfl⟩
  · intro n reason k r o v e running calm sound there confirmed readable record only close hv
    have well : healthy e.toCore = true := (healthy_iff e.toCore).2 ⟨running, calm⟩
    refine ⟨fun ⟨queued, barred⟩ => ?_, fun stays => ?_⟩
    · rw [isolate_eq well sound there confirmed readable record,
        withdrawBarredBySegment_one (e := isolationTold n reason k r e) (allSound_withCase sound _ _) only close hv running queued barred]
      rfl
    · rw [isolate_eq well sound there confirmed readable record,
        withdrawBarredBySegment_stays (e := isolationTold n reason k r e) (allSound_withCase sound _ _) only hv stays]
      rfl
  · intro env n w k r pl d e step
    refine ⟨ownDone_at step, judgeWalk_undefined step, fun v sound hv => ⟨judgeWalk_open step sound hv,
      fun stands => ⟨fun o order => ⟨fun kept => ?_, fun taken recovering => ?_, fun taken calm busy => ?_⟩,
        fun order => ⟨fun held => ?_, fun calm room busy => ?_⟩⟩⟩⟩
    · rw [judgeWalk_closed step sound hv stands, judgeClosed_awaits order kept, step.place]
    · rw [judgeWalk_closed step sound hv stands, judgeClosed_taken order taken.1 taken.2, if_pos recovering]
    · rw [judgeWalk_closed step sound hv stands, judgeClosed_taken order taken.1 taken.2, if_neg (by simp [calm]),
        withdraw_queued .isolationOverride order taken.1 hv sound step.running]
      exact queueIsolation_withdrawn env order hv busy
    · rw [judgeWalk_closed step sound hv stands, judgeClosed_free order step.running, if_neg]
      rintro ⟨calm, room⟩
      obtain recovering | full := held
      · exact nomatch recovering.symm.trans calm
      · omega
    · rw [judgeWalk_closed step sound hv stands, judgeClosed_free order step.running, if_pos ⟨calm, room⟩,
        queueIsolation_busy env hv sound busy]
  · intro env n d w e running inside hw
    refine ⟨fun awaiting => ⟨?_, ?_, ?_⟩, fun room => ⟨?_, ?_⟩, fun number ordered => ?_⟩
    · rw [announce, if_neg running]
      simp [later, mem_walksWhere, inside, hw, awaits, awaiting]
    · rw [deviceOpened, if_neg running]
      simp [later, mem_walksWhere, inside, hw, waitsOn, awaiting]
    · simp [rejudge, hw, awaiting]
    · rw [deviceOpened, if_neg running]
      simp [later, mem_walksWhere, inside, hw, waitsOn, room]
    · simp [rejudge, hw, room]
    · simp [rejudge, hw, ordered]
  · intro d n rest e running
    refine ⟨?_, fun room => ?_, fun empty => ?_, fun stays => ?_, fun left => ?_⟩
    · rw [announce, if_neg running]
      exact (List.suffix_append _ _).trans (List.suffix_append _ _)
    · simp [judgeRoom, room, running, later]
    · simp [judgeRoom, empty]
    · simp [judgeRoomNext, stays]
    · simp [judgeRoomNext, left, later]

end Sys2Proof.Machine
end

