-- ==== Sys2Proof/Proofs/HeldWork.lean ====
section
/-! PROOF. The polls that fall due, and the work a recovery held back. -/

namespace Sys2Proof.Machine

theorem happen_settled {f : Env → Ev → Ev} {s : State} {e e' : Ev} {xs : List Emit} {core : Core}
    (runs : blocksRun s.part = true) (h : f (envOf s.part) (startEvent s.part.core) = e)
    (done : settle (envOf s.part) e = e') (store : e'.storeFailed = false) (out : e'.out = xs) (blocks : e'.toCore = core) :
    happen f s = .next (ended (outcome xs core s.part) s) := by
  rw [happen_eq f s runs, runEvent_eq, h, done, commit_eq _ _ store, out, blocks]

/-! ### Polls (R147, R148) -/

theorem pollDue_iff {c : Core} {d : Nat} {v : Device} (hv : entryAt c.devices d = some v) :
    pollDue c d = true ↔ c.mode = .monitoring ∧ (v.run.state = .unknown ∨ v.run.reachable = false)
      ∧ ∃ t, v.run.nextPoll = some t ∧ reached c.time.now t = true := by
  unfold pollDue pollEligible
  rw [hv]
  cases poll : v.run.nextPoll <;> simp [poll, and_assoc]

/-- A request that only one device is due for, where the link is busy. -/
theorem pollsRequested_alone {s : Settings} {c : Core} {d : Nat} {v : Device} (mode : c.mode = .monitoring)
    (inside : d < 24) (hv : entryAt c.devices d = some v) (due : pollDue c d = true)
    (alone : ∀ m, m ≠ d → pollDue c m = false) (unordered : orderOf c d = none) (room : c.orders.length < 16)
    (busy : c.linkTx.isSome = true) : pollsRequested s c = ([], pollsFor s [d] c) := by
  have takes : ∀ m, pollTakes c m = decide (m = d) := by
    intro m
    have found : pollTakes c m = (pollDue c m && (orderOf c m).isNone) := by rw [pollDue_eq mode, pollTakes]
    by_cases same : m = d
    · subst same
      simp [found, due, unordered]
    · simp [found, alone m same, same]
  have filtered : (List.range 24).filter (pollTakes c) = [d] := by
    have one : (List.range 24).filter (pollTakes c) = (List.range 24).filter (· == d) :=
      List.filter_congr fun m _ => (takes m).trans (by simp [Bool.beq_eq_decide_eq])
    rw [one, List.filter_beq, List.count_eq_one_of_mem List.nodup_range (List.mem_range.2 inside), List.replicate_one]
  have taken : takenFrom c (List.range 24) = [d] := by
    rw [takenFrom, filtered, List.take_of_length_le]
    rw [List.length_singleton]
    omega
  rw [pollsRequested_eq, taken, asked_busy _ _ busy]

/-- The poll queued for one device, whose entry matches. -/
theorem pollsFor_at (s : Settings) {c : Core} {d : Nat} {v : Device} (sound : Sound c.devices)
    (hv : entryAt c.devices d = some v) : pollsFor s [d] c = { c with
      orderNumber := (c.orderNumber + 1) % 256
      orders := c.orders ++ [pollOrder ((c.orderNumber + 1) % 256) d]
      devices := putAt c.devices d (some (polledAs s c.time.now ((c.orderNumber + 1) % 256) v)) } := by
  have devices := updateAt_eq_mapFrom (polledAs s c.time.now ((c.orderNumber + 1) % 256)) sound hv
  rw [updateAt_sound _ hv (sound d)] at devices
  rw [pollsFor_one, devices]
  rfl

/-! ### The work a recovery held back (R174) -/

theorem heldPolls_held {env : Env} {c : Core} (calm : healthy c = true) (held : c.held.polls = true) :
    heldPolls env (startEvent c) = requestPolls env (startEvent { c with held := { c.held with polls := false } }) :=
  if_pos ⟨calm, held⟩

theorem heldAuthority_held {env : Env} {c : Core} (calm : healthy c = true) (held : c.held.authority = true) :
    heldAuthority env (startEvent c)
      = (moveReason env c).elim (startEvent { c with held := { c.held with authority := false } })
          fun reason => isolateConfirmed reason (startEvent { c with held := { c.held with authority := false } }) := by
  unfold heldAuthority
  rw [if_pos ⟨calm, held⟩]
  have same : moveReason env (startEvent { c with held := { c.held with authority := false } }).toCore = moveReason env c :=
    rfl
  rw [← same]
  simp only [startEvent]
  cases moveReason env _ <;> rfl

theorem heldRoom_held {c : Core} (calm : healthy c = true) (held : c.held.room = true) :
    heldRoom (startEvent c)
      = later (c.room.map Work.rejudge) (startEvent { c with held := { c.held with room := false } }) :=
  if_pos ⟨calm, held⟩

/-- A walk whose case and plan are read is judged at its step. -/
theorem judgeWalk_reaches {env : Env} {n i d : Nat} {w : Walk} {k : Case} {r : IsolationRecord} {pl : Plan} {e : Ev}
    (running : e.mode ≠ .halted) (hw : walkOf e.toCore n = some w) (caseGood : badAt e.cases n = false)
    (hk : entryAt e.cases n = some k) (record : k.isolation = some r) (plan : r.plan = some i)
    (planGood : badAt e.plans i = false) (hpl : entryAt e.plans i = some pl) (names : pl.steps[r.step]? = some d) :
    judgeWalk env n e = judgeDevice env w k r pl d e := by
  simp [judgeWalk, withStep, running, hw, caseGood, hk, record, plan, planGood, hpl, names]

theorem judgeDevice_closed {env : Env} {w : Walk} {k : Case} {r : IsolationRecord} {pl : Plan} {d : Nat} {v : Device}
    {e : Ev} (good : badAt e.devices d = false) (hv : entryAt e.devices d = some v)
    (stands : standsOpen v.run.state = false) : judgeDevice env w k r pl d e = judgeClosed env w d e := by
  simp [judgeDevice, good, hv, stands]

theorem rejudge_room {env : Env} {n : Nat} {w : Walk} {old : Option Nat} {e : Ev} (hw : walkOf e.toCore n = some w)
    (cond : w.cond = .room old) : rejudge env n e = judgeWalk env n e := by
  simp [rejudge, hw, cond]

theorem moveReason_advise {env : Env} {c : Core} (advise : env.settings.authority ≠ 1)
    (present : c.supervision.absent = false) : moveReason env c = none := by
  simp [moveReason, advise, unattended, present]

theorem moveReason_auto {env : Env} (c : Core) (auto : env.settings.authority = 1) :
    moveReason env c = some .authority := if_pos auto

/-- Settles O57: the polls due are requested, and the work held back is done. -/
theorem pollsAndHeldWork : Obligations.PollsAndHeldWork := by
  intro s runs well p c number order polled due alone requested
  have well' : healthy c = true := (healthy_iff c).2 well
  have dueIff : ∀ d v, entryAt c.devices d = some v → (pollDue c d = true ↔ due v) := fun d v hv => pollDue_iff hv
  have others : ∀ d, alone d → ∀ m, m ≠ d → pollDue c m = false := by
    intro d only m other
    cases hu : entryAt c.devices m with
    | none => simp [pollDue, hu]
    | some u => exact Bool.eq_false_iff.2 fun isDue => only m u other hu ((dueIff m u hu).1 isDue)
  refine ⟨fun d v inside hv => ⟨fun idle => ?_, fun isDue full => ?_, fun isDue ⟨mode, room, sound, link⟩ => ?_,
    fun isDue only unordered room sound busy => ?_⟩, fun held => ⟨fun quiet => ?_, fun full => ?_,
      fun ⟨mode, room, sound, link⟩ => ?_, fun d v inside hv isDue only unordered room sound busy => ?_⟩,
    fun held => ⟨fun advise present => ?_, fun n k r auto sound unclosed only hk readable record unplanned => ?_⟩,
    fun held => ⟨fun empty => ?_, fun n w k r i pl d v old room hw entry cond caseGood hk record plan planGood hpl names
      deviceGood hv stands unordered space busy free => ?_⟩⟩
  · exact happen_same runs (pollFallsDue_quiet _ d _ (Bool.eq_false_iff.2 fun h => idle ((dueIff d v hv).1 h)))
  · refine happen_same runs ((pollFallsDue_due _ d _ ((dueIff d v hv).2 isDue)).trans ?_)
    exact requestPolls_full _ _ full
  · refine happen_done runs ((pollFallsDue_due _ d _ ((dueIff d v hv).2 isDue)).trans
      (requestPolls_eq (e := startEvent c) mode well' sound link)) rfl rfl rfl rfl
  · have asked := pollsRequested_alone (s := p.settings) isDue.1 inside hv ((dueIff d v hv).2 isDue) (others d only) unordered
      room busy
    refine happen_done runs ((pollFallsDue_due _ d _ ((dueIff d v hv).2 isDue)).trans
      (requestPolls_eq (e := startEvent c) isDue.1 well' sound (.inl busy))) rfl rfl ?_ ?_
    · exact congrArg Prod.fst asked
    · exact (congrArg Prod.snd asked).trans (pollsFor_at p.settings sound hv)
  · exact happen_done runs ((heldPolls_held well' held).trans (requestPolls_quiet _ _ quiet)) rfl rfl rfl rfl
  · exact happen_done runs ((heldPolls_held well' held).trans (requestPolls_full _ _ full)) rfl rfl rfl rfl
  · exact happen_done runs ((heldPolls_held well' held).trans
      (requestPolls_eq (e := startEvent { c with held := { c.held with polls := false } }) mode well' sound link))
      rfl rfl rfl rfl
  · have asked := pollsRequested_alone (s := p.settings) (c := { c with held := { c.held with polls := false } }) isDue.1
      inside hv ((dueIff d v hv).2 isDue) (others d only) unordered room busy
    refine happen_done runs ((heldPolls_held well' held).trans
      (requestPolls_eq (e := startEvent { c with held := { c.held with polls := false } }) isDue.1 well' sound (.inl busy)))
      rfl rfl ?_ ?_
    · exact congrArg Prod.fst asked
    · exact (congrArg Prod.snd asked).trans (pollsFor_at p.settings (c := { c with held := { c.held with polls := false } })
        sound hv)
  · refine happen_done (e := startEvent { c with held := { c.held with authority := false } }) runs
      ((heldAuthority_held well' held).trans ?_) rfl rfl rfl rfl
    rw [moveReason_advise (env := envOf p) advise present]
    rfl
  · have state : k.state = .confirmed := by
      have mem : n ∈ confirmedCases c := by rw [only]; exact List.mem_singleton_self n
      obtain ⟨k', at', confirmed⟩ := (mem_entriesWhere _ _ _).1 mem
      rw [hk] at at'
      cases at'
      simpa using confirmed
    refine happen_settled runs ((heldAuthority_held well' held).trans ?_)
      (settle_isolate_blocked (e := startEvent { c with held := { c.held with authority := false } }) well' sound unclosed hk
        state readable record unplanned rfl) rfl rfl rfl
    rw [moveReason_auto c (env := envOf p) auto]
    refine (isolateConfirmed_sound .authority (startEvent { c with held := { c.held with authority := false } }) well'
      sound.2.2.2.2).trans ?_
    exact congrArg (fun l : List Nat => later (l.map fun n => Work.isolate n .authority) _) only
  · refine happen_done (e := startEvent { c with held := { c.held with room := false } }) runs
      ((heldRoom_held well' held).trans ?_) rfl rfl rfl rfl
    rw [empty]
    rfl
  · have judged : doWork (envOf p) (.rejudge n) (startEvent { c with held := { c.held with room := false } })
        = stepOrdered w d v (startEvent { c with held := { c.held with room := false } }) := by
      refine (rejudge_room (e := startEvent { c with held := { c.held with room := false } }) hw cond).trans ?_
      rw [judgeWalk_reaches (e := startEvent { c with held := { c.held with room := false } }) well.1 hw caseGood hk record
        plan planGood hpl names, judgeDevice_closed deviceGood hv stands, judgeClosed_free unordered well.1,
        if_pos ⟨well.2, space⟩]
      exact queueIsolation_busy _ hv deviceGood busy
    refine happen_settled runs (heldRoom_held well' held) (settle_one (w := .rejudge n) ?_ judged rfl) rfl ?_ ?_
    · have todo : c.room.map Work.rejudge = [.rejudge n] := by
        rw [room]
        rfl
      exact (List.nil_append _).trans todo
    · have untold : overrideTold c w d = [] := by
        rw [overrideTold, free]
        rfl
      exact (stepOrdered_out w d v (startEvent { c with held := { c.held with room := false } })).trans untold
    · obtain rfl := entry
      have empty : c.room.filter (· != w.entry) = [] := by simp [room]
      exact congrArg (fun l => ({ (stepOrdered w d v
        (startEvent { c with held := { c.held with room := false } })).toCore with room := l } : Core)) empty

end Sys2Proof.Machine
end

