-- ==== Sys2Proof/Proofs/TopologyEdits.lean ====
section
/-! PROOF. The edits of segments and plans, and the CLOSE they withdraw. -/

namespace Sys2Proof.Machine

/-! ### An announcement that no walk and no poll waits for -/

/-- An order that has left the queue is announced to IS and polling; without walks, steps in ROOM or polls due
nothing follows. -/
theorem runWork_announced {env : Env} {n d : Nat} {e : Ev} (walks : e.walks = []) (room : e.room = [])
    (quiet : NoPolls e.toCore) : runWork env (n + 3) [.announce d] e = { e with todo := [] } := by
  have announced : announce d { e with todo := [] }
      = { e with todo := if e.mode = .halted then [] else [.room, .polls] } := by
    have none_ : walksWhere e.toCore (fun w => awaits w == some d) = [] := by
      simp [walksWhere, walkOf, walks]
    unfold announce
    simp only [none_, List.map_nil, List.nil_append, later]
    split <;> rfl
  have judged : judgeRoom { e with todo := [] } = { e with todo := [] } := by simp [judgeRoom, room]
  have polled : doWork env .polls { e with todo := [] } = { e with todo := [] } :=
    requestPolls_quiet env { e with todo := [] } quiet
  rw [runWork_cons]
  simp only [doWork, announced, List.append_nil]
  split
  · exact runWork_nil _ _ _
  · rw [runWork_done (e' := { e with todo := [] }) (by exact judged) rfl,
      runWork_done (e' := { e with todo := [] }) (by exact polled) rfl, runWork_nil]

theorem settle_announced {env : Env} {d : Nat} {e : Ev} (walks : e.walks = []) (room : e.room = [])
    (quiet : NoPolls e.toCore) (todo : e.todo = [.announce d]) : settle env e = { e with todo := [] } := by
  rw [settle, todo]
  exact runWork_announced (n := 65533) walks room quiet

/-! ### The bars on the CLOSE orders (R162) -/

theorem closeReads_eq_nil {c : Core} (h : NoCloses c) : closeReads c = [] := by
  have none_ : c.orders.filter (fun o => o.action == .close) = [] := by
    simp only [List.filter_eq_nil_iff]
    intro o mem
    simp [h o mem]
  rw [closeReads, none_]

theorem sentCloses_eq_nil {c : Core} (h : NoCloses c) : sentCloses c = [] := by
  simp only [sentCloses, List.map_eq_nil_iff, List.filter_eq_nil_iff]
  intro o mem
  simp [h o mem]

theorem bringsUnderHold_none {c : Core} (h : NoCloses c) (edited : List (Checked Segment)) :
    bringsUnderHold c edited = false := by
  rw [bringsUnderHold, sentCloses_eq_nil h]
  rfl

theorem withdrawBarred_none {e : Ev} (h : NoCloses e.toCore) : withdrawBarred e = e :=
  judgeCloses_none _ _ (queuedCloses_eq_nil h)

/-- The reads of an edit that a CLOSE in the queue calls for. -/
theorem closeReads_sound {c : Core} {o : Order} (only : c.orders = [o]) (device : badAt c.devices o.device = false)
    (segments : Sound c.segments) (cases : Sound c.cases) : ∀ r ∈ closeReads c, isBad c r = false := by
  by_cases close : o.action = .close
  · have one : c.orders.filter (fun o => o.action == .close) = [o] := by simp [only, close]
    rw [closeReads, one]
    intro r mem
    simp only [List.mem_append] at mem
    obtain (inDevices | inSegments) | inCases := mem
    · obtain rfl : r = { table := .device, index := o.device } := by simpa [refs] using inDevices
      exact device
    · exact allRefs_segments_sound segments r inSegments
    · exact allRefs_cases_sound cases r inCases
  · have none_ : c.orders.filter (fun o => o.action == .close) = [] := by simp [only, close]
    rw [closeReads, none_]
    simp

section
variable {o : Order} {v : Device} {e : Ev} (only : e.orders = [o]) (close : o.action = .close)
  (hv : entryAt e.devices o.device = some v) (good : badAt e.devices o.device = false)
include only close hv good

omit good in
theorem bringsUnderHold_one (edited : List (Checked Segment)) : bringsUnderHold e.toCore edited
    = decide (o.state = .sent ∧ barredByHold edited e.holds v = true ∧ barredByHold e.segments e.holds v = false) := by
  cases state : o.state with
  | queued =>
    have none_ : sentCloses e.toCore = [] := by simp [sentCloses, only, state]
    rw [bringsUnderHold, none_]
    simp
  | sent =>
    have one : sentCloses e.toCore = [o.device] := by simp [sentCloses, only, close, state]
    rw [bringsUnderHold, one]
    simp [hv]

theorem withdrawBarred_queued (running : e.mode ≠ .halted) (queued : o.state = .queued)
    (barred : barredByHold e.segments e.holds v = true ∨ barredByCase e.toCore e.segments v = true) :
    withdrawBarred e = orderWithdrawn
      (if barredByHold e.segments e.holds v then .workHold else .isolationOverride) o v e := by
  have order : orderOf e.toCore o.device = some o := by simp [orderOf, only]
  have closes : queuedCloses e.toCore = [o.device] := by simp [queuedCloses, only, close, queued]
  have fine : firstBad e.toCore [{ table := .device, index := o.device }] = none :=
    (firstBad_none_iff _ _).2 (readsDevice_sound rfl good)
  rw [withdrawBarred, judgeCloses, closes]
  simp only [List.foldl_cons, List.foldl_nil, fine, Option.isSome_none, Bool.false_eq_true, if_false, hv, running]
  split
  · exact withdraw_queued .workHold order queued hv good running
  · next free =>
    rw [if_pos (barred.resolve_left free)]
    exact withdraw_queued .isolationOverride order queued hv good running

theorem withdrawBarred_stays (stays : o.state = .sent
      ∨ ¬ (barredByHold e.segments e.holds v = true ∨ barredByCase e.toCore e.segments v = true)) :
    withdrawBarred e = e := by
  by_cases queued : o.state = .queued
  · obtain sent | unbarred := stays
    · exact nomatch queued.symm.trans sent
    · have closes : queuedCloses e.toCore = [o.device] := by simp [queuedCloses, only, close, queued]
      have fine : firstBad e.toCore [{ table := .device, index := o.device }] = none :=
        (firstBad_none_iff _ _).2 (readsDevice_sound rfl good)
      obtain ⟨byHold, byCase⟩ := not_or.1 unbarred
      rw [withdrawBarred, judgeCloses, closes]
      simp only [List.foldl_cons, List.foldl_nil, fine, Option.isSome_none, Bool.false_eq_true, if_false, hv, byHold,
        byCase, ite_self]
  · have closes : queuedCloses e.toCore = [] := by simp [queuedCloses, only, queued]
    exact judgeCloses_none _ _ closes

end

/-! ### Segments (R3, R4) -/

/-- Whether an edit strands a case: its segment is defined, and does not carry the case's phase any more. -/
def Strands (x : SegmentEdit) (c : Core) : Prop :=
  (entryAt c.segments x.number).isSome = true
    ∧ ∃ n k, entryAt c.cases n = some k ∧ k.segment = x.number ∧ phaseIn k.phase x.phases = false

/-- The segment an edit defines. -/
def editedSegment (x : SegmentEdit) : Segment :=
  { parent := x.parent, phases := x.phases, plan := x.plan, label := x.label }

theorem strands_iff (x : SegmentEdit) (c : Core) :
    ((entryAt c.segments x.number).isSome
      && !(entriesWhere c.cases fun k => k.segment == x.number && !phaseIn k.phase x.phases).isEmpty) = true
      ↔ Strands x c := by
  rw [Bool.and_eq_true, entriesWhere_nonempty_iff]
  simp [Strands]

theorem segmentEdit_sound {c : Core} {n : Nat} (segments : Sound c.segments) (cases : Sound c.cases)
    (closes : ∀ r ∈ closeReads c, isBad c r = false) :
    ∀ r ∈ { table := .segment, index := n } :: allRefs c .case ++ closeReads c, isBad c r = false := by
  intro r mem
  simp only [List.cons_append, List.mem_cons, List.mem_append] at mem
  obtain rfl | inCases | inCloses := mem
  · exact segments n
  · exact allRefs_cases_sound cases r inCases
  · exact closes r inCloses

section
variable {x : SegmentEdit} {e : Ev} (segments : Sound e.segments) (cases : Sound e.cases)
  (closes : ∀ r ∈ closeReads e.toCore, isBad e.toCore r = false)
include segments cases closes

theorem defineSegment_strands (strands : Strands x e.toCore) : defineSegment x e = (e, plain .inUse) := by
  rw [defineSegment, reading_sound _ _ _ (segmentEdit_sound segments cases closes)]
  simp only [(strands_iff x e.toCore).2 strands]
  refine unlessEv_refuses (select_eq_some List.mem_cons_self fun d holds => ?_) _ e
  simp only [List.mem_cons, Prod.mk.injEq, List.not_mem_nil, or_false] at holds
  obtain ⟨-, rfl⟩ | ⟨-, rfl⟩ := holds <;> decide

variable (free : ¬ Strands x e.toCore)
include free

theorem defineSegment_brings
    (brings : bringsUnderHold e.toCore (putAt e.segments x.number (some (editedSegment x))) = true) :
    defineSegment x e = (e, plain .closeInFlight) := by
  rw [defineSegment, reading_sound _ _ _ (segmentEdit_sound segments cases closes)]
  simp only [Bool.eq_false_iff.2 (free ∘ (strands_iff x e.toCore).1)]
  exact unlessEv_refuses ((select_false _ _).trans (select_shared (by simp) ⟨_, List.mem_singleton_self _, brings⟩)) _ e

theorem defineSegment_free
    (keeps : bringsUnderHold e.toCore (putAt e.segments x.number (some (editedSegment x))) = false) :
    defineSegment x e
      = (withdrawBarred { e with segments := putAt e.segments x.number (some (editedSegment x)) }, plain .accepted) := by
  rw [defineSegment, reading_sound _ _ _ (segmentEdit_sound segments cases closes)]
  simp only [Bool.eq_false_iff.2 (free ∘ (strands_iff x e.toCore).1)]
  exact unlessEv_passes ((select_false _ _).trans (select_eq_none_iff.2 (by simpa [editedSegment] using keeps))) _ e

end

/-- Whether a segment stands for a case or a hold. -/
def SegmentUsed (n : Nat) (c : Core) : Prop :=
  (∃ m k, entryAt c.cases m = some k ∧ k.segment = n) ∨ ∃ h, c.holds[n]? = some (some h)

theorem isHeld_iff (c : Core) (n : Nat) : isHeld c n = true ↔ ∃ h, c.holds[n]? = some (some h) := by
  unfold isHeld
  rcases c.holds[n]? with _ | _ | h <;> simp

theorem casesOn_nonempty_iff (c : Core) (n : Nat) :
    (!(casesOn c n).isEmpty) = true ↔ ∃ m k, entryAt c.cases m = some k ∧ k.segment = n := by
  rw [casesOn, entriesWhere_nonempty_iff]
  simp

section
variable {n : Nat} {e : Ev} (segments : Sound e.segments) (cases : Sound e.cases)
  (closes : ∀ r ∈ closeReads e.toCore, isBad e.toCore r = false)
include segments cases closes

theorem deleteSegment_undefined (none_ : entryAt e.segments n = none) : deleteSegment n e = (e, plain .noSuchItem) := by
  rw [deleteSegment, reading_sound _ _ _ (segmentEdit_sound segments cases closes)]
  refine unlessEv_refuses (select_eq_some (by simp [none_]) fun d holds => ?_) _ e
  simp only [List.mem_cons, Prod.mk.injEq, List.not_mem_nil, or_false] at holds
  obtain ⟨-, rfl⟩ | ⟨-, rfl⟩ | ⟨-, rfl⟩ := holds <;> decide

variable (defined : (entryAt e.segments n).isSome = true)
include defined

theorem deleteSegment_used (used : SegmentUsed n e.toCore) : deleteSegment n e = (e, plain .inUse) := by
  have there : (entryAt e.segments n).isNone = false := by simpa using defined
  rw [deleteSegment, reading_sound _ _ _ (segmentEdit_sound segments cases closes)]
  simp only [there]
  refine unlessEv_refuses ((select_false _ _).trans (select_shared (by simp) ?_)) _ e
  obtain onCase | held := used
  · exact ⟨_, List.mem_cons_self, (casesOn_nonempty_iff e.toCore n).2 onCase⟩
  · exact ⟨_, List.mem_cons_of_mem _ List.mem_cons_self, (isHeld_iff e.toCore n).2 held⟩

theorem deleteSegment_free (free : ¬ SegmentUsed n e.toCore) :
    deleteSegment n e = (withdrawBarred { e with segments := putAt e.segments n none }, plain .accepted) := by
  obtain ⟨uncased, unheld⟩ := not_or.1 free
  have there : (entryAt e.segments n).isNone = false := by simpa using defined
  rw [deleteSegment, reading_sound _ _ _ (segmentEdit_sound segments cases closes)]
  refine unlessEv_passes (select_eq_none_iff.2 ?_) _ e
  simp only [List.forall_mem_cons, there, Bool.eq_false_iff.2 (uncased ∘ (casesOn_nonempty_iff e.toCore n).1),
    Bool.eq_false_iff.2 (unheld ∘ (isHeld_iff e.toCore n).1)]
  simp

end

/-! ### Plans (R104, R105) -/

theorem planReads_sound {c : Core} (plans : Sound c.plans) (cases : Sound c.cases) (n : Nat) :
    ∀ r ∈ planReads c n, isBad c r = false := by
  intro r mem
  obtain rfl | inCases := List.mem_cons.1 mem
  · exact plans n
  · exact refs_sound cases (fun _ => rfl) _ r inCases

theorem stepsBeside_eq (c : Core) (n : Nat) :
    stepsBeside c n = c.stepsInUse - ((entryAt c.plans n).map (·.steps.length)).getD 0 := by
  unfold stepsBeside stepsAt
  cases entryAt c.plans n <;> rfl

section
variable {e : Ev} (plans : Sound e.plans) (cases : Sound e.cases)
include plans cases

theorem definePlan_held {x : PlanEdit} (held : planHeld e.toCore x.number = true) :
    definePlan x e = (e, plain .inUse) := by
  rw [definePlan, reading_sound _ _ _ (planReads_sound plans cases _)]
  refine unlessEv_refuses (select_eq_some (by simp [held]) fun d holds => ?_) _ e
  simp only [List.mem_cons, Prod.mk.injEq, List.not_mem_nil, or_false] at holds
  obtain ⟨-, rfl⟩ | ⟨-, rfl⟩ := holds <;> decide

theorem definePlan_full {x : PlanEdit} (free : planHeld e.toCore x.number = false)
    (full : 192 < stepsBeside e.toCore x.number + x.steps.length) : definePlan x e = (e, plain .planStoreFull) := by
  rw [definePlan, reading_sound _ _ _ (planReads_sound plans cases _)]
  simp only [free]
  exact unlessEv_refuses ((select_false _ _).trans (select_shared (by simp)
    ⟨_, List.mem_singleton_self _, decide_eq_true full⟩)) _ e

theorem definePlan_free {x : PlanEdit} (free : planHeld e.toCore x.number = false)
    (room : stepsBeside e.toCore x.number + x.steps.length ≤ 192) :
    definePlan x e = ({ e with
      plans := putAt e.plans x.number (some { segment := x.segment, steps := x.steps, fallback := x.fallback })
      stepsInUse := stepsBeside e.toCore x.number + x.steps.length }, plain .accepted) := by
  have fits : decide (Config.stepPool < stepsBeside e.toCore x.number + x.steps.length) = false :=
    decide_eq_false (Nat.not_lt.2 room)
  rw [definePlan, reading_sound _ _ _ (planReads_sound plans cases _)]
  exact unlessEv_passes (select_eq_none_iff.2 (by simp [free, fits])) _ e

theorem deletePlan_undefined {n : Nat} (none_ : entryAt e.plans n = none) : deletePlan n e = (e, plain .noSuchItem) := by
  rw [deletePlan, reading_sound _ _ _ (planReads_sound plans cases _)]
  refine unlessEv_refuses (select_eq_some (by simp [none_]) fun d holds => ?_) _ e
  simp only [List.mem_cons, Prod.mk.injEq, List.not_mem_nil, or_false] at holds
  obtain ⟨-, rfl⟩ | ⟨-, rfl⟩ := holds <;> decide

theorem deletePlan_held {n : Nat} (defined : (entryAt e.plans n).isSome = true) (held : planHeld e.toCore n = true) :
    deletePlan n e = (e, plain .inUse) := by
  have there : (entryAt e.plans n).isNone = false := by simpa using defined
  rw [deletePlan, reading_sound _ _ _ (planReads_sound plans cases _)]
  simp only [there]
  exact unlessEv_refuses ((select_false _ _).trans (select_shared (by simp) ⟨_, List.mem_singleton_self _, held⟩)) _ e

theorem deletePlan_free {n : Nat} {v : Plan} (hv : entryAt e.plans n = some v) (free : planHeld e.toCore n = false) :
    deletePlan n e
      = ({ e with plans := putAt e.plans n none, stepsInUse := e.stepsInUse - v.steps.length }, plain .accepted) := by
  have beside : stepsBeside e.toCore n = e.stepsInUse - v.steps.length := by simp [stepsBeside_eq, hv]
  rw [deletePlan, reading_sound _ _ _ (planReads_sound plans cases _), ← beside]
  exact unlessEv_passes (select_eq_none_iff.2 (by simp [hv, free])) _ e

end

/-! ### The edits as commands -/

section
variable {c : Instr} {q : Port} {kind : Nat} {tag : Byte} {m : Bool} {s : State} {f : Env → Ev → Ev × Answer}
  {segments : List (Checked Segment)} {o : Order} {v : Device} {r : Port} {t : Byte}
  (sent : sentBy c = some ⟨q, kind, tag, m⟩) (may : MayEdit q s)
  (eq : meaning c (heard q s) = viaCore f (heard q s))
  (h : f (envOf (heard q s)) (startEvent (heard q s).core)
    = (withdrawBarred { startEvent (heard q s).core with segments := segments }, plain .accepted))
  (only : (heard q s).core.orders = [o]) (close : o.action = .close)
  (hv : entryAt (heard q s).core.devices o.device = some v) (good : badAt (heard q s).core.devices o.device = false)
include sent may eq h only close hv good

/-- An edit that bars the device of the one order, a QUEUED CLOSE, withdraws it and tells its port. -/
theorem exec_edit_withdraws (cls : o.cls = .manual) (origin : o.origin = .port r t) (queued : o.state = .queued)
    (barred : barredByHold segments (heard q s).core.holds v = true
      ∨ barredByCase (heard q s).core segments v = true)
    (walks : (heard q s).core.walks = []) (room : (heard q s).core.room = []) :
    exec c s = .next (replied q kind tag .accepted .empty
      (outcome [.tell (.only r) (.order
          { tag := t, number := o.number, device := o.device, action := .close, outcome := .withdrawn
            state := v.run.state, retries := o.sends.getD 0 - 1, refusal := none
            withdrawal := some
              (if barredByHold segments (heard q s).core.holds v then .workHold else .isolationOverride)
            time := (heard q s).core.time.now })]
        { (heard q s).core with
          segments := segments, orders := []
          devices := putAt (heard q s).core.devices o.device
            (some { v with run := { v.run with currentOrder := none } }) } (heard q s)) s) := by
  have mode : (heard q s).core.mode = .configuring := (heard_mode q s).trans may.2.2.1
  have running : (heard q s).core.mode ≠ .halted := by
    rw [mode]
    exact fun h => nomatch h
  have withdrawn := withdrawBarred_queued (e := { startEvent (heard q s).core with segments := segments }) only close hv
    good running queued barred
  have settled := settle_announced (env := envOf (heard q s)) (d := o.device)
    (e := withdrawBarred { startEvent (heard q s).core with segments := segments })
    (by rw [withdrawn]; exact walks) (by rw [withdrawn]; exact room)
    (by rw [withdrawn]; intro monitoring; exact nomatch mode.symm.trans monitoring) (by rw [withdrawn]; rfl)
  refine exec_replied sent may.1 (eq.trans (viaCore_settled h settled ?_ ?_ ?_))
  · rw [withdrawn]
    rfl
  · rw [withdrawn]
    simp only [orderWithdrawn, cls, origin, close]
    rfl
  · rw [withdrawn]
    simp [orderWithdrawn, only, startEvent]

/-- An edit that leaves the one order, a CLOSE, in the queue. -/
theorem exec_edit_keeps (stays : o.state = .sent
      ∨ ¬ (barredByHold segments (heard q s).core.holds v = true ∨ barredByCase (heard q s).core segments v = true)) :
    exec c s = .next (replied q kind tag .accepted .empty
      (outcome [] { (heard q s).core with segments := segments } (heard q s)) s) := by
  have same := withdrawBarred_stays (e := { startEvent (heard q s).core with segments := segments }) only close hv good
    stays
  exact exec_replied sent may.1 (eq.trans (viaCore_done (h.trans (congrArg (·, plain .accepted) same)) rfl rfl rfl rfl))

end

theorem optBelow_true {n : Option Nat} {bound : Nat} (h : ∀ m, n = some m → m < bound) : optBelow n bound = true := by
  cases n with
  | none => rfl
  | some m => exact decide_eq_true (h m rfl)

theorem meaning_defineSegment {q : Port} {tag : Byte} {x : SegmentEdit} (p : Part)
    (phases : phasesNonempty x.phases = true) : meaning (.defineSegment q tag (.ok x)) p
      = unless_ (editConditions p q (segmentInRange x)) (viaCore fun _ e => defineSegment x e) p := by
  rw [meaning, onBody_ok, phases]
  rfl

theorem meaning_definePlan {q : Port} {tag : Byte} {x : PlanEdit} (p : Part) (steps : stepsWellFormed x.steps = true) :
    meaning (.definePlan q tag (.ok x)) p
      = unless_ (editConditions p q (planInRange x)) (viaCore fun _ e => definePlan x e) p := by
  rw [meaning, onBody_ok, steps]
  rfl

theorem segmentInRange_true {x : SegmentEdit} (number : x.number < 96) (parent : ∀ n, x.parent = some n → n < 96)
    (plan : ∀ n, x.plan = some n → n < 48) (label : x.label < 65536) : segmentInRange x = true := by
  simp [segmentInRange, Config.segments, Config.plans, number, optBelow_true parent, optBelow_true plan, label]

theorem planInRange_true {x : PlanEdit} (number : x.number < 48) (segment : x.segment < 96) (devices : ∀ d ∈ x.steps, d < 24)
    (fallback : ∀ n, x.fallback = some n → n < 48) : planInRange x = true := by
  have all : x.steps.all (fun d => decide (d < Config.devices)) = true :=
    List.all_eq_true.2 fun d mem => decide_eq_true (devices d mem)
  rw [planInRange, all, optBelow_true (bound := Config.plans) fallback]
  simp [Config.plans, Config.segments, number, segment]

theorem stepsWellFormed_true {l : List Nat} (least : 1 ≤ l.length) (most : l.length ≤ 8) : stepsWellFormed l = true := by
  simp [stepsWellFormed, Config.planSteps, least, most]

theorem not_strands {x : SegmentEdit} {c : Core}
    (carried : ∀ n k, entryAt c.cases n = some k → k.segment = x.number → phaseIn k.phase x.phases = true) :
    ¬ Strands x c := by
  rintro ⟨-, n, k, there, same, lost⟩
  exact nomatch lost.symm.trans (carried n k there same)

theorem not_segmentUsed {n : Nat} {c : Core} (uncased : ∀ m k, entryAt c.cases m = some k → k.segment ≠ n)
    (unheld : ∀ h, c.holds[n]? ≠ some (some h)) : ¬ SegmentUsed n c := by
  rintro (⟨m, k, there, same⟩ | ⟨h, held⟩)
  · exact uncased m k there same
  · exact unheld h held

/-- A definition with one order, a CLOSE that it does not bring under a hold while SENT. -/
theorem defineSegment_oneClose {x : SegmentEdit} {o : Order} {v : Device} {c : Core} (only : c.orders = [o])
    (close : o.action = .close) (hv : entryAt c.devices o.device = some v) (good : badAt c.devices o.device = false)
    (segments : Sound c.segments) (cases : Sound c.cases)
    (carried : ∀ n k, entryAt c.cases n = some k → k.segment = x.number → phaseIn k.phase x.phases = true)
    (stays : o.state = .queued ∨ ¬ (barredByHold (putAt c.segments x.number (some (editedSegment x))) c.holds v = true
      ∧ barredByHold c.segments c.holds v = false)) :
    defineSegment x (startEvent c)
      = (withdrawBarred { startEvent c with segments := putAt c.segments x.number (some (editedSegment x)) },
        plain .accepted) := by
  refine defineSegment_free (e := startEvent c) segments cases (closeReads_sound only good segments cases)
    (not_strands carried) ((bringsUnderHold_one (e := startEvent c) only close hv _).trans (decide_eq_false ?_))
  rintro ⟨sent, brought⟩
  obtain queued | unbrought := stays
  · exact nomatch queued.symm.trans sent
  · exact unbrought brought

/-- Settles O31: an edit replaces its entry, and withdraws a CLOSE that it bars. -/
theorem segmentAndPlanEdits : Obligations.SegmentAndPlanEdits := by
  intro q tag s may p c
  have edits : ∀ {x : SegmentEdit}, segmentInRange x = true → phasesNonempty x.phases = true →
      meaning (.defineSegment q tag (.ok x)) p = viaCore (fun _ e => defineSegment x e) p :=
    fun inRange phases => (meaning_defineSegment p phases).trans (unless_passes (editConditions_pass may inRange) _ p)
  have deletes : ∀ n, n < 96 → meaning (.deleteSegment q tag (.ok n)) p = viaCore (fun _ e => deleteSegment n e) p :=
    fun n inside => unless_passes (editConditions_pass may (decide_eq_true inside)) _ p
  refine ⟨fun unclosed segments cases => ⟨fun x number parent plan label phases => ⟨fun strands => ?_, fun free => ?_⟩,
      fun n inside => ⟨fun none_ => ?_, fun defined used => ?_, fun defined free => ?_⟩⟩,
    fun plans cases => ⟨fun x number segment devices fallback least most => ⟨fun held => ?_, fun free full => ?_,
      fun free room => ?_⟩, fun n inside => ⟨fun none_ => ?_, fun defined held => ?_, fun v hv free => ?_⟩⟩,
    fun o v r t only close cls origin hv good segments cases walks room =>
      ⟨fun x number parent plan label phases carried => ⟨fun sent brought => ?_, fun stays => ⟨fun queued barred => ?_,
        fun kept => ?_⟩⟩, fun n inside defined uncased unheld => ⟨fun queued barred => ?_, fun kept => ?_⟩⟩⟩
  · have closes : ∀ r ∈ closeReads c, isBad c r = false := by simp [closeReads_eq_nil unclosed]
    exact edit_refused (f := fun _ e => defineSegment x e) rfl may (meaning_defineSegment _ phases)
      (segmentInRange_true number parent plan label) (defineSegment_strands (e := startEvent c) segments cases closes strands)
  · have closes : ∀ r ∈ closeReads c, isBad c r = false := by simp [closeReads_eq_nil unclosed]
    refine edit_made (f := fun _ e => defineSegment x e) rfl may (meaning_defineSegment _ phases)
      (segmentInRange_true number parent plan label) (defineSegment_free (e := startEvent c) segments cases closes free
        (bringsUnderHold_none unclosed _)) ?_
    exact withdrawBarred_none unclosed
  · have closes : ∀ r ∈ closeReads c, isBad c r = false := by simp [closeReads_eq_nil unclosed]
    exact edit_refused rfl may rfl (decide_eq_true inside)
      (deleteSegment_undefined (e := startEvent c) segments cases closes none_)
  · have closes : ∀ r ∈ closeReads c, isBad c r = false := by simp [closeReads_eq_nil unclosed]
    exact edit_refused rfl may rfl (decide_eq_true inside)
      (deleteSegment_used (e := startEvent c) segments cases closes defined used)
  · have closes : ∀ r ∈ closeReads c, isBad c r = false := by simp [closeReads_eq_nil unclosed]
    refine edit_made rfl may rfl (decide_eq_true inside)
      (deleteSegment_free (e := startEvent c) segments cases closes defined free) ?_
    exact withdrawBarred_none unclosed
  · exact edit_refused (f := fun _ e => definePlan x e) rfl may (meaning_definePlan _ (stepsWellFormed_true least most))
      (planInRange_true number segment devices fallback) (definePlan_held (e := startEvent c) plans cases held)
  · exact edit_refused (f := fun _ e => definePlan x e) rfl may (meaning_definePlan _ (stepsWellFormed_true least most))
      (planInRange_true number segment devices fallback)
      (definePlan_full (e := startEvent c) plans cases free ((stepsBeside_eq c x.number).symm ▸ full))
  · refine edit_made (f := fun _ e => definePlan x e) rfl may (meaning_definePlan _ (stepsWellFormed_true least most))
      (planInRange_true number segment devices fallback)
      (definePlan_free (e := startEvent c) plans cases free ((stepsBeside_eq c x.number).symm ▸ room)) ?_
    rw [stepsBeside_eq]
    rfl
  · exact edit_refused rfl may rfl (decide_eq_true inside) (deletePlan_undefined (e := startEvent c) plans cases none_)
  · exact edit_refused rfl may rfl (decide_eq_true inside) (deletePlan_held (e := startEvent c) plans cases defined held)
  · exact edit_made rfl may rfl (decide_eq_true inside) (deletePlan_free (e := startEvent c) plans cases hv free) rfl
  · have closes := closeReads_sound only good segments cases
    refine edit_refused (f := fun _ e => defineSegment x e) rfl may (meaning_defineSegment _ phases)
      (segmentInRange_true number parent plan label) (defineSegment_brings (e := startEvent c) segments cases closes (not_strands carried)
        ((bringsUnderHold_one (e := startEvent c) only close hv _).trans (decide_eq_true ⟨sent, brought⟩)))
  · exact exec_edit_withdraws (f := fun _ e => defineSegment x e) rfl may (edits (segmentInRange_true number parent plan label) phases)
      (defineSegment_oneClose only close hv good segments cases carried stays) only close hv good cls origin queued barred walks room
  · exact exec_edit_keeps (f := fun _ e => defineSegment x e) rfl may (edits (segmentInRange_true number parent plan label) phases)
      (defineSegment_oneClose only close hv good segments cases carried stays) only close hv good kept
  · exact exec_edit_withdraws (f := fun _ e => deleteSegment n e) rfl may (deletes n inside)
      (deleteSegment_free (e := startEvent c) segments cases (closeReads_sound only good segments cases) defined
        (not_segmentUsed uncased unheld)) only close hv good cls origin queued barred walks room
  · exact exec_edit_keeps (f := fun _ e => deleteSegment n e) rfl may (deletes n inside)
      (deleteSegment_free (e := startEvent c) segments cases (closeReads_sound only good segments cases) defined
        (not_segmentUsed uncased unheld)) only close hv good kept

end Sys2Proof.Machine
end

