-- ==== Sys2Proof/Proofs/Sending.lean ====
section
/-! PROOF. The arbiter's choice, the sending of orders, and reply deadlines. -/

namespace Sys2Proof.Machine

/-! ### The arbiter's choice (R135) -/

/-- An order that the arbiter may send. -/
def Waits (c : Core) (x : Order) : Prop :=
  x.left = false ∧ (x.state = .queued ∧ c.mode ≠ .halted ∨ x.state = .sent ∧ x.resend = true)

/-- The place of a class in the arbiter's choice. -/
def classPlace : OrderClass → Nat
  | .isolation => 0
  | .manual => 1
  | .poll => 2

theorem isCandidate_iff (c : Core) (o : Order) : isCandidate c o = true ↔ Waits c o := by
  unfold isCandidate Waits
  cases o.state <;> simp

theorem oldestOf_eq_none_iff (c : Core) (k : OrderClass) :
    oldestOf c k = none ↔ ∀ x ∈ c.orders, Waits c x → x.cls ≠ k := by
  simp only [oldestOf, List.find?_eq_none, Bool.and_eq_true, beq_iff_eq, isCandidate_iff, not_and']

/-- The oldest of a class, where no order of an earlier class waits. -/
theorem oldestOf_first {c : Core} {k : OrderClass} {o : Order} (oldest : oldestOf c k = some o)
    (least : ∀ x ∈ c.orders, Waits c x → classPlace k ≤ classPlace x.cls) :
    Waits c o ∧ ∃ pre post, c.orders = pre ++ o :: post
      ∧ (∀ x ∈ pre, Waits c x → classPlace o.cls < classPlace x.cls)
      ∧ ∀ x ∈ post, Waits c x → classPlace o.cls ≤ classPlace x.cls := by
  obtain ⟨isOne, pre, post, split_, before⟩ := List.find?_eq_some_iff_append.1 oldest
  simp only [Bool.and_eq_true, beq_iff_eq, isCandidate_iff] at isOne
  obtain ⟨rfl, waits⟩ := isOne
  refine ⟨waits, pre, post, split_, fun x mem isWaiting => ?_, fun x mem isWaiting => ?_⟩
  · have other : x.cls ≠ o.cls := by
      have not_ := before x mem
      simp only [Bool.not_eq_true', Bool.and_eq_false_iff, beq_eq_false_iff_ne] at not_
      exact not_.resolve_right (by simp [(isCandidate_iff c x).2 isWaiting])
    have atLeast := least x (by simp [split_, mem]) isWaiting
    have apart : classPlace x.cls ≠ classPlace o.cls := fun same => other (by
      revert same
      cases x.cls <;> cases o.cls <;> simp [classPlace])
    omega
  · exact least x (by simp [split_, mem]) isWaiting

theorem chooseOrder_eq_none_iff (c : Core) : chooseOrder c = none ↔ ∀ x ∈ c.orders, ¬ Waits c x := by
  have none_ : chooseOrder c = none
      ↔ oldestOf c .isolation = none ∧ oldestOf c .manual = none ∧ oldestOf c .poll = none := by
    unfold chooseOrder
    cases oldestOf c .isolation <;> cases oldestOf c .manual <;> simp
  simp only [none_, oldestOf_eq_none_iff]
  constructor
  · rintro ⟨noIsolation, noManual, noPoll⟩ x mem waits
    cases cls : x.cls with
    | isolation => exact noIsolation x mem waits cls
    | manual => exact noManual x mem waits cls
    | poll => exact noPoll x mem waits cls
  · intro idle
    exact ⟨fun x mem waits => absurd waits (idle x mem), fun x mem waits => absurd waits (idle x mem),
      fun x mem waits => absurd waits (idle x mem)⟩

theorem chooseOrder_first {c : Core} {o : Order} (chosen : chooseOrder c = some o) :
    Waits c o ∧ ∃ pre post, c.orders = pre ++ o :: post
      ∧ (∀ x ∈ pre, Waits c x → classPlace o.cls < classPlace x.cls)
      ∧ ∀ x ∈ post, Waits c x → classPlace o.cls ≤ classPlace x.cls := by
  unfold chooseOrder at chosen
  cases isolation : oldestOf c .isolation with
  | some i =>
    rw [isolation] at chosen
    obtain rfl : i = o := Option.some.inj chosen
    exact oldestOf_first isolation fun x _ _ => Nat.zero_le _
  | none =>
    rw [isolation] at chosen
    have noIsolation := (oldestOf_eq_none_iff c .isolation).1 isolation
    cases manual : oldestOf c .manual with
    | some m =>
      simp only [manual, Option.some.injEq] at chosen
      subst chosen
      refine oldestOf_first manual fun x mem waits => ?_
      have other := noIsolation x mem waits
      cases cls : x.cls <;> simp_all [classPlace]
    | none =>
      simp only [manual] at chosen
      have noManual := (oldestOf_eq_none_iff c .manual).1 manual
      refine oldestOf_first chosen fun x mem waits => ?_
      have other := noIsolation x mem waits
      have other' := noManual x mem waits
      cases cls : x.cls <;> simp_all [classPlace]

/-! ### Sending (R136) -/

/-- The blocks with an order sent to its device. -/
def sentTo (s : Settings) (o : Order) (v : Device) (c : Core) : Core :=
  { c with
    linkTx := some (orderFrame v.link o.number o.action)
    orders := c.orders.map fun x =>
      if x.device = o.device then
        { x with state := .sent, resend := false, sends := some (o.sends.getD 0 + 1)
                 deadline := some ((c.time.now + s.replyTimeout) % 86400000) }
      else x }

/-- The occurrences a send counts. -/
def sendCounts (o : Order) : List Emit :=
  if 2 ≤ o.sends.getD 0 + 1 then [deviceCount .ordersSent o.device, deviceCount .orderRetries o.device]
  else [deviceCount .ordersSent o.device]

theorem sendOrder_eq (env : Env) (o : Order) (v : Device) (e : Ev) :
    sendOrder env o v.link e
      = { e with toCore := sentTo env.settings o v e.toCore, out := e.out ++ sendCounts o } := by
  unfold sendOrder sendCounts
  simp only [setOrder, countDevice, occur]
  split <;> simp [sentTo, addTime, Config.day, deviceCount]

theorem arbitrate_none {env : Env} {e : Ev} (free : e.linkTx = none) (idle : chooseOrder e.toCore = none) :
    arbitrate env e = e := by
  unfold arbitrate Config.orders arbitrateFrom
  simp only [free, idle, Option.isSome_none, Bool.false_eq_true, if_false]

/-- A free link takes the arbiter's choice. -/
theorem arbitrate_chosen {env : Env} {e : Ev} {o : Order} {v : Device} (free : e.linkTx = none)
    (chosen : chooseOrder e.toCore = some o) (good : badAt e.devices o.device = false)
    (hv : entryAt e.devices o.device = some v) : arbitrate env e
      = { e with toCore := sentTo env.settings o v e.toCore, out := e.out ++ sendCounts o } := by
  rw [← sendOrder_eq]
  unfold arbitrate Config.orders arbitrateFrom
  simp only [free, chosen, good, hv, Option.isSome_none, Bool.false_eq_true, if_false]

/-! ### Reply deadlines (R140) -/

section
variable {env : Env} {d t : Nat} {o : Order} {v : Device} {e : Ev} (order : orderOf e.toCore d = some o)
include order

omit order in
theorem deadlineExpired_eq (sent : o.state = .sent) (unsent : o.resend = false) (unleft : o.left = false)
    (deadline : o.deadline = some t) : deadlineExpired e.toCore o = reached e.time.now t := by
  simp [deadlineExpired, sent, unsent, unleft, deadline]

theorem replyDeadline_early (early : deadlineExpired e.toCore o = false) : replyDeadline env d e = e := by
  simp [replyDeadline, order, early]

variable (expired : deadlineExpired e.toCore o = true) (good : badAt e.devices d = false)
include expired good

theorem replyDeadline_resends (cls : o.cls ≠ .poll) (retries : o.sends.getD 0 - 1 < env.settings.retryLimit) :
    replyDeadline env d e = arbitrate env (setOrder d (fun o => { o with resend := true }) e) := by
  unfold replyDeadline
  simp only [order, expired, good, decide_eq_true retries, if_true, Bool.false_eq_true, if_false]

theorem replyDeadline_fails (ends : o.cls = .poll ∨ env.settings.retryLimit ≤ o.sends.getD 0 - 1) :
    replyDeadline env d e = completeFailed env o e := by
  unfold replyDeadline
  simp only [order, expired, good, if_true, Bool.false_eq_true, if_false]
  obtain poll | spent := ends
  · simp only [poll]
  · rw [decide_eq_false (Nat.not_lt.2 spent)]
    cases o.cls <;> rfl

end

/-- The run-time fields of a device whose order has failed. -/
def failedRun (s : Settings) (c : Core) (v : Device) : DeviceRun :=
  if v.run.reachable then
    { v.run with
      currentOrder := none, reachable := false
      nextPoll := if c.mode = .monitoring ∧ v.run.state ≠ .unknown then
          some ((c.time.now + 1000 * s.pollInterval) % 86400000)
        else v.run.nextPoll }
  else { v.run with currentOrder := none }

/-- The blocks with an order failed. -/
def orderFailed (s : Settings) (o : Order) (v : Device) (c : Core) : Core :=
  { c with
    orders := c.orders.filter fun x => x.device != o.device
    devices := putAt c.devices o.device (some { v with run := failedRun s c v }) }

/-- What a failed order tells and counts. -/
def failureTold (o : Order) (v : Device) (now : Nat) : List Emit :=
  (if v.run.reachable then [.tell .both (.deviceReach o.device v.link false (.orderFailed o.number) now)] else [])
    ++ [deviceCount .ordersFailed o.device]

theorem completeFailed_eq {env : Env} {o : Order} {v : Device} {e : Ev} (hv : entryAt e.devices o.device = some v)
    (good : badAt e.devices o.device = false) :
    completeFailed env o e = later [.handOver o .failed none, .announce o.device] { e with
      toCore := orderFailed env.settings o v e.toCore, out := e.out ++ failureTold o v e.time.now } := by
  have written : entryAt (putAt e.devices o.device (some { v with run := { v.run with currentOrder := none } })) o.device
      = some { v with run := { v.run with currentOrder := none } } :=
    (entryAt_putAt _ _ _ _ (entryAt_lt hv)).trans (if_pos rfl)
  have matches_ : badAt (putAt e.devices o.device (some { v with run := { v.run with currentOrder := none } })) o.device
      = false := (badAt_putAt _ _ _ _).trans (if_pos rfl)
  have removed : removeOrder o.device e = { e with
      orders := e.orders.filter fun x => x.device != o.device
      devices := putAt e.devices o.device (some { v with run := { v.run with currentOrder := none } }) } := by
    simp only [removeOrder, setRun, updateAt_sound _ hv good]
  rw [completeFailed, removed, markUnreachable]
  simp only [written]
  by_cases reachable : v.run.reachable = true
  · rw [if_pos reachable]
    simp only [setRun, raise, updateAt_sound _ written matches_, putAt_putAt]
    simp [countDevice, occur, orderFailed, failedRun, failureTold, reachable, completionWork, deviceCount, addTime,
      Config.day]
  · rw [if_neg reachable]
    simp [countDevice, occur, orderFailed, failedRun, failureTold, reachable, completionWork, deviceCount]

/-- The next poll of an interval from now is not reached (R28). -/
theorem reached_interval {now k : Nat} (low : 1 ≤ k) (high : k ≤ 60) :
    reached now ((now + 1000 * k) % 86400000) = false := by
  rw [reached_false_iff, diffTime, show Config.halfDay = 43200000 from rfl, show Config.day = 86400000 from rfl]
  split <;> omega

/-- With no poll due before, a failed order makes none due. -/
theorem noPolls_orderFailed {s : Settings} {o : Order} {v : Device} {c : Core} (quiet : NoPolls c)
    (hv : entryAt c.devices o.device = some v) (low : 1 ≤ s.pollInterval) (high : s.pollInterval ≤ 60) :
    NoPolls (orderFailed s o v c) := by
  intro mode
  obtain ⟨sound, idle⟩ := quiet mode
  refine ⟨sound_set sound _ _, fun n u t at_ eligible poll => ?_⟩
  have entry := entryAt_putAt c.devices o.device n (some { v with run := failedRun s c v }) (entryAt_lt hv)
  have at' := entry.symm.trans at_
  by_cases same : n = o.device
  · rw [if_pos same] at at'
    cases at'
    have mode' : c.mode = .monitoring := mode
    unfold failedRun at eligible poll
    by_cases reachable : v.run.reachable = true
    · simp only [reachable, if_true] at eligible poll
      by_cases known : v.run.state = .unknown
      · simp only [known, ne_eq, not_true, and_false, if_false] at poll
        exact idle o.device v t hv (.inl known) poll
      · simp only [mode', known, ne_eq, not_false_eq_true, and_self, if_true, Option.some.injEq] at poll
        subst poll
        exact reached_interval low high
    · simp only [reachable, Bool.false_eq_true, if_false] at eligible poll
      exact idle o.device v t hv (.inr (by simpa using reachable)) poll
  · rw [if_neg same] at at'
    exact idle n u t at' eligible poll

/-- What follows an order that has failed, without walks, steps in ROOM or polls due. -/
theorem settle_completeFailed {env : Env} {o : Order} {v : Device} {e : Ev} (hv : entryAt e.devices o.device = some v)
    (good : badAt e.devices o.device = false) (walks : e.walks = []) (room : e.room = []) (quiet : NoPolls e.toCore)
    (low : 1 ≤ env.settings.pollInterval) (high : env.settings.pollInterval ≤ 60) (idle : e.todo = [])
    {told : List Emit} (handed : handOver o .failed none { e with
        toCore := orderFailed env.settings o v e.toCore, out := e.out ++ failureTold o v e.time.now }
      = { e with
        toCore := orderFailed env.settings o v e.toCore, out := e.out ++ failureTold o v e.time.now ++ told }) :
    settle env (completeFailed env o e) = { e with
      toCore := orderFailed env.settings o v e.toCore, out := e.out ++ failureTold o v e.time.now ++ told } := by
  have clear : { later [.handOver o .failed none, .announce o.device] { e with
      toCore := orderFailed env.settings o v e.toCore, out := e.out ++ failureTold o v e.time.now } with todo := [] }
      = { e with toCore := orderFailed env.settings o v e.toCore, out := e.out ++ failureTold o v e.time.now } := by
    simp [later, ← idle]
  have quiet' : NoPolls (orderFailed env.settings o v e.toCore) := noPolls_orderFailed quiet hv low high
  rw [completeFailed_eq hv good, settle]
  simp only [later, idle, List.nil_append]
  rw [show workFuel = 65532 + 3 + 1 from rfl,
    runWork_done (e' := { e with
      toCore := orderFailed env.settings o v e.toCore, out := e.out ++ failureTold o v e.time.now ++ told }) ?_ idle]
  · rw [runWork_announced (by exact walks) (by exact room) (by exact quiet'), idle]
  · rw [← handed, ← idle]
    rfl

theorem handOver_none {o : Order} (origin : o.origin = .none) (outcome : OrderOutcome) (refusal : Option RefusalReason)
    (e : Ev) : handOver o outcome refusal e = e := by
  simp only [handOver, origin]

theorem handOver_port {o : Order} {q : Port} {tag : Byte} {v : Device} {e : Ev} (origin : o.origin = .port q tag)
    (hv : entryAt e.devices o.device = some v) (good : badAt e.devices o.device = false) (outcome : OrderOutcome)
    (refusal : Option RefusalReason) : handOver o outcome refusal e = { e with out := e.out ++ [.tell (.only q) (.order
      { tag := tag, number := o.number, device := o.device, action := o.action, outcome := outcome
        state := v.run.state, retries := o.sends.getD 0 - 1, refusal := refusal, withdrawal := none
        time := e.time.now })] } := by
  have state : stateOf e.toCore o.device = v.run.state := by simp [stateOf, hv, good]
  simp only [handOver, origin, orderNotice, raise, state]

theorem failedRun_state (s : Settings) (c : Core) (v : Device) : (failedRun s c v).state = v.run.state := by
  unfold failedRun
  split <;> rfl

/-- With the blocks running the end of an ORDER frame is an event of theirs. -/
theorem exec_deviceTransmitEnd {s : State} (runs : blocksRun s.part = true) :
    exec .deviceTransmitEnd s = happen transmitEnd s := by
  rw [show exec .deviceTransmitEnd s = execDeviceTransmitEnd s from rfl, execDeviceTransmitEnd, act_eq, if_pos runs,
    happen_eq _ _ runs]

/-- Settles O56: the arbiter sends its choice, and a reply deadline re-sends the order or fails it. -/
theorem sendingAndDeadlines : Obligations.SendingAndDeadlines := by
  refine ⟨fun s runs => ?_, fun c => ⟨chooseOrder_eq_none_iff c, fun o => chooseOrder_first⟩⟩
  refine ⟨fun free => ?_, fun frame sending => ⟨fun idle => ?_, fun o v chosen good hv => ?_⟩,
    fun d o v t order sent unsent unleft deadline good hv => ⟨fun early => ?_, fun late cls retries => ⟨fun busy => ?_,
      fun x u free chosen good' hu => ?_⟩, fun late ends walks room quiet low high => ?_⟩⟩
  · exact (exec_deviceTransmitEnd runs).trans (happen_same runs (by simp [transmitEnd, startEvent, free]))
  · have freed : transmitEnd (envOf s.part) (startEvent s.part.core)
        = arbitrate (envOf s.part) (startEvent { s.part.core with linkTx := none }) := by
      simp [transmitEnd, startEvent, sending]
    exact (exec_deviceTransmitEnd runs).trans
      (happen_done (e := startEvent { s.part.core with linkTx := none }) runs
        (freed.trans (arbitrate_none (e := startEvent { s.part.core with linkTx := none }) rfl idle)) rfl rfl rfl rfl)
  · have freed : transmitEnd (envOf s.part) (startEvent s.part.core)
        = arbitrate (envOf s.part) (startEvent { s.part.core with linkTx := none }) := by
      simp [transmitEnd, startEvent, sending]
    exact (exec_deviceTransmitEnd runs).trans (happen_done runs (freed.trans
      (arbitrate_chosen (e := startEvent { s.part.core with linkTx := none }) rfl chosen good hv)) rfl rfl rfl rfl)
  · exact happen_same runs (replyDeadline_early (e := startEvent s.part.core) order
      ((deadlineExpired_eq sent unsent unleft deadline).trans early))
  · have expired := (deadlineExpired_eq (e := startEvent s.part.core) sent unsent unleft deadline).trans late
    refine happen_done runs ((replyDeadline_resends (e := startEvent s.part.core) order expired good cls retries).trans
      (arbitrate_busy _ (by exact busy))) rfl rfl rfl rfl
  · have expired := (deadlineExpired_eq (e := startEvent s.part.core) sent unsent unleft deadline).trans late
    exact happen_done runs ((replyDeadline_resends (e := startEvent s.part.core) order expired good cls retries).trans
      (arbitrate_chosen (e := setOrder d (fun o => { o with resend := true }) (startEvent s.part.core)) free chosen good' hu))
      rfl rfl rfl rfl
  · have expired := (deadlineExpired_eq (e := startEvent s.part.core) sent unsent unleft deadline).trans late
    have fails := replyDeadline_fails (env := envOf s.part) (e := startEvent s.part.core) order expired good ends
    obtain rfl := orderOf_device order
    have written : entryAt (orderFailed s.part.settings o v s.part.core).devices o.device
        = some { v with run := failedRun s.part.settings s.part.core v } :=
      (entryAt_putAt _ _ _ _ (entryAt_lt hv)).trans (if_pos rfl)
    have good' : badAt (orderFailed s.part.settings o v s.part.core).devices o.device = false :=
      (badAt_putAt _ _ _ _).trans (if_pos rfl)
    refine ⟨fun origin => ?_, fun q tag origin => ?_⟩
    · refine happen_settled runs fails (settle_completeFailed (told := []) (e := startEvent s.part.core) hv good walks room
        quiet low high rfl ?_) rfl ?_ rfl
      · rw [handOver_none origin, List.append_nil]
      · exact List.append_nil _
    · refine happen_settled runs fails (settle_completeFailed (e := startEvent s.part.core) hv good walks room
        quiet low high rfl (handOver_port origin written good' .failed none)) rfl ?_ rfl
      rw [failedRun_state]
      rfl

end Sys2Proof.Machine
end

