-- ==== Sys2Proof/Proofs/Operate.lean ====
section
/-! PROOF. The tree, the bars on CLOSE, and OPERATE. -/

namespace Sys2Proof.Machine

/-! ### The tree (R17, R18) -/

/-- The segment that follows on a path: the parent, where it is defined. -/
def nextOnPath (segs : List (Checked Segment)) (s : Nat) : Option Nat :=
  ((entryAt segs s).bind (·.parent)).filter fun p => (entryAt segs p).isSome

theorem nextOnPath_eq_some_iff (segs : List (Checked Segment)) (s y : Nat) : nextOnPath segs s = some y ↔
    ∃ r, entryAt segs s = some r ∧ r.parent = some y ∧ (entryAt segs y).isSome = true := by
  unfold nextOnPath
  cases at_ : entryAt segs s with
  | none => simp
  | some r => simp [Option.filter_eq_some_iff]

theorem pathFrom_succ (segs : List (Checked Segment)) (fuel s : Nat) :
    pathFrom segs (fuel + 1) s = s :: (nextOnPath segs s).elim [] (pathFrom segs fuel) := by
  unfold nextOnPath
  cases at_ : entryAt segs s with
  | none => simp [pathFrom, at_]
  | some r =>
    cases parent : r.parent with
    | none => simp [pathFrom, at_, parent]
    | some p => by_cases defined : (entryAt segs p).isSome = true <;> simp [pathFrom, at_, parent, defined, Option.filter]

theorem pathFrom_head (segs : List (Checked Segment)) (fuel p y : Nat) :
    (pathFrom segs fuel p)[0]? = some y ↔ 0 < fuel ∧ p = y := by
  cases fuel with
  | zero => simp [pathFrom]
  | succ fuel => simp [pathFrom_succ]

/-- A path goes on from a segment exactly to the defined parent, while segments are left. -/
theorem pathFrom_step (segs : List (Checked Segment)) (fuel s i x y : Nat) (h : (pathFrom segs fuel s)[i]? = some x) :
    (pathFrom segs fuel s)[i + 1]? = some y ↔ i + 1 < fuel ∧ nextOnPath segs x = some y := by
  induction fuel generalizing s i with
  | zero => simp [pathFrom] at h
  | succ fuel ih =>
    rw [pathFrom_succ] at h ⊢
    rw [List.getElem?_cons_succ]
    cases i with
    | zero =>
      obtain rfl : s = x := by simpa using h
      cases next : nextOnPath segs s with
      | none => simp
      | some p =>
        rw [Option.elim_some, pathFrom_head]
        simp
    | succ i =>
      rw [List.getElem?_cons_succ] at h
      cases next : nextOnPath segs s with
      | none => simp [next] at h
      | some p =>
        rw [next, Option.elim_some] at h
        rw [Option.elim_some, ih p i h]
        simp

theorem isAncestor_iff (segs : List (Checked Segment)) (t s : Nat) :
    isAncestor segs t s = true ↔ t ≠ s ∧ t ∈ pathOf segs s := by
  simp [isAncestor]

theorem inDownstream_iff (segs : List (Checked Segment)) (v : Device) (s : Nat) : inDownstream segs v s = true ↔
    v.kind = .sectionalizing ∧ (entryAt segs v.segment).isSome = true ∧ v.segment ∈ pathOf segs s := by
  simp [inDownstream, and_assoc]

theorem mem_pathOf_iff (segs : List (Checked Segment)) (t s : Nat) :
    t ∈ pathOf segs s ↔ s = t ∨ isAncestor segs t s = true := by
  rw [isAncestor_iff]
  by_cases same : s = t
  · subst same
    simp [mem_pathOf_self]
  · simp [same, Ne.symm same]

/-- On a path that holds no segment twice the path devices stand nearest first. -/
theorem pathDevices_pairwise (c : Core) (s : Nat) (once : (pathOf c.segments s).Nodup) :
    (pathDevices c s).Pairwise fun d e => ∀ v w, entryAt c.devices d = some v → entryAt c.devices e = some w →
      (pathOf c.segments s).idxOf v.segment ≤ (pathOf c.segments s).idxOf w.segment := by
  have heads : ∀ t d, d ∈ headingDevices c t → ∀ v, entryAt c.devices d = some v → v.segment = t := by
    intro t d mem v hv
    obtain ⟨u, hu, at_⟩ := (mem_entriesWhere _ _ _).1 mem
    rw [hv] at hu
    cases hu
    simpa using (Bool.and_eq_true_iff.1 at_).2
  rw [pathDevices, List.pairwise_flatMap]
  refine ⟨fun t _ => List.pairwise_of_forall_mem_list fun d hd e he v w hv hw => ?_,
    List.pairwise_iff_getElem.2 fun i j hi hj lt d hd e he v w hv hw => ?_⟩
  · rw [heads t d hd v hv, heads t e he w hw]
  · rw [heads _ d hd v hv, heads _ e he w hw, List.Nodup.idxOf_getElem once, List.Nodup.idxOf_getElem once]
    exact Nat.le_of_lt lt

theorem treeAsStated (c : Core) (s : Nat) : TreeAsStated c s := by
  refine ⟨pathOf_head c.segments s, fun i x y at_ => ?_, fun t => isAncestor_iff c.segments t s,
    mem_pathDevices_iff c s, pathDevices_pairwise c s, fun v => ?_⟩
  · rw [← nextOnPath_eq_some_iff]
    exact pathFrom_step c.segments 16 s i x y at_
  · rw [inDownstream_iff, mem_pathOf_iff]

/-! ### The bars on CLOSE (R160) -/

theorem barredBy_iff (segs : List (Checked Segment)) (v : Device) (s : Nat) : barredBy segs v s = true ↔
    v.kind = .sectionalizing ∧ (entryAt segs v.segment).isSome = true ∧ v.segment ∈ pathOf segs s
    ∨ v.kind = .tie ∧ (s = v.segment ∨ isAncestor segs s v.segment = true ∨ isAncestor segs v.segment s = true) := by
  unfold barredBy
  cases kind : v.kind with
  | sectionalizing => simp [inDownstream_iff, kind]
  | tie => simp [or_assoc]

theorem mem_workHeld (holds : List (Option Hold)) (s : Nat) :
    s ∈ workHeld holds ↔ ∃ h : Hold, holds[s]? = some (some h) ∧ h.kind = .work := by
  rw [workHeld, List.mem_filter, List.mem_range]
  rcases at_ : holds[s]? with _ | _ | h
  · simp
  · simp
  · obtain ⟨lt, -⟩ := List.getElem?_eq_some_iff.1 at_
    simp [lt]

theorem barsClose_iff (s : CaseState) : barsClose s = true ↔ s = .isolating ∨ s = .isolated ∨ s = .blocked := by
  cases s <;> simp [barsClose]

theorem mem_caseBarred (c : Core) (s : Nat) : s ∈ caseBarred c ↔
    ∃ n k, entryAt c.cases n = some k ∧ (k.state = .isolating ∨ k.state = .isolated ∨ k.state = .blocked)
      ∧ k.segment = s := by
  simp only [caseBarred, List.mem_filterMap, mem_entriesWhere, barsClose_iff]
  constructor
  · rintro ⟨n, ⟨k, there, state⟩, segment⟩
    rw [there] at segment
    exact ⟨n, k, there, state, Option.some.inj segment⟩
  · rintro ⟨n, k, there, state, rfl⟩
    exact ⟨n, ⟨k, there, state⟩, by rw [there]; rfl⟩

theorem barsAsStated (c : Core) (v : Device) : BarsAsStated c v := by
  refine ⟨fun segs s => barredBy_iff segs v s, fun segs holds => ?_, fun segs => ?_⟩
  · simp only [barredByHold, List.any_eq_true, mem_workHeld]
    exact exists_congr fun s => ⟨fun ⟨⟨h, at_, work⟩, barred⟩ => ⟨h, at_, work, barred⟩,
      fun ⟨h, at_, work, barred⟩ => ⟨⟨h, at_, work⟩, barred⟩⟩
  · simp only [barredByCase, List.any_eq_true, mem_caseBarred]
    constructor
    · rintro ⟨_, ⟨n, k, there, state, rfl⟩, barred⟩
      exact ⟨n, k, there, state, barred⟩
    · rintro ⟨n, k, there, state, barred⟩
      exact ⟨_, ⟨n, k, there, state, rfl⟩, barred⟩

theorem closesAsStated (c : Core) (state : OrderState) (s : Nat) : ClosesAsStated c state s := by
  intro d
  simp only [closesBarredBy, List.mem_filter, List.mem_map, Bool.and_eq_true, beq_iff_eq]
  constructor
  · rintro ⟨⟨o, ⟨mem, close, at_⟩, rfl⟩, barred⟩
    cases hv : entryAt c.devices o.device with
    | none => simp [hv] at barred
    | some v => exact ⟨o, v, mem, close, at_, rfl, rfl, by simpa [hv] using barred⟩
  · rintro ⟨o, v, mem, close, at_, rfl, hv, barred⟩
    exact ⟨⟨o, ⟨mem, close, at_⟩, rfl⟩, by simpa [hv] using barred⟩

/-! ### OPERATE (R159 to R161) -/

/-- A claim on a device that is there, whose further conditions do not hold, goes on with its own meaning. -/
theorem deviceClaim_extra {n : Nat} {extra : List Condition} {f : Ev → Ev × Answer} {p : Part}
    (well : healthy p.core = true) (inside : n < 24) (sound : badAt p.core.devices n = false)
    (defined : (entryAt p.core.devices n).isSome = true) (pass : select extra = none) :
    deviceClaim n extra f p = viaCore (fun _ => f) p := by
  obtain ⟨running, calm⟩ := (healthy_iff p.core).1 well
  have free : select ((!(entryAt p.core.devices n).isSome, .noSuchItem)
      :: (extra ++ claimConditions p (decide (n < Config.devices)))) = none := by
    have none_ := select_eq_none_iff.1 pass
    refine select_eq_none_iff.2 fun x mem => ?_
    simp only [List.mem_cons, List.mem_append] at mem
    obtain rfl | isExtra | common := mem
    · simp [defined]
    · exact none_ x isExtra
    · revert x
      simp [claimConditions, Config.devices, inside, (isHalted_eq_false_iff p).2 running, calm]
  have item : onItem (extra ++ claimConditions p (decide (n < Config.devices))) (decide (n < Config.devices))
      { table := .device, index := n } (fun c => (entryAt c.devices n).isSome) f (startEvent p.core)
        = f (startEvent p.core) := by
    rw [onItem, if_pos (by simp [Config.devices, inside, well]),
      reading_sound _ _ _ (readsDevice_sound rfl sound)]
    exact unlessEv_passes free f _
  rw [deviceClaim, viaCore_eq, viaCore_eq]
  simp only [item]

theorem operateBars_pass {q : Port} {s : State} (controls : Controls q s) (mode : s.part.core.mode = .monitoring) :
    select (operateBars (heard q s) q) = none := by
  refine select_eq_none_iff.2 ?_
  obtain rfl | allowed := controls
  · simp [operateBars, uncontrolled, mode]
  · simp [operateBars, uncontrolled, mode, allowed]

theorem meaning_operate {q : Port} {tag : Byte} {x : OperateRequest} {v : Device} {s : State} (well : Healthy s)
    (controls : Controls q s) (mode : s.part.core.mode = .monitoring) (inside : x.device < 24)
    (hv : entryAt (heard q s).core.devices x.device = some v) (good : badAt (heard q s).core.devices x.device = false)
    (action : x.action ≠ .query) : meaning (.operate q tag (.ok x)) (heard q s)
      = viaCore (fun _ e => operate (envOf (heard q s)) q tag x e) (heard q s) := by
  rw [meaning, onBody_ok, if_neg action]
  exact deviceClaim_extra (healthy_heard q well) inside good (by simp [hv]) (operateBars_pass controls mode)

/-- The MANUAL order of an OPERATE. -/
def manualOrder (number : Nat) (q : Port) (tag : Byte) (x : OperateRequest) : Order :=
  { number := number, device := x.device, action := x.action, cls := .manual, origin := .port q tag, state := .queued
    resend := false, sends := none, deadline := none, left := false }

/-- The blocks with an order joined at the newest end. -/
def joined (o : Order) (v : Device) (c : Core) : Core :=
  { c with
    orderNumber := o.number, orders := c.orders ++ [o]
    devices := putAt c.devices o.device (some { v with run := { v.run with currentOrder := some o.number } }) }

/-- An order joins at the newest end, and the arbiter sees it. -/
theorem queueOrder_eq {env : Env} {d : Nat} {action : Action} {cls : OrderClass} {origin : OrderOrigin} {v : Device} {e : Ev}
    (hv : entryAt e.devices d = some v) (good : badAt e.devices d = false) :
    queueOrder env d action cls origin e = arbitrate env { e with
      toCore := joined
        { number := (e.orderNumber + 1) % 256, device := d, action := action, cls := cls, origin := origin
          state := .queued, resend := false, sends := none, deadline := none, left := false } v e.toCore } := by
  rw [queueOrder]
  simp only [setRun, updateAt_sound _ hv good]
  rfl

section
variable {env : Env} {q : Port} {tag : Byte} {x : OperateRequest} {v : Device} {e : Ev}
  (hv : entryAt e.devices x.device = some v)
include hv

theorem closeBars_eq : closeBars e.toCore x.device
    = (barredByHold e.segments e.holds v, barredByCase e.toCore e.segments v) := by
  simp [closeBars, hv]

/-- What stands in the way of an OPERATE that is not refused, but for the bars on a CLOSE. -/
theorem operateConditions_eq (reserved : reservationOf e.toCore x.device = some q)
    (unordered : orderOf e.toCore x.device = none) (room : e.orders.length < 16) :
    operateConditions e.toCore q x =
      [(false, .notReserved), (x.action == .close && barredByHold e.segments e.holds v, .segmentHeld),
       (x.action == .close && barredByCase e.toCore e.segments v, .caseOnPath), (false, .orderQueueFull),
       (false, .deviceOrderInFlight)] := by
  have space : decide (Config.orders ≤ e.orders.length) = false := decide_eq_false (Nat.not_le.2 room)
  simp only [operateConditions, closeBars_eq hv, reserved, unordered, space]
  simp

theorem operateReads_sound (reads : x.action = .close → firstBad e.toCore (barReads e.toCore v) = none) :
    ∀ r ∈ operateReads e.toCore x, isBad e.toCore r = false := by
  unfold operateReads
  cases action : x.action with
  | close =>
    simp only [hv]
    exact (firstBad_none_iff _ _).1 (reads action)
  | open_ => simp
  | query => simp

theorem operate_queues (reserved : reservationOf e.toCore x.device = some q)
    (unordered : orderOf e.toCore x.device = none) (room : e.orders.length < 16)
    (free : x.action = .open_ ∨ (x.action = .close ∧ firstBad e.toCore (barReads e.toCore v) = none
        ∧ barredByHold e.segments e.holds v = false ∧ barredByCase e.toCore e.segments v = false)) :
    operate env q tag x e = (queueOrder env x.device x.action .manual (.port q tag) e,
      .now .accepted (.orderNumber (queueOrder env x.device x.action .manual (.port q tag) e).orderNumber)) := by
  have reads : x.action = .close → firstBad e.toCore (barReads e.toCore v) = none := by
    obtain isOpen | ⟨-, fine, -⟩ := free
    · simp [isOpen]
    · exact fun _ => fine
  have passes : select (operateConditions e.toCore q x) = none := by
    rw [operateConditions_eq hv reserved unordered room]
    refine select_eq_none_iff.2 ?_
    obtain isOpen | ⟨-, -, byHold, byCase⟩ := free
    · simp [isOpen]
    · simp [byHold, byCase]
  rw [operate, reading_sound _ _ _ (operateReads_sound hv reads), unlessEv_passes passes]

section
variable (good : badAt e.devices x.device = false) (reserved : reservationOf e.toCore x.device = some q)
    (unordered : orderOf e.toCore x.device = none) (room : e.orders.length < 16)
    (free : x.action = .open_ ∨ (x.action = .close ∧ firstBad e.toCore (barReads e.toCore v) = none
        ∧ barredByHold e.segments e.holds v = false ∧ barredByCase e.toCore e.segments v = false))
include good reserved unordered room free

/-- Behind a busy link the order waits. -/
theorem operate_waits (busy : e.linkTx.isSome = true) : operate env q tag x e =
    ({ e with toCore := joined (manualOrder ((e.orderNumber + 1) % 256) q tag x) v e.toCore },
      .now .accepted (.orderNumber ((e.orderNumber + 1) % 256))) := by
  rw [operate_queues hv reserved unordered room free, queueOrder_eq hv good, arbitrate_busy env (by exact busy)]
  rfl

/-- Over a free link the only order is sent at once. -/
theorem operate_sends (idle : e.linkTx = none) (empty : e.orders = []) (running : e.mode ≠ .halted) :
    operate env q tag x e =
      ({ e with
          toCore := sentTo env.settings (manualOrder ((e.orderNumber + 1) % 256) q tag x) v
            (joined (manualOrder ((e.orderNumber + 1) % 256) q tag x) v e.toCore)
          out := e.out ++ [deviceCount .ordersSent x.device] },
        .now .accepted (.orderNumber ((e.orderNumber + 1) % 256))) := by
  have written : entryAt (joined (manualOrder ((e.orderNumber + 1) % 256) q tag x) v e.toCore).devices x.device
      = some { v with run := { v.run with currentOrder := some ((e.orderNumber + 1) % 256) } } :=
    (entryAt_putAt _ _ _ _ (entryAt_lt hv)).trans (if_pos rfl)
  have good' : badAt (joined (manualOrder ((e.orderNumber + 1) % 256) q tag x) v e.toCore).devices x.device = false :=
    (badAt_putAt _ _ _ _).trans (if_pos rfl)
  have sent := arbitrate_first (env := env) (o := manualOrder ((e.orderNumber + 1) % 256) q tag x)
    (e := { e with toCore := joined (manualOrder ((e.orderNumber + 1) % 256) q tag x) v e.toCore }) idle
    (by simp [joined, empty]) rfl rfl running written good'
  rw [sendOrder_eq env (manualOrder ((e.orderNumber + 1) % 256) q tag x)
    { v with run := { v.run with currentOrder := some ((e.orderNumber + 1) % 256) } }] at sent
  rw [operate_queues hv reserved unordered room free, queueOrder_eq hv good]
  refine (congrArg (fun e' : Ev => (e', Answer.now .accepted (.orderNumber e'.orderNumber))) sent).trans ?_
  rfl

end

variable (reserved : reservationOf e.toCore x.device = some q)
    (unordered : orderOf e.toCore x.device = none) (room : e.orders.length < 16)
    (close : x.action = .close) (reads : firstBad e.toCore (barReads e.toCore v) = none)
include reserved unordered room close reads

theorem operate_held (byHold : barredByHold e.segments e.holds v = true) :
    operate env q tag x e = (e, plain .segmentHeld) := by
  rw [operate, reading_sound _ _ _ (operateReads_sound hv fun _ => reads)]
  refine unlessEv_refuses ?_ _ e
  rw [operateConditions_eq hv reserved unordered room]
  refine select_eq_some (by simp [close, byHold]) fun d holds => ?_
  simp only [List.mem_cons, Prod.mk.injEq, List.not_mem_nil, or_false, Bool.true_eq_false, false_and, false_or] at holds
  obtain ⟨-, rfl⟩ | ⟨-, rfl⟩ := holds <;> decide

theorem operate_onPath (byHold : barredByHold e.segments e.holds v = false)
    (byCase : barredByCase e.toCore e.segments v = true) : operate env q tag x e = (e, plain .caseOnPath) := by
  rw [operate, reading_sound _ _ _ (operateReads_sound hv fun _ => reads)]
  refine unlessEv_refuses ?_ _ e
  rw [operateConditions_eq hv reserved unordered room]
  refine select_eq_some (by simp [close, byCase]) fun d holds => ?_
  simp only [List.mem_cons, Prod.mk.injEq, List.not_mem_nil, or_false, Bool.true_eq_false, false_and, false_or,
    byHold, Bool.and_false] at holds
  obtain ⟨-, rfl⟩ := holds
  decide

end

/-- Settles O41: an OPERATE that nothing bars is queued, and sent over a free link. -/
theorem operateQueuesOrder : Obligations.OperateQueuesOrder := by
  refine ⟨treeAsStated, barsAsStated, closesAsStated, ?_⟩
  intro q tag x v s taken well controls mode inside p c hv good reserved unordered room
  have means := fun action => meaning_operate (tag := tag) well controls mode inside hv good action
  refine ⟨fun free => ?_, fun close reads => ⟨fun byHold => ?_, fun byHold byCase => ?_⟩⟩
  · have action : x.action ≠ .query := by
      obtain isOpen | ⟨isClose, -⟩ := free
      · simp [isOpen]
      · simp [isClose]
    refine ⟨fun busy => ?_, fun idle empty => ?_⟩
    · exact exec_replied rfl taken ((means action).trans (viaCore_done
        (operate_waits (e := startEvent c) hv good reserved unordered room free busy) rfl rfl rfl rfl))
    · refine exec_replied rfl taken ((means action).trans (viaCore_done
        (operate_sends (e := startEvent c) hv good reserved unordered room free idle empty ((heard_mode q s).symm ▸ well.1))
        rfl rfl rfl ?_))
      simp only [sentTo, joined, startEvent, empty, List.nil_append, List.map_cons, List.map_nil]
      rfl
  · exact exec_refused rfl taken ((means (by simp [close])).trans (viaCore_same
      (operate_held (e := startEvent c) hv reserved unordered room close reads byHold)))
  · exact exec_refused rfl taken ((means (by simp [close])).trans (viaCore_same
      (operate_onPath (e := startEvent c) hv reserved unordered room close reads byHold byCase)))

end Sys2Proof.Machine
end

