-- ==== Sys2Proof/Proofs/Holds.lean ====
section
/-! PROOF. Cases freed in turn, and the holds on segments. -/

namespace Sys2Proof.Machine

/-! ### Cases freed in turn (R84) -/

/-- What freeing a case tells and counts, a field that reads outside its range absent. -/
def freeingTold (n : Nat) (k : Case) (reason : CaseReason) (d : Option Nat) (now : Nat) : List Emit :=
  .tell .both (caseNotice n k (some k.state) none reason d now)
    :: if k.state = .watch ∧ .state ∉ k.unreadable then
        [segmentCount .casesClosedUnconfirmed (if .segment ∈ k.unreadable then none else some k.segment) 1]
      else []

theorem freeCase_eq (n : Nat) (k : Case) (reason : CaseReason) (d : Option Nat) (e : Ev) :
    freeCase n k reason d e
      = { e with toCore := freed n e.toCore, out := e.out ++ freeingTold n k reason d e.time.now } := by
  unfold freeCase freeingTold
  by_cases counted : k.state = .watch ∧ .state ∉ k.unreadable
  · rw [if_pos counted, if_pos counted]
    by_cases segment : .segment ∈ k.unreadable
    · simp [segment, raise, clearCase, dropWalk, countAll, occur, segmentCount, freed, putAt]
    · simp [segment, raise, clearCase, dropWalk, countSegment, occur, segmentCount, freed, putAt]
  · rw [if_neg counted, if_neg counted]
    simp [raise, clearCase, dropWalk, freed, putAt]

theorem freeingTold_readable {k : Case} (readable : k.unreadable = []) (n : Nat) (reason : CaseReason) (d : Option Nat)
    (now : Nat) : freeingTold n k reason d now = caseTold n k (some k.state) none reason d now
      :: if k.state = .watch then [segmentCount .casesClosedUnconfirmed (some k.segment) 1] else [] := by
  simp [freeingTold, caseNotice_told readable, readable]

theorem entryAt_freed (n m : Nat) (c : Core) :
    entryAt (freed n c).cases m = if m = n then none else entryAt c.cases m := by
  by_cases lt : n < c.cases.length
  · exact entryAt_putAt c.cases n m none lt
  · have same : (freed n c).cases = c.cases := List.set_eq_of_length_le (Nat.not_lt.1 lt)
    rw [same]
    split
    · next eq =>
      subst eq
      cases at_ : entryAt c.cases m with
      | none => rfl
      | some k => exact absurd (entryAt_lt at_) lt
    · rfl

/-- The blocks with case entries freed in turn. -/
def freedAll (ns : List Nat) (c : Core) : Core := ns.foldl (fun c n => freed n c) c

theorem freedAll_cons (n : Nat) (ns : List Nat) (c : Core) : freedAll (n :: ns) c = freedAll ns (freed n c) := rfl

theorem entryAt_freedAll (ns : List Nat) (m : Nat) (c : Core) :
    entryAt (freedAll ns c).cases m = if m ∈ ns then none else entryAt c.cases m := by
  induction ns generalizing c with
  | nil => simp [freedAll]
  | cons n ns ih =>
    rw [freedAll_cons, ih, entryAt_freed]
    by_cases later : m ∈ ns
    · simp [later]
    · by_cases same : m = n <;> simp [later, same]

/-- Entries freed in turn leave all but what CT and IS hold of them. -/
theorem freedAll_rest (ns : List Nat) (c : Core) : freedAll ns c = { c with
    cases := (freedAll ns c).cases, counted := (freedAll ns c).counted, opened := (freedAll ns c).opened
    walks := (freedAll ns c).walks, room := (freedAll ns c).room } := by
  induction ns generalizing c with
  | nil => rfl
  | cons n ns ih =>
    rw [freedAll_cons, ih]
    rfl

/-- What freeing several cases tells and counts. -/
def freeingsTold (ns : List Nat) (reason : CaseReason) (c : Core) : List Emit :=
  ns.flatMap fun n => (entryAt c.cases n).toList.flatMap fun k => freeingTold n k reason none c.time.now

/-- An act that frees each of several cases in turn. -/
theorem foldl_frees {f : Ev → Nat → Ev} {reason : CaseReason} (P : Case → Prop)
    (frees : ∀ e n k, entryAt e.cases n = some k → P k → f e n = freeCase n k reason none e) (ns : List Nat)
    (once : ns.Nodup) (e : Ev) (there : ∀ n ∈ ns, ∃ k, entryAt e.cases n = some k ∧ P k) :
    ns.foldl f e = { e with toCore := freedAll ns e.toCore, out := e.out ++ freeingsTold ns reason e.toCore } := by
  induction ns generalizing e with
  | nil => simp [freedAll, freeingsTold]
  | cons n ns ih =>
    obtain ⟨fresh, once⟩ := List.nodup_cons.1 once
    obtain ⟨k, hk, isP⟩ := there n List.mem_cons_self
    have kept : ∀ m ∈ ns, entryAt (freed n e.toCore).cases m = entryAt e.cases m := fun m mem =>
      (entryAt_freed n m e.toCore).trans (if_neg fun same : m = n => fresh (same ▸ mem))
    have rest : freeingsTold ns reason (freed n e.toCore) = freeingsTold ns reason e.toCore := by
      simp only [freeingsTold, freed_time]
      rw [List.flatMap_congr]
      intro m mem
      rw [kept m mem]
    rw [List.foldl_cons, frees e n k hk isP, freeCase_eq, ih once]
    · simp only [freedAll_cons, rest]
      simp [freeingsTold, hk]
    · intro m mem
      obtain ⟨k', hk', isP'⟩ := there m (List.mem_cons_of_mem _ mem)
      exact ⟨k', (kept m mem).trans hk', isP'⟩

theorem entriesWhere_nodup {α : Type} (l : List (Checked α)) (f : α → Bool) : (entriesWhere l f).Nodup :=
  List.nodup_range.filter _

/-! ### Claims on a segment (R155) -/

theorem claimConditions_pass {p : Part} (well : healthy p.core = true) {inRange : Bool} (inside : inRange = true) :
    select (claimConditions p inRange) = none := by
  obtain ⟨running, calm⟩ := (healthy_iff p.core).1 well
  refine select_eq_none_iff.2 ?_
  simp [claimConditions, inside, (isHalted_eq_false_iff p).2 running, calm]

section
variable {p : Part} {e : Ev} {n : Nat} {inRange : Bool} (well : healthy p.core = true) (inside : inRange = true)
  (same : healthy e.toCore = true) (good : badAt e.segments n = false)
include well inside same good

/-- A claim on a segment that is there goes on with its own meaning. -/
theorem onSegment_passes (f : Ev → Ev × Answer) (defined : (entryAt e.segments n).isSome = true) :
    onItem (claimConditions p inRange) inRange { table := .segment, index := n } (fun c => (entryAt c.segments n).isSome)
      f e = f e := by
  rw [onItem, if_pos (by simp [same, inside]), reading_sound _ _ _ (by simpa [isBad] using good), defined]
  exact unlessEv_passes ((select_false _ _).trans (claimConditions_pass well inside)) f e

theorem onSegment_undefined (f : Ev → Ev × Answer) (none_ : entryAt e.segments n = none) :
    onItem (claimConditions p inRange) inRange { table := .segment, index := n } (fun c => (entryAt c.segments n).isSome)
      f e = (e, plain .noSuchItem) := by
  rw [onItem, if_pos (by simp [same, inside]), reading_sound _ _ _ (by simpa [isBad] using good), none_]
  exact unlessEv_refuses (select_only (claimConditions_pass well inside) _) f e

end

/-! ### SET_HOLD (R164 to R166) -/

theorem closesBarredBy_none {c : Core} (h : NoCloses c) (state : OrderState) (s : Nat) : closesBarredBy c state s = [] := by
  refine List.eq_nil_iff_forall_not_mem.2 fun d mem => ?_
  obtain ⟨o, v, inQueue, close, -⟩ := (closesAsStated c state s d).1 mem
  exact h o inQueue close

theorem closeReads_allSound {c : Core} (devices : Sound c.devices) (segments : Sound c.segments) (cases : Sound c.cases) :
    ∀ r ∈ closeReads c, isBad c r = false := by
  unfold closeReads
  split
  · simp
  · intro r mem
    simp only [List.mem_append] at mem
    obtain (inDevices | inSegments) | inCases := mem
    · exact refs_sound devices (fun _ => rfl) _ r inDevices
    · exact allRefs_segments_sound segments r inSegments
    · exact allRefs_cases_sound cases r inCases

/-- Whether SENT CLOSE orders stand in the way of a hold. -/
def meetsSent (c : Core) (x : HoldRequest) : Prop := x.kind = .work ∧ closesBarredBy c .sent x.segment ≠ []

/-- Whether the present hold stands in the way of a hold. -/
def meetsHold (c : Core) (q : Port) (x : HoldRequest) : Prop :=
  ∃ h, holdOf c x.segment = some h ∧ (h.holder ≠ q ∨ x.conditional = true)

theorem not_meetsHold {c : Core} {q : Port} {x : HoldRequest}
    (own : ∀ h, holdOf c x.segment = some h → h.holder = q ∧ x.conditional = false) : ¬ meetsHold c q x := by
  rintro ⟨h, held, refuses⟩
  obtain ⟨mine, outright⟩ := own h held
  simp [mine, outright] at refuses

theorem not_meetsSent {c : Core} {x : HoldRequest} (h : x.kind = .mute ∨ NoCloses c) : ¬ meetsSent c x := by
  rintro ⟨work, meets⟩
  exact meets (closesBarredBy_none (h.resolve_left (by simp [work])) .sent x.segment)

theorem holdRefuses_iff (c : Core) (q : Port) (x : HoldRequest) :
    holdRefuses (holdOf c x.segment) q x.conditional = true ↔ meetsHold c q x := by
  unfold holdRefuses meetsHold
  cases holdOf c x.segment <;> simp

theorem meetsSent_iff (c : Core) (x : HoldRequest) :
    (x.kind == .work && !(closesBarredBy c .sent x.segment).isEmpty) = true ↔ meetsSent c x := by
  simp [meetsSent]

section
variable {q : Port} {x : HoldRequest} {e : Ev} (reads : x.kind = .work → ∀ r ∈ closeReads e.toCore, isBad e.toCore r = false)
include reads

theorem setHold_refused {code : ReplyCode} (selected : select (holdConditions e.toCore q x) = some code) :
    setHold q x e = (e, holdReply e.toCore x.segment code) := by
  unfold setHold
  cases kind : x.kind with
  | work =>
    refine (reading_sound _ _ _ (reads kind)).trans ?_
    simp only [selected]
  | mute =>
    refine (reading_sound _ _ _ (by simp)).trans ?_
    simp only [selected]

theorem setHold_selected (selected : select (holdConditions e.toCore q x) = none) :
    setHold q x e = reading (allRefs e.toCore .case) (fun e => (applyHold q x e, plain .accepted)) e := by
  unfold setHold
  cases kind : x.kind with
  | work =>
    refine (reading_sound _ _ _ (reads kind)).trans ?_
    simp only [selected]
  | mute =>
    refine (reading_sound _ _ _ (by simp)).trans ?_
    simp only [selected]

theorem setHold_held {h : Hold} (held : holdOf e.toCore x.segment = some h) (refuses : h.holder ≠ q ∨ x.conditional = true) :
    setHold q x e = (e, .now .segmentHeld (.presentHold h)) := by
  have meets : holdRefuses (holdOf e.toCore x.segment) q x.conditional = true :=
    (holdRefuses_iff e.toCore q x).2 ⟨h, held, refuses⟩
  have selected : select (holdConditions e.toCore q x) = some .segmentHeld := by
    refine select_eq_some (by simp [holdConditions, meets]) fun d holds => ?_
    simp only [holdConditions, List.mem_cons, Prod.mk.injEq, List.not_mem_nil, or_false] at holds
    obtain ⟨-, rfl⟩ | ⟨-, rfl⟩ := holds <;> decide
  rw [setHold_refused reads selected]
  simp only [holdReply, held]

variable (free : ¬ meetsHold e.toCore q x)
include free

theorem setHold_sent {d : Nat} (work : x.kind = .work) (mem : d ∈ closesBarredBy e.toCore .sent x.segment)
    (least : ∀ m ∈ closesBarredBy e.toCore .sent x.segment, d ≤ m) :
    setHold q x e = (e, .now .closeInFlight (.deviceNumber d)) := by
  have unheld := Bool.eq_false_iff.2 (free ∘ (holdRefuses_iff e.toCore q x).1)
  have meets := (meetsSent_iff e.toCore x).2 ⟨work, List.ne_nil_of_mem mem⟩
  have selected : select (holdConditions e.toCore q x) = some .closeInFlight := by
    rw [holdConditions, unheld, select_false]
    exact select_shared (by simp) ⟨_, List.mem_singleton_self _, meets⟩
  have first : lowest (closesBarredBy e.toCore .sent x.segment) = some d := by
    cases found : lowest (closesBarredBy e.toCore .sent x.segment) with
    | none =>
      rw [(lowest_eq_none_iff _).1 found] at mem
      cases mem
    | some y =>
      obtain ⟨isOne, below⟩ := lowest_eq_some found
      exact congrArg some (Nat.le_antisymm (below d mem) (least y isOne))
  rw [setHold_refused reads selected]
  simp only [holdReply, first]

theorem setHold_free (unsent : ¬ meetsSent e.toCore x) (cases : Sound e.cases) :
    setHold q x e = (applyHold q x e, plain .accepted) := by
  have unheld := Bool.eq_false_iff.2 (free ∘ (holdRefuses_iff e.toCore q x).1)
  have unmet := Bool.eq_false_iff.2 (unsent ∘ (meetsSent_iff e.toCore x).1)
  have passes : select (holdConditions e.toCore q x) = none := by
    rw [holdConditions, unheld, unmet]
    rfl
  rw [setHold_selected reads passes]
  exact reading_sound _ _ _ (allRefs_cases_sound cases)

end

/-! ### The effects of a hold (R165, R166) -/

/-- The hold a request asks for. -/
def asHold (q : Port) (x : HoldRequest) : Hold := { kind := x.kind, holder := q, label := x.label }

/-- The WATCH cases on a segment are freed MASKED. -/
theorem freeWatchOn_eq (s : Nat) (e : Ev) : freeWatchOn s e = { e with
    toCore := freedAll (watchOn e.toCore s) e.toCore
    out := e.out ++ freeingsTold (watchOn e.toCore s) .masked e.toCore } := by
  rw [freeWatchOn]
  refine foldl_frees (fun _ => True) (fun e n k hk _ => by simp only [hk]) _ (entriesWhere_nodup _ _) e fun n mem => ?_
  obtain ⟨k, hk, -⟩ := (mem_entriesWhere _ _ _).1 mem
  exact ⟨k, hk, trivial⟩

theorem mem_watchOn (c : Core) (s n : Nat) :
    n ∈ watchOn c s ↔ ∃ k, entryAt c.cases n = some k ∧ k.segment = s ∧ k.state = .watch := by
  simp [watchOn, mem_entriesWhere]

/-- Of the entries, those of the WATCH cases on a segment are left free. -/
theorem entryAt_freedWatch (s : Nat) (c : Core) (holds : List (Option Hold)) (n : Nat) :
    entryAt (freedAll (watchOn c s) { c with holds := holds }).cases n
      = (entryAt c.cases n).filter fun k => !(k.segment == s && k.state == .watch) := by
  refine (entryAt_freedAll _ n _).trans ?_
  have watched := mem_watchOn c s n
  cases at_ : entryAt c.cases n with
  | none => simp
  | some k =>
    simp only [at_, Option.some.injEq, exists_eq_left'] at watched
    by_cases isWatch : k.segment = s ∧ k.state = .watch
    · rw [if_pos (watched.2 isWatch)]
      exact (Option.filter_some_neg (by simp [isWatch])).symm
    · have kept : (!(k.segment == s && k.state == .watch)) = true := by simpa [← not_and_or] using isWatch
      rw [if_neg (isWatch ∘ watched.1)]
      exact (Option.filter_some_pos (p := fun k : Case => !(k.segment == s && k.state == .watch)) kept).symm

theorem watchOn_none {c : Core} {s : Nat} (h : ∀ n k, entryAt c.cases n = some k → k.segment = s → k.state ≠ .watch) :
    watchOn c s = [] := by
  refine List.eq_nil_iff_forall_not_mem.2 fun n mem => ?_
  obtain ⟨k, hk, segment, watch⟩ := (mem_watchOn c s n).1 mem
  exact h n k hk segment watch

theorem freeWatchOn_none {s : Nat} {e : Ev} (h : ∀ n k, entryAt e.cases n = some k → k.segment = s → k.state ≠ .watch) :
    freeWatchOn s e = e := by
  rw [freeWatchOn, watchOn_none h]
  rfl

/-- Without a CLOSE to withdraw a hold is set, and the WATCH cases on its segment freed. -/
theorem applyHold_unclosed {q : Port} {x : HoldRequest} {e : Ev} (h : x.kind = .mute ∨ NoCloses e.toCore) :
    applyHold q x e = freeWatchOn x.segment { e with holds := e.holds.set x.segment (some (asHold q x)) } := by
  unfold applyHold
  cases kind : x.kind with
  | mute => simp only [asHold, kind]
  | work =>
    have unclosed : NoCloses e.toCore := h.resolve_left (by simp [kind])
    simp only [closesBarredBy_none unclosed, withdrawEach, List.foldl_nil, asHold, kind]

/-- A QUEUED CLOSE that a WORK hold bars is withdrawn before the hold is set. -/
theorem applyHold_withdraws {q : Port} {x : HoldRequest} {o : Order} {v : Device} {e : Ev} (work : x.kind = .work)
    (only : e.orders = [o]) (close : o.action = .close) (queued : o.state = .queued)
    (hv : entryAt e.devices o.device = some v) (good : badAt e.devices o.device = false) (running : e.mode ≠ .halted)
    (barred : barredBy e.segments v x.segment = true)
    (unwatched : ∀ n k, entryAt e.cases n = some k → k.segment = x.segment → k.state ≠ .watch) :
    applyHold q x e = { orderWithdrawn .workHold o v e with
      holds := e.holds.set x.segment (some { kind := .work, holder := q, label := x.label }) } := by
  have order : orderOf e.toCore o.device = some o := by simp [orderOf, only]
  have closes : closesBarredBy e.toCore .queued x.segment = [o.device] := by
    simp [closesBarredBy, only, close, queued, hv, barred]
  unfold applyHold
  simp only [work, closes, withdrawEach, List.foldl_cons, List.foldl_nil, if_neg running,
    withdraw_queued .workHold order queued hv good running]
  exact freeWatchOn_none unwatched

/-- A device that keeps its state, its reach and its next poll is due as before. -/
theorem noPolls_putAt {c c' : Core} {d : Nat} {v v' : Device} (quiet : NoPolls c) (hv : entryAt c.devices d = some v)
    (mode : c'.mode = c.mode) (now : c'.time.now = c.time.now) (devices : c'.devices = putAt c.devices d (some v'))
    (state : v'.run.state = v.run.state) (reach : v'.run.reachable = v.run.reachable)
    (poll : v'.run.nextPoll = v.run.nextPoll) : NoPolls c' := by
  intro monitoring
  obtain ⟨sound, idle⟩ := quiet (mode ▸ monitoring)
  rw [devices, now]
  refine ⟨sound_set sound _ _, fun n u t at_ eligible due => ?_⟩
  have at' := (entryAt_putAt c.devices d n (some v') (entryAt_lt hv)).symm.trans at_
  by_cases same : n = d
  · rw [if_pos same] at at'
    cases at'
    rw [state, reach] at eligible
    exact idle d v t hv eligible (poll ▸ due)
  · rw [if_neg same] at at'
    exact idle n u t at' eligible due

theorem replied_core (q : Port) (kind : Nat) (tag : Byte) (code : ReplyCode) (body : ReplyBody) (p : Part) (s : State) :
    (replied q kind tag code body p s).part.core = p.core := by
  simp [replied]

theorem keepsRestButCounters_ended {s : State} {p : Part} {c : Core} {a b : PortState} {counters : List Counter}
    (h : p = { s.part with core := c, portA := a, portB := b, counters := counters }) :
    KeepsRestButCounters s (ended p s) := by
  subst h
  refine ⟨rfl, ?_⟩
  show finish _ = _
  conv_lhs => rw [finish_rest]
  simp [ended, finish_core]

/-- A command leaves all but the blocks, the ports and the counters. -/
theorem keepsRestButCounters_replied (q : Port) (kind : Nat) (tag : Byte) (code : ReplyCode) (body : ReplyBody)
    (xs : List Emit) (c : Core) (s : State) :
    KeepsRestButCounters s (replied q kind tag code body (outcome xs c (heard q s)) s) := by
  obtain ⟨counters, a, b, told⟩ : ∃ counters a b, outcome xs c (heard q s)
      = { heard q s with core := c, counters := counters, portA := a, portB := b } :=
    ⟨_, _, _, deliver_rest c.time.now xs { heard q s with core := c }⟩
  have rest : heard q s = { s.part with
      core := { s.part.core with supervision := (heard q s).core.supervision }
      portA := (heard q s).portA, portB := (heard q s).portB } := hearFrame_rest q true s.part
  rw [told, rest]
  cases q
  · exact keepsRestButCounters_ended (a := enqueue kind tag (.now code body) a) (b := b) rfl
  · exact keepsRestButCounters_ended (a := a) (b := enqueue kind tag (.now code body) b) rfl

/-! ### The commands -/

theorem clearHold_own {q : Port} {n : Nat} {h : Hold} {e : Ev} (held : holdOf e.toCore n = some h) (own : h.holder = q) :
    clearHold q n e = ({ e with holds := e.holds.set n none }, plain .accepted) := by
  simp [clearHold, held, own]

theorem clearHold_other {q : Port} {n : Nat} {h : Hold} {e : Ev} (held : holdOf e.toCore n = some h) (other : h.holder ≠ q) :
    clearHold q n e = (e, .now .segmentHeld (.presentHold h)) := by
  simp [clearHold, held, other]

theorem meaning_setHold {q : Port} {tag : Byte} {x : HoldRequest} {s : State} {e : Ev} {a : Answer} (well : Healthy s)
    (inside : x.segment < 96) (label : x.label < 65536) (segments : Sound (heard q s).core.segments)
    (defined : (entryAt (heard q s).core.segments x.segment).isSome = true)
    (h : setHold q x (startEvent (heard q s).core) = (e, a)) :
    meaning (.setHold q tag (.ok x)) (heard q s) = viaCore (fun _ _ => (e, a)) (heard q s) := by
  have inRange : (decide (x.segment < Config.segments) && decide (x.label < 65536)) = true := by
    simp [Config.segments, inside, label]
  have passed := onSegment_passes (p := heard q s) (e := startEvent (heard q s).core) (healthy_heard q well) inRange
    (healthy_heard q well) (segments x.segment) (setHold q x) defined
  rw [meaning, onBody_ok, viaCore_eq, viaCore_eq, ← h, ← passed]

section
variable {q : Port} {tag : Byte} {n : Nat} {s : State} (well : Healthy s) (inside : n < 96)
include well inside

theorem meaning_clearHold_held {h : Hold} (held : holdOf (heard q s).core n = some h) :
    meaning (.clearHold q tag (.ok n)) (heard q s) = viaCore (fun _ e => clearHold q n e) (heard q s) := by
  have passes := unlessEv_passes (claimConditions_pass (healthy_heard q well)
    (decide_eq_true (show n < Config.segments from inside))) (clearHold q n) (startEvent (heard q s).core)
  rw [meaning, onBody_ok, viaCore_eq, viaCore_eq]
  simp only [startEvent_core, held, passes]

theorem meaning_clearHold_none (segments : Sound (heard q s).core.segments) (none_ : holdOf (heard q s).core n = none) :
    meaning (.clearHold q tag (.ok n)) (heard q s) = (heard q s, plain .noSuchItem) := by
  have inRange : decide (n < Config.segments) = true := decide_eq_true inside
  have item : onItem (claimConditions (heard q s) (decide (n < Config.segments))) (decide (n < Config.segments))
      { table := .segment, index := n } (fun c => (entryAt c.segments n).isSome) (clearHold q n)
      (startEvent (heard q s).core) = (startEvent (heard q s).core, plain .noSuchItem) := by
    cases at_ : entryAt (heard q s).core.segments n with
    | none => exact onSegment_undefined (healthy_heard q well) inRange (healthy_heard q well) (segments n) _ at_
    | some sg =>
      refine (onSegment_passes (healthy_heard q well) inRange (healthy_heard q well) (segments n) _ (by
        rw [startEvent_core, at_]
        rfl)).trans ?_
      simp only [clearHold, startEvent_core, none_]
  rw [meaning, onBody_ok, viaCore_eq]
  simp only [startEvent_core, none_, item]
  rw [commit_start]

end

/-- Settles O42: a hold is placed, replaced or refused, and cleared by its port alone. -/
theorem holdsSetAndCleared : Obligations.HoldsSetAndCleared := by
  intro q tag s taken well p c segments cases
  refine ⟨fun x inside label defined shown => ⟨fun h held refuses => ?_, fun own => ⟨fun unwatched => ?_, ?_⟩⟩,
    fun n inside => ⟨fun h held own => ?_, fun h held other => ?_, fun none_ => ?_⟩,
    fun x inside label defined work own devices => ⟨fun d mem least => ?_,
      fun o v r t only close queued cls origin hv barred walks room quiet unwatched => ?_⟩⟩
  · have reads : x.kind = .work → ∀ r ∈ closeReads c, isBad c r = false := fun work => by
      simp [closeReads_eq_nil (shown.resolve_left (by simp [work]))]
    exact exec_replied rfl taken ((meaning_setHold well inside label segments defined
      (setHold_held (e := startEvent c) reads held refuses)).trans (viaCore_same rfl))
  · have reads : x.kind = .work → ∀ r ∈ closeReads c, isBad c r = false := fun work => by
      simp [closeReads_eq_nil (shown.resolve_left (by simp [work]))]
    have placed := setHold_free (e := startEvent c) reads (not_meetsHold own) (not_meetsSent shown) cases
    rw [applyHold_unclosed (e := startEvent c) shown, freeWatchOn_none (by exact unwatched)] at placed
    exact exec_replied rfl taken ((meaning_setHold well inside label segments defined placed).trans
      (viaCore_done rfl rfl rfl rfl rfl))
  · have reads : x.kind = .work → ∀ r ∈ closeReads c, isBad c r = false := fun work => by
      simp [closeReads_eq_nil (shown.resolve_left (by simp [work]))]
    have placed := setHold_free (e := startEvent c) reads (not_meetsHold own) (not_meetsSent shown) cases
    rw [applyHold_unclosed (e := startEvent c) shown, freeWatchOn_eq] at placed
    have means := (meaning_setHold (tag := tag) well inside label segments defined placed).trans
      (viaCore_done rfl rfl rfl rfl rfl)
    refine ⟨_, exec_replied rfl taken means, answered_replied means, keepsRestButCounters_replied q _ tag _ _ _ _ s, ?_⟩
    rw [replied_core, outcome_core]
    have rest := freedAll_rest (watchOn c x.segment) { c with holds := c.holds.set x.segment (some (asHold q x)) }
    have field := fun {α : Type} (f : Core → α) => congrArg f rest
    exact ⟨field Core.holds, entryAt_freedWatch x.segment c _, field Core.segments, field Core.devices, field Core.orders,
      field Core.reservations⟩
  · refine exec_replied rfl taken ((meaning_clearHold_held well inside held).trans (viaCore_done
      (e := startEvent { c with holds := c.holds.set n none }) ?_ rfl rfl rfl rfl))
    exact clearHold_own (e := startEvent c) held own
  · exact exec_replied rfl taken ((meaning_clearHold_held well inside held).trans (viaCore_same
      (clearHold_other (e := startEvent c) held other)))
  · exact exec_refused rfl taken (meaning_clearHold_none well inside segments none_)
  · exact exec_replied rfl taken ((meaning_setHold well inside label segments defined
      (setHold_sent (e := startEvent c) (fun _ => closeReads_allSound devices segments cases) (not_meetsHold own) work mem
        least)).trans (viaCore_same rfl))
  · have unsent : ¬ meetsSent c x := by
      rintro ⟨-, some_⟩
      refine some_ (List.eq_nil_iff_forall_not_mem.2 fun d mem => ?_)
      obtain ⟨o', -, inQueue, -, sent, -⟩ := (closesAsStated c .sent x.segment d).1 mem
      rw [only, List.mem_singleton] at inQueue
      subst inQueue
      exact nomatch queued.symm.trans sent
    have running : c.mode ≠ .halted := (heard_mode q s).symm ▸ well.1
    have placed := setHold_free (e := startEvent c) (fun _ => closeReads_allSound devices segments cases)
      (not_meetsHold own) unsent cases
    rw [applyHold_withdraws (e := startEvent c) work only close queued hv (devices _) running barred unwatched] at placed
    have settled := settle_announced (env := envOf p) (d := o.device)
      (e := { orderWithdrawn .workHold o v (startEvent c) with
        holds := c.holds.set x.segment (some { kind := .work, holder := q, label := x.label }) }) walks room
      (noPolls_putAt quiet hv rfl rfl rfl rfl rfl rfl) rfl
    refine exec_replied rfl taken ((meaning_setHold well inside label segments defined placed).trans
      (viaCore_settled rfl settled rfl ?_ ?_))
    · simp only [orderWithdrawn, cls, origin, close]
      rfl
    · simp [orderWithdrawn, only, startEvent]

end Sys2Proof.Machine
end

