-- ==== Sys2Proof/Proofs/LeavingMonitoring.lean ====
section
/-! PROOF. SET_MODE CONFIGURING. -/

namespace Sys2Proof.Machine

/-- Whether an entry holds a case with a property. -/
def caseHas (c : Core) (P : Case → Bool) (n : Nat) : Bool := (entryAt c.cases n).any P

theorem caseHas_iff (c : Core) (P : Case → Bool) (n : Nat) :
    caseHas c P n = true ↔ ∃ k, entryAt c.cases n = some k ∧ P k = true := by
  unfold caseHas
  cases entryAt c.cases n <;> simp

/-- An act on several entries that leaves those without a property is the act on those with it. -/
theorem foldl_skips {f : Ev → Nat → Ev} {reason : CaseReason} {P : Case → Bool}
    (frees : ∀ e n k, entryAt e.cases n = some k → P k = true → f e n = freeCase n k reason none e)
    (passes : ∀ e n, caseHas e.toCore P n = false → f e n = e) (ns : List Nat) (once : ns.Nodup) (e : Ev) :
    ns.foldl f e = (ns.filter (caseHas e.toCore P)).foldl f e := by
  induction ns generalizing e with
  | nil => rfl
  | cons n ns ih =>
    obtain ⟨fresh, once⟩ := List.nodup_cons.1 once
    rw [List.foldl_cons, List.filter_cons]
    cases isP : caseHas e.toCore P n with
    | false =>
      rw [passes e n isP]
      exact ih once e
    | true =>
      obtain ⟨k, hk, holds⟩ := (caseHas_iff _ _ _).1 isP
      have rest : ns.filter (caseHas (f e n).toCore P) = ns.filter (caseHas e.toCore P) := by
        refine List.filter_congr fun m mem => ?_
        have other : m ≠ n := fun same => fresh (same ▸ mem)
        rw [frees e n k hk holds, freeCase_eq]
        exact congrArg (Option.any P) ((entryAt_freed n m e.toCore).trans (if_neg other))
      rw [if_pos rfl, List.foldl_cons, ih once, rest]

theorem occupied_filter (c : Core) (P : Case → Bool) : (occupied c.cases).filter (caseHas c P) = entriesWhere c.cases P := by
  rw [occupied, entriesWhere, entriesWhere, List.filter_filter]
  refine List.filter_congr fun n _ => ?_
  unfold caseHas
  cases entryAt c.cases n <;> simp

/-- The WATCH cases. -/
def watchCases (c : Core) : List Nat := entriesWhere c.cases fun k => k.state == .watch

theorem withdrawWatch_watch {n : Nat} {k : Case} {e : Ev} (hk : entryAt e.cases n = some k) (watch : k.state = .watch) :
    withdrawWatch n e = freeCase n k .withdrawn none e := by
  simp only [withdrawWatch, hk, watch]

theorem withdrawWatch_other {n : Nat} {e : Ev} (h : caseHas e.toCore (fun k => k.state == .watch) n = false) :
    withdrawWatch n e = e := by
  unfold withdrawWatch
  unfold caseHas at h
  cases hk : entryAt e.cases n with
  | none => rfl
  | some k =>
    rw [hk] at h
    cases state : k.state with
    | watch => simp [state] at h
    | confirmed => simp only [state]
    | isolating => simp only [state]
    | isolated => simp only [state]
    | blocked => simp only [state]

/-- The WATCH cases are withdrawn in turn. -/
theorem withdrawWatches_eq (e : Ev) : (occupied e.cases).foldl (fun e n => withdrawWatch n e) e = { e with
    toCore := freedAll (watchCases e.toCore) e.toCore
    out := e.out ++ freeingsTold (watchCases e.toCore) .withdrawn e.toCore } := by
  rw [foldl_skips (P := fun k => k.state == .watch) (reason := .withdrawn)
    (fun e n k hk watch => withdrawWatch_watch hk (by simpa using watch)) (fun e n => withdrawWatch_other) (occupied e.cases)
    (entriesWhere_nodup _ _) e, occupied_filter]
  refine foldl_frees (fun k => k.state = .watch) (fun e n k hk watch => withdrawWatch_watch hk watch) _
    (entriesWhere_nodup _ _) e fun n mem => ?_
  obtain ⟨k, hk, watch⟩ := (mem_entriesWhere _ _ _).1 mem
  exact ⟨k, hk, by simpa using watch⟩

/-- The event with the mode CONFIGURING and the WATCH cases withdrawn. -/
def watchesWithdrawn (e : Ev) : Ev :=
  { e with
    toCore := { freedAll (watchCases e.toCore) e.toCore with mode := .configuring }
    out := e.out ++ freeingsTold (watchCases e.toCore) .withdrawn e.toCore }

theorem freedAll_mode (ns : List Nat) (m : Mode) (c : Core) :
    freedAll ns { c with mode := m } = { freedAll ns c with mode := m } := by
  induction ns generalizing c with
  | nil => rfl
  | cons n ns ih =>
    rw [freedAll_cons, freedAll_cons, ← ih]
    rfl

theorem enterConfiguring_eq (e : Ev) : enterConfiguring e = clearPolls (withdrawPolls (watchesWithdrawn e)) := by
  rw [enterConfiguring]
  simp only [withdrawWatches_eq]
  refine congrArg (fun e => clearPolls (withdrawPolls e)) ?_
  rw [watchesWithdrawn, ← freedAll_mode]
  rfl

theorem queuedPolls_withdrawn (e : Ev) : queuedPolls (watchesWithdrawn e).toCore = queuedPolls e.toCore := by
  have rest := congrArg Core.orders (freedAll_rest (watchCases e.toCore) e.toCore)
  have orders : (watchesWithdrawn e).orders = e.orders := rest
  rw [queuedPolls, queuedPolls, orders]

theorem freedAll_devices (ns : List Nat) (c : Core) : (freedAll ns c).devices = c.devices := by
  rw [freedAll_rest]

theorem freedAll_orders (ns : List Nat) (c : Core) : (freedAll ns c).orders = c.orders := by
  rw [freedAll_rest]

theorem freedAll_idle (ns : List Nat) {c : Core} (walks : c.walks = []) (room : c.room = []) :
    (freedAll ns c).walks = [] ∧ (freedAll ns c).room = [] := by
  induction ns generalizing c with
  | nil => exact ⟨walks, room⟩
  | cons n ns ih =>
    rw [freedAll_cons]
    exact ih (by simp [walks]) (by simp [room])

theorem toConfiguring_holds {e : Ev} (cases : Sound e.cases)
    (holds : ∃ n k, entryAt e.cases n = some k ∧ (k.state = .confirmed ∨ k.state = .isolating)) :
    toConfiguring e = (e, plain .isolationInProgress) := by
  have some_ : (entriesWhere e.cases holdsMode).isEmpty = false := by
    obtain ⟨n, k, hk, state⟩ := holds
    refine List.isEmpty_eq_false_iff_exists_mem.2 ⟨n, (mem_entriesWhere _ _ _).2 ⟨k, hk, ?_⟩⟩
    obtain confirmed | isolating := state <;> simp [holdsMode, *]
  rw [toConfiguring, reading_sound _ _ _ (allRefs_cases_sound cases), some_]
  rfl

theorem toConfiguring_reads {e : Ev} (cases : Sound e.cases)
    (free : ∀ n k, entryAt e.cases n = some k → k.state ≠ .confirmed ∧ k.state ≠ .isolating) :
    toConfiguring e = reading (refs .device (queuedPolls e.toCore)) (fun e => (enterConfiguring e, plain .accepted)) e := by
  have none_ : (entriesWhere e.cases holdsMode).isEmpty = true := by
    rw [List.isEmpty_iff, List.eq_nil_iff_forall_not_mem]
    intro n mem
    obtain ⟨k, hk, holds⟩ := (mem_entriesWhere _ _ _).1 mem
    obtain ⟨unconfirmed, unisolating⟩ := free n k hk
    cases state : k.state <;> simp_all [holdsMode]
  rw [toConfiguring, reading_sound _ _ _ (allRefs_cases_sound cases), none_]
  rfl

/-- What withdrawing the WATCH cases tells, their fields reading in their ranges. -/
theorem freeingsTold_watch {c : Core} (readable : ∀ n k, entryAt c.cases n = some k → k.unreadable = []) :
    freeingsTold (watchCases c) .withdrawn c = (watchCases c).flatMap fun n =>
      match entryAt c.cases n with
      | some k =>
        [caseTold n k (some .watch) none .withdrawn none c.time.now,
         segmentCount .casesClosedUnconfirmed (some k.segment) 1]
      | none => [] := by
  refine List.flatMap_congr fun n mem => ?_
  obtain ⟨k, hk, watch⟩ := (mem_entriesWhere _ _ _).1 mem
  have isWatch : k.state = .watch := by simpa using watch
  simp only [hk, Option.toList_some, List.flatMap_cons, List.flatMap_nil, List.append_nil,
    freeingTold_readable (readable n k hk), isWatch, if_true]

theorem entryAt_watchesFreed (c : Core) (n : Nat) : entryAt (freedAll (watchCases c) c).cases n
    = (entryAt c.cases n).filter fun k => decide (k.state ≠ .watch) := by
  have isWatch : n ∈ watchCases c ↔ ∃ k, entryAt c.cases n = some k ∧ (k.state == .watch) = true := mem_entriesWhere _ _ _
  rw [entryAt_freedAll]
  cases hk : entryAt c.cases n with
  | none => simp
  | some k =>
    simp only [hk, Option.some.injEq, exists_eq_left', beq_iff_eq] at isWatch
    by_cases watch : k.state = .watch
    · rw [if_pos (isWatch.2 watch)]
      exact (Option.filter_some_neg (p := fun k : Case => decide (k.state ≠ .watch)) (by simp [watch])).symm
    · rw [if_neg (watch ∘ isWatch.1)]
      exact (Option.filter_some_pos (p := fun k : Case => decide (k.state ≠ .watch)) (by simp [watch])).symm

theorem changeMode_configuring {e : Ev} (h : e.mode = .monitoring) : changeMode .configuring e = toConfiguring e := by
  rw [changeMode, if_neg (by simp [h])]

/-- The fault of a read, in an event of healthy blocks. -/
theorem faultAt_leaves {r : Ref} {e : Ev} (well : healthy e.toCore = true) (table : r.table ≠ .store) (first : e.met = []) :
    (faultAt r e).cases = e.cases ∧ (faultAt r e).orders = e.orders ∧ (faultAt r e).time = e.time
      ∧ (faultAt r e).todo = e.todo ∧ (faultAt r e).storeFailed = e.storeFailed
      ∧ (faultAt r e).record.total = min 255 (e.record.total + 1) ∧ (faultAt r e).window = e.window ++ [e.time.now]
      ∧ (e.window.length < 2 → (faultAt r e).mode = e.mode ∧ (faultAt r e).recovery.recovering = true)
      ∧ (2 ≤ e.window.length → (faultAt r e).mode = .halted ∧ (faultAt r e).recovery.recovering = false) := by
  rw [faultAt_first first]
  by_cases few : e.window.length < 2
  · rw [internalFault_recovers (e := { e with met := [r] }) well table (by exact Nat.succ_lt_succ few)]
    exact ⟨rfl, rfl, rfl, rfl, rfl, rfl, rfl, fun _ => ⟨rfl, rfl⟩, fun many => absurd few (Nat.not_lt.2 many)⟩
  · rw [internalFault_halts (e := { e with met := [r] }) well table (by exact Nat.succ_le_succ (Nat.not_lt.1 few))]
    exact ⟨rfl, rfl, rfl, rfl, rfl, rfl, rfl, fun h => absurd h few, fun _ => ⟨rfl, rfl⟩⟩

/-- Settles O30: the WATCH cases and the QUEUED polls are withdrawn, unless a case holds the mode. -/
theorem setModeConfiguring : Obligations.SetModeConfiguring := by
  intro q tag s taken controls calm mode p c cases readable
  have mode' : (startEvent c).mode = .monitoring := (heard_mode q s).trans mode
  have means := meaning_setMode (tag := tag) controls (m := .configuring) (by decide) (by simp [mode]) calm
  have well : healthy c = true := healthy_heard q ⟨by simp [mode], calm⟩
  have devices := freedAll_devices (watchCases c) c
  refine ⟨fun holds => ?_, fun free => ⟨entryAt_watchesFreed c, fun unqueued => ?_,
    fun d o v one order cls queued hv good walks room => ?_, fun d mem bad => ?_⟩⟩
  · exact exec_refused rfl taken (means.trans (viaCore_same
      ((changeMode_configuring mode').trans (toConfiguring_holds cases holds))))
  · have none_ : queuedPolls c = [] := by
      simp only [queuedPolls, List.map_eq_nil_iff, List.filter_eq_nil_iff]
      intro o inQueue
      by_cases poll : o.cls = .poll
      · simp [unqueued o inQueue poll]
      · simp [poll]
    have reads := toConfiguring_reads (e := startEvent c) cases free
    rw [startEvent_core, none_] at reads
    have kept : withdrawPolls (watchesWithdrawn (startEvent c)) = watchesWithdrawn (startEvent c) := by
      rw [withdrawPolls, queuedPolls_withdrawn, startEvent_core, none_]
      rfl
    refine exec_replied rfl taken (means.trans (viaCore_done (e := clearPolls (watchesWithdrawn (startEvent c)))
      ((changeMode_configuring mode').trans (reads.trans ?_)) rfl rfl (freeingsTold_watch readable) ?_))
    · rw [← kept, ← enterConfiguring_eq]
      rfl
    · exact congrArg (fun l => ({ freedAll (watchCases c) c with
        mode := .configuring
        devices := mapContents (fun v : Device => { v with run := { v.run with nextPoll := none } }) l } : Core)) devices
  · obtain rfl := orderOf_device order
    have reads := (toConfiguring_reads (e := startEvent c) cases free).trans (reading_sound _ _ _ (by
      intro r mem
      rw [startEvent_core, one] at mem
      obtain rfl := List.mem_singleton.1 mem
      exact good))
    have orders := freedAll_orders (watchCases c) c
    have order' : orderOf (watchesWithdrawn (startEvent c)).toCore o.device = some o :=
      (congrArg (List.find? fun x : Order => x.device == o.device) orders).trans order
    have hv' : entryAt (watchesWithdrawn (startEvent c)).devices o.device = some v :=
      (congrArg (entryAt · o.device) devices).trans hv
    have good' : badAt (watchesWithdrawn (startEvent c)).devices o.device = false :=
      (congrArg (badAt · o.device) devices).trans good
    have withdrawn : withdrawPolls (watchesWithdrawn (startEvent c))
        = orderWithdrawn .isolationOverride o v (watchesWithdrawn (startEvent c)) := by
      rw [withdrawPolls, queuedPolls_withdrawn, startEvent_core, one, withdrawEach, List.foldl_cons, List.foldl_nil,
        if_neg (fun h => nomatch h), withdraw_queued .isolationOverride order' queued hv' good' (fun h => nomatch h)]
    obtain ⟨noWalks, noRoom⟩ := freedAll_idle (watchCases c) walks room
    have settled := settle_announced (env := envOf p) (d := o.device)
      (e := clearPolls (orderWithdrawn .isolationOverride o v (watchesWithdrawn (startEvent c)))) noWalks noRoom
      (fun monitoring => nomatch monitoring) rfl
    refine exec_replied rfl taken (means.trans (viaCore_settled
      ((changeMode_configuring mode').trans (reads.trans (congrArg (·, plain .accepted)
        ((enterConfiguring_eq _).trans (congrArg clearPolls withdrawn))))) settled rfl ?_ ?_))
    · have told := freeingsTold_watch readable
      simp only [clearPolls, orderWithdrawn, cls, List.append_nil]
      exact told
    · exact congrArg₂ (fun (xs : List Order) (l : List (Checked Device)) => ({ freedAll (watchCases c) c with
        mode := .configuring
        orders := xs.filter fun x => x.device != o.device
        devices := mapContents (fun v : Device => { v with run := { v.run with nextPoll := none } })
          (putAt l o.device (some { v with run := { v.run with currentOrder := none } })) } : Core)) orders devices
  · obtain ⟨r, found⟩ : ∃ r, firstBad c (refs .device (queuedPolls c)) = some r := by
      cases found : firstBad c (refs .device (queuedPolls c)) with
      | some r => exact ⟨r, rfl⟩
      | none =>
        have fine := (firstBad_none_iff _ _).1 found { table := .device, index := d } (List.mem_map_of_mem mem)
        exact nomatch bad.symm.trans fine
    have table : r.table ≠ .store := by
      obtain ⟨n, -, rfl⟩ := List.mem_map.1 (List.mem_of_find?_eq_some found)
      exact fun h => nomatch h
    obtain ⟨kept, orders, time, todo, store, total, window, few, many⟩ :=
      faultAt_leaves (r := r) (e := startEvent c) well table rfl
    have faults : meaning (.setMode q tag (.ok .configuring)) p
        = (outcome (faultAt r (startEvent c)).out (faultAt r (startEvent c)).toCore p, plain .faultRecovery) :=
      means.trans (viaCore_done ((changeMode_configuring mode').trans ((toConfiguring_reads (e := startEvent c) cases free).trans
        (reading_bad _ _ (startEvent c) r found))) todo store rfl rfl)
    refine ⟨_, exec_replied rfl taken faults, answered_replied faults, ?_⟩
    rw [replied_core, outcome_core]
    exact ⟨kept, orders, total, window, fun h => ⟨(few h).1.trans mode', (few h).2⟩, many⟩

end Sys2Proof.Machine
end

