-- ==== Sys2Proof/Proofs/SettingWrites.lean ====
section
/-! PROOF. WRITE_SETTING under its mask, and the effects of a setting's new value (R44, R110, R126, R194, R210).
Settles O44. -/

namespace Sys2Proof.Machine

/-! ### The mask (R210) -/

theorem maskedWrite_testBit (old : Nat) (value mask : BitVec 16) {j : Nat} (low : j < 16) :
    (maskedWrite old value mask).testBit j = if mask.getLsbD j then value.getLsbD j else old.testBit j := by
  rw [maskedWrite, BitVec.testBit_toNat, BitVec.getLsbD_or, BitVec.getLsbD_and, BitVec.getLsbD_and, BitVec.getLsbD_not,
    BitVec.getLsbD_ofNat, decide_eq_true low]
  cases mask.getLsbD j <;> simp

theorem maskedWrite_lt (old : Nat) (value mask : BitVec 16) : maskedWrite old value mask < 65536 := BitVec.isLt _

theorem put_get_self (i : SettingId) (s : Settings) : i.put (i.get s) s = s := by cases i <;> rfl

/-! ### The conditions (R210) -/

/-- A result that WRITE_SETTING may store. -/
def Storable (i : SettingId) (v : Nat) (s : Settings) : Prop :=
  i.range.1 ≤ v ∧ v ≤ i.range.2 ∧ (i.put v s).deadLevel < (i.put v s).liveLevel

theorem resultInRange_iff (i : SettingId) (v : Nat) (s : Settings) : resultInRange i v s = true ↔ Storable i v s := by
  simp [resultInRange, Storable, and_assoc]

section
variable {tag : Byte} {x : SettingWrite} {i : SettingId} {p : Part} {v : Nat}
  (named : settingId x.group x.index = some i) (masked : v = maskedWrite (i.get p.settings) x.value x.mask)
include named masked

theorem meaning_writeSetting :
    meaning (.writeSetting .a tag (.ok x)) p = unless_ (writeConditions p .a i v) (writeSetting i v) p := by
  simp only [meaning, onBody, named, masked]

theorem meaning_writeSetting_outside (outside : ¬ Storable i v p.settings) :
    meaning (.writeSetting .a tag (.ok x)) p = (p, plain .outOfRange) := by
  have bad : resultInRange i v p.settings = false := by
    rw [← Bool.not_eq_true, resultInRange_iff]
    exact outside
  rw [meaning_writeSetting named masked]
  refine unless_refuses (select_eq_some (by simp [writeConditions, bad]) fun d holds => ?_) _ p
  simp only [writeConditions, List.mem_cons, Prod.mk.injEq, List.not_mem_nil, or_false] at holds
  obtain ⟨_, rfl⟩ | ⟨_, rfl⟩ | ⟨_, rfl⟩ | ⟨_, rfl⟩ | ⟨_, rfl⟩ := holds <;> decide

variable (mode : p.core.mode ≠ .halted) (unsaved : p.save = none) (storable : Storable i v p.settings)
include mode unsaved storable

theorem meaning_writeSetting_barred (authority : i = .authority) (auto : v = 1)
    (unpermitted : p.inForce.options.autoPermitted = false) :
    meaning (.writeSetting .a tag (.ok x)) p = (p, plain .notPermitted) := by
  rw [meaning_writeSetting named masked]
  have inRange := (resultInRange_iff i v p.settings).2 storable
  refine unless_refuses (select_eq_some (by simp [writeConditions, authority, auto, unpermitted]) fun d holds => ?_) _ p
  simp only [writeConditions, inRange, unsaved, (isHalted_eq_false_iff p).2 mode, List.mem_cons, Prod.mk.injEq,
    List.not_mem_nil, or_false] at holds
  obtain ⟨_, rfl⟩ | ⟨_, rfl⟩ | ⟨_, rfl⟩ | ⟨never, -⟩ | ⟨never, -⟩ := holds
  · next never => cases never
  · rfl
  · rfl
  · cases never
  · cases never

theorem meaning_writeSetting_written (permitted : i = .authority → v = 1 → p.inForce.options.autoPermitted = true) :
    meaning (.writeSetting .a tag (.ok x)) p = writeSetting i v p := by
  rw [meaning_writeSetting named masked]
  refine unless_passes (select_eq_none_iff.2 ?_) _ p
  have inRange := (resultInRange_iff i v p.settings).2 storable
  simp only [writeConditions, inRange, unsaved, (isHalted_eq_false_iff p).2 mode]
  simpa using permitted

end

/-! ### What a write leaves -/

/-- An event of the blocks leaves the settings, the options, a save and the run state. -/
theorem runEvent_rest (f : Env → Ev → Ev) (p : Part) : runEvent f p = { p with
    core := (runEvent f p).core, store := (runEvent f p).store, counters := (runEvent f p).counters
    portA := (runEvent f p).portA, portB := (runEvent f p).portB } := by
  rw [runEvent_eq, commit, deliver_rest]

theorem writeSetting_same {i : SettingId} {v : Nat} {p : Part} (same : v = i.get p.settings) :
    writeSetting i v p = ({ p with settings := i.put v p.settings }, .now .accepted (.settingWritten (i.get p.settings) v)) := by
  rw [writeSetting, if_pos same, same, put_get_self]

theorem writeSetting_changed {i : SettingId} {v : Nat} {p : Part} (changed : v ≠ i.get p.settings) :
    writeSetting i v p = (runEvent (settingEffects i) { p with settings := i.put v p.settings },
      .now .accepted (.settingWritten (i.get p.settings) v)) := by
  rw [writeSetting, if_neg changed]

theorem writeSetting_settled {i : SettingId} {v : Nat} {p : Part} {e : Ev} {xs : List Emit} {core : Core}
    (changed : v ≠ i.get p.settings)
    (settled : settle (envOf { p with settings := i.put v p.settings })
      (settingEffects i (envOf { p with settings := i.put v p.settings }) (startEvent p.core)) = e)
    (store : e.storeFailed = false) (out : e.out = xs) (blocks : e.toCore = core) :
    writeSetting i v p = (outcome xs core { p with settings := i.put v p.settings },
      .now .accepted (.settingWritten (i.get p.settings) v)) := by
  rw [writeSetting_changed changed, runEvent_eq, settled, commit_eq _ _ store, out, blocks]

theorem writeSetting_done {i : SettingId} {v : Nat} {p : Part} {e : Ev} {xs : List Emit} {core : Core}
    (changed : v ≠ i.get p.settings)
    (acts : settingEffects i (envOf { p with settings := i.put v p.settings }) (startEvent p.core) = e)
    (idle : e.todo = []) (store : e.storeFailed = false) (out : e.out = xs) (blocks : e.toCore = core) :
    writeSetting i v p = (outcome xs core { p with settings := i.put v p.settings },
      .now .accepted (.settingWritten (i.get p.settings) v)) :=
  writeSetting_settled changed ((congrArg _ acts).trans (settle_nil _ _ idle)) store out blocks

/-- A write without effect on the blocks. -/
theorem writeSetting_plain {i : SettingId} {v : Nat} {p : Part}
    (acts : settingEffects i (envOf { p with settings := i.put v p.settings }) (startEvent p.core) = startEvent p.core) :
    writeSetting i v p
      = ({ p with settings := i.put v p.settings }, .now .accepted (.settingWritten (i.get p.settings) v)) := by
  by_cases same : v = i.get p.settings
  · exact writeSetting_same same
  · rw [writeSetting_changed same, runEvent_same acts]

theorem writeSetting_leaves (i : SettingId) (v : Nat) (p : Part) :
    (writeSetting i v p).2 = .now .accepted (.settingWritten (i.get p.settings) v)
      ∧ (writeSetting i v p).1 = { p with
          settings := i.put v p.settings
          core := (writeSetting i v p).1.core, store := (writeSetting i v p).1.store
          counters := (writeSetting i v p).1.counters
          portA := (writeSetting i v p).1.portA, portB := (writeSetting i v p).1.portB } := by
  by_cases same : v = i.get p.settings
  · rw [writeSetting_same same]
    exact ⟨rfl, rfl⟩
  · rw [writeSetting_changed same]
    exact ⟨rfl, runEvent_rest _ _⟩

/-! ### SUPERVISION_INTERVAL (R194) -/

/-- Port A is not absent in the event of its own frame: the time has just started again. -/
theorem judgeAbsence_heard {env : Env} {s : State} (options : env.options = (heard .a s).inForce.options)
    (interval : 1 ≤ env.settings.supervisionInterval) :
    judgeAbsence env (startEvent (heard .a s).core) = startEvent (heard .a s).core := by
  refine if_neg fun ⟨supervised, _, passed⟩ => ?_
  have same : (heard .a s).inForce = s.part.inForce := by unfold heard; rw [hearFrame_rest]
  rw [options, same] at supervised
  have now : (heard .a s).core.supervision.lastGood = (heard .a s).core.time.elapsed := by
    unfold heard
    cases g : s.part.core.supervision.absent
    · rw [hearFrame_a_timed true s.part supervised (by simp [g])]
    · rw [hearFrame_a_present s.part supervised g]
  have since : (heard .a s).core.time.elapsed - (heard .a s).core.supervision.lastGood = 0 := by omega
  rw [show (startEvent (heard .a s).core).toCore = (heard .a s).core from rfl, since] at passed
  omega

/-! ### ISOLATION_DEADLINE (R126) -/

/-- The case of an entry marked late. -/
def lateMarked (c : Core) (n : Nat) : Core :=
  (entryAt c.cases n).elim c fun k =>
    withCase n { k with isolation := k.isolation.map fun r => { r with late := true } } c

/-- The late notice of the case of an entry. -/
def lateTold (c : Core) (n : Nat) : List Emit :=
  (entryAt c.cases n).elim [] fun k => k.isolation.toList.map fun r => .tell .both
    (.isolationLate n k.serial k.segment k.phase r.confirmedAt r.plan r.step r.depth c.time.now)

theorem judgeDeadline_late {env : Env} {n : Nat} {e : Ev} (calm : healthy e.toCore = true) (sound : Sound e.cases)
    (late : caseHas e.toCore (isLate env e.time.now) n = true) :
    judgeDeadline env n e = { e with toCore := lateMarked e.toCore n, out := e.out ++ lateTold e.toCore n } := by
  obtain ⟨k, hk, isLate⟩ := (caseHas_iff _ _ _).1 late
  cases record : k.isolation with
  | none => simp [Machine.isLate, record] at isLate
  | some r =>
    rw [judgeDeadline_due calm hk (sound n) record isLate]
    simp [lateMarked, lateTold, hk, record]

theorem judgeDeadline_early {env : Env} {n : Nat} {e : Ev}
    (early : caseHas e.toCore (isLate env e.time.now) n = false) : judgeDeadline env n e = e := by
  cases hk : entryAt e.cases n with
  | none => simp [judgeDeadline, hk]
  | some k => exact judgeDeadline_notDue hk (by simpa [caseHas, hk] using early)

theorem entryAt_lateMarked {c : Core} {n m : Nat} (other : m ≠ n) :
    entryAt (lateMarked c n).cases m = entryAt c.cases m := by
  cases hk : entryAt c.cases n with
  | none => simp [lateMarked, hk]
  | some k =>
    simp only [lateMarked, hk, Option.elim_some]
    exact (entryAt_withCase hk _ m).trans (if_neg other)

theorem lateMarked_keeps (c : Core) (n : Nat) :
    lateMarked c n = { c with cases := (lateMarked c n).cases, counted := (lateMarked c n).counted }
      ∧ (Sound c.cases → Sound (lateMarked c n).cases) := by
  cases hk : entryAt c.cases n with
  | none => simp [lateMarked, hk]
  | some k =>
    simp only [lateMarked, hk, Option.elim_some]
    exact ⟨rfl, fun sound => sound_set sound n _⟩

theorem foldl_judgeDeadline {env : Env} (ns : List Nat) (once : ns.Nodup) (e : Ev) (calm : healthy e.toCore = true)
    (sound : Sound e.cases) :
    ns.foldl (fun e n => judgeDeadline env n e) e = { e with
      toCore := (ns.filter (caseHas e.toCore (isLate env e.time.now))).foldl lateMarked e.toCore
      out := e.out ++ (ns.filter (caseHas e.toCore (isLate env e.time.now))).flatMap (lateTold e.toCore) } := by
  induction ns generalizing e with
  | nil => simp
  | cons n ns ih =>
    obtain ⟨fresh, once⟩ := List.nodup_cons.1 once
    rw [List.foldl_cons, List.filter_cons]
    cases late : caseHas e.toCore (isLate env e.time.now) n with
    | false =>
      rw [judgeDeadline_early late]
      exact ih once e calm sound
    | true =>
      obtain ⟨rest, kept⟩ := lateMarked_keeps e.toCore n
      have time : (lateMarked e.toCore n).time = e.time := by rw [rest]
      have others : ∀ m ∈ ns, entryAt (lateMarked e.toCore n).cases m = entryAt e.cases m := fun m mem =>
        entryAt_lateMarked fun same => fresh (same ▸ mem)
      have chosen : ns.filter (caseHas (lateMarked e.toCore n) (isLate env e.time.now))
          = ns.filter (caseHas e.toCore (isLate env e.time.now)) :=
        List.filter_congr fun m mem => congrArg (Option.any _) (others m mem)
      have told : (ns.filter (caseHas e.toCore (isLate env e.time.now))).flatMap (lateTold (lateMarked e.toCore n))
          = (ns.filter (caseHas e.toCore (isLate env e.time.now))).flatMap (lateTold e.toCore) :=
        List.flatMap_congr fun m mem => by simp only [lateTold, others m (List.mem_of_mem_filter mem), time]
      rw [judgeDeadline_late calm sound late, ih once _ (by rw [rest]; exact calm) (kept sound)]
      simp only [time, chosen, told, if_true, List.foldl_cons, List.flatMap_cons, List.append_assoc]

/-- The ISOLATING cases past their deadline, their late notices unsent. -/
def lateCases (v : Nat) (c : Core) : List Nat :=
  entriesWhere c.cases fun k => k.state == .isolating && k.isolation.any fun r =>
    !r.late && reached c.time.now ((r.confirmedAt + v) % 86400000)

theorem isLate_eq (env : Env) (now : Nat) (k : Case) :
    isLate env now k = (k.state == .isolating && k.isolation.any fun r =>
      !r.late && reached now ((r.confirmedAt + env.settings.isolationDeadline) % 86400000)) := by
  unfold isLate
  cases k.isolation <;> rfl

theorem judgeDeadlines_eq {env : Env} {e : Ev} (calm : healthy e.toCore = true) (sound : Sound e.cases) :
    judgeDeadlines env e = { e with
      toCore := (lateCases env.settings.isolationDeadline e.toCore).foldl lateMarked e.toCore
      out := e.out ++ (lateCases env.settings.isolationDeadline e.toCore).flatMap (lateTold e.toCore) } := by
  have late : (entriesWhere e.cases fun k => k.state == .isolating).filter
      (caseHas e.toCore (isLate env e.time.now)) = lateCases env.settings.isolationDeadline e.toCore := by
    rw [lateCases, entriesWhere, entriesWhere, List.filter_filter]
    refine List.filter_congr fun n _ => ?_
    unfold caseHas
    cases entryAt e.cases n with
    | none => rfl
    | some k =>
      simp only [Option.any_some, isLate_eq]
      cases k.state == .isolating <;> simp
  unfold judgeDeadlines
  rw [if_pos calm, faultsAt_sound _ _ (allRefs_cases_sound sound),
    foldl_judgeDeadline _ (entriesWhere_nodup _ _) e calm sound, late]

theorem judgeDeadlines_heldBack {env : Env} {e : Ev} (h : healthy e.toCore = false) : judgeDeadlines env e = e :=
  if_neg (by simp [h])

/-! ### SILENCE_INTERVAL (R44) -/

/-- An address's expiry leaves an event in which no sensor that has it is due. -/
theorem silenceExpiry_notDue {env : Env} {a : Nat} {e : Ev}
    (early : ∀ n v, entryAt e.roster n = some v → v.address = a → silenceDue env e.time.now v = false) :
    silenceExpiry env a e = e := by
  unfold silenceExpiry
  split
  · rfl
  · cases place : sensorPlace e.toCore a with
    | none => simp [judgeSilence, place]
    | some n =>
      obtain ⟨v, hv, address⟩ := sensorPlace_some place
      exact judgeSilence_early place hv (early n v hv address)

/-- Acts in turn of which one alone changes the event, and that once. -/
theorem foldl_once {α : Type} [DecidableEq α] {f : Ev → α → Ev} {a : α} {e e' : Ev} (acts : f e a = e') (again : f e' a = e')
    (idle : ∀ b, b ≠ a → f e b = e ∧ f e' b = e') (l : List α) :
    l.foldl f e = if a ∈ l then e' else e := by
  have after : ∀ l : List α, l.foldl f e' = e' := by
    intro l
    induction l with
    | nil => rfl
    | cons b l ih =>
      by_cases same : b = a
      · rw [List.foldl_cons, same, again, ih]
      · rw [List.foldl_cons, (idle b same).2, ih]
  induction l with
  | nil => rfl
  | cons b l ih =>
    by_cases same : b = a
    · rw [List.foldl_cons, same, acts, after, if_pos List.mem_cons_self]
    · simp only [List.foldl_cons, (idle b same).1, ih, List.mem_cons, Ne.symm same, false_or]

section
variable {env : Env} {e : Ev} (running : e.mode ≠ .halted) (sound : Sound e.roster)
include running sound

theorem silenceAll_eq : silenceAll env e
    = (ascending (addressesWhere e.toCore fun _ => true)).foldl (fun e a => silenceExpiry env a e) e := by
  unfold silenceAll
  rw [if_neg running, faultsAt_sound _ _ (allRefs_roster_sound sound)]

theorem silenceAll_none (early : ∀ n v, entryAt e.roster n = some v → silenceDue env e.time.now v = false) :
    silenceAll env e = e := by
  rw [silenceAll_eq running sound]
  generalize ascending _ = l
  induction l with
  | nil => rfl
  | cons a l ih =>
    rw [List.foldl_cons, silenceExpiry_notDue fun n v hv _ => early n v hv]
    exact ih

variable {n : Nat} {v : Sensor} (place : sensorPlace e.toCore v.address = some n) (hv : entryAt e.roster n = some v)
  (due : silenceDue env e.time.now v = true) (apart : v.address ∉ e.deferred)
  (others : ∀ m w, m ≠ n → entryAt e.roster m = some w → w.address ≠ v.address ∧ silenceDue env e.time.now w = false)
include place hv due apart others

theorem silenceAll_waits (waits : frameWaits e.toCore v.address = true) :
    silenceAll env e = { e with deferred := e.deferred ++ [v.address] } := by
  have elsewhere : ∀ b, b ≠ v.address → ∀ m w, entryAt e.roster m = some w → w.address = b →
      silenceDue env e.time.now w = false := fun b other m w hw address =>
    (others m w (fun same => other (by rw [← address, Option.some.inj (hw.symm.trans (same ▸ hv))])) hw).2
  rw [silenceAll_eq running sound, foldl_once (a := v.address)
    (e' := { e with deferred := e.deferred ++ [v.address] })]
  · exact if_pos ((ascending_perm _).mem_iff.2 ((mem_addressesWhere _ _ _).2 ⟨n, v, hv, rfl, rfl⟩))
  · exact (silenceExpiry_apart running apart).trans (judgeSilence_waits place hv (sound n) due waits)
  · exact if_pos (.inr (List.mem_append_right _ List.mem_cons_self))
  · exact fun b other => ⟨silenceExpiry_notDue (elsewhere b other), silenceExpiry_notDue (by exact elsewhere b other)⟩

theorem silenceAll_silent (none_ : frameWaits e.toCore v.address = false) : silenceAll env e = { e with
    roster := putAt e.roster n (some { v with state := .silent })
    out := e.out ++ [.tell .both
      (.sensor v.address v.segment v.side v.state .silent v.lastHeard v.lastSequence)] } := by
  have elsewhere : ∀ b, b ≠ v.address → ∀ m w, entryAt e.roster m = some w → w.address = b →
      silenceDue env e.time.now w = false := fun b other m w hw address =>
    (others m w (fun same => other (by rw [← address, Option.some.inj (hw.symm.trans (same ▸ hv))])) hw).2
  have after : ∀ m w, entryAt (putAt e.roster n (some { v with state := .silent })) m = some w →
      w.state = .silent ∨ m ≠ n ∧ entryAt e.roster m = some w := fun m w hw => by
    rw [entryAt_putAt _ _ _ _ (entryAt_lt hv)] at hw
    split at hw
    · exact .inl (by rw [← Option.some.inj hw])
    · next other => exact .inr ⟨other, hw⟩
  have silent : ∀ w : Sensor, w.state = .silent → silenceDue env e.time.now w = false := fun w h => by
    simp [silenceDue, h]
  rw [silenceAll_eq running sound, foldl_once (a := v.address)]
  · exact if_pos ((ascending_perm _).mem_iff.2 ((mem_addressesWhere _ _ _).2 ⟨n, v, hv, rfl, rfl⟩))
  · exact (silenceExpiry_apart running apart).trans (judgeSilence_silent place hv (sound n) due none_)
  · refine silenceExpiry_notDue fun m w hw _ => ?_
    obtain h | ⟨other, h⟩ := after m w hw
    · exact silent w h
    · exact (others m w other h).2
  · refine fun b other => ⟨silenceExpiry_notDue (elsewhere b other), silenceExpiry_notDue fun m w hw _ => ?_⟩
    obtain h | ⟨other, h⟩ := after m w hw
    · exact silent w h
    · exact (others m w other h).2

end

/-! ### The writes of one setting, over the part as its frame leaves it -/

section
variable {i : SettingId} {v : Nat} {s : State} (storable : Storable i v (heard .a s).settings)
include storable

/-- A setting whose new value has no further effect on the blocks, or is judged in its own frame's event. -/
theorem writeSetting_noEffect (authority : i ≠ .authority) (deadline : i ≠ .isolationDeadline)
    (silence : i ≠ .silenceInterval) :
    writeSetting i v (heard .a s) = ({ heard .a s with settings := i.put v (heard .a s).settings },
      .now .accepted (.settingWritten (i.get (heard .a s).settings) v)) := by
  refine writeSetting_plain ?_
  cases i
  case authority => exact absurd rfl authority
  case isolationDeadline => exact absurd rfl deadline
  case silenceInterval => exact absurd rfl silence
  case supervisionInterval =>
    obtain ⟨low, -, -⟩ := storable
    exact judgeAbsence_heard rfl (Nat.le_trans (show 1 ≤ 2 by decide) low)
  all_goals rfl

end

section
variable {v : Nat} {p : Part}

theorem writeAuthority_quiet (quiet : v = 0 ∨ healthy p.core = false ∨ Sound p.core.cases ∧ confirmedCases p.core = []) :
    writeSetting .authority v p = ({ p with settings := { p.settings with authority := v } },
      .now .accepted (.settingWritten p.settings.authority v)) := by
  refine writeSetting_plain (i := .authority) ?_
  simp only [settingEffects]
  split
  · next auto =>
    obtain advise | heldBack | ⟨sound, none_⟩ := quiet
    · exact absurd (advise.symm.trans auto) (by decide)
    · exact isolateConfirmed_heldBack _ _ heldBack
    · cases held : healthy p.core
      · exact isolateConfirmed_heldBack _ _ held
      · rw [isolateConfirmed_sound _ _ held sound]
        simp [none_, later, startEvent]
  · rfl

theorem writeAuthority_blocked {n : Nat} {k : Case} {r : IsolationRecord} (changed : 1 ≠ p.settings.authority)
    (well : healthy p.core = true) (sound : AllSound p.core) (unclosed : NoCloses p.core)
    (only : confirmedCases p.core = [n]) (hk : entryAt p.core.cases n = some k) (readable : k.unreadable = [])
    (record : k.isolation = some r) (unplanned : ∀ sg, entryAt p.core.segments k.segment = some sg → sg.plan = none) :
    writeSetting .authority 1 p
      = (outcome (blockedTold n .authority k p.core.time.now) (withCase n (blockedCase k r) p.core)
          { p with settings := { p.settings with authority := 1 } },
        .now .accepted (.settingWritten p.settings.authority 1)) := by
  have confirmed : k.state = .confirmed := by
    have mem : n ∈ confirmedCases p.core := only ▸ List.mem_cons_self
    obtain ⟨k', at_, state⟩ := (mem_entriesWhere _ _ _).1 mem
    rw [← Option.some.inj (at_.symm.trans hk)]
    exact beq_iff_eq.1 state
  obtain ⟨-, -, -, -, cases⟩ := id sound
  have sent : isolateConfirmed .authority (startEvent p.core) = later [.isolate n .authority] (startEvent p.core) := by
    rw [isolateConfirmed_sound .authority (startEvent p.core) well cases]
    exact congrArg (fun ns : List Nat => later (ns.map fun n => .isolate n .authority) (startEvent p.core)) only
  exact writeSetting_settled (i := .authority) changed ((congrArg _ sent).trans
    (settle_isolate_blocked (e := startEvent p.core) well sound unclosed hk confirmed readable record unplanned rfl))
    rfl rfl rfl

theorem writeDeadline_heldBack (heldBack : healthy p.core = false) :
    writeSetting .isolationDeadline v p = ({ p with settings := { p.settings with isolationDeadline := v } },
      .now .accepted (.settingWritten p.settings.isolationDeadline v)) :=
  writeSetting_plain (i := .isolationDeadline) (judgeDeadlines_heldBack heldBack)

theorem writeDeadline_judged (changed : v ≠ p.settings.isolationDeadline) (well : healthy p.core = true)
    (sound : Sound p.core.cases) :
    writeSetting .isolationDeadline v p
      = (outcome ((lateCases v p.core).flatMap (lateTold p.core)) ((lateCases v p.core).foldl lateMarked p.core)
          { p with settings := { p.settings with isolationDeadline := v } },
        .now .accepted (.settingWritten p.settings.isolationDeadline v)) :=
  writeSetting_done (i := .isolationDeadline) changed
    (judgeDeadlines_eq (env := envOf { p with settings := { p.settings with isolationDeadline := v } })
      (e := startEvent p.core) well sound) rfl rfl rfl rfl

/-- A sensor that a silence interval has passed. -/
def PassedBy (v now : Nat) (u : Sensor) : Prop :=
  u.state ≠ .silent ∧ reached now ((u.lastHeard + 1000 * v) % 86400000) = true

theorem silenceDue_new (v now : Nat) (p : Part) (u : Sensor) :
    silenceDue (envOf { p with settings := { p.settings with silenceInterval := v } }) now u = true
      ↔ PassedBy v now u := silenceDue_iff _ _ u

theorem not_silenceDue_new {v now : Nat} (p : Part) {u : Sensor} (h : ¬ PassedBy v now u) :
    silenceDue (envOf { p with settings := { p.settings with silenceInterval := v } }) now u = false :=
  Bool.eq_false_iff.2 fun due => h ((silenceDue_new v now p u).1 due)

section
variable (running : p.core.mode ≠ .halted) (sound : Sound p.core.roster)
include running sound

theorem writeSilence_none (early : ∀ n u, entryAt p.core.roster n = some u → ¬ PassedBy v p.core.time.now u) :
    writeSetting .silenceInterval v p = ({ p with settings := { p.settings with silenceInterval := v } },
      .now .accepted (.settingWritten p.settings.silenceInterval v)) :=
  writeSetting_plain (i := .silenceInterval) (silenceAll_none (e := startEvent p.core) running sound
    fun n u hu => not_silenceDue_new p (early n u hu))

theorem writeSilence_one {n : Nat} {u : Sensor} (changed : v ≠ p.settings.silenceInterval)
    (place : sensorPlace p.core u.address = some n) (hu : entryAt p.core.roster n = some u)
    (due : PassedBy v p.core.time.now u) (apart : u.address ∉ p.core.deferred)
    (others : ∀ m w, m ≠ n → entryAt p.core.roster m = some w → w.address ≠ u.address ∧ ¬ PassedBy v p.core.time.now w) :
    ((∃ f ∈ p.core.intake, f.address = u.address) → writeSetting .silenceInterval v p
      = (outcome [] { p.core with deferred := p.core.deferred ++ [u.address] }
          { p with settings := { p.settings with silenceInterval := v } },
        .now .accepted (.settingWritten p.settings.silenceInterval v)))
      ∧ (¬ (∃ f ∈ p.core.intake, f.address = u.address) → writeSetting .silenceInterval v p
        = (outcome [.tell .both (.sensor u.address u.segment u.side u.state .silent u.lastHeard u.lastSequence)]
            { p.core with roster := putAt p.core.roster n (some { u with state := .silent }) }
            { p with settings := { p.settings with silenceInterval := v } },
          .now .accepted (.settingWritten p.settings.silenceInterval v))) := by
  have others' := fun m w other hw => (others m w other hw).imp_right (not_silenceDue_new p)
  have due' := (silenceDue_new v _ p u).2 due
  refine ⟨fun waits => ?_, fun idle => ?_⟩
  · exact writeSetting_done (i := .silenceInterval) changed (silenceAll_waits (e := startEvent p.core) running sound place
      hu due' apart others' ((frameWaits_iff _ _).2 waits)) rfl rfl rfl rfl
  · have none_ : frameWaits p.core u.address = false := Bool.eq_false_iff.2 fun w => idle ((frameWaits_iff _ _).1 w)
    exact writeSetting_done (i := .silenceInterval) changed (silenceAll_silent (e := startEvent p.core) running sound place
      hu due' apart others' none_) rfl rfl rfl rfl

end

end

theorem writeSettingUnderMask : Obligations.WriteSettingUnderMask := by
  unfold Obligations.WriteSettingUnderMask
  refine ⟨fun old value mask => ⟨maskedWrite_lt old value mask, fun j => maskedWrite_testBit old value mask⟩, ?_⟩
  intro tag x i s taken mode unsaved named p before v new ok
  have kept : p.inForce = s.part.inForce ∧ p.save = s.part.save := by
    show (heard .a s).inForce = _ ∧ (heard .a s).save = _
    unfold heard
    rw [hearFrame_rest]
    exact ⟨rfl, rfl⟩
  have running : p.core.mode ≠ .halted := (heard_mode .a s).symm ▸ mode
  have free : p.save = none := kept.2.trans unsaved
  refine ⟨fun outside => exec_refused rfl taken (meaning_writeSetting_outside named rfl outside),
    fun storable => ⟨fun authority auto unpermitted => exec_refused rfl taken
      (meaning_writeSetting_barred named rfl running free storable authority auto unpermitted), fun permitted => ?_⟩⟩
  have written : meaning (.writeSetting .a tag (.ok x)) p = writeSetting i v p :=
    meaning_writeSetting_written named rfl running free storable permitted
  have replies : ∀ {q : Part}, writeSetting i v p = (q, .now .accepted (.settingWritten before v)) →
      exec (.writeSetting .a tag (.ok x)) s = .next (replied .a 0x35 tag .accepted (.settingWritten before v) q s) :=
    fun h => exec_replied rfl taken (written.trans h)
  obtain ⟨answer, leaves⟩ := writeSetting_leaves i v p
  refine ⟨?_, ?_, ?_⟩
  · have left : meaning (.writeSetting .a tag (.ok x)) p
        = ((writeSetting i v p).1, .now .accepted (.settingWritten before v)) := by
      rw [written, ← answer]
    refine ⟨_, replies (left ▸ written.symm), ?_, answered_replied left, ?_⟩
    · rw [leaves]
      simp only [replied, ended, finish_settings, setPort_settings, new]
    · rw [leaves]
      simp only [replied, ended, finish_save, finish_options, finish_inForce, finish_staged, setPort_save, setPort_options,
        setPort_inForce, setPort_staged, free, and_self]
  · rintro (same | ⟨authority, deadline, silence⟩)
    · exact replies (writeSetting_same same)
    · exact replies (writeSetting_noEffect storable authority deadline silence)
  · intro changed
    have well : healthy p.core = true ↔ Healthy s := by
      rw [healthy_iff]
      show (heard .a s).core.mode ≠ _ ∧ (heard .a s).core.recovery.recovering = _ ↔ _
      rw [heard_core]
    have unwell : ¬ Healthy s → healthy p.core = false := fun h => Bool.eq_false_iff.2 fun w => h (well.1 w)
    refine ⟨fun authority => ?_, fun deadline h => ?_, fun deadline h sound => ?_, fun silence _ sound => ?_⟩
    · subst authority
      refine ⟨fun quiet => ?_, fun n k r auto h all unclosed only hk readable record unplanned => ?_⟩
      · exact replies (writeAuthority_quiet (quiet.imp_right (Or.imp_left unwell)))
      · have at_ : writeSetting .authority v p = writeSetting .authority 1 p := congrArg (writeSetting .authority · p) auto
        have changed' : 1 ≠ p.settings.authority := fun same => changed (auto.trans same)
        refine replies (at_.trans ((writeAuthority_blocked changed' (well.2 h) all unclosed only hk readable record
          unplanned).trans ?_))
        rw [← auto]
        rfl
    · subst deadline
      exact replies (writeDeadline_heldBack (unwell h))
    · subst deadline
      refine replies ((writeDeadline_judged changed (well.2 h) sound).trans (Prod.ext ?_ rfl))
      refine congrArg₂ (fun xs c => outcome xs c _) (List.flatMap_congr fun n _ => ?_)
        (congrArg (fun f : Core → Nat → Core => List.foldl f p.core _) (funext₂ fun c n => ?_))
      · unfold lateTold
        cases entryAt p.core.cases n <;> rfl
      · unfold lateMarked
        cases entryAt c.cases n <;> rfl
    · subst silence
      refine ⟨fun none_ => replies (writeSilence_none running sound none_), fun n u place hu due others apart => ?_⟩
      obtain ⟨waits, silent⟩ := writeSilence_one running sound changed place hu due apart others
      exact ⟨fun h => replies (waits h), fun h => replies (silent h)⟩

end Sys2Proof.Machine

end

