-- ==== Sys2Proof/Proofs/PortLines.lean ====
section
/-! PROOF. The lines of the ports: their receivers, the commands that their frames spell, and the supervision of Port A
(R111, R184, R185, R194, R195, R216, R217). Settles O47. -/

namespace Sys2Proof.Machine

/-! ### The commands that frames spell (R185, R217) -/

theorem portCommand_low (q : Port) {kind : Byte} (tag : Byte) (cs : List Byte) (low : kind.toNat < 0x80) :
    ∃ m, sentBy (portCommand q kind tag cs) = some ⟨q, kind.toNat, tag, m⟩ := by
  unfold portCommand
  split
  case h_43 => exact ⟨_, congrArg sentBy (if_pos low)⟩
  all_goals next named => rw [named]; exact ⟨_, rfl⟩

theorem portCommand_high (q : Port) {kind : Byte} (tag : Byte) (cs : List Byte) (high : 0x80 ≤ kind.toNat) :
    portCommand q kind tag cs = .nonCommandFrame q kind := by
  unfold portCommand
  split
  case h_43 => exact if_neg (Nat.not_lt.2 high)
  all_goals next named => rw [named] at high; contradiction

/-- A frame handed on is carried out as the command it spells. -/
theorem runFramed_portCommand_eq (q : Port) (kind tag : Byte) (cs : List Byte) (s : State) :
    runFramed (portCommand q kind tag cs) s = exec (portCommand q kind tag cs) s := by
  obtain ⟨x, sent, -⟩ | none_ := portCommand_sentBy q kind tag cs
  · exact runFramed_eq_exec sent s
  · rw [none_]
    rfl

/-! ### A line's characters (R184, R216) -/

theorem portFrameDropped_eq {s : State} (q : Port) (chars : List RxChar) (runs : s.part.run ≠ .resetAsserted) :
    exec (.portFrameDropped q chars) s = portLine q chars s := by
  show execPortFrameDropped q chars s = _
  unfold execPortFrameDropped
  split
  · next reset => exact absurd reset runs
  · rfl

section
variable {q : Port} {cs : List RxChar} {rx : Receiver} {s : State}

theorem portLine_quiet (h : receiveChars s.part.core.time.elapsed (portOf q s.part).rx cs = (rx, [])) :
    portLine q cs s = .next (ended (setPort q (fun x => { x with rx := rx }) s.part) s) := by
  unfold portLine
  rw [h]
  rfl

theorem portLine_frame {f : Frame} {t : State}
    (h : receiveChars s.part.core.time.elapsed (portOf q s.part).rx cs = (rx, [f]))
    (run : exec (portCommand q (BitVec.ofNat 8 f.kind) f.tag f.body) s = .next t) :
    portLine q cs s = .next (ended (setPort q (fun x => { x with rx := rx }) t.part) t) := by
  unfold portLine
  rw [h]
  simp only [handFrames]
  rw [runFramed_portCommand_eq, run]
  rfl

end

/-! ### The receiver, a character at a time (R184, R216) -/

section
variable {now last : Nat} {cs : List Byte} {ch : RxChar}

theorem receiveChar_hunt : receiveChar now .hunt ch
    = if ch.value = 0x5A#8 ∧ ch.framingError = false then (.frame [ch.value] now, none) else (.hunt, none) := rfl

theorem receiveChar_abandoned (late : 20 ≤ now - last) : receiveChar now (.frame cs last) ch = receiveChar now .hunt ch := by
  have awaited : awaitChar now (.frame cs last) = .hunt := if_pos late
  unfold receiveChar
  rw [awaited]
  rfl

theorem receiveChar_collects (soon : now - last < 20) (whole : ch.framingError = false) :
    receiveChar now (.frame cs last) ch = collect now (cs ++ [ch.value]) := by
  have awaited : awaitChar now (.frame cs last) = .frame cs last := if_neg (Nat.not_le.2 soon)
  simp only [receiveChar, awaited, whole, Bool.false_eq_true, if_false]

variable {all : List Byte}

theorem collect_short (h : all.length < 3) : collect now all = (.frame all now, none) := if_pos h

theorem collect_long (h : 3 ≤ all.length) (long : 480 < leValue ((all.drop 1).take 2)) :
    collect now all = (.hunt, none) := by
  unfold collect
  rw [if_neg (Nat.not_lt.2 h), Config.bodyLimit, if_pos long]

theorem collect_partial (h : 3 ≤ all.length) (fits : leValue ((all.drop 1).take 2) ≤ 480)
    (short : all.length < leValue ((all.drop 1).take 2) + 7) : collect now all = (.frame all now, none) := by
  unfold collect
  rw [if_neg (Nat.not_lt.2 h), Config.bodyLimit, if_neg (Nat.not_lt.2 fits), if_neg (Nat.ne_of_lt short)]

theorem collect_whole (h : 3 ≤ all.length) (fits : leValue ((all.drop 1).take 2) ≤ 480)
    (whole : all.length = leValue ((all.drop 1).take 2) + 7) : collect now all = (.hunt, parseFrame all) := by
  unfold collect
  rw [if_neg (Nat.not_lt.2 h), Config.bodyLimit, if_neg (Nat.not_lt.2 fits), if_pos whole]

end

theorem receivesAsStated (now : Nat) (rx : Receiver) (ch : RxChar) :
    (ch.framingError = true → receiveChar now rx ch = (.hunt, none))
    ∧ (rx = .hunt → ch.value ≠ 0x5A#8 → receiveChar now rx ch = (.hunt, none))
    ∧ (rx = .hunt → ch.value = 0x5A#8 → ch.framingError = false →
        receiveChar now rx ch = (.frame [0x5A#8] now, none))
    ∧ ∀ cs last, rx = .frame cs last → ch.framingError = false →
      let all := cs ++ [ch.value]
      let declared := leValue ((all.drop 1).take 2)
      (20 ≤ now - last → ch.value ≠ 0x5A#8 → receiveChar now rx ch = (.hunt, none))
      ∧ (now - last < 20 → cs.length < 2 → receiveChar now rx ch = (.frame all now, none))
      ∧ (now - last < 20 → 2 ≤ cs.length → 480 < declared → receiveChar now rx ch = (.hunt, none))
      ∧ (now - last < 20 → 2 ≤ cs.length → declared ≤ 480 → all.length < declared + 7 →
          receiveChar now rx ch = (.frame all now, none))
      ∧ (now - last < 20 → 2 ≤ cs.length → declared ≤ 480 → all.length = declared + 7 →
          receiveChar now rx ch = (.hunt, parseFrame all)) := by
  refine ⟨fun broken => ?_, ?_, ?_, ?_⟩
  · obtain ⟨v, error⟩ := ch
    obtain rfl : error = true := broken
    exact receiveChar_framingError now rx v
  · rintro rfl other
    exact receiveChar_hunt.trans (if_neg fun h => other h.1)
  · rintro rfl start whole
    rw [receiveChar_hunt, if_pos ⟨start, whole⟩, start]
  · rintro cs last rfl whole
    refine ⟨fun late other => ?_, fun soon few => ?_, fun soon many long => ?_, fun soon many fits short => ?_,
      fun soon many fits full => ?_⟩
    · rw [receiveChar_abandoned late]
      exact receiveChar_hunt.trans (if_neg fun h => other h.1)
    · exact (receiveChar_collects soon whole).trans (collect_short (by simp; omega))
    · exact (receiveChar_collects soon whole).trans (collect_long (by simpa using many) long)
    · exact (receiveChar_collects soon whole).trans (collect_partial (by simpa using many) fits short)
    · exact (receiveChar_collects soon whole).trans (collect_whole (by simpa using many) fits full)

/-- A part whose port state is put back as it was. -/
theorem setPort_same {q : Port} {f : PortState → PortState} {p : Part} (h : f (portOf q p) = portOf q p) :
    setPort q f p = p := by
  cases q
  · exact congrArg (fun x => { p with portA := x }) h
  · exact congrArg (fun x => { p with portB := x }) h

theorem setPort_congr {q : Port} {f g : PortState → PortState} {p : Part} (h : f (portOf q p) = g (portOf q p)) :
    setPort q f p = setPort q g p := by
  cases q
  · exact congrArg (fun x => { p with portA := x }) h
  · exact congrArg (fun x => { p with portB := x }) h

/-! ### The absence of Port A (R111, R194, R195) -/

section
variable {env : Env} {e : Ev}

/-- A supervised Port A whose interval has passed. -/
def AbsenceDue (env : Env) (c : Core) : Prop :=
  env.options.supervisePortA = true ∧ c.supervision.absent = false
    ∧ 1000 * env.settings.supervisionInterval ≤ c.time.elapsed - c.supervision.lastGood

/-- The event in which Port A has become ABSENT. -/
def absentTold (env : Env) (e : Ev) : Ev :=
  raise .both (.supervision false true env.settings.supervisionInterval e.time.now)
    { e with supervision := { e.supervision with absent := true } }

theorem judgeAbsence_early (early : ¬ AbsenceDue env e.toCore) : judgeAbsence env e = e := if_neg early

theorem judgeAbsence_due (due : AbsenceDue env e.toCore) : judgeAbsence env e
    = if env.options.unattendedIsolate then isolateConfirmed .unattended (absentTold env e) else absentTold env e :=
  if_pos due

variable (due : AbsenceDue env e.toCore)
include due

/-- Port A becomes ABSENT and no case goes: unattended isolation is off or held back, or none is CONFIRMED. -/
theorem judgeAbsence_alone (alone : ¬ (env.options.unattendedIsolate = true ∧ healthy e.toCore = true)
      ∨ Sound e.cases ∧ confirmedCases e.toCore = []) : judgeAbsence env e = absentTold env e := by
  rw [judgeAbsence_due due]
  split
  · next on =>
    cases held : healthy e.toCore
    · exact isolateConfirmed_heldBack _ _ held
    · obtain off | ⟨sound, none_⟩ := alone
      · exact absurd ⟨on, held⟩ off
      · rw [isolateConfirmed_sound .unattended (absentTold env e) held sound,
          show confirmedCases (absentTold env e).toCore = [] from none_]
        exact congrArg (fun ws => { absentTold env e with todo := ws }) (List.append_nil _)
  · rfl

theorem judgeAbsence_one {n : Nat} (on : env.options.unattendedIsolate = true) (well : healthy e.toCore = true)
    (sound : Sound e.cases) (only : confirmedCases e.toCore = [n]) :
    judgeAbsence env e = later [.isolate n .unattended] (absentTold env e) := by
  rw [judgeAbsence_due due, if_pos on, isolateConfirmed_sound .unattended (absentTold env e) well sound,
    show confirmedCases (absentTold env e).toCore = [n] from only]
  rfl

end

/-- The one CONFIRMED case that is known is CONFIRMED. -/
theorem confirmed_of_only {c : Core} {n : Nat} {k : Case} (only : confirmedCases c = [n])
    (hk : entryAt c.cases n = some k) : k.state = .confirmed := by
  have mem : n ∈ confirmedCases c := only ▸ List.mem_cons_self
  obtain ⟨k', at_, state⟩ := (mem_entriesWhere _ _ _).1 mem
  rw [← Option.some.inj (at_.symm.trans hk)]
  exact beq_iff_eq.1 state

theorem portLineEvents : Obligations.PortLineEvents := by
  unfold Obligations.PortLineEvents
  refine ⟨fun q tag kind s taken => ?_, fun q kind s => ⟨fun running => ?_, fun held => ?_⟩,
    fun q cs rx s runs => ⟨fun quiet => ?_, fun f handed => ?_⟩, fun q kind tag cs => ⟨fun x sent => ?_, fun low => ?_,
      portCommand_high q tag cs⟩, receivesAsStated, fun q s => ⟨fun cs last framed late => ?_, fun hunt => ?_⟩, ?_⟩
  · exact exec_refused rfl taken rfl
  · show execNonCommandFrame q kind s = _
    rw [execNonCommandFrame, act_eq, running]
  · show execNonCommandFrame q kind s = _
    rw [execNonCommandFrame, act_eq]
    split
    · next running => exact absurd running held
    · rfl
  · rw [portFrameDropped_eq q cs runs, portLine_quiet quiet]
  · obtain ⟨t, run, -⟩ := execAnswersNext (portCommand q (BitVec.ofNat 8 f.kind) f.tag f.body) s
    exact ⟨t, run, (portFrameDropped_eq q cs runs).trans (portLine_frame handed run)⟩
  · obtain low | high := Nat.lt_or_ge kind.toNat 0x80
    · obtain ⟨m, eq⟩ := portCommand_low q tag cs low
      obtain rfl := Option.some.inj (sent.symm.trans eq)
      exact ⟨rfl, rfl, rfl⟩
    · rw [portCommand_high q tag cs high] at sent
      cases sent
  · obtain ⟨m, eq⟩ := portCommand_low q tag cs low
    rw [eq]
    rfl
  · show execInterCharacterTimeout q s = _
    rw [execInterCharacterTimeout, act_eq]
    refine congrArg (fun p => Host.Outcome.next (ended p s)) (setPort_congr ?_)
    simp only [abandonFrame, framed, Config.characterGap, late, if_true]
  · show execInterCharacterTimeout q s = _
    rw [execInterCharacterTimeout, act_eq]
    refine congrArg (fun p => Host.Outcome.next (ended p s)) (setPort_same ?_)
    simp only [abandonFrame, hunt]
  · intro s runs c due
    have well : healthy c = true ↔ Healthy s := healthy_iff c
    refine ⟨fun early => happen_same runs (judgeAbsence_early (e := startEvent c) early), fun isDue =>
      ⟨fun alone => ?_, fun n k r on sound unclosed only hk readable record unplanned => ?_⟩⟩
    · rw [← well] at alone
      exact happen_done runs (judgeAbsence_alone (e := startEvent c) isDue alone) rfl rfl rfl rfl
    · obtain ⟨unattended, healthy_⟩ := on
      obtain ⟨-, -, -, -, cases⟩ := id sound
      exact happen_settled runs (judgeAbsence_one (env := envOf s.part) (e := startEvent c) isDue unattended (well.2 healthy_) cases only)
        (settle_isolate_blocked (e := absentTold (envOf s.part) (startEvent c)) (well.2 healthy_) sound unclosed hk
          (confirmed_of_only only hk) readable record unplanned rfl) rfl rfl rfl

end Sys2Proof.Machine

end

