-- ==== Sys2Proof/Proofs/FrameCodes.lean ====
section
/-! PROOF. The frames of the lines and the codes of their fields, written and read back (R183, R184, R201, R216, R218).
Settles O20. -/

namespace Sys2Proof.Machine

/-! ### Numbers in characters (section 12) -/

theorem leChars_length (n v : Nat) : (leChars n v).length = n := by
  induction n generalizing v with
  | zero => rfl
  | succ n ih => simp [leChars, ih]

theorem leValue_leChars (n v : Nat) : leValue (leChars n v) = v % 256 ^ n := by
  induction n generalizing v with
  | zero => simp [leChars, leValue, Nat.mod_one]
  | succ n ih =>
    have low : (BitVec.ofNat 8 v).toNat = v % 256 := BitVec.toNat_ofNat v 8
    rw [leChars, leValue, ih, low, Nat.pow_succ', Nat.mod_mul]

theorem leValue_one (c : Byte) : leValue [c] = c.toNat := by simp [leValue]

theorem optOfChars_one (c : Byte) : optOfChars [c] = if c = 0xFF#8 then none else some c.toNat := by
  have absent : c = 0xFF#8 ↔ c.toNat = 0xFF := by rw [← BitVec.toNat_inj]; rfl
  simp only [optOfChars, leValue_one, absent]

/-! ### A frame written and read (R183, R216) -/

/-- The check that a frame's characters end with. -/
def checkOf (kind : Nat) (tag : Byte) (body : List Byte) : Check :=
  frameCheck (leChars 2 body.length ++ [BitVec.ofNat 8 kind, tag] ++ body)

theorem frameChars_eq (kind : Nat) (tag : Byte) (body : List Byte) : frameChars kind tag body =
    0x5A#8 :: BitVec.ofNat 8 body.length :: BitVec.ofNat 8 (body.length / 256) :: BitVec.ofNat 8 kind :: tag
      :: (body ++ leChars 2 (checkOf kind tag body).toNat) := rfl

theorem frameChars_length (kind : Nat) (tag : Byte) (body : List Byte) :
    (frameChars kind tag body).length = body.length + 7 := by
  simp [frameChars_eq, leChars_length]

/-- The declared length of a frame is that of its body. -/
theorem declared_frameChars (kind : Nat) (tag : Byte) {body : List Byte} (fits : body.length ≤ 480) :
    leValue (((frameChars kind tag body).drop 1).take 2) = body.length := by
  rw [show ((frameChars kind tag body).drop 1).take 2 = leChars 2 body.length from rfl, leValue_leChars]
  exact Nat.mod_eq_of_lt (by omega)

theorem parseFrame_frameChars {kind : Nat} (tag : Byte) {body : List Byte} (byte : kind < 256) (fits : body.length ≤ 480) :
    parseFrame (frameChars kind tag body) = some { kind := kind, tag := tag, body := body } := by
  have declared : leValue [BitVec.ofNat 8 body.length, BitVec.ofNat 8 (body.length / 256)] = body.length :=
    declared_frameChars kind tag fits
  have check : leValue (leChars 2 (checkOf kind tag body).toNat) = (checkOf kind tag body).toNat := by
    rw [leValue_leChars]
    exact Nat.mod_eq_of_lt (checkOf kind tag body).isLt
  have same : frameCheck (BitVec.ofNat 8 body.length :: BitVec.ofNat 8 (body.length / 256) :: BitVec.ofNat 8 kind :: tag
      :: body) = checkOf kind tag body := rfl
  simp only [frameChars_eq, parseFrame, declared, List.take_left, List.drop_left, check, same]
  simp [Config.bodyLimit, fits, leChars_length, Nat.mod_eq_of_lt byte]

/-! ### A frame received (R184) -/

/-- The declared length stands once three characters have come. -/
theorem declared_append {all rest : List Byte} (h : 3 ≤ all.length) :
    ((all ++ rest).drop 1).take 2 = (all.drop 1).take 2 := by
  rw [List.drop_append_of_le_length (by omega), List.take_append_of_le_length (by rw [List.length_drop]; omega)]

/-- A receiver in FRAME that takes the rest of a whole frame judges it at the last character. -/
theorem receiveChars_rest (now : Nat) (rest pre : List Byte) (more : rest ≠ [])
    (fits : leValue (((pre ++ rest).drop 1).take 2) ≤ 480)
    (whole : (pre ++ rest).length = leValue (((pre ++ rest).drop 1).take 2) + 7) :
    receiveChars now (.frame pre now) (clean rest) = (.hunt, (parseFrame (pre ++ rest)).toList) := by
  induction rest generalizing pre with
  | nil => exact absurd rfl more
  | cons c rest ih =>
    have taken : receiveChar now (.frame pre now) { value := c, framingError := false } = collect now (pre ++ [c]) :=
      receiveChar_collects (by omega) rfl
    have split_ : pre ++ c :: rest = (pre ++ [c]) ++ rest := by simp
    rw [split_] at fits whole ⊢
    rw [clean, List.map_cons, receiveChars, taken]
    by_cases last : rest = []
    · subst last
      rw [List.append_nil] at fits whole ⊢
      rw [collect_whole (by omega) fits whole]
      simp [receiveChars]
    · have short : (pre ++ [c]).length < ((pre ++ [c]) ++ rest).length := by
        rw [List.length_append (as := pre ++ [c])]
        have := List.length_pos_iff.2 last
        omega
      have collects : collect now (pre ++ [c]) = (.frame (pre ++ [c]) now, none) := by
        obtain few | many := Nat.lt_or_ge (pre ++ [c]).length 3
        · exact collect_short few
        · rw [declared_append many] at fits whole
          exact collect_partial many fits (by omega)
      rw [collects]
      exact ih (pre ++ [c]) last fits whole

theorem receiveChars_frameChars (now : Nat) {kind : Nat} (tag : Byte) {body : List Byte} (byte : kind < 256)
    (fits : body.length ≤ 480) : receiveChars now .hunt (clean (frameChars kind tag body))
      = (.hunt, [{ kind := kind, tag := tag, body := body }]) := by
  have declared := declared_frameChars kind tag fits
  have length := frameChars_length kind tag body
  have read := parseFrame_frameChars tag byte fits
  obtain ⟨rest, start⟩ : ∃ rest, frameChars kind tag body = [0x5A#8] ++ rest := ⟨_, rfl⟩
  have more : rest ≠ [] := by
    rintro rfl
    simp [start] at length
  rw [start] at declared length read ⊢
  have began : receiveChars now .hunt (clean ([0x5A#8] ++ rest)) = receiveChars now (.frame [0x5A#8] now) (clean rest) := rfl
  rw [began, receiveChars_rest now rest [0x5A#8] more (by rw [declared]; exact fits) (by rw [declared]; exact length), read]
  rfl

/-! ### The codes of fields (R201, R218) -/

theorem phasesOfCode_phasesCode (s : PhaseSet) (h : phasesNonempty s = true) : phasesOfCode (phasesCode s) = some s := by
  obtain ⟨a, b, c⟩ := s
  revert a b c
  decide

theorem codesReadBack :
    (∀ p : Phase, phaseOfCode (phaseCode p) = some p)
      ∧ (∀ s : PhaseSet, phasesNonempty s = true → phasesOfCode (phasesCode s) = some s)
      ∧ (∀ a : Action, actionOfCode (actionCode a) = some a)
      ∧ (∀ s : DeviceState, s ≠ .unknown → reportedState (deviceStateCode s) = some s)
      ∧ deviceStateCode .unknown = 0
      ∧ (∀ r : RefusalReason, refusalOfCode (refusalCode r) = some r)
      ∧ (∀ x : EventSelect, selectOfCode (selectCode x) = some x) := by
  refine ⟨fun p => ?_, phasesOfCode_phasesCode, fun a => ?_, fun s known => ?_, rfl, fun r => ?_, fun x => ?_⟩
  · cases p <;> rfl
  · cases a <;> rfl
  · cases s
    case unknown => exact absurd rfl known
    all_goals rfl
  · cases r <;> rfl
  · cases x <;> rfl

theorem segmentEditOf_eq (number parent phases plan l0 l1 : Byte) :
    segmentEditOf [[number], [parent], [phases], [plan], [l0, l1]] = (phasesOfCode phases.toNat).map fun ps =>
      { number := number.toNat, phases := ps, label := l0.toNat + 256 * l1.toNat
        parent := if parent = 0xFF#8 then none else some parent.toNat
        plan := if plan = 0xFF#8 then none else some plan.toNat } := by
  simp only [segmentEditOf, leValue_one, optOfChars_one]
  rfl

theorem frameReadBack : Obligations.FrameReadBack := by
  obtain ⟨phase, phases, action, state, unknown, refusal, select⟩ := codesReadBack
  refine ⟨fun kind tag body byte fits => parseFrame_frameChars tag byte fits,
    fun now kind tag body byte fits => receiveChars_frameChars now tag byte fits,
    phase, phases, action, state, unknown, refusal, select, fun number parent phases plan l0 l1 => ⟨fun bad => ?_,
      fun ps good => ?_⟩, fun device action => ?_, fun n => ⟨rfl, rfl, ?_⟩, fun n => ⟨rfl, ?_, rfl⟩,
    fun _ _ _ _ _ _ _ => rfl, fun _ _ _ _ _ => rfl, fun _ _ => ⟨rfl, rfl⟩, ?_, rfl⟩
  · rw [segmentEditOf_eq, bad]
    rfl
  · rw [segmentEditOf_eq, good]
    rfl
  · simp only [operateRequestOf, leValue_one]
  · cases h : n.refusal <;> simp [noticeFields, h] <;> rfl
  · cases h : n.phase <;> simp [noticeFields, h] <;> rfl
  · simp [frameCheck, crcChar, crcBit]

end Sys2Proof.Machine

end

