-- ==== Sys2Proof/Proofs/CountersAndWraps.lean ====
section
/-! PROOF. What an occurrence adds to the counters, the COUNTER notices of their wraps, and the order of an event's
notices (R190, R201, R202). Settles O24. -/

namespace Sys2Proof.Machine

/-! ### An occurrence at one counter (R201, R202) -/

/-- A counter follows an occurrence of its select in its scope. -/
def Matches (c : Counter) (o : Occurrence) : Prop :=
  c.select ≠ .none ∧ c.select = o.select
    ∧ (c.scope = .all ∨ (∃ x, c.scope = .segment x ∧ o.segment = some x)
      ∨ (∃ x, c.scope = .sensor x ∧ o.sensor = some x)
      ∨ (∃ x, c.scope = .device x ∧ o.device = some x))

theorem follows_iff (c : Counter) (o : Occurrence) : follows c o = true ↔ Matches c o := by
  unfold follows Matches
  cases scope : c.scope <;> simp [and_assoc]

/-- The COUNTER notice that an occurrence raises of a counter. -/
def wrapTold (now : Nat) (o : Occurrence) (n : Nat) (c : Counter) : Option (Dest × Notice) :=
  if follows c o && c.notify && decide (4294967296 ≤ (c.value : Int) + o.amount) then
    some (Dest.only (if n < 8 then .a else .b),
      Notice.counter n c.select c.scope (((c.value : Int) + o.amount) % 4294967296).toNat now)
  else none

theorem countOne_snd (now n : Nat) (o : Occurrence) (c : Counter) :
    (countOne now n o c).2.map (fun w => (Dest.only (ownerOf w.1), w.2)) = wrapTold now o n c := by
  unfold countOne wrapTold
  cases follows c o
  · simp
  · have same : wraps c o.amount = decide (4294967296 ≤ (c.value : Int) + o.amount) := rfl
    cases c.notify <;> cases wrapped : decide (4294967296 ≤ (c.value : Int) + o.amount) <;>
      simp [same, wrapped, addTo, ownerOf, counterSpan]

theorem filterMap_mapFrom {α β γ : Type} (f : Nat → α → β) (g : β → Option γ) (l : List α) (n : Nat) :
    (mapFrom f n l).filterMap g = (List.range l.length).filterMap fun i => l[i]?.bind fun x => g (f (n + i) x) := by
  induction l generalizing n with
  | nil => rfl
  | cons x l ih =>
    have rest : ∀ i, n + 1 + i = n + (i + 1) := fun i => by omega
    rw [List.length_cons, List.range_succ_eq_map, mapFrom, List.filterMap_cons, List.filterMap_cons, List.filterMap_map, ih]
    simp only [Function.comp_def, List.getElem?_cons_succ, List.getElem?_cons_zero, Option.bind_some, rest, Nat.add_zero]

theorem countOccurrence_told (now : Nat) (o : Occurrence) (cs : List Counter) :
    (countOccurrence now o cs).2.map (fun w => (Dest.only (ownerOf w.1), w.2))
      = (List.range cs.length).filterMap fun n => cs[n]?.bind (wrapTold now o n) := by
  rw [countOccurrence, List.map_filterMap, filterMap_mapFrom]
  refine List.filterMap_congr fun n _ => congrArg (Option.bind cs[n]?) (funext fun c => ?_)
  rw [Nat.zero_add, countOne_snd]

/-! ### The order of an event's notices (R190, R202) -/

/-- The number by which a COUNTER notice is placed. -/
def wrapKey (q : Port) (x : Dest × Notice) : Nat := (wrapOf q x).getD 0

theorem insertWrap_perm (q : Port) (x : Dest × Notice) (l : List (Dest × Notice)) : (insertWrap q x l).Perm (x :: l) := by
  induction l with
  | nil => exact .refl _
  | cons y l ih =>
    unfold insertWrap
    split
    · exact .refl _
    · exact (ih.cons y).trans (.swap x y l)

theorem insertWrap_pairwise (q : Port) (x : Dest × Notice) {l : List (Dest × Notice)}
    (sorted : l.Pairwise fun a b => wrapKey q a ≤ wrapKey q b) :
    (insertWrap q x l).Pairwise fun a b => wrapKey q a ≤ wrapKey q b := by
  induction l with
  | nil => exact List.pairwise_singleton _ _
  | cons y l ih =>
    obtain ⟨least, rest⟩ := List.pairwise_cons.1 sorted
    unfold insertWrap
    split
    · next lt =>
      refine List.pairwise_cons.2 ⟨fun z mem => ?_, sorted⟩
      obtain rfl | later := List.mem_cons.1 mem
      · exact Nat.le_of_lt lt
      · exact (Nat.le_of_lt lt).trans (least z later)
    · next ge =>
      refine List.pairwise_cons.2 ⟨fun z mem => ?_, ih rest⟩
      obtain rfl | later := List.mem_cons.1 ((insertWrap_perm q x l).mem_iff.1 mem)
      · exact Nat.not_lt.1 ge
      · exact least z later

theorem foldl_insertWrap (q : Port) (xs l : List (Dest × Notice))
    (sorted : l.Pairwise fun a b => wrapKey q a ≤ wrapKey q b) :
    (xs.foldl (fun acc x => insertWrap q x acc) l).Perm (xs ++ l)
      ∧ (xs.foldl (fun acc x => insertWrap q x acc) l).Pairwise fun a b => wrapKey q a ≤ wrapKey q b := by
  induction xs generalizing l with
  | nil => exact ⟨.refl _, sorted⟩
  | cons x xs ih =>
    obtain ⟨perm, sorted'⟩ := ih (insertWrap q x l) (insertWrap_pairwise q x sorted)
    exact ⟨perm.trans (((insertWrap_perm q x l).append_left xs).trans List.perm_middle), sorted'⟩

/-- The COUNTER notices of a port's group among an event's. -/
abbrev groupOf (q : Port) (l : List (Dest × Notice)) : List (Dest × Notice) := l.filter fun x => (wrapOf q x).isSome

theorem wrapsOf_perm (q : Port) (l : List (Dest × Notice)) : (wrapsOf q l).Perm (groupOf q l) := by
  have placed := (foldl_insertWrap q (groupOf q l) [] .nil).1
  rwa [List.append_nil] at placed

theorem isSome_of_mem_wrapsOf {q : Port} {l : List (Dest × Notice)} {x : Dest × Notice} (mem : x ∈ wrapsOf q l) :
    (wrapOf q x).isSome = true :=
  (List.mem_filter.1 ((wrapsOf_perm q l).mem_iff.1 mem)).2

theorem wrapsOf_ascend (q : Port) (l : List (Dest × Notice)) :
    ((wrapsOf q l).filterMap (wrapOf q)).Pairwise (· ≤ ·) := by
  refine (List.pairwise_filterMap).2 ((foldl_insertWrap q (groupOf q l) [] .nil).2.imp ?_)
  intro a b le n hn m hm
  rwa [wrapKey, wrapKey, hn, hm] at le

/-- A COUNTER notice is of one group. -/
theorem wrapOf_other {q : Port} {x : Dest × Notice} (own : (wrapOf q x).isSome = true) :
    wrapOf (otherPort q) x = none := by
  obtain ⟨d, n⟩ := x
  cases n
  case counter n _ _ _ _ =>
    simp only [wrapOf, Option.isSome_ite] at own ⊢
    subst own
    exact if_neg (by cases ownerOf n <;> decide)
  all_goals rfl

section
variable {q : Port} {w x : Dest × Notice} {ws xs : List (Dest × Notice)}

theorem refill_own (own : (wrapOf q x).isSome = true) : refill q (w :: ws) (x :: xs) = w :: refill q ws xs := by
  obtain ⟨n, eq⟩ := Option.isSome_iff_exists.1 own
  simp [refill, eq]

theorem refill_other (other : wrapOf q x = none) : refill q ws (x :: xs) = x :: refill q ws xs := by
  simp [refill, other]

end

/-- What fills the places of a group fills them all, once. -/
structure Fills (q : Port) (ws l : List (Dest × Notice)) : Prop where
  own : ∀ w ∈ ws, (wrapOf q w).isSome = true
  length : ws.length = (groupOf q l).length

theorem Fills.cons_own {q : Port} {ws l : List (Dest × Notice)} {x : Dest × Notice} (own : (wrapOf q x).isSome = true)
    (fills : Fills q ws (x :: l)) : ∃ w rest, ws = w :: rest ∧ Fills q rest l ∧ (wrapOf q w).isSome = true := by
  have length := fills.length
  rw [groupOf, List.filter_cons_of_pos (by exact own), List.length_cons] at length
  cases ws with
  | nil => cases length
  | cons w rest =>
    exact ⟨w, rest, rfl, ⟨fun v mem => fills.own v (List.mem_cons_of_mem w mem), Nat.succ.inj length⟩,
      fills.own w List.mem_cons_self⟩

theorem Fills.cons_other {q : Port} {ws l : List (Dest × Notice)} {x : Dest × Notice} (other : wrapOf q x = none)
    (fills : Fills q ws (x :: l)) : Fills q ws l := by
  refine ⟨fills.own, fills.length.trans ?_⟩
  rw [groupOf, List.filter_cons_of_neg (by simp [other])]

/-- The filled list, place by place: the group's notices are those it is filled from, in their order, and every other
notice keeps its place. -/
theorem refill_spec {q : Port} {ws l : List (Dest × Notice)} (fills : Fills q ws l) :
    groupOf q (refill q ws l) = ws
      ∧ (refill q ws l).filter (fun x => !(wrapOf q x).isSome) = l.filter (fun x => !(wrapOf q x).isSome)
      ∧ (refill q ws l).filterMap (wrapOf (otherPort q)) = l.filterMap (wrapOf (otherPort q))
      ∧ ∀ (i : Nat) (x : Dest × Notice), l[i]? = some x → wrapOf q x = none → (refill q ws l)[i]? = some x := by
  induction l generalizing ws with
  | nil =>
    obtain rfl : ws = [] := List.eq_nil_of_length_eq_zero fills.length
    exact ⟨rfl, rfl, rfl, fun _ _ h => absurd h (by simp)⟩
  | cons x l ih =>
    cases own : wrapOf q x with
    | none =>
      obtain ⟨group, rest, others, places⟩ := ih (fills.cons_other own)
      rw [refill_other own]
      refine ⟨?_, ?_, ?_, fun i y at_ free => ?_⟩
      · rw [groupOf, List.filter_cons_of_neg (by simp [own])]
        exact group
      · rw [List.filter_cons_of_pos (by simp [own]), List.filter_cons_of_pos (by simp [own]), rest]
      · rw [List.filterMap_cons, List.filterMap_cons, others]
      · cases i with
        | zero => exact at_
        | succ i => exact places i y at_ free
    | some n =>
      have isOwn : (wrapOf q x).isSome = true := by rw [own]; rfl
      obtain ⟨w, ws, rfl, fills, ownW⟩ := fills.cons_own isOwn
      obtain ⟨group, rest, others, places⟩ := ih fills
      rw [refill_own isOwn]
      refine ⟨?_, ?_, ?_, fun i y at_ free => ?_⟩
      · rw [groupOf, List.filter_cons_of_pos (by exact ownW)]
        exact congrArg (w :: ·) group
      · rw [List.filter_cons_of_neg (by simp [ownW]), List.filter_cons_of_neg (by simp [isOwn]), rest]
      · rw [List.filterMap_cons_none (wrapOf_other ownW), List.filterMap_cons_none (wrapOf_other isOwn), others]
      · cases i with
        | zero =>
          obtain rfl : x = y := Option.some.inj at_
          rw [own] at free
          cases free
        | succ i => exact places i y at_ free

theorem refill_perm {q : Port} {ws l : List (Dest × Notice)} (fills : Fills q ws l) (perm : ws.Perm (groupOf q l)) :
    (refill q ws l).Perm l := by
  obtain ⟨group, rest, -, -⟩ := refill_spec fills
  have parts := List.filter_append_perm (fun x => (wrapOf q x).isSome) (refill q ws l)
  rw [show (refill q ws l).filter (fun x => (wrapOf q x).isSome) = ws from group, rest] at parts
  exact parts.symm.trans ((perm.append_right _).trans (List.filter_append_perm _ l))

theorem fills_wrapsOf {q : Port} {l l' : List (Dest × Notice)} (perm : l'.Perm l) : Fills q (wrapsOf q l) l' where
  own := fun _ mem => isSome_of_mem_wrapsOf mem
  length := ((wrapsOf_perm q l).trans (perm.symm.filter _)).length_eq

theorem filterMap_groupOf (q : Port) (l : List (Dest × Notice)) : (groupOf q l).filterMap (wrapOf q) = l.filterMap (wrapOf q) := by
  rw [groupOf, List.filterMap_filter]
  refine List.filterMap_congr fun x _ => ?_
  cases wrapOf q x <;> rfl

/-- An event's notices as they join the queues. -/
theorem inOrder_spec (l : List (Dest × Notice)) : (inOrder l).Perm l
    ∧ (∀ (i : Nat) (x : Dest × Notice), l[i]? = some x → (∀ q, wrapOf q x = none) → (inOrder l)[i]? = some x)
    ∧ ∀ q, List.Pairwise (· ≤ ·) ((inOrder l).filterMap (wrapOf q)) := by
  have fillsA : Fills .a (wrapsOf .a l) l := fills_wrapsOf (.refl l)
  have permA := refill_perm fillsA (wrapsOf_perm .a l)
  have fillsB : Fills .b (wrapsOf .b l) (refill .a (wrapsOf .a l) l) := fills_wrapsOf permA
  obtain ⟨groupA, -, -, placesA⟩ := refill_spec fillsA
  obtain ⟨groupB, -, othersB, placesB⟩ := refill_spec fillsB
  refine ⟨(refill_perm fillsB ((wrapsOf_perm .b l).trans (permA.symm.filter _))).trans permA,
    fun i x at_ free => placesB i x (placesA i x at_ (free .a)) (free .b), fun q => ?_⟩
  cases q with
  | a =>
    have kept : (inOrder l).filterMap (wrapOf .a) = (wrapsOf .a l).filterMap (wrapOf .a) :=
      othersB.trans ((filterMap_groupOf .a _).symm.trans (congrArg _ groupA))
    rw [kept]
    exact wrapsOf_ascend .a l
  | b =>
    rw [inOrder, ← filterMap_groupOf, groupB]
    exact wrapsOf_ascend .b l

theorem occurrenceAddsToMatchingCounters : Obligations.OccurrenceAddsToMatchingCounters := by
  refine ⟨fun now o cs n c at_ => ⟨follows_iff c o, fun holds => ?_, fun fails => ?_⟩, fun now o xs cs => ?_,
    emissions_tell, fun _ _ => rfl, inOrder_spec⟩
  · rw [getElem?_countOccurrence, at_, Option.map_some, if_pos ((follows_iff c o).2 holds)]
    rfl
  · rw [getElem?_countOccurrence, at_, Option.map_some, if_neg fun h => fails ((follows_iff c o).1 h)]
  · rw [emissions, countOccurrence_told]
    rfl

end Sys2Proof.Machine

end

