-- ==== Sys2Proof/Proofs/DeviceFrames.lean ====
section
/-! PROOF. The frames that devices send: reachability, recorded states with their effects on the cases, and
completions (R90, R92, R119, R122, R130, R137 to R150). -/

namespace Sys2Proof.Machine

/-! ### The characters of the device link (R130, R184) -/

section
variable {chars : List RxChar} {rx : Receiver} {s : State} (runs : blocksRun s.part = true)
include runs

theorem deviceEvents_eq : exec (.orderReply chars) s = .next (ended (deviceLine chars s.part) s)
    ∧ exec (.stateReport chars) s = .next (ended (deviceLine chars s.part) s) := by
  have line : act (fun p => if blocksRun p then deviceLine chars p else p) s
      = .next (ended (deviceLine chars s.part) s) := by
    rw [act_eq, if_pos runs]
  exact ⟨line, line⟩

/-- The line's characters end their event with what they tell and with the blocks as they leave them. -/
def LineEnds (chars : List RxChar) (s : State) (xs : List Emit) (c : Core) : Prop :=
  exec (.orderReply chars) s = .next (ended (outcome xs c s.part) s)
    ∧ exec (.stateReport chars) s = .next (ended (outcome xs c s.part) s)

theorem lineEnds_of {xs : List Emit} {c : Core} (h : deviceLine chars s.part = outcome xs c s.part) :
    LineEnds chars s xs c := by
  unfold LineEnds
  rw [← h]
  exact deviceEvents_eq runs

theorem lineEnds_noFrame (received : receiveChars s.part.core.time.elapsed s.part.core.deviceRx chars = (rx, [])) :
    LineEnds chars s [] { s.part.core with deviceRx := rx } := by
  refine lineEnds_of runs ?_
  unfold deviceLine
  rw [received]
  rfl

theorem lineEnds_frame {f : Frame} {e : Ev}
    (received : receiveChars s.part.core.time.elapsed s.part.core.deviceRx chars = (rx, [f]))
    (settled : settle (envOf s.part) (takeDeviceFrame (envOf s.part) f (startEvent { s.part.core with deviceRx := rx })) = e)
    (store : e.storeFailed = false) : LineEnds chars s e.out e.toCore := by
  refine lineEnds_of runs ?_
  unfold deviceLine
  rw [received]
  show runEvent (fun env e => takeDeviceFrame env f e) { s.part with core := { s.part.core with deviceRx := rx } } = _
  rw [runEvent_eq]
  show commit (settle (envOf s.part) (takeDeviceFrame (envOf s.part) f
    (startEvent { s.part.core with deviceRx := rx }))) { s.part with core := { s.part.core with deviceRx := rx } } = _
  rw [settled, commit_eq _ _ store]
  rfl

end

/-- What a frame of a device makes of its event, once the device is reachable (R137, R144). -/
def takeContent (env : Env) (d : Nat) (df : DeviceFrame) (e : Ev) : Ev :=
  match df with
  | .orderReply number outcome => takeReply env d number outcome e
  | .stateReport s => recordState env d s .stateReport e

section
variable {env : Env} {f : Frame} {e : Ev}

theorem takeDeviceFrame_dropped (dropped : decodeDevice f = none) : takeDeviceFrame env f e = e := by
  unfold takeDeviceFrame
  rw [dropped]

variable {link : Nat} {df : DeviceFrame} (decoded : decodeDevice f = some (link, df))
include decoded

theorem takeDeviceFrame_unlinked (none_ : deviceAtLink e.toCore link = none) : takeDeviceFrame env f e = e := by
  unfold takeDeviceFrame
  rw [decoded]
  simp only [takeDecoded, none_]

theorem takeDeviceFrame_taken {d : Nat} (at_ : deviceAtLink e.toCore link = some d) (good : badAt e.devices d = false) :
    takeDeviceFrame env f e = takeContent env d df (markReachable d e) := by
  unfold takeDeviceFrame
  rw [decoded]
  simp only [takeDecoded, at_, good]
  cases df <;> rfl

end

theorem reportedState_known {n : Nat} {s : DeviceState} (h : reportedState n = some s) : s ≠ .unknown := by
  rintro rfl
  unfold reportedState at h
  split at h <;> cases h

/-- A device never reports the state UNKNOWN. -/
theorem decodeDevice_known {f : Frame} {link : Nat} {df : DeviceFrame} (decoded : decodeDevice f = some (link, df)) :
    (∀ s, df = .stateReport s → s ≠ .unknown) ∧ ∀ number s, df = .orderReply number (.done s) → s ≠ .unknown := by
  unfold decodeDevice at decoded
  split at decoded
  · split at decoded
    · obtain ⟨s, read, same⟩ := Option.map_eq_some_iff.1 decoded
      cases same
      exact ⟨fun _ h => (nomatch h), fun _ _ h => by cases h; exact reportedState_known read⟩
    · obtain ⟨r, read, same⟩ := Option.map_eq_some_iff.1 decoded
      cases same
      exact ⟨fun _ h => (nomatch h), fun _ _ h => (nomatch h)⟩
    · cases decoded
  · obtain ⟨s, read, same⟩ := Option.map_eq_some_iff.1 decoded
    cases same
    exact ⟨fun _ h => by cases h; exact reportedState_known read, fun _ _ h => (nomatch h)⟩
  · cases decoded

/-! ### The run-time fields of a device -/

/-- The blocks with a device's run-time fields written. -/
def deviceAs (d : Nat) (v : Device) (run : DeviceRun) (c : Core) : Core :=
  { c with devices := putAt c.devices d (some { v with run := run }) }

theorem putAt_self {α : Type} {l : List (Checked α)} {n : Nat} {v : α} (hv : entryAt l n = some v)
    (good : badAt l n = false) : putAt l n (some v) = l := by
  refine List.ext_getElem? fun m => ?_
  rw [putAt, List.getElem?_set]
  split
  · next same =>
    subst same
    rw [if_pos (entryAt_lt hv), badAt_check hv good]
  · rfl

section
variable {d : Nat} {v : Device} {c : Core} (hv : entryAt c.devices d = some v)
include hv

theorem entryAt_deviceAs (run : DeviceRun) : entryAt (deviceAs d v run c).devices d = some { v with run := run } :=
  (entryAt_putAt _ _ _ _ (entryAt_lt hv)).trans (if_pos rfl)

omit hv in
theorem badAt_deviceAs (run : DeviceRun) : badAt (deviceAs d v run c).devices d = false :=
  (badAt_putAt _ _ _ _).trans (if_pos rfl)

omit hv in
theorem deviceAs_deviceAs (run run' : DeviceRun) (v' : Device) :
    deviceAs d v run (deviceAs d v' run' c) = deviceAs d v run c := by
  simp only [deviceAs, putAt_putAt]

theorem deviceAs_self (good : badAt c.devices d = false) : deviceAs d v v.run c = c := by
  simp only [deviceAs, putAt_self hv good]

/-- A device that keeps its state, its reach and its next poll, or has no next poll, is due as before. -/
theorem noPolls_deviceAs {run : DeviceRun} (quiet : NoPolls c)
    (polls : ∀ t, run.nextPoll = some t → run.state = .unknown ∨ run.reachable = false →
      v.run.nextPoll = some t ∧ (v.run.state = .unknown ∨ v.run.reachable = false)) : NoPolls (deviceAs d v run c) := by
  intro monitoring
  obtain ⟨sound, idle⟩ := quiet monitoring
  refine ⟨sound_set sound _ _, fun n u t at_ eligible due => ?_⟩
  have at' := (entryAt_putAt c.devices d n (some { v with run := run }) (entryAt_lt hv)).symm.trans at_
  by_cases same : n = d
  · rw [if_pos same] at at'
    cases at'
    obtain ⟨due', eligible'⟩ := polls t due eligible
    exact idle d v t hv eligible' due'
  · rw [if_neg same] at at'
    exact idle n u t at' eligible due

end

section
variable {env : Env} {d : Nat} {v : Device} {e : Ev} (hv : entryAt e.devices d = some v)
  (good : badAt e.devices d = false)
include hv good

theorem setRun_eq (f : DeviceRun → DeviceRun) : setRun d f e = { e with toCore := deviceAs d v (f v.run) e.toCore } := by
  simp only [setRun, updateAt_sound _ hv good, deviceAs]

theorem removeOrder_eq : removeOrder d e = { e with
    toCore := deviceAs d v { v.run with currentOrder := none }
      { e.toCore with orders := e.orders.filter fun o => o.device != d } } :=
  setRun_eq (e := { e with orders := e.orders.filter fun o => o.device != d }) hv good _

/-! ### Reachability (R141, R147) -/

omit env e hv good in
/-- The run-time fields of a device from which a frame has come. -/
def metRun (v : Device) : DeviceRun :=
  if v.run.reachable then v.run
  else { v.run with reachable := true, nextPoll := if v.run.state = .unknown then v.run.nextPoll else none }

omit hv good in
theorem metRun_keeps (v : Device) : (metRun v).state = v.run.state ∧ (metRun v).settleUntil = v.run.settleUntil
    ∧ (metRun v).reachable = true := by
  unfold metRun
  by_cases reachable : v.run.reachable = true
  · rw [if_pos reachable]
    exact ⟨rfl, rfl, reachable⟩
  · rw [if_neg reachable]
    exact ⟨rfl, rfl, rfl⟩

/-- What a frame from an unreachable device tells. -/
def hailTold (d : Nat) (v : Device) (now : Nat) : List Emit :=
  if v.run.reachable then [] else [.tell .both (.deviceReach d v.link true .frameReceived now)]

theorem markReachable_eq : markReachable d e = { e with
    toCore := deviceAs d v (metRun v) e.toCore, out := e.out ++ hailTold d v e.time.now } := by
  unfold markReachable
  simp only [hv]
  by_cases reachable : v.run.reachable = true
  · simp only [reachable, if_true, metRun, hailTold, List.append_nil]
    rw [deviceAs_self hv good]
  · have marked := setRun_eq hv good fun r => { r with reachable := true }
    have again := setRun_eq (d := d) (v := { v with run := { v.run with reachable := true } })
      (e := raise .both (.deviceReach d v.link true .frameReceived e.time.now)
        { e with toCore := deviceAs d v { v.run with reachable := true } e.toCore })
      (entryAt_deviceAs hv _) (badAt_deviceAs _)
    have ends : (if true && v.run.state != .unknown then { v.run with reachable := true, nextPoll := none }
        else { v.run with reachable := true }) = metRun v := by
      unfold metRun
      rw [if_neg reachable]
      by_cases unknown : v.run.state = .unknown <;> simp [unknown]
    rw [if_neg reachable, marked, endPoll, again, ends]
    simp only [raise, deviceAs_deviceAs, hailTold, if_neg reachable]
    rfl

/-! ### Recording a state (R145, R146) -/

omit good in
theorem recordState_same {new : DeviceState} (cause : RecordingCause) (same : v.run.state = new) :
    recordState env d new cause e = e := by
  unfold recordState
  simp only [hv, same, if_true]

/-- The event in which a new state stands and is told of. -/
def stateTold (env : Env) (d : Nat) (v : Device) (new : DeviceState) (cause : RecordingCause) (e : Ev) : Ev :=
  { e with
    toCore := deviceAs d v { v.run with state := new, settleUntil := settleAfter env e.time.now v.run new } e.toCore
    out := e.out ++ [.tell .both (.deviceState d v.link v.run.state new cause v.run.reachable e.time.now)] }

/-- The run-time fields of a reachable device whose state has been recorded. -/
def recordedRun (env : Env) (now : Nat) (r : DeviceRun) (new : DeviceState) : DeviceRun :=
  { r with state := new, settleUntil := settleAfter env now r new, nextPoll := none, reachable := true }

/-- The work that a device's entering OPEN or LOCKED_OUT leaves. -/
def openedWork (new : DeviceState) (mode : Mode) (d : Nat) : List Work :=
  if standsOpen new && mode != .halted then [.opened d] else []

theorem recordState_changed {new : DeviceState} (cause : RecordingCause) (changed : new ≠ v.run.state)
    (known : new ≠ .unknown) (reach : v.run.reachable = true) {c : Core} {xs : List Emit}
    (effects : caseEffects v d new (stateTold env d v new cause e)
      = { stateTold env d v new cause e with toCore := c, out := (stateTold env d v new cause e).out ++ xs })
    (devices : c.devices = (stateTold env d v new cause e).devices) (mode : c.mode = e.mode) :
    recordState env d new cause e = { e with
      toCore := { c with devices := (deviceAs d v (recordedRun env e.time.now v.run new) e.toCore).devices }
      out := e.out ++ [.tell .both (.deviceState d v.link v.run.state new cause true e.time.now)] ++ xs
      todo := e.todo ++ openedWork new e.mode d } := by
  have told : raise .both (.deviceState d v.link v.run.state new cause v.run.reachable
      (setRun d (fun r => { r with state := new, settleUntil := settleAfter env e.time.now r new }) e).time.now)
      (setRun d (fun r => { r with state := new, settleUntil := settleAfter env e.time.now r new }) e)
      = stateTold env d v new cause e := by
    rw [setRun_eq hv good]
    rfl
  have acts : recordState env d new cause e = endPoll d { stateTold env d v new cause e with
      toCore := c, out := (stateTold env d v new cause e).out ++ xs
      todo := e.todo ++ openedWork new e.mode d } := by
    unfold recordState
    simp only [hv, if_neg (Ne.symm changed)]
    rw [told, effects]
    unfold openedWork
    simp only [mode]
    by_cases opens : (standsOpen new && e.mode != .halted) = true
    · rw [if_pos opens, if_pos opens]
      rfl
    · rw [if_neg opens, if_neg opens, List.append_nil]
      rfl
  have at_ : entryAt c.devices d
      = some { v with run := { v.run with state := new, settleUntil := settleAfter env e.time.now v.run new } } := by
    rw [devices]
    exact entryAt_deviceAs hv _
  have sound : badAt c.devices d = false := by
    rw [devices]
    exact badAt_deviceAs _
  rw [acts, endPoll, setRun_eq (by exact at_) (by exact sound)]
  have ends : (v.run.reachable && new != .unknown) = true := by simp [reach, known]
  rw [if_pos ends]
  simp only [deviceAs, devices, stateTold, putAt_putAt, recordedRun, reach]

end

/-! ### The effects on the cases (R90, R92) -/

section
variable {v : Device} {f : Nat → Ev → Ev} {e : Ev}

theorem onDownstreamCases_none (sound : Sound e.cases) (none_ : ∀ n, entryAt e.cases n = none) :
    onDownstreamCases v f e = e := by
  have reads : ∀ r ∈ (List.range e.cases.length).flatMap (caseReads e.toCore), isBad e.toCore r = false := by
    intro r mem
    obtain ⟨n, -, read⟩ := List.mem_flatMap.1 mem
    simp only [caseReads, sound n, none_ n, Bool.false_eq_true, if_false, List.mem_singleton] at read
    rw [read]
    exact sound n
  have empty : occupied e.cases = [] := by
    refine List.eq_nil_iff_forall_not_mem.2 fun n mem => ?_
    obtain ⟨k, hk, -⟩ := (mem_entriesWhere _ _ _).1 mem
    cases (none_ n).symm.trans hk
  unfold onDownstreamCases
  split
  · rfl
  · simp only [faultsAt_sound _ _ reads, empty, List.foldl_nil]

theorem occupied_one {l : List (Checked Case)} {n : Nat} {k : Case} (hk : entryAt l n = some k)
    (only : ∀ m, m ≠ n → entryAt l m = none) : occupied l = [n] := by
  have nodup : (occupied l).Nodup := List.nodup_range.filter _
  have mem : ∀ m, m ∈ occupied l ↔ m ∈ [n] := by
    intro m
    rw [occupied, mem_entriesWhere, List.mem_singleton]
    constructor
    · rintro ⟨k', at_, -⟩
      by_contra other
      cases (only m other).symm.trans at_
    · rintro rfl
      exact ⟨k, hk, rfl⟩
  exact List.perm_singleton.1 ((List.perm_ext_iff_of_nodup nodup (List.nodup_singleton n)).2 mem)

theorem onDownstreamCases_one {n : Nat} {k : Case} (sound : AllSound e.toCore) (running : e.mode ≠ .halted)
    (hk : entryAt e.cases n = some k) (only : ∀ m, m ≠ n → entryAt e.cases m = none) :
    onDownstreamCases v f e = if inDownstream e.segments v k.segment then f n e else e := by
  unfold onDownstreamCases
  by_cases tie : v.kind = .tie
  · rw [if_pos (.inr tie)]
    have outside : inDownstream e.segments v k.segment = false := by simp [inDownstream, tie]
    simp [outside]
  · rw [if_neg (by simp [running, tie])]
    simp only [faultsAt_sound _ e fun r _ => isBad_of_allSound sound r, occupied_one hk only, List.foldl_cons, List.foldl_nil, hk,
      firstBad_sound sound, and_true]
    by_cases below : inDownstream e.segments v k.segment = true
    · rw [if_pos ⟨running, below⟩, if_pos below]
    · rw [if_neg (fun h => below h.2), if_neg below]

end

end Sys2Proof.Machine

end

