-- ==== Sys2Proof/Proofs/DeviceReplies.lean ====
section
/-! PROOF. What the frames of devices leave: the cases that a device opens over, the orders it completes, and the
walks that end with them (R90, R92, R119, R122, R137 to R150). -/

namespace Sys2Proof.Machine

/-! ### A device's effects on one case (R90, R92) -/

/-- The states in which a device stands open. -/
def Opens (s : DeviceState) : Prop := s = .open_ ∨ s = .lockedOut

/-- A case that a device has opened over. -/
def openedOver (k : Case) (d : Nat) : Case := { isolatedBy k d with state := .isolated }

section
variable {v : Device} {d n : Nat} {new : DeviceState} {k : Case} {e : Ev}

theorem caseEffects_none (d : Nat) (new : DeviceState) (sound : Sound e.cases) (none_ : ∀ n, entryAt e.cases n = none) :
    caseEffects v d new e = e := by
  cases new
  case unknown => rfl
  case closed => rfl
  all_goals exact onDownstreamCases_none sound none_

theorem caseEffects_opens (v : Device) (d : Nat) (e : Ev) (opens : Opens new) :
    caseEffects v d new e = onDownstreamCases v (openOverCase d) e := by
  obtain rfl | rfl := opens <;> rfl

theorem caseEffects_other (v : Device) (d : Nat) (e : Ev) (other : ¬ (Opens new ∨ new = .reclosing)) :
    caseEffects v d new e = e := by
  cases new
  case unknown => rfl
  case closed => rfl
  case open_ => exact absurd (.inl (.inl rfl)) other
  case lockedOut => exact absurd (.inl (.inr rfl)) other
  case reclosing => exact absurd (.inr rfl) other

variable (hk : entryAt e.cases n = some k)
include hk

theorem openOverCase_watch (watch : k.state = .watch) : openOverCase d n e = freeCase n k .masked (some d) e := by
  simp only [openOverCase, hk, watch]

theorem recloseOverCase_watch (watch : k.state = .watch) : recloseOverCase d n e = freeCase n k .masked (some d) e := by
  simp only [recloseOverCase, hk, watch]

theorem recloseOverCase_other (other : k.state ≠ .watch) : recloseOverCase d n e = e := by
  unfold recloseOverCase
  simp only [hk]

theorem openOverCase_stays (stays : k.state = .isolating ∨ k.state = .isolated) : openOverCase d n e = e := by
  unfold openOverCase
  obtain state | state := stays <;> simp only [hk, state]

omit hk in
/-- The event in which a case has been isolated by a device's opening, and told of. -/
def overTold (d n : Nat) (k : Case) (e : Ev) : Ev :=
  { e with
    toCore := withCase n (openedOver k d) e.toCore
    out := e.out ++ [caseTold n k (some k.state) (some .isolated) .deviceOpened (some d) e.time.now] }

/-- With no order of the case in the queue, and no CLOSE, the case alone changes. -/
theorem openOverCase_isolates (state : k.state = .confirmed ∨ k.state = .blocked) (readable : k.unreadable = [])
    (unclosed : NoCloses e.toCore) (sent : ∀ o ∈ e.orders, o.cls = .isolation → o.state = .sent) (walks : e.walks = [])
    (room : e.room = []) : openOverCase d n e = overTold d n k e := by
  have changed : changeCase n (isolatedBy k d) .isolated .deviceOpened (some d) e = overTold d n k e :=
    changeCase_told (k := isolatedBy k d) readable n .isolated .deviceOpened (some d) e
  have none_ : e.orders.filter (fun o => o.cls == .isolation && o.origin == .case k.serial && o.state == .queued) = [] := by
    refine List.filter_eq_nil_iff.2 fun o mem => ?_
    by_cases cls : o.cls = .isolation
    · simp [sent o mem cls]
    · simp [cls]
  have dropped : dropWalk n (overTold d n k e) = overTold d n k e := by
    simp only [dropWalk, overTold, withCase, walks, room, List.filter_nil]
  have kept : withdrawOrdersOf k.serial (overTold d n k e) = overTold d n k e := by
    unfold withdrawOrdersOf
    rw [show (overTold d n k e).orders = e.orders from rfl, none_]
    rfl
  unfold openOverCase
  obtain state | state := state
  · simp only [hk, state]
    rw [changed, withdrawBarredBySegment_none _ (by exact unclosed)]
  · simp only [hk, state]
    rw [changed, dropped, kept]

variable (sound : AllSound e.toCore) (running : e.mode ≠ .halted) (only : ∀ m, m ≠ n → entryAt e.cases m = none)
include sound running only

theorem caseEffects_freed (below : inDownstream e.segments v k.segment = true) (reaches : Opens new ∨ new = .reclosing)
    (watch : k.state = .watch) (readable : k.unreadable = []) : caseEffects v d new e = { e with
      toCore := freed n e.toCore
      out := e.out ++ [caseTold n k (some .watch) none .masked (some d) e.time.now,
        segmentCount .casesClosedUnconfirmed (some k.segment) 1] } := by
  have frees : caseEffects v d new e = freeCase n k .masked (some d) e := by
    obtain opens | rfl := reaches
    · rw [caseEffects_opens v d e opens, onDownstreamCases_one sound running hk only, if_pos below,
        openOverCase_watch hk watch]
    · rw [show caseEffects v d .reclosing e = onDownstreamCases v (recloseOverCase d) e from rfl,
        onDownstreamCases_one sound running hk only, if_pos below, recloseOverCase_watch hk watch]
  rw [frees, freeCase_eq, freeingTold_readable readable, watch, if_pos rfl]

theorem caseEffects_isolated (below : inDownstream e.segments v k.segment = true) (opens : Opens new)
    (state : k.state = .confirmed ∨ k.state = .blocked) (readable : k.unreadable = []) (unclosed : NoCloses e.toCore)
    (sent : ∀ o ∈ e.orders, o.cls = .isolation → o.state = .sent) (walks : e.walks = []) (room : e.room = []) :
    caseEffects v d new e = overTold d n k e := by
  rw [caseEffects_opens v d e opens, onDownstreamCases_one sound running hk only, if_pos below,
    openOverCase_isolates hk state readable unclosed sent walks room]

theorem caseEffects_passed (passed : ¬ inDownstream e.segments v k.segment = true ∨ k.state = .isolating ∨ k.state = .isolated
      ∨ ¬ (Opens new ∨ new = .reclosing) ∨ new = .reclosing ∧ k.state ≠ .watch) : caseEffects v d new e = e := by
  by_cases reaches : Opens new ∨ new = .reclosing
  · by_cases below : inDownstream e.segments v k.segment = true
    · obtain opens | rfl := reaches
      · have stays : k.state = .isolating ∨ k.state = .isolated := by
          obtain outside | state | state | none_ | ⟨reclosing, -⟩ := passed
          · exact absurd below outside
          · exact .inl state
          · exact .inr state
          · exact absurd (.inl opens) none_
          · obtain open_ | locked := opens
            · cases open_.symm.trans reclosing
            · cases locked.symm.trans reclosing
        rw [caseEffects_opens v d e opens, onDownstreamCases_one sound running hk only, if_pos below,
          openOverCase_stays hk stays]
      · have other : k.state ≠ .watch := by
          obtain outside | state | state | none_ | ⟨-, other⟩ := passed
          · exact absurd below outside
          · simp [state]
          · simp [state]
          · exact absurd (.inr rfl) none_
          · exact other
        rw [show caseEffects v d .reclosing e = onDownstreamCases v (recloseOverCase d) e from rfl,
          onDownstreamCases_one sound running hk only, if_pos below, recloseOverCase_other hk other]
    · obtain opens | rfl := reaches
      · rw [caseEffects_opens v d e opens, onDownstreamCases_one sound running hk only, if_neg below]
      · rw [show caseEffects v d .reclosing e = onDownstreamCases v (recloseOverCase d) e from rfl,
          onDownstreamCases_one sound running hk only, if_neg below]
  · exact caseEffects_other v d e reaches

end

/-! ### The work that completions and openings leave (R142, R145) -/

/-- What a completed order tells its port (R149). -/
def replyTold (o : Order) (st : DeviceState) (outcome : OrderOutcome) (refusal : Option RefusalReason) (now : Nat) :
    List Emit :=
  match o.origin with
  | .port q tag => [.tell (.only q) (.order
      { tag := tag, number := o.number, device := o.device, action := o.action, outcome := outcome, state := st
        retries := o.sends.getD 0 - 1, refusal := refusal, withdrawal := none, time := now })]
  | _ => []

section
variable {env : Env} {e : Ev}

theorem handOver_walkless {o : Order} {v : Device} (outcome : OrderOutcome) (refusal : Option RefusalReason)
    (walks : e.walks = []) (hv : entryAt e.devices o.device = some v) (good : badAt e.devices o.device = false) :
    handOver o outcome refusal e
      = { e with out := e.out ++ replyTold o v.run.state outcome refusal e.time.now } := by
  cases origin : o.origin with
  | none => simp [handOver_none origin, replyTold, origin]
  | port q tag => simp [handOver_port origin hv good, replyTold, origin]
  | case serial => simp [handOver, origin, walks, replyTold]

theorem deviceOpened_waitless (d : Nat) (waitless : walksWhere e.toCore (fun w => waitsOn w == some d) = []) :
    deviceOpened d e = e := by
  unfold deviceOpened
  rw [waitless]
  split
  · rfl
  · simp [later]

theorem walksWhere_none (f : Walk → Bool) {c : Core} (walks : c.walks = []) : walksWhere c f = [] := by
  simp [walksWhere, walkOf, walks]

/-- The work of an opening that no walk waits for leaves the rest. -/
theorem settle_openedWork {new : DeviceState} {mode : Mode} {d : Nat} {ws : List Work}
    (waitless : walksWhere e.toCore (fun w => waitsOn w == some d) = []) (todo : e.todo = openedWork new mode d ++ ws)
    {e' : Ev} (rest : ∀ n, n = 65535 ∨ n = 65536 → runWork env n ws { e with todo := [] } = e') : settle env e = e' := by
  rw [settle, todo]
  unfold openedWork
  split
  · rw [show workFuel = 65535 + 1 from rfl, List.singleton_append,
      runWork_done (e := { e with todo := [] }) (w := .opened d)
        (deviceOpened_waitless (e := { e with todo := [] }) d waitless) rfl]
    exact rest 65535 (.inl rfl)
  · exact rest 65536 (.inr rfl)

theorem settle_opened {new : DeviceState} {mode : Mode} {d : Nat}
    (waitless : walksWhere e.toCore (fun w => waitsOn w == some d) = []) (todo : e.todo = openedWork new mode d) :
    settle env e = { e with todo := [] } :=
  settle_openedWork waitless (todo.trans (List.append_nil _).symm) fun n _ => runWork_nil env n _

theorem settle_completed {new : DeviceState} {mode : Mode} {d : Nat} {o : Order} {v : Device} {outcome : OrderOutcome}
    {refusal : Option RefusalReason} (walks : e.walks = []) (room : e.room = []) (quiet : NoPolls e.toCore)
    (hv : entryAt e.devices o.device = some v) (good : badAt e.devices o.device = false)
    (todo : e.todo = openedWork new mode d ++ completionWork o outcome refusal) :
    settle env e = { e with todo := [], out := e.out ++ replyTold o v.run.state outcome refusal e.time.now } := by
  refine settle_openedWork (walksWhere_none _ walks) todo fun n fuel => ?_
  have handed : doWork env (.handOver o outcome refusal) { e with todo := [] }
      = { e with todo := [], out := e.out ++ replyTold o v.run.state outcome refusal e.time.now } :=
    handOver_walkless outcome refusal (by exact walks) (by exact hv) (by exact good)
  obtain ⟨m, rfl⟩ : ∃ m, n = m + 3 + 1 := by
    obtain rfl | rfl := fuel
    · exact ⟨65531, rfl⟩
    · exact ⟨65532, rfl⟩
  rw [completionWork, runWork_done (e := { e with todo := [] }) handed rfl, runWork_announced (by exact walks) (by exact room) (by exact quiet)]

end

/-! ### A frame's content (R137 to R139, R143 to R146) -/

theorem matching_eq {c : Core} {d number : Nat} {o : Order} (h : matching c d number = some o) :
    o.device = d ∧ o.number = number := by
  unfold matching at h
  split at h
  · next found =>
    split at h
    · next sent =>
      cases h
      exact ⟨orderOf_device found, sent.2⟩
    · cases h
  · cases h

/-- The event in which a device has been reached. -/
def hailed (d : Nat) (v : Device) (e : Ev) : Ev :=
  { e with toCore := deviceAs d v (metRun v) e.toCore, out := e.out ++ hailTold d v e.time.now }

/-- The event in which the reached device's order has left the queue. -/
def orderTaken (d : Nat) (v : Device) (run : DeviceRun) (e : Ev) : Ev :=
  { e with
    toCore := deviceAs d v run { e.toCore with orders := e.orders.filter fun o => o.device != d }
    out := e.out ++ hailTold d v e.time.now }

section
variable {env : Env} {d : Nat} {v : Device} {e : Ev} (hv : entryAt e.devices d = some v)
include hv

theorem removeOrder_hailed :
    removeOrder d (hailed d v e) = orderTaken d v { metRun v with currentOrder := none } e := by
  rw [removeOrder_eq (entryAt_deviceAs hv _) (badAt_deviceAs _)]
  simp only [hailed, orderTaken, deviceAs, putAt_putAt]

theorem takeContent_refused {number : Nat} {reason : RefusalReason} {o : Order}
    (match_ : matching e.toCore d number = some o) :
    takeContent env d (.orderReply number (.refused reason)) (hailed d v e)
      = later (completionWork o .refused (some reason))
          (orderTaken d v { metRun v with currentOrder := none, lastRefusal := some reason } e) := by
  have same : matching (hailed d v e).toCore d number = some o := match_
  obtain ⟨rfl, -⟩ := matching_eq match_
  simp only [takeContent, takeReply, same, completeRefused]
  rw [removeOrder_hailed hv, setRun_eq (v := { v with run := { metRun v with currentOrder := none } })
    (entryAt_deviceAs (c := { e.toCore with orders := e.orders.filter fun x => x.device != o.device }) hv _) (badAt_deviceAs _)]
  simp only [orderTaken, deviceAs, putAt_putAt]

theorem takeContent_done {number : Nat} {new : DeviceState} {o : Order} (match_ : matching e.toCore d number = some o) :
    takeContent env d (.orderReply number (.done new)) (hailed d v e)
      = later (completionWork o .done none) (recordState env d new (.orderReply number)
          (orderTaken d v { metRun v with currentOrder := none } e)) := by
  have same : matching (hailed d v e).toCore d number = some o := match_
  obtain ⟨rfl, rfl⟩ := matching_eq match_
  simp only [takeContent, takeReply, same, completeDone]
  rw [removeOrder_hailed hv]

omit hv in
theorem takeContent_unmatched (number : Nat) (reason : RefusalReason) (none_ : matching e.toCore d number = none) :
    takeContent env d (.orderReply number (.refused reason)) (hailed d v e) = hailed d v e := by
  have same : matching (hailed d v e).toCore d number = none := none_
  simp only [takeContent, takeReply, same]

omit hv in
theorem takeContent_stale (number : Nat) (new : DeviceState) (none_ : matching e.toCore d number = none) :
    takeContent env d (.orderReply number (.done new)) (hailed d v e)
      = recordState env d new (.staleReply number) (hailed d v e) := by
  have same : matching (hailed d v e).toCore d number = none := none_
  simp only [takeContent, takeReply, same]

omit hv in
/-- A state recorded for a device whose run-time fields have just been written. -/
theorem recordState_written {E : Ev} {c c₀ : Core} {run : DeviceRun} {new : DeviceState} {xs : List Emit}
    (cause : RecordingCause) (hv₀ : entryAt c₀.devices d = some v) (core : E.toCore = deviceAs d v run c₀)
    (reach : run.reachable = true) (changed : new ≠ run.state) (known : new ≠ .unknown)
    (effects : caseEffects { v with run := run } d new (stateTold env d { v with run := run } new cause E)
      = { stateTold env d { v with run := run } new cause E with
          toCore := c, out := (stateTold env d { v with run := run } new cause E).out ++ xs })
    (devices : c.devices = (stateTold env d { v with run := run } new cause E).devices) (mode : c.mode = E.mode) :
    recordState env d new cause E = { E with
      toCore := { c with devices := (deviceAs d v (recordedRun env E.time.now run new) c₀).devices }
      out := E.out ++ [.tell .both (.deviceState d v.link run.state new cause true E.time.now)] ++ xs
      todo := E.todo ++ openedWork new E.mode d } := by
  have at_ : entryAt E.devices d = some { v with run := run } := by
    rw [core]
    exact entryAt_deviceAs hv₀ _
  have good : badAt E.devices d = false := by
    rw [core]
    exact badAt_deviceAs _
  rw [recordState_changed at_ good cause changed known reach effects devices mode]
  simp only [core, deviceAs_deviceAs]
  simp only [deviceAs]

end

theorem recordedRun_metRun (env : Env) (now : Nat) (v : Device) (new : DeviceState) :
    recordedRun env now (metRun v) new = recordedRun env now v.run new := by
  unfold metRun
  split <;> rfl

theorem recordedRun_orderless (env : Env) (now : Nat) (v : Device) (new : DeviceState) :
    recordedRun env now { metRun v with currentOrder := none } new
      = { recordedRun env now v.run new with currentOrder := none } := by
  unfold metRun
  split <;> rfl

theorem metRun_polls (v : Device) (t : Nat) (poll : (metRun v).nextPoll = some t)
    (eligible : (metRun v).state = .unknown ∨ (metRun v).reachable = false) :
    v.run.nextPoll = some t ∧ (v.run.state = .unknown ∨ v.run.reachable = false) := by
  obtain ⟨state, -, reach⟩ := metRun_keeps v
  have unknown : v.run.state = .unknown := by
    rw [state, reach] at eligible
    exact eligible.resolve_right (by decide)
  refine ⟨?_, .inl unknown⟩
  rw [metRun, unknown] at poll
  split at poll <;> exact poll

/-! ### The frames of a part without walks -/

section
variable {env : Env} {d : Nat} {v : Device} {e : Ev} (hv : entryAt e.devices d = some v) (idle : e.todo = [])
include hv idle

omit hv in
/-- A frame that has nothing more to say ends with its device reached. -/
theorem settle_hailed : settle env (hailed d v e) = hailed d v e := settle_nil _ _ idle

/-- The DEVICE notice of a recorded state. -/
def becameTold (d : Nat) (v : Device) (new : DeviceState) (cause : RecordingCause) (now : Nat) : Emit :=
  .tell .both (.deviceState d v.link v.run.state new cause true now)

/-- A recorded state, with its effects on the cases. -/
theorem settle_recorded {new : DeviceState} {c : Core} {xs : List Emit} (cause : RecordingCause)
    (changed : new ≠ v.run.state) (known : new ≠ .unknown)
    (effects : caseEffects { v with run := metRun v } d new
        (stateTold env d { v with run := metRun v } new cause (hailed d v e))
      = { stateTold env d { v with run := metRun v } new cause (hailed d v e) with
          toCore := c
          out := (stateTold env d { v with run := metRun v } new cause (hailed d v e)).out ++ xs })
    (devices : c.devices = (stateTold env d { v with run := metRun v } new cause (hailed d v e)).devices)
    (mode : c.mode = e.mode) (waitless : walksWhere c (fun w => waitsOn w == some d) = []) :
    settle env (recordState env d new cause (hailed d v e)) = { e with
      toCore := { c with devices := (deviceAs d v (recordedRun env e.time.now v.run new) e.toCore).devices }
      out := e.out ++ hailTold d v e.time.now ++ [becameTold d v new cause e.time.now] ++ xs } := by
  obtain ⟨state, -, reach⟩ := metRun_keeps v
  have recorded : recordState env d new cause (hailed d v e) = { hailed d v e with
      toCore := { c with devices := (deviceAs d v (recordedRun env e.time.now v.run new) e.toCore).devices }
      out := e.out ++ hailTold d v e.time.now ++ [becameTold d v new cause e.time.now] ++ xs
      todo := openedWork new e.mode d } := by
    rw [recordState_written (c₀ := e.toCore) cause hv rfl reach (by rw [state]; exact changed) known effects devices mode]
    rw [show (hailed d v e).time.now = e.time.now from rfl, recordedRun_metRun, state,
      show (hailed d v e).todo = [] from idle]
    rfl
  rw [recorded, settle_opened (new := new) (mode := e.mode) (d := d) (by exact waitless) rfl]
  simp only [hailed, ← idle]

theorem settle_recorded_caseless {new : DeviceState} (cause : RecordingCause) (changed : new ≠ v.run.state)
    (known : new ≠ .unknown) (walks : e.walks = []) (sound : Sound e.cases) (none_ : ∀ n, entryAt e.cases n = none) :
    settle env (recordState env d new cause (hailed d v e)) = { e with
      toCore := deviceAs d v (recordedRun env e.time.now v.run new) e.toCore
      out := e.out ++ hailTold d v e.time.now ++ [becameTold d v new cause e.time.now] } := by
  have settled := settle_recorded (xs := []) (c := (stateTold env d { v with run := metRun v } new cause
    (hailed d v e)).toCore) hv idle cause changed known
    ((caseEffects_none d new (by exact sound) (by exact none_)).trans (by rw [List.append_nil])) rfl rfl
    (walksWhere_none _ (by exact walks))
  rw [settled, List.append_nil]
  rfl

variable (walks : e.walks = []) (room : e.room = []) (quiet : NoPolls e.toCore)
include walks room quiet

/-- A reply that completes an order and leaves its device's state. -/
theorem settle_orderTaken {run : DeviceRun} {o : Order} {outcome : OrderOutcome} {refusal : Option RefusalReason}
    (device : o.device = d) (state : run.state = v.run.state)
    (polls : ∀ t, run.nextPoll = some t → run.state = .unknown ∨ run.reachable = false →
      v.run.nextPoll = some t ∧ (v.run.state = .unknown ∨ v.run.reachable = false)) :
    settle env (later (completionWork o outcome refusal) (orderTaken d v run e)) = { orderTaken d v run e with
      out := e.out ++ hailTold d v e.time.now ++ replyTold o v.run.state outcome refusal e.time.now } := by
  subst device
  have work : (later (completionWork o outcome refusal) (orderTaken o.device v run e)).todo
      = openedWork .unknown e.mode o.device ++ completionWork o outcome refusal := by
    show e.todo ++ _ = _
    rw [idle]
    rfl
  rw [settle_completed (v := { v with run := run }) (e := later (completionWork o outcome refusal) (orderTaken o.device v run e))
    (by exact walks) (by exact room)
    (by exact noPolls_deviceAs (c := { e.toCore with orders := e.orders.filter fun x => x.device != o.device }) hv quiet polls)
    (by exact entryAt_deviceAs (c := { e.toCore with orders := e.orders.filter fun x => x.device != o.device }) hv run)
    (by exact badAt_deviceAs _) work]
  simp only [state, later, orderTaken, ← idle]
  rfl

omit hv idle walks room quiet in
/-- The event in which a DONE reply with a new state has been recorded and told of. -/
def doneTold (env : Env) (d : Nat) (v : Device) (number : Nat) (new : DeviceState) (e : Ev) : Ev :=
  { e with
    toCore := deviceAs d v { recordedRun env e.time.now v.run new with currentOrder := none }
      { e.toCore with orders := e.orders.filter fun x => x.device != d }
    out := e.out ++ hailTold d v e.time.now ++ [becameTold d v new (.orderReply number) e.time.now] }

omit walks room quiet in
/-- A new state recorded by the reply that completes an order, where it has no effect on the cases. -/
theorem recordState_orderTaken {number : Nat} {new : DeviceState} (changed : new ≠ v.run.state) (known : new ≠ .unknown)
    (passes : caseEffects { v with run := { metRun v with currentOrder := none } } d new
        (stateTold env d { v with run := { metRun v with currentOrder := none } } new (.orderReply number)
          (orderTaken d v { metRun v with currentOrder := none } e))
      = stateTold env d { v with run := { metRun v with currentOrder := none } } new (.orderReply number)
          (orderTaken d v { metRun v with currentOrder := none } e)) :
    recordState env d new (.orderReply number) (orderTaken d v { metRun v with currentOrder := none } e)
      = doneTold env d v number new { e with todo := openedWork new e.mode d } := by
  obtain ⟨state, -, reach⟩ := metRun_keeps v
  rw [recordState_written (xs := []) (v := v) (run := { metRun v with currentOrder := none })
    (c₀ := { e.toCore with orders := e.orders.filter fun x => x.device != d }) (.orderReply number) (by exact hv) rfl reach
    (by rw [← state] at changed; exact changed) known (passes.trans (by rw [List.append_nil])) rfl rfl]
  rw [show (orderTaken d v { metRun v with currentOrder := none } e).time.now = e.time.now from rfl,
    recordedRun_orderless, show ({ metRun v with currentOrder := none } : DeviceRun).state = v.run.state from state,
    show (orderTaken d v { metRun v with currentOrder := none } e).todo = [] from idle, List.append_nil]
  rfl

/-- A DONE reply with a new state, where no case is. -/
theorem settle_doneRecorded {number : Nat} {new : DeviceState} {o : Order} (match_ : matching e.toCore d number = some o)
    (changed : new ≠ v.run.state) (known : new ≠ .unknown) (sound : Sound e.cases) (none_ : ∀ n, entryAt e.cases n = none) :
    settle env (takeContent env d (.orderReply number (.done new)) (hailed d v e)) = { doneTold env d v number new e with
      out := (doneTold env d v number new e).out ++ replyTold o new .done none e.time.now } := by
  obtain ⟨rfl, -⟩ := matching_eq match_
  rw [takeContent_done hv match_, recordState_orderTaken hv idle changed known (caseEffects_none o.device new (by exact sound)
    (by exact none_)), settle_completed
    (v := { v with run := { recordedRun env e.time.now v.run new with currentOrder := none } }) (new := new)
    (mode := e.mode) (d := o.device) (outcome := .done) (refusal := none) (by exact walks) (by exact room)
    (by exact noPolls_deviceAs (c := { e.toCore with orders := e.orders.filter fun x => x.device != o.device }) hv quiet nofun)
    (by exact entryAt_deviceAs (c := { e.toCore with orders := e.orders.filter fun x => x.device != o.device }) hv _)
    (by exact badAt_deviceAs _) rfl]
  simp only [doneTold, later, ← idle]
  rfl

end

/-! ### The reply that ends a walk (R119, R122) -/

/-- The event in which a walk has ended with its last step done. -/
def walkDone (d : Nat) (w : Walk) (k : Case) (r : IsolationRecord) (e : Ev) : Ev :=
  { e with
    toCore := { withCase w.entry { k with state := .isolated, isolation := some { r with isolatedBy := some d } } e.toCore with
      walks := [] }
    out := e.out ++ [caseTold w.entry k (some .isolating) (some .isolated) .planComplete (some d) e.time.now,
      segmentCount .isolationTime (some k.segment) (diffTime e.time.now r.confirmedAt)] }

section
variable {env : Env} {number : Nat} {w : Walk} {k : Case} {r : IsolationRecord} {pl : Plan} {o : Order} {e : Ev}
  (running : e.mode ≠ .halted) (sound : AllSound e.toCore) (walks : e.walks = [w])
  (cond : w.cond = .ordered o.number o.device) (room : e.room = []) (hk : entryAt e.cases w.entry = some k)
  (readable : k.unreadable = []) (isolating : k.state = .isolating) (record : k.isolation = some r)
  (plan : ∃ i, r.plan = some i ∧ entryAt e.plans i = some pl) (last : r.step + 1 = pl.steps.length) (main : w.phase = .main)
include running sound walks cond room hk readable isolating record plan last main

omit cond in
theorem ownDone_last (opens : deviceOpen e.toCore o.device = true) :
    ownDone w.entry o.device e = walkDone o.device w k r e := by
  obtain ⟨_, _, _, plans, cases⟩ := sound
  obtain ⟨i, inUse, hpl⟩ := plan
  have named : r.step < pl.steps.length := by omega
  have step : AtStep w.entry w k r pl pl.steps[r.step] e :=
    { running := running
      walk := by simp [walkOf, walks]
      place := rfl
      occupied := hk
      caseMatches := cases _
      readable := readable
      record := record
      stored := ⟨i, inUse, plans i, hpl⟩
      names := List.getElem?_eq_getElem named }
  rw [ownDone_at step, if_pos opens, afterDone, if_neg (by omega), if_neg (by rw [main]; decide), isolating]
  simp [walkEnded, Machine.recorded, walkDone, withCase, walks, room, othersThan]

/-- The completion of a walk's own order, its last, is handed to the walk, which ends. -/
theorem runWork_lastDone {m : Nat} (origin : o.origin = .case w.serial) (opens : deviceOpen e.toCore o.device = true)
    (quiet : NoPolls e.toCore) (idle : e.todo = []) (outcome : OrderOutcome) (refusal : Option RefusalReason) :
    runWork env (m + 3 + 2) [.handOver o outcome refusal, .announce o.device] e = walkDone o.device w k r e := by
  have clear : { e with todo := [] } = e := by rw [← idle]
  have handed : doWork env (.handOver o outcome refusal) { e with todo := [] } = later [.ownDone w.entry o.device] e := by
    rw [clear]
    simp [doWork, handOver, origin, running, walks, cond]
  rw [runWork_two handed idle (g := ownDone_last running sound walks room hk readable isolating record plan last main
    opens) idle, runWork_announced rfl (by exact room) (by exact quiet)]
  exact congrArg (fun ws => ({ walkDone o.device w k r e with todo := ws } : Ev)) idle.symm

end

section
variable {env : Env} {number : Nat} {v : Device} {new : DeviceState} {w : Walk} {k : Case} {r : IsolationRecord} {pl : Plan}
  {o : Order} {e : Ev}

/-- A DONE reply of a walk's own order, its last. -/
theorem settle_doneLast (hv : entryAt e.devices o.device = some v) (idle : e.todo = [])
    (match_ : matching e.toCore o.device number = some o) (opens : standsOpen new = true) (changed : new ≠ v.run.state)
    (origin : o.origin = .case w.serial) (walks : e.walks = [w]) (cond : w.cond = .ordered number o.device)
    (main : w.phase = .main) (running : e.mode ≠ .halted) (sound : AllSound e.toCore)
    (only : ∀ m, m ≠ w.entry → entryAt e.cases m = none) (hk : entryAt e.cases w.entry = some k)
    (readable : k.unreadable = []) (isolating : k.state = .isolating) (record : k.isolation = some r)
    (plan : ∃ i, r.plan = some i ∧ entryAt e.plans i = some pl) (last : r.step + 1 = pl.steps.length) (room : e.room = [])
    (quiet : NoPolls e.toCore) :
    settle env (takeContent env o.device (.orderReply number (.done new)) (hailed o.device v e))
      = walkDone o.device w k r (doneTold env o.device v number new e) := by
  obtain ⟨-, rfl⟩ := matching_eq match_
  have known : new ≠ .unknown := by
    rintro rfl
    cases opens
  obtain ⟨segments, roster, devices, plans, cases⟩ := id sound
  have sound' : ∀ (run : DeviceRun), AllSound (deviceAs o.device v run
      { e.toCore with orders := e.orders.filter fun x => x.device != o.device }) := fun run =>
    ⟨segments, roster, sound_set devices _ _, plans, cases⟩
  have passes := caseEffects_passed (v := { v with run := { metRun v with currentOrder := none } }) (d := o.device) (new := new)
    (e := stateTold env o.device { v with run := { metRun v with currentOrder := none } } new (.orderReply o.number)
      (orderTaken o.device v { metRun v with currentOrder := none } e)) (by exact hk)
    ⟨segments, roster, sound_set (sound_set devices _ _) _ _, plans, cases⟩ (by exact running) (by exact only)
    (.inr (.inl isolating))
  rw [takeContent_done hv match_, recordState_orderTaken hv idle changed known passes]
  have waitless : walksWhere e.toCore (fun w => waitsOn w == some o.device) = [] := by
    refine List.filter_eq_nil_iff.2 fun n _ => ?_
    unfold walkOf
    rw [walks]
    by_cases entry : w.entry = n <;> simp [entry, waitsOn, cond]
  have opened : deviceOpen (doneTold env o.device v o.number new e).toCore o.device = true := by
    have at_ : entryAt (doneTold env o.device v o.number new e).devices o.device
        = some { v with run := { recordedRun env e.time.now v.run new with currentOrder := none } } :=
      entryAt_deviceAs (c := { e.toCore with orders := e.orders.filter fun x => x.device != o.device }) hv _
    simp only [deviceOpen, at_]
    exact opens
  refine settle_openedWork (new := new) (mode := e.mode) (d := o.device) (by exact waitless) rfl fun n fuel => ?_
  obtain ⟨m, rfl⟩ : ∃ m, n = m + 3 + 2 := by
    obtain rfl | rfl := fuel
    · exact ⟨65530, rfl⟩
    · exact ⟨65531, rfl⟩
  have clear : { later (completionWork o .done none) (doneTold env o.device v o.number new
      { e with todo := openedWork new e.mode o.device }) with todo := [] } = doneTold env o.device v o.number new e := by
    simp only [later, doneTold, ← idle]
  rw [clear]
  exact runWork_lastDone (e := doneTold env o.device v o.number new e) (by exact running) (by exact sound' _) (by exact walks) cond (by exact room) (by exact hk) readable
    isolating record plan last main origin opened
    (by exact noPolls_deviceAs (c := { e.toCore with orders := e.orders.filter fun x => x.device != o.device }) hv quiet nofun)
    idle .done none

end

end Sys2Proof.Machine

end

