-- ==== Sys2Proof/Proofs/DeviceLine.lean ====
section
/-! PROOF. What the characters of the device link leave, clause by clause (R90, R92, R119, R122, R130, R137 to R150,
R184). Settles O55. -/

namespace Sys2Proof.Machine

theorem LineEnds.congr {chars : List RxChar} {s : State} {xs xs' : List Emit} {c c' : Core} (h : LineEnds chars s xs c)
    (told : xs = xs') (blocks : c = c') : LineEnds chars s xs' c' := told ▸ blocks ▸ h

/-- The settle-until time of a new state (R145, R146). -/
theorem settleAfter_eq (env : Env) (now : Nat) (r : DeviceRun) (new : DeviceState) : settleAfter env now r new
    = if new = .closed then
        if r.state = .reclosing then
          if env.settings.settleInterval = 0 then none else some ((now + env.settings.settleInterval) % 86400000)
        else r.settleUntil
      else none := by
  cases new
  case closed =>
    rw [if_pos rfl]
    unfold settleAfter
    cases state : r.state <;> rfl
  all_goals rfl

theorem replyTold_eq {o : Order} {d : Nat} (device : o.device = d) (st : DeviceState) (outcome : OrderOutcome)
    (refusal : Option RefusalReason) (now : Nat) : replyTold o st outcome refusal now = match o.origin with
      | .port q tag => [.tell (.only q) (.order
          { tag := tag, number := o.number, device := d, action := o.action, outcome := outcome, state := st
            retries := o.sends.getD 0 - 1, refusal := refusal, withdrawal := none, time := now })]
      | _ => [] := by
  subst device
  rfl

/-- A state report's effects on the cases stand in the device's table as it was (R18). -/
theorem allSound_stateTold {env : Env} {d : Nat} {v v' : Device} {new : DeviceState} {cause : RecordingCause} {e : Ev}
    (sound : AllSound e.toCore) : AllSound (stateTold env d v' new cause (hailed d v e)).toCore := by
  obtain ⟨segments, roster, devices, plans, cases⟩ := sound
  exact ⟨segments, roster, sound_set (sound_set devices _ _) _ _, plans, cases⟩

theorem deviceFrames : Obligations.DeviceFrames := by
  intro chars rx frames s runs received p c ends
  refine ⟨fun none_ => ?_, fun f one => ⟨fun dropped => ?_, fun link df decoded unlinked => ?_, ?_⟩⟩
  · subst none_
    exact lineEnds_noFrame runs received
  · subst one
    exact lineEnds_frame (e := startEvent c) runs received
      ((congrArg _ (takeDeviceFrame_dropped dropped)).trans (settle_nil _ _ rfl)) rfl
  · subst one
    exact lineEnds_frame (e := startEvent c) runs received
      ((congrArg _ (takeDeviceFrame_unlinked (e := startEvent c) decoded unlinked)).trans (settle_nil _ _ rfl)) rfl
  intro link df d v decoded at_ hv good room quiet others notice settle' became withRun recordedRun' met hailed' hail told
  subst one
  have takes : ∀ {e : Ev}, settle (envOf p) (takeContent (envOf p) d df (hailed d v (startEvent c))) = e →
      e.storeFailed = false → LineEnds chars s e.out e.toCore := fun {e} settled store => by
    have reached : markReachable d (startEvent c) = hailed d v (startEvent c) :=
      markReachable_eq (e := startEvent c) hv good
    refine lineEnds_frame runs received ?_ store
    rw [takeDeviceFrame_taken (e := startEvent c) decoded at_ good, reached]
    exact settled
  have hailedIs : deviceAs d v (metRun v) c = hailed' := by
    show _ = if v.run.reachable then c else deviceAs d v met c
    by_cases reachable : v.run.reachable = true
    · rw [if_pos reachable, metRun, if_pos reachable, deviceAs_self hv good]
    · exact (if_neg reachable).symm
  have recordedIs : ∀ new, recordedRun (envOf p) c.time.now v.run new = recordedRun' new := fun new => by
    show _ = ({ v.run with state := new, settleUntil := settle' new, nextPoll := none, reachable := true } : DeviceRun)
    rw [recordedRun, settleAfter_eq]
    rfl
  have toldIs : ∀ {number o} st out r, matching c d number = some o → replyTold o st out r c.time.now = told o st out r :=
    fun st out r match_ => replyTold_eq (matching_eq match_).1 st out r c.time.now
  obtain ⟨known, knownReply⟩ := decodeDevice_known decoded
  obtain ⟨metState, -, -⟩ := metRun_keeps v
  have hailEnds : settle (envOf p) (takeContent (envOf p) d df (hailed d v (startEvent c))) = hailed d v (startEvent c) →
      LineEnds chars s hail hailed' := fun h => (takes h rfl).congr rfl hailedIs
  refine ⟨fun walks => ⟨?_, ?_, ?_, ?_, ?_, ?_, ?_⟩, ?_⟩
  · rintro number o rfl match_
    refine (takes ((congrArg _ ?_).trans (settle_orderTaken (e := startEvent c) (run := { metRun v with currentOrder := none })
      (o := o) (outcome := .done) (refusal := none) hv rfl walks room quiet (matching_eq match_).1 metState (metRun_polls v)))
      rfl).congr (congrArg (hail ++ ·) (toldIs v.run.state .done none match_)) rfl
    rw [takeContent_done (e := startEvent c) hv match_, recordState_same (v := { v with run := { metRun v with
      currentOrder := none } }) (entryAt_deviceAs (c := { c with orders := others }) hv _) _ metState]
  · rintro number reason o rfl match_
    exact (takes ((congrArg _ (takeContent_refused (e := startEvent c) hv match_)).trans (settle_orderTaken
      (e := startEvent c) (run := { metRun v with currentOrder := none, lastRefusal := some reason })
      hv rfl walks room quiet (matching_eq match_).1 metState (metRun_polls v))) rfl).congr
      (congrArg (hail ++ ·) (toldIs v.run.state .refused (some reason) match_)) rfl
  · rintro number reason rfl none_
    exact hailEnds ((congrArg _ (takeContent_unmatched (e := startEvent c) number reason none_)).trans (settle_hailed rfl))
  · rintro number rfl none_
    refine hailEnds ((congrArg _ ?_).trans (settle_hailed rfl))
    rw [takeContent_stale (e := startEvent c) number v.run.state none_]
    exact recordState_same (v := { v with run := metRun v }) (entryAt_deviceAs (c := c) hv _) _ metState
  · rintro rfl
    exact hailEnds ((congrArg _ (recordState_same (v := { v with run := metRun v }) (entryAt_deviceAs (c := c) hv _) _
      metState)).trans (settle_hailed rfl))
  · intro new changed sound none_
    refine ⟨fun cause spelled => ?_, ?_⟩
    · have content : takeContent (envOf p) d df (hailed d v (startEvent c))
          = recordState (envOf p) d new cause (hailed d v (startEvent c)) := by
        obtain ⟨rfl, rfl⟩ | ⟨number, rfl, unmatched, rfl⟩ := spelled
        · rfl
        · exact takeContent_stale (e := startEvent c) number new unmatched
      have isKnown : new ≠ .unknown := by
        obtain ⟨report, -⟩ | ⟨number, reply, -⟩ := spelled
        · exact known new report
        · exact knownReply number new reply
      exact (takes ((congrArg _ content).trans (settle_recorded_caseless (e := startEvent c) hv rfl cause changed isKnown
        walks sound none_)) rfl).congr rfl (congrArg (deviceAs d v · c) (recordedIs new))
    · rintro number o rfl match_
      refine (takes (settle_doneRecorded (e := startEvent c) hv rfl walks room quiet match_ changed
        (knownReply number new rfl) sound none_) rfl).congr ?_ ?_
      · show hail ++ [becameTold d v new (.orderReply number) c.time.now] ++ replyTold o new .done none c.time.now = _
        rw [toldIs new .done none match_, List.append_assoc]
        rfl
      · exact congrArg (fun r : DeviceRun => deviceAs d v { r with currentOrder := none } { c with orders := others })
          (recordedIs new)
  · intro new n k report changed running sound unclosed sent only hk readable c' first below opens isolated
    subst report
    have isKnown := known new rfl
    have sound' : AllSound (stateTold (envOf p) d { v with run := metRun v } new .stateReport
        (hailed d v (startEvent c))).toCore := allSound_stateTold (e := startEvent c) sound
    have recorded : ∀ {core : Core} {xs : List Emit},
        caseEffects { v with run := metRun v } d new
            (stateTold (envOf p) d { v with run := metRun v } new .stateReport (hailed d v (startEvent c)))
          = { stateTold (envOf p) d { v with run := metRun v } new .stateReport (hailed d v (startEvent c)) with
              toCore := core
              out := (stateTold (envOf p) d { v with run := metRun v } new .stateReport
                (hailed d v (startEvent c))).out ++ xs } →
        core.devices = (stateTold (envOf p) d { v with run := metRun v } new .stateReport
          (hailed d v (startEvent c))).devices → core.mode = c.mode → core.walks = [] →
        LineEnds chars s (first ++ xs)
          { core with devices := (deviceAs d v (recordedRun (envOf p) c.time.now v.run new) c).devices } :=
      fun effects devices mode walkless => takes (settle_recorded (e := startEvent c) hv rfl .stateReport changed isKnown
        effects devices mode (walksWhere_none _ walkless)) rfl
    refine ⟨fun under reaches watch => ?_, fun under open_ state => ?_, fun passed => ?_⟩
    · exact (recorded (caseEffects_freed (by exact hk) sound' (by exact running) (by exact only) (by exact under) reaches watch
        readable) rfl rfl (by simp [freed, stateTold, hailed, deviceAs, startEvent, walks])).congr rfl
        (congrArg (fun r => freed n (deviceAs d v r c)) (recordedIs new))
    · exact (recorded (caseEffects_isolated (by exact hk) sound' (by exact running) (by exact only) (by exact under) open_ state
        readable (by exact unclosed) (by exact sent) (by exact walks) (by exact room)) rfl rfl (by exact walks)).congr rfl
        (congrArg (fun r => withCase n isolated (deviceAs d v r c)) (recordedIs new))
    · exact (recorded (xs := []) ((caseEffects_passed (by exact hk) sound' (by exact running) (by exact only) passed).trans
        (by rw [List.append_nil])) rfl rfl (by exact walks)).congr (List.append_nil first)
        (congrArg (fun r => deviceAs d v r c) (recordedIs new))
  · rintro number o new w k r pl rfl opens changed match_ origin walks cond main running sound only hk readable isolating record
      plan last
    obtain ⟨rfl, -⟩ := matching_eq match_
    refine (takes (settle_doneLast (e := startEvent c) hv rfl match_ opens changed origin walks cond main running sound only hk
      readable isolating record plan last room quiet) rfl).congr ?_ ?_
    · exact List.append_assoc hail [_] [_, _]
    · exact congrArg (fun r' : DeviceRun => withCase w.entry
        { k with state := .isolated, isolation := some { r with isolatedBy := some o.device } }
        (deviceAs o.device v { r' with currentOrder := none } { c with orders := others, walks := [] })) (recordedIs new)

end Sys2Proof.Machine

end

