-- ==== Sys2Proof/Proofs/RecoveryParts.lean ====
section
/-! PROOF. The parts of the recovery sweep: the entries a reload makes, the orders it fails, and the forced fall
(R152, R162, R176 to R179). -/

namespace Sys2Proof.Machine

/-! ### The entries that a reload makes (R176, R177) -/

theorem sameBinding_iff (b : Binding) (v : Sensor) : sameBinding b v = true
    ↔ v.address = b.address ∧ v.segment = b.segment ∧ v.side = b.side ∧ v.phases = b.phases := by
  simp [sameBinding, and_assoc]

section
variable {old : List (Checked Sensor)} {b : Binding}

theorem reloadSensor_kept (now : Nat) {n : Nat} {v : Sensor} (hv : entryAt old n = some v) (good : badAt old n = false)
    (same : sameBinding b v = true)
    (only : ∀ m u, entryAt old m = some u → badAt old m = false → u.address = b.address → m = n) :
    reloadSensor old now b = v := by
  have there : n ∈ entriesWhere old fun v => sameBinding b v := (mem_entriesWhere _ _ _).2 ⟨v, hv, same⟩
  unfold reloadSensor
  cases found : (entriesWhere old fun v => sameBinding b v).find? fun n => !badAt old n with
  | none => exact absurd (List.find?_eq_none.1 found n there) (by simp [good])
  | some m =>
    obtain ⟨u, at_, bound⟩ := (mem_entriesWhere _ _ _).1 (List.mem_of_find?_eq_some found)
    obtain rfl := only m u at_ (by simpa using List.find?_some found) ((sameBinding_iff b u).1 bound).1
    simp only [hv, Option.getD_some]

theorem reloadSensor_new (now : Nat)
    (none_ : ∀ n v, entryAt old n = some v → badAt old n = false → sameBinding b v = false) :
    reloadSensor old now b = newSensor b now := by
  have missing : (entriesWhere old fun v => sameBinding b v).find? (fun n => !badAt old n) = none := by
    refine List.find?_eq_none.2 fun n mem good => ?_
    obtain ⟨v, hv, same⟩ := (mem_entriesWhere _ _ _).1 mem
    rw [none_ n v hv (by simpa using good)] at same
    cases same
  unfold reloadSensor
  rw [missing]

/-- A reloaded sensor has the address that the image binds. -/
theorem reloadSensor_address (old : List (Checked Sensor)) (now : Nat) (b : Binding) :
    (reloadSensor old now b).address = b.address := by
  unfold reloadSensor
  split
  · next n found =>
    obtain ⟨v, hv, same⟩ := (mem_entriesWhere _ _ _).1 (List.mem_of_find?_eq_some found)
    rw [hv]
    exact ((sameBinding_iff b v).1 same).1
  · rfl

end

section
variable {c : Core} {n : Nat} {d : DeviceDef}

theorem reloadDevice_kept {v : Device} (hv : entryAt c.devices n = some v) (good : badAt c.devices n = false)
    (same : v.link = d.link ∧ v.kind = d.kind ∧ v.segment = d.segment) : reloadDevice c n d = v := by
  obtain ⟨link, kind, segment⟩ := same
  unfold reloadDevice
  simp only [hv, good, link, kind, segment, and_self, if_true]

theorem reloadDevice_new (none_ : ∀ v, entryAt c.devices n = some v → badAt c.devices n = false →
      ¬ (v.link = d.link ∧ v.kind = d.kind ∧ v.segment = d.segment)) : reloadDevice c n d =
    { link := d.link, kind := d.kind, segment := d.segment
      run := { DeviceRun.powerOn with
        currentOrder := (orderOf c n).map (·.number)
        nextPoll := if c.mode = .monitoring then some c.time.now else none } } := by
  unfold reloadDevice
  cases hv : entryAt c.devices n with
  | none => rfl
  | some v =>
    simp only []
    rw [if_neg]
    rintro ⟨link, kind, segment, good⟩
    exact none_ v hv good ⟨link, kind, segment⟩

end

/-! ### A device number left undefined (R177) -/

theorem updateAt_undefined {α : Type} {l : List (Checked α)} {n : Nat} (h : entryAt l n = none) (f : α → α) :
    updateAt l n f = l := by
  unfold entryAt at h
  unfold updateAt
  cases at_ : l[n]? with
  | none => rfl
  | some x =>
    rw [at_] at h
    simp only [show x.content = none from h]

theorem failLost_eq {e : Ev} {d : Nat} {o : Order} (order : orderOf e.toCore d = some o)
    (none_ : entryAt e.devices d = none) : failLost d e = { e with
      orders := e.orders.filter fun x => x.device != d
      out := e.out ++ [deviceCount .ordersFailed d]
      todo := e.todo ++ [.handOver o .failed none, .announce d] } := by
  unfold failLost
  rw [order]
  simp only [removeOrder, setRun, updateAt_undefined none_, countDevice, occur, later, completionWork, orderOf_device order]
  rfl

/-- A device left undefined loses its reservation; with no order in the queue nothing else follows. -/
theorem leaveUndefined_eq {e : Ev} (unordered : e.orders = []) : leaveUndefined e = { e with
    reservations := mapFrom (fun n x => if n < e.devices.length ∧ entryAt e.devices n = none then none else x) 0
      e.reservations } := by
  have gone : ∀ n, (undefinedDevices e.toCore).contains n = true ↔ n < e.devices.length ∧ entryAt e.devices n = none := by
    intro n
    simp [undefinedDevices]
  have fails : (undefinedDevices e.toCore).filter (fun n => (orderOf e.toCore n).isSome) = [] := by
    simp [orderOf, unordered]
  have kept : (fun (n : Nat) (x : Option Port) => if (undefinedDevices e.toCore).contains n then none else x)
      = fun n x => if n < e.devices.length ∧ entryAt e.devices n = none then none else x := by
    funext n x
    simp only [gone]
  unfold leaveUndefined
  simp only [fails, kept, List.map_nil, later, List.append_nil]

/-! ### A store failure whose own work has halted the part (R182) -/

theorem withoutFall_other {x : Emit}
    (h : ∀ d t n now total w o f, x ≠ .tell d (.faultFound t n now total w o (some f))) : withoutFall x = x := by
  unfold withoutFall
  split
  · next d t n time total inWindow outcome f => exact absurd rfl (h d t n time total inWindow outcome f)
  · rfl

theorem fallInMonitoring_halted {e : Ev} {d : Dest} {entry : Option Nat} {now total inWindow : Nat} {outcome : FaultOutcome}
    {fall : Bool} {pre post : List Emit} (halted : e.mode = .halted)
    (others : ∀ x ∈ pre ++ post, ∀ d t n now total w o f, x ≠ .tell d (.faultFound t n now total w o (some f)))
    (out : e.out = pre ++ .tell d (.faultFound .store entry now total inWindow outcome (some fall)) :: post) :
    fallInMonitoring e = { e with
      out := pre ++ .tell d (.faultFound .store entry now total inWindow outcome (some false)) :: post } := by
  have before : pre.map withoutFall = pre := (List.map_congr_left (g := id) fun x mem =>
    withoutFall_other (others x (List.mem_append_left _ mem))).trans (List.map_id pre)
  have after : post.map withoutFall = post := (List.map_congr_left (g := id) fun x mem =>
    withoutFall_other (others x (List.mem_append_right _ mem))).trans (List.map_id post)
  unfold fallInMonitoring
  simp only [halted, out, List.map_append, List.map_cons, before, after]
  rfl

/-! ### The forced fall (R179) -/

/-- No device waits for a poll. -/
def unpolled (e : Ev) : Ev :=
  { e with devices := mapContents (fun v => { v with run := { v.run with nextPoll := none } }) e.devices }

/-- The mode has fallen to CONFIGURING. -/
def fallen (e : Ev) : Ev := { e with mode := .configuring }

theorem forcedFall_eq (e : Ev) : forcedFall e = unpolled (withdrawPolls ((occupied e.cases).foldl
    (fun e n => if e.mode = .halted then e else fallCase n e) (fallen e))) := rfl

theorem withdrawPolls_none {e : Ev} (h : queuedPolls e.toCore = []) : withdrawPolls e = e := by
  rw [withdrawPolls, h]
  rfl

theorem withdrawEach_one (reason : WithdrawReason) {e : Ev} {o : Order} {v : Device} (only : e.orders = [o])
    (queued : o.state = .queued) (hv : entryAt e.devices o.device = some v) (good : badAt e.devices o.device = false)
    (running : e.mode ≠ .halted) : withdrawEach reason [o.device] e = orderWithdrawn reason o v e := by
  have order : orderOf e.toCore o.device = some o := by simp [orderOf, only]
  rw [withdrawEach, List.foldl_cons, List.foldl_nil, if_neg running, withdraw_queued reason order queued hv good running]

theorem withdrawPolls_one {e : Ev} {o : Order} {v : Device} (only : e.orders = [o]) (queued : o.state = .queued)
    (hv : entryAt e.devices o.device = some v) (good : badAt e.devices o.device = false) (running : e.mode ≠ .halted) :
    withdrawPolls e = if o.cls = .poll then orderWithdrawn .isolationOverride o v e else e := by
  by_cases poll : o.cls = .poll
  · have one : queuedPolls e.toCore = [o.device] := by simp [queuedPolls, only, poll, queued]
    rw [withdrawPolls, one, withdrawEach_one _ only queued hv good running, if_pos poll]
  · rw [withdrawPolls_none (by simp [queuedPolls, only, poll]), if_neg poll]

theorem forcedFall_caseless {e : Ev} {o : Order} {v : Device} (none_ : ∀ n, entryAt e.cases n = none) (only : e.orders = [o])
    (queued : o.state = .queued) (hv : entryAt e.devices o.device = some v) (good : badAt e.devices o.device = false) :
    forcedFall e
      = if o.cls = .poll then unpolled (orderWithdrawn .isolationOverride o v (fallen e)) else unpolled (fallen e) := by
  have empty : occupied e.cases = [] := by
    refine List.eq_nil_iff_forall_not_mem.2 fun n mem => ?_
    obtain ⟨k, hk⟩ := (mem_occupied _ _).1 mem
    cases (none_ n).symm.trans hk
  rw [forcedFall_eq, empty, List.foldl_nil, withdrawPolls_one (e := fallen e) only queued hv good (by simp [fallen])]
  split <;> rfl

section
variable {e : Ev} {n : Nat} {k : Case} (one : (entriesWhere e.cases fun _ => true) = [n])
  (hk : entryAt e.cases n = some k) (good : badAt e.cases n = false)
include one hk good

omit hk good in
/-- A fall over one case: its effect, then the QUEUED POLL orders. -/
theorem forcedFall_one : forcedFall e = unpolled (withdrawPolls (fallCase n (fallen e))) := by
  rw [forcedFall_eq, show occupied e.cases = [n] from one, List.foldl_cons, List.foldl_nil, if_neg (by simp [fallen])]

/-- The event of a fall in which a case has been BLOCKED, and told of. -/
def fallBlocked (n : Nat) (k : Case) (e : Ev) : Ev :=
  { fallen e with
    toCore := withCase n { k with state := .blocked } (fallen e).toCore
    out := e.out ++ [caseTold n k (some k.state) (some .blocked) .storeFailure none e.time.now] }

omit one good hk in
theorem changeCase_fall (readable : k.unreadable = []) :
    changeCase n k .blocked .storeFailure none (fallen e) = fallBlocked n k e :=
  changeCase_told readable n .blocked .storeFailure none (fallen e)

omit one in
theorem fallCase_watch (readable : k.unreadable = []) (watch : k.state = .watch) : fallCase n (fallen e) = { fallen e with
    toCore := { freed n e.toCore with mode := .configuring }
    out := e.out ++ [caseTold n k (some .watch) none .withdrawn none e.time.now,
      segmentCount .casesClosedUnconfirmed (some k.segment) 1] } := by
  unfold fallCase
  rw [show badAt (fallen e).cases n = false from good, show entryAt (fallen e).cases n = some k from hk]
  simp only [Bool.false_eq_true, if_false, watch]
  rw [freeCase_eq, freeingTold_readable readable, watch, if_pos rfl]
  rfl

omit one in
theorem fallCase_confirmed (readable : k.unreadable = []) (confirmed : k.state = .confirmed) :
    fallCase n (fallen e) = withdrawBarredBySegment k.segment (fallBlocked n k e) := by
  unfold fallCase
  rw [show badAt (fallen e).cases n = false from good, show entryAt (fallen e).cases n = some k from hk]
  simp only [Bool.false_eq_true, if_false, confirmed]
  rw [changeCase_fall readable]

omit one in
theorem fallCase_isolating (readable : k.unreadable = []) (isolating : k.state = .isolating) :
    fallCase n (fallen e)
      = withdrawBarredBySegment k.segment (withdrawOrdersOf k.serial (walkEnded n (fallBlocked n k e))) := by
  unfold fallCase
  rw [show badAt (fallen e).cases n = false from good, show entryAt (fallen e).cases n = some k from hk]
  simp only [Bool.false_eq_true, if_false, isolating]
  rw [changeCase_fall readable]
  rfl

omit one in
theorem fallCase_stays (stays : k.state = .isolated ∨ k.state = .blocked) : fallCase n (fallen e) = fallen e := by
  unfold fallCase
  rw [show badAt (fallen e).cases n = false from good, show entryAt (fallen e).cases n = some k from hk]
  obtain state | state := stays <;> simp only [Bool.false_eq_true, if_false, state]

end

/-- With no order in the queue, nothing is withdrawn. -/
theorem withdraws_unordered {e : Ev} (unordered : e.orders = []) (s serial : Nat) :
    withdrawBarredBySegment s e = e ∧ withdrawOrdersOf serial e = e ∧ withdrawPolls e = e := by
  refine ⟨withdrawBarredBySegment_none s (fun o mem => by rw [unordered] at mem; cases mem), ?_,
    withdrawPolls_none (by simp [queuedPolls, unordered])⟩
  rw [withdrawOrdersOf, unordered]
  rfl

theorem forcedFall_unordered {e : Ev} {n : Nat} {k : Case} (one : (entriesWhere e.cases fun _ => true) = [n])
    (hk : entryAt e.cases n = some k) (good : badAt e.cases n = false) (readable : k.unreadable = [])
    (unordered : e.orders = []) :
    (k.state = .watch → forcedFall e = unpolled { fallen e with
        toCore := { freed n e.toCore with mode := .configuring }
        out := e.out ++ [caseTold n k (some .watch) none .withdrawn none e.time.now,
          segmentCount .casesClosedUnconfirmed (some k.segment) 1] })
      ∧ (k.state = .confirmed → forcedFall e = unpolled (fallBlocked n k e))
      ∧ (k.state = .isolating → forcedFall e = unpolled (walkEnded n (fallBlocked n k e)))
      ∧ (k.state = .isolated ∨ k.state = .blocked → forcedFall e = unpolled (fallen e)) := by
  refine ⟨fun watch => ?_, fun confirmed => ?_, fun isolating => ?_, fun stays => ?_⟩
  · rw [forcedFall_one one, fallCase_watch hk good readable watch,
      (withdraws_unordered (e := { fallen e with toCore := { freed n e.toCore with mode := .configuring }, out := _ })
        unordered 0 0).2.2]
  · obtain ⟨bars, -, polls⟩ := withdraws_unordered (e := fallBlocked n k e) unordered k.segment k.serial
    rw [forcedFall_one one, fallCase_confirmed hk good readable confirmed, bars, polls]
  · obtain ⟨bars, orders, polls⟩ := withdraws_unordered (e := walkEnded n (fallBlocked n k e)) unordered k.segment k.serial
    rw [forcedFall_one one, fallCase_isolating hk good readable isolating, orders, bars, polls]
  · obtain ⟨-, -, polls⟩ := withdraws_unordered (e := fallen e) unordered 0 0
    rw [forcedFall_one one, fallCase_stays hk good stays, polls]

/-- The reads that judge a bar do not read the cases. -/
theorem closeBarReads_calm {c c' : Core} (devices : c'.devices = c.devices) (segments : c'.segments = c.segments) {d : Nat}
    (calm : firstBad c (closeBarReads c d) = none) : firstBad c' (closeBarReads c' d) = none := by
  have same : closeBarReads c' d = closeBarReads c d := by
    simp only [closeBarReads, pathReads, devices, segments]
  have tables : ∀ r ∈ closeBarReads c d, r.table = .device ∨ r.table = .segment := by
    intro r mem
    unfold closeBarReads at mem
    obtain rfl | path := List.mem_cons.1 mem
    · exact .inl rfl
    · split at path
      · split at path
        · obtain ⟨n, -, rfl⟩ := List.mem_map.1 path
          exact .inr rfl
        · cases path
      · cases path
  rw [same]
  refine (firstBad_none_iff _ _).2 fun r mem => ?_
  have read := (firstBad_none_iff _ _).1 calm r mem
  unfold isBad at read ⊢
  obtain table | table := tables r mem
  · rw [table] at read ⊢
    rw [devices]
    exact read
  · rw [table] at read ⊢
    rw [segments]
    exact read

/-- The one order, a QUEUED CLOSE that a segment bars, is withdrawn where the reads that judge it match. -/
theorem withdrawBarredBySegment_barred {s : Nat} {o : Order} {v : Device} {e : Ev}
    (calm : firstBad e.toCore (closeBarReads e.toCore o.device) = none) (only : e.orders = [o]) (close : o.action = .close)
    (hv : entryAt e.devices o.device = some v) (good : badAt e.devices o.device = false) (running : e.mode ≠ .halted)
    (queued : o.state = .queued) (barred : barredBy e.segments v s = true) :
    withdrawBarredBySegment s e = orderWithdrawn .isolationOverride o v e := by
  have order : orderOf e.toCore o.device = some o := by simp [orderOf, only]
  have closes : queuedCloses e.toCore = [o.device] := by simp [queuedCloses, only, close, queued]
  rw [withdrawBarredBySegment, judgeCloses, closes]
  simp only [List.foldl_cons, List.foldl_nil, calm, Option.isSome_none, Bool.false_eq_true, if_false, hv, running, barred,
    if_true]
  exact withdraw_queued .isolationOverride order queued hv good running

theorem orderWithdrawn_empties {reason : WithdrawReason} {o : Order} {v : Device} {e : Ev} (only : e.orders = [o]) :
    (orderWithdrawn reason o v e).orders = [] := by
  simp [orderWithdrawn, only]

theorem forcedFall_ordered {e : Ev} {n : Nat} {k : Case} {o : Order} {v : Device}
    (one : (entriesWhere e.cases fun _ => true) = [n]) (hk : entryAt e.cases n = some k) (good : badAt e.cases n = false)
    (readable : k.unreadable = []) (only : e.orders = [o]) (queued : o.state = .queued)
    (hv : entryAt e.devices o.device = some v) (sound : badAt e.devices o.device = false) :
    (k.state = .isolating → o.cls = .isolation → o.action = .open_ → o.origin = .case k.serial →
        forcedFall e = unpolled (orderWithdrawn .isolationOverride o v (walkEnded n (fallBlocked n k e))))
      ∧ (k.state = .confirmed → o.cls = .manual → o.action = .close →
        firstBad e.toCore (closeBarReads e.toCore o.device) = none → barredBy e.segments v k.segment = true →
        forcedFall e = unpolled (orderWithdrawn .isolationOverride o v (fallBlocked n k e))) := by
  refine ⟨fun isolating cls _ origin => ?_, fun confirmed _ close calm barred => ?_⟩
  · have own : withdrawOrdersOf k.serial (walkEnded n (fallBlocked n k e))
        = orderWithdrawn .isolationOverride o v (walkEnded n (fallBlocked n k e)) := by
      have chosen : ((walkEnded n (fallBlocked n k e)).orders.filter fun o =>
          o.cls == .isolation && o.origin == .case k.serial && o.state == .queued).map (·.device) = [o.device] := by
        rw [show (walkEnded n (fallBlocked n k e)).orders = [o] from only]
        simp [cls, origin, queued]
      rw [withdrawOrdersOf, chosen, withdrawEach_one .isolationOverride (by exact only) queued (by exact hv) (by exact sound)
        (by simp [walkEnded, fallBlocked, withCase, fallen])]
    obtain ⟨bars, -, polls⟩ := withdraws_unordered (orderWithdrawn_empties (reason := .isolationOverride) (o := o) (v := v)
      (e := walkEnded n (fallBlocked n k e)) only) k.segment k.serial
    rw [forcedFall_one one, fallCase_isolating hk good readable isolating, own, bars, polls]
  · have bars : withdrawBarredBySegment k.segment (fallBlocked n k e)
        = orderWithdrawn .isolationOverride o v (fallBlocked n k e) :=
      withdrawBarredBySegment_barred (closeBarReads_calm (c := e.toCore) (c' := (fallBlocked n k e).toCore) rfl rfl calm) only close hv sound
        (by simp [fallBlocked, withCase, fallen]) queued barred
    obtain ⟨-, -, polls⟩ := withdraws_unordered (orderWithdrawn_empties (reason := .isolationOverride) (o := o) (v := v)
      (e := fallBlocked n k e) only) k.segment k.serial
    rw [forcedFall_one one, fallCase_confirmed hk good readable confirmed, bars, polls]

end Sys2Proof.Machine

end

