-- ==== Sys2Proof/Proofs/RecoverySweeps.lean ====
section
/-! PROOF. The steps of the recovery sweep: a table verified, reloaded, lost or failed, the validation and the fall that
follow, and the end of the step (R152, R172 to R180, R182). -/

namespace Sys2Proof.Machine

/-! ### A step's event and its end (R175) -/

/-- The event of a sweep step, its table off the list. -/
def sweepBegun (c : Core) (rest : List Table) : Ev := startEvent { c with recovery := { c.recovery with sweep := rest } }

/-- The event with what the end of a sweep step adds. -/
def sweepDone (env : Env) (e : Ev) : Ev :=
  { e with
    toCore := (sweepEnded env.settings e.out e.toCore).2
    out := (sweepEnded env.settings e.out e.toCore).1 }

/-- A sweep step leaves the blocks as given, but for the end of the recovery after the last table. -/
def StepLeaves (ok : Bool) (s : State) (xs : List Emit) (c : Core) (p : Part) : Prop :=
  exec (.recoverySweepStep ok) s = .next
    (ended (outcome (sweepEnded s.part.settings xs c).1 (sweepEnded s.part.settings xs c).2 p) s)

theorem StepLeaves.congr {ok : Bool} {s : State} {xs xs' : List Emit} {c c' : Core} {p : Part}
    (h : StepLeaves ok s xs c p) (told : xs = xs') (blocks : c = c') : StepLeaves ok s xs' c' p := told ▸ blocks ▸ h

section
variable {ok : Bool} {t : Table} {rest : List Table} {s : State} (runs : blocksRun s.part = true)
  (recovering : s.part.core.recovery.recovering = true) (awake : s.part.core.recovery.waiting = none)
  (listed : s.part.core.recovery.sweep = t :: rest)
include runs recovering awake listed

theorem exec_recoverySweepStep {e : Ev} (settled : settle (envOf s.part)
      (sweepTable (envOf s.part) s.part.save.isSome ok t (sweepBegun s.part.core rest)) = e) :
    exec (.recoverySweepStep ok) s = .next (ended (commit e s.part) s) := by
  have step : sweepStep (envOf s.part) s.part.save.isSome ok (startEvent s.part.core)
      = sweepTable (envOf s.part) s.part.save.isSome ok t (sweepBegun s.part.core rest) := by
    unfold sweepStep
    rw [if_pos ⟨recovering, awake⟩]
    simp only [startEvent, listed]
    rfl
  show execRecoverySweepStep ok s = _
  rw [execRecoverySweepStep, act_eq, if_pos runs, runEvent_eq, step, settled]

theorem stepLeaves_of {e : Ev} (settled : settle (envOf s.part)
      (sweepTable (envOf s.part) s.part.save.isSome ok t (sweepBegun s.part.core rest)) = sweepDone (envOf s.part) e)
    (store : e.storeFailed = false) : StepLeaves ok s e.out e.toCore s.part := by
  rw [StepLeaves, exec_recoverySweepStep runs recovering awake listed settled, commit_eq _ _ (by exact store)]
  rfl

theorem stepLeaves_marked {e : Ev} (settled : settle (envOf s.part)
      (sweepTable (envOf s.part) s.part.save.isSome ok t (sweepBegun s.part.core rest)) = sweepDone (envOf s.part) e)
    (store : e.storeFailed = true) :
    StepLeaves ok s e.out e.toCore { s.part with store := { s.part.store with valid := false } } := by
  rw [StepLeaves, exec_recoverySweepStep runs recovering awake listed settled, commit,
    show (sweepDone (envOf s.part) e).storeFailed = true from store, if_pos rfl]
  rfl

end

section
variable {env : Env} {t : Table} {e : Ev}

/-- Without an order in the queue, a verified device table shows the arbiter none. -/
theorem takeUpLeft_unordered (env : Env) (unordered : e.orders = []) : takeUpLeft env e = e := by
  have same : ({ e with orders := e.orders.map fun o => { o with left := false } } : Ev) = e := by
    have none_ : e.orders.map (fun o => { o with left := false }) = e.orders := by rw [unordered]; rfl
    rw [none_]
  rw [takeUpLeft, same]
  cases link : e.linkTx with
  | none => exact arbitrate_none link ((chooseOrder_eq_none_iff _).2 (by rw [unordered]; exact nofun))
  | some f => exact arbitrate_busy env (by rw [link]; rfl)

theorem runWork_sweepEnd {n : Nat} (recovering : e.recovery.recovering = true)
    (unordered : t = .device → e.orders = []) (idle : e.todo = []) :
    runWork env (n + 1) [.sweepEnd t] e = sweepDone env e := by
  have clear : { e with todo := [] } = e := by rw [← idle]
  have done : doWork env (.sweepEnd t) { e with todo := [] } = sweepDone env e := by
    rw [clear]
    by_cases device : t = .device
    · subst device
      exact sweepEnd_device recovering (takeUpLeft_unordered env (unordered rfl)) recovering
    · exact sweepEnd_other recovering device
  exact (runWork_done done idle).trans (runWork_nil _ _ _)

/-! ### A table verified (R175) -/

variable {saving ok : Bool}

theorem sweepTable_sound (sound : badOf e.toCore t = []) : sweepTable env saving ok t e = later [.sweepEnd t] e := by
  unfold sweepTable
  rw [sound]
  rfl

theorem sweepTable_bad (bad : badOf e.toCore t ≠ []) (other : t ≠ .case) : sweepTable env saving ok t e
    = if saving then { e with recovery := { e.recovery with waiting := some t } } else reload env ok t e := by
  unfold sweepTable
  simp only [List.isEmpty_iff, bad, if_false]

theorem sweepTable_cases (bad : badOf e.toCore .case ≠ []) :
    sweepTable env saving ok .case e = later [.sweepEnd .case] (loseCases (badOf e.toCore .case) e) := by
  unfold sweepTable
  simp only [List.isEmpty_iff, bad, if_false]

/-! ### A reload (R176) -/

/-- The event of a reload, the table's bad entries counted as repaired. -/
def reloadBegun (t : Table) (e : Ev) : Ev :=
  { e with
    record := { e.record with repaired := min 65535 (e.record.repaired + (badOf e.toCore t).length) }
    recovery := { e.recovery with
      reloaded := e.recovery.reloaded ++ [t], repaired := e.recovery.repaired + (badOf e.toCore t).length } }

theorem reload_sound {img : Image} (image : env.image = some img) :
    reload env true t e = later [.validate, .sweepEnd t] (reloadTable img t (reloadBegun t e)) := by
  unfold reload
  rw [image]
  rfl

theorem reload_unsound (unsound : ¬ (ok = true ∧ env.image.isSome = true)) :
    reload env ok t e = storeFailure t (badOf e.toCore t).length e := by
  unfold reload
  cases image : env.image with
  | none => rfl
  | some img =>
    cases ok with
    | false => rfl
    | true => exact absurd ⟨rfl, by rw [image]; rfl⟩ unsound

theorem writeTable_eq {α : Type} (l : List (Option α)) :
    writeTable l = l.map fun x => { content := x, check := 0 } := rfl

theorem reloadTable_plan (img : Image) (e : Ev) : reloadTable img .plan e = { e with
    plans := img.plans.map fun x => { content := x, check := 0 }
    stepsInUse := (img.plans.map fun x => (x.map (·.steps.length)).getD 0).sum } := by
  simp only [reloadTable, setPlans, stepsUsed, writeTable, List.map_map, Function.comp_def]

/-- The roster with its places bound as the image binds them. -/
def rosterReloaded (img : Image) (old : List (Checked Sensor)) (now : Nat) : List (Checked Sensor) :=
  img.roster.map fun b => { content := b.map (reloadSensor old now), check := 0 }

theorem mem_bound_iff (img : Image) (e : Ev) (a : Nat) :
    (sensorPlace { e.toCore with roster := rosterReloaded img e.roster e.time.now } a).isSome
      = (img.roster.filterMap fun b => b.map (·.address)).contains a := by
  rw [sensorPlace, entriesWhere_isSome, Bool.eq_iff_iff, List.contains_iff_mem, List.any_eq_true, List.mem_filterMap]
  constructor
  · rintro ⟨x, mem, holds⟩
    obtain ⟨b, inImage, rfl⟩ := List.mem_map.1 mem
    cases b with
    | none => cases holds
    | some b =>
      simp only [Option.map_some, Option.any_some, reloadSensor_address, beq_iff_eq] at holds
      exact ⟨some b, inImage, congrArg some holds⟩
  · rintro ⟨b, inImage, address⟩
    refine ⟨_, List.mem_map.2 ⟨b, inImage, rfl⟩, ?_⟩
    cases b with
    | none => cases address
    | some b =>
      simp only [Option.map_some, Option.any_some, reloadSensor_address, beq_iff_eq]
      exact Option.some.inj address

theorem reloadTable_roster (img : Image) (e : Ev) : reloadTable img .roster e = { e with
    roster := rosterReloaded img e.roster e.time.now
    discovery := e.discovery.filter fun x => !(img.roster.filterMap fun b => b.map (·.address)).contains x.address
    deferred := e.deferred.filter fun a => (img.roster.filterMap fun b => b.map (·.address)).contains a } := by
  have roster : writeTable (img.roster.map fun b => b.map (reloadSensor e.roster e.time.now))
      = rosterReloaded img e.roster e.time.now := by
    simp only [writeTable, rosterReloaded, List.map_map, Function.comp_def]
  simp only [reloadTable, roster, dropDeferred]
  simp only [← mem_bound_iff img e]
  rfl

theorem reloadTable_device (img : Image) {e : Ev} (unordered : e.orders = []) : reloadTable img .device e = { e with
    devices := writeTable (mapFrom (fun n d => d.map (reloadDevice e.toCore n)) 0 img.devices)
    reservations := mapFrom (fun n x =>
      if n < (writeTable (mapFrom (fun n d => d.map (reloadDevice e.toCore n)) 0 img.devices)).length
          ∧ entryAt (writeTable (mapFrom (fun n d => d.map (reloadDevice e.toCore n)) 0 img.devices)) n = none then none
        else x) 0 e.reservations } := by
  unfold reloadTable
  simp only []
  rw [leaveUndefined_eq (by exact unordered), withdrawBarred_none (by
    show NoCloses { e.toCore with devices := _, reservations := _ }
    intro o mem
    rw [show ({ e.toCore with devices := _, reservations := _ } : Core).orders = [] from unordered] at mem
    cases mem)]

theorem reloadTable_segment (img : Image) {e : Ev} (unclosed : NoCloses e.toCore) :
    reloadTable img .segment e = { e with segments := img.segments.map fun x => { content := x, check := 0 } } :=
  withdrawBarred_none (by exact unclosed)

end

end Sys2Proof.Machine

end

