-- ==== Sys2Proof/Proofs/SweepSteps.lean ====
section
/-! PROOF. What follows a reload and a store failure in a sweep step, and the steps clause by clause (R152, R162,
R172 to R180, R182). -/

namespace Sys2Proof.Machine

/-! ### The validation after a reload (R178) -/

section
variable {env : Env} {t : Table} {e : Ev}

theorem validateReload_passes (h : e.mode = .configuring ∨ e.mode = .monitoring ∧ validation e.toCore = none) :
    validateReload e = e := by
  unfold validateReload
  obtain mode | ⟨mode, valid⟩ := h
  · rw [if_neg (by simp [mode])]
  · simp only [valid]
    split <;> rfl

/-- The event of a failed validation, its check noted for the sweep's notice. -/
def checkFailed (check : Nat) (e : Ev) : Ev := { e with recovery := { e.recovery with failedCheck := some check } }

theorem validateReload_fails {check : Nat} {item : FailingItem} (recovering : e.recovery.recovering = true)
    (mode : e.mode = .monitoring) (failing : validation e.toCore = some (check, item))
    (caseless : ∀ n, entryAt e.cases n = none) (sent : ∀ o ∈ e.orders, o.cls = .poll → o.state = .sent) :
    validateReload e = unpolled (fallen (checkFailed check e)) := by
  unfold validateReload
  rw [if_pos ⟨recovering, mode⟩]
  simp only [failing]
  exact forcedFall_quiet (checkFailed check e) caseless sent

end

/-- A reload leaves the blocks as given, but for the validation in MONITORING and its fall, and the end of the step. -/
def StepValidated (ok : Bool) (s : State) (xs : List Emit) (c : Core) : Prop :=
  (s.part.core.mode = .configuring ∨ s.part.core.mode = .monitoring ∧ validation c = none → StepLeaves ok s xs c s.part)
    ∧ ∀ check item, s.part.core.mode = .monitoring → validation c = some (check, item) →
        (∀ n, entryAt s.part.core.cases n = none) → (∀ o ∈ c.orders, o.cls = .poll → o.state = .sent) →
      StepLeaves ok s xs
        { c with
          mode := .configuring
          devices := mapContents (fun v => { v with run := { v.run with nextPoll := none } }) c.devices
          recovery := { c.recovery with failedCheck := some check } } s.part

section
variable {ok : Bool} {t : Table} {rest : List Table} {s : State} (runs : blocksRun s.part = true)
  (recovering : s.part.core.recovery.recovering = true) (awake : s.part.core.recovery.waiting = none)
  (listed : s.part.core.recovery.sweep = t :: rest)
include runs recovering awake listed

theorem stepValidated_of {e : Ev} {n : Nat} (settled : settle (envOf s.part)
      (sweepTable (envOf s.part) s.part.save.isSome ok t (sweepBegun s.part.core rest))
        = runWork (envOf s.part) (n + 2) [.validate, .sweepEnd t] e)
    (idle : e.todo = []) (store : e.storeFailed = false) (still : e.recovery.recovering = true)
    (mode : e.mode = s.part.core.mode) (cases : e.cases = s.part.core.cases) (unordered : t = .device → e.orders = []) :
    StepValidated ok s e.out e.toCore := by
  have clear : { e with todo := [] } = e := by rw [← idle]
  refine ⟨fun passes => ?_, fun check item monitoring failing caseless sent => ?_⟩
  · have validated : doWork (envOf s.part) .validate { e with todo := [] } = e := by
      rw [clear]
      exact validateReload_passes (mode ▸ passes)
    refine stepLeaves_of runs recovering awake listed (settled.trans ?_) store
    rw [runWork_done validated idle, runWork_sweepEnd still unordered idle]
  · have validated : doWork (envOf s.part) .validate { e with todo := [] } = unpolled (fallen (checkFailed check e)) := by
      rw [clear]
      exact validateReload_fails still (mode.trans monitoring) failing (cases ▸ caseless) sent
    refine stepLeaves_of (e := unpolled (fallen (checkFailed check e))) runs recovering awake listed (settled.trans ?_) store
    rw [runWork_done validated idle, runWork_sweepEnd (e := unpolled (fallen (checkFailed check e))) still unordered idle]

/-- A reload that calls for no work of its own. -/
theorem stepValidated_reload (unsaved : s.part.save = none) (bad : badOf s.part.core t ≠ []) (other : t ≠ .case)
    (written : ok = true) (image : (envOf s.part).image = some s.part.store.image) {c : Core}
    (reloads : reloadTable s.part.store.image t (reloadBegun t (sweepBegun s.part.core rest)) = startEvent c)
    (still : c.recovery.recovering = true) (mode : c.mode = s.part.core.mode) (cases : c.cases = s.part.core.cases)
    (unordered : t = .device → c.orders = []) : StepValidated ok s [] c := by
  refine stepValidated_of (n := 65534) runs recovering awake listed ?_ (e := startEvent c) rfl rfl still mode cases unordered
  have bad' : badOf (sweepBegun s.part.core rest).toCore t ≠ [] := by
    rw [sweepBegun, startEvent_core, badOf_recovery]
    exact bad
  rw [sweepTable_bad bad' other, unsaved, Option.isSome_none, if_neg (by decide), written, reload_sound image, reloads]
  rfl

end

/-! ### A CLOSE that a reloaded segment table bars (R162) -/

/-- In a recovery an announcement that no walk and no step in ROOM waits for leaves the rest. -/
theorem runWork_announce_recovering {env : Env} {n d : Nat} {ws : List Work} {e : Ev} (walks : e.walks = [])
    (room : e.room = []) (recovering : e.recovery.recovering = true) (running : e.mode ≠ .halted) :
    runWork env (n + 3) (.announce d :: ws) e = runWork env n ws { e with todo := [] } := by
  have announced : doWork env (.announce d) { e with todo := [] } = later [.room, .polls] { e with todo := [] } := by
    show announce d { e with todo := [] } = _
    unfold announce
    rw [if_neg running, walksWhere_none _ (by exact walks)]
    rfl
  have judged : doWork env .room { e with todo := [] } = { e with todo := [] } := by
    show judgeRoom { e with todo := [] } = _
    unfold judgeRoom
    simp only [room]
  have polled : doWork env .polls { e with todo := [] } = { e with todo := [] } := by
    show requestPolls env { e with todo := [] } = _
    unfold requestPolls
    rw [if_neg]
    simp [healthy, recovering]
  rw [runWork_cons, announced]
  show runWork env (n + 2) (.room :: .polls :: ws) { e with todo := [] } = _
  rw [runWork_done (e := { e with todo := [] }) judged rfl, runWork_done (e := { e with todo := [] }) polled rfl]

/-! ### A store failure (R178) -/

section
variable {env : Env} {t : Table} {e : Ev} (running : e.mode ≠ .halted) (recovering : e.recovery.recovering = true)
include running recovering

theorem internalFault_store_few (few : e.window.length + 1 < 3) : internalFault .store none e = { e with
    record := faultRecorded .store none e.toCore
    window := e.window ++ [e.time.now]
    out := e.out ++ [.tell .both (.faultFound .store none e.time.now (faultRecorded .store none e.toCore).total
      (e.window.length + 1) .furtherFault (some (e.mode == .monitoring)))] } := by
  simp [internalFault, recordFault_eq, running, recovering, Config.faultLimit, Nat.not_le.2 few, raise, appendSweep]

omit recovering in
theorem internalFault_store_many (many : 3 ≤ e.window.length + 1) : internalFault .store none e = { e with
    record := faultRecorded .store none e.toCore
    window := e.window ++ [e.time.now]
    mode := .halted
    recovery := Recovery.idle
    devices := mapContents (fun v => { v with run := { v.run with nextPoll := none } }) e.devices
    out := e.out ++ [.tell .both (.faultFound .store none e.time.now (faultRecorded .store none e.toCore).total
      (e.window.length + 1) .halted (some false))] } := by
  simp [internalFault, recordFault_eq, running, Config.faultLimit, many, raise, enterHalted, clearPolls]

end

/-- The bad entries of a table become undefined, with what that takes from the blocks. -/
theorem undefineTable_eq (t : Table) {e : Ev} (unordered : t = .device → e.orders = []) :
    undefineTable t e = { e with toCore := withoutBad t e.toCore } := by
  cases t with
  | segment => rfl
  | plan => rfl
  | case => rfl
  | store => rfl
  | roster =>
    have places : ∀ a, (sensorPlace { e.toCore with roster := undefineBad e.roster } a).isSome
        = (badUndefined e.roster).any fun x => x.content.any fun v => v.address == a := fun a =>
      entriesWhere_isSome (undefineBad e.roster) _
    simp only [undefineTable, dropDeferred, withoutBad, places]
    rfl
  | device =>
    have length : (undefineBad e.devices).length = e.devices.length := List.length_map _
    unfold undefineTable
    simp only []
    rw [leaveUndefined_eq (by exact unordered rfl)]
    simp only [length, withoutBad]
    rfl

/-- The event of a store failure that has not halted the part, its table's bad entries undefined. -/
def storeLost (t : Table) (e : Ev) : Ev :=
  { e with
    storeFailed := true
    toCore := { withoutBad t e.toCore with
      record := { faultRecorded .store none e.toCore with
        storeFailed := true
        repaired := min 65535 (e.record.repaired + (badOf e.toCore t).length) }
      window := e.window ++ [e.time.now]
      recovery := { e.recovery with repaired := e.recovery.repaired + (badOf e.toCore t).length } }
    out := e.out ++ [.tell .both (.faultFound .store none e.time.now (faultRecorded .store none e.toCore).total
      (e.window.length + 1) .furtherFault (some (e.mode == .monitoring)))] }

theorem withoutBad_rest (t : Table) (c : Core) (record : FaultRecord) (window : List Nat) (recovery : Recovery) :
    withoutBad t { c with record := record, window := window, recovery := recovery }
      = { withoutBad t c with record := record, window := window, recovery := recovery } := by
  cases t <;> rfl

theorem withoutBad_keeps (t : Table) (c : Core) : (withoutBad t c).mode = c.mode ∧ (withoutBad t c).cases = c.cases
    ∧ (withoutBad t c).orders = c.orders := by
  cases t <;> exact ⟨rfl, rfl, rfl⟩

section
variable {t : Table} {e : Ev} (running : e.mode ≠ .halted) (recovering : e.recovery.recovering = true)
include running

theorem storeFailure_few (recovering : e.recovery.recovering = true) (few : e.window.length + 1 < 3)
    (unordered : t = .device → e.orders = []) :
    storeFailure t (badOf e.toCore t).length e = later [.fall, .sweepEnd t] (storeLost t e) := by
  unfold storeFailure
  simp only []
  rw [internalFault_store_few (e := { e with storeFailed := true, record := { e.record with storeFailed := true } })
    running recovering few]
  rw [if_neg (by exact running), undefineTable_eq t (by exact unordered)]
  exact congrArg (fun c => later [.fall, .sweepEnd t] { storeLost t e with toCore := c }) (withoutBad_rest t e.toCore _ _ _)

omit recovering in
theorem storeFailure_many (many : 3 ≤ e.window.length + 1) (bad : Nat) : storeFailure t bad e = { e with
    storeFailed := true
    record := { faultRecorded .store none e.toCore with storeFailed := true }
    window := e.window ++ [e.time.now]
    mode := .halted
    recovery := Recovery.idle
    devices := mapContents (fun v => { v with run := { v.run with nextPoll := none } }) e.devices
    out := e.out ++ [.tell .both (.faultFound .store none e.time.now (faultRecorded .store none e.toCore).total
      (e.window.length + 1) .halted (some false))] } := by
  unfold storeFailure
  simp only []
  rw [internalFault_store_many (e := { e with storeFailed := true, record := { e.record with storeFailed := true } })
    running many, if_pos rfl]
  rfl

end

theorem fallInMonitoring_configuring {e : Ev} (mode : e.mode = .configuring) : fallInMonitoring e = e := by
  unfold fallInMonitoring
  rw [mode]

theorem fallInMonitoring_quiet {e : Ev} (mode : e.mode = .monitoring) (caseless : ∀ n, entryAt e.cases n = none)
    (sent : ∀ o ∈ e.orders, o.cls = .poll → o.state = .sent) : fallInMonitoring e = unpolled (fallen e) := by
  unfold fallInMonitoring
  rw [mode]
  exact forcedFall_quiet e caseless sent

/-! ### A table verified (R152, R175) -/

theorem runWork_sweepDevice {env : Env} {n : Nat} {e e' : Ev} (recovering : e.recovery.recovering = true) (idle : e.todo = [])
    (taken : takeUpLeft env e = e') (still : e'.recovery.recovering = true) (idle' : e'.todo = []) :
    runWork env (n + 1) [.sweepEnd .device] e = sweepDone env e' := by
  have clear : { e with todo := [] } = e := by rw [← idle]
  have done : doWork env (.sweepEnd .device) { e with todo := [] } = sweepDone env e' := by
    rw [clear]
    exact sweepEnd_device recovering taken still
  exact (runWork_done done idle').trans (runWork_nil _ _ _)

section
variable {ok : Bool} {t : Table} {rest : List Table} {s : State} (runs : blocksRun s.part = true)
  (recovering : s.part.core.recovery.recovering = true) (awake : s.part.core.recovery.waiting = none)
  (listed : s.part.core.recovery.sweep = t :: rest)
include runs recovering awake listed

omit runs recovering awake listed in
theorem badOf_begun (c : Core) (rest : List Table) (t : Table) : badOf (sweepBegun c rest).toCore t = badOf c t :=
  badOf_recovery c _ t

theorem stepLeaves_sound (sound : badOf s.part.core t = []) (other : t ≠ .device) :
    StepLeaves ok s [] (sweepBegun s.part.core rest).toCore s.part := by
  refine stepLeaves_of (e := sweepBegun s.part.core rest) runs recovering awake listed ?_ rfl
  rw [sweepTable_sound ((badOf_begun _ _ _).trans sound)]
  exact runWork_sweepEnd (n := 65535) recovering (fun device => absurd device other) rfl

omit runs recovering awake listed in
theorem losesInto_recovering (ns : List Nat) (c : Core) :
    (losesInto ns c).2.recovery.recovering = c.recovery.recovering := by
  induction ns generalizing c with
  | nil => rfl
  | cons n ns ih =>
    unfold losesInto
    split
    · exact ih _
    · exact ih _

omit listed in
theorem stepLeaves_device (listed : s.part.core.recovery.sweep = .device :: rest) (sound : badOf s.part.core .device = [])
    {e : Ev} (taken : takeUpLeft (envOf s.part) (sweepBegun s.part.core rest) = e) (still : e.recovery.recovering = true)
    (idle : e.todo = []) (store : e.storeFailed = false) : StepLeaves ok s e.out e.toCore s.part := by
  refine stepLeaves_of runs recovering awake listed ?_ store
  rw [sweepTable_sound ((badOf_begun _ _ _).trans sound)]
  exact runWork_sweepDevice (n := 65535) recovering rfl taken still idle

theorem step_waits (bad : badOf s.part.core t ≠ []) (other : t ≠ .case) (saving : s.part.save.isSome = true) :
    exec (.recoverySweepStep ok) s = .next (ended (outcome []
      { s.part.core with recovery := { s.part.core.recovery with sweep := rest, waiting := some t } } s.part) s) := by
  have waits : sweepTable (envOf s.part) s.part.save.isSome ok t (sweepBegun s.part.core rest)
      = startEvent { s.part.core with recovery := { s.part.core.recovery with sweep := rest, waiting := some t } } := by
    rw [sweepTable_bad (by rw [badOf_begun]; exact bad) other, if_pos saving]
    rfl
  rw [exec_recoverySweepStep runs recovering awake listed ((congrArg _ waits).trans (settle_nil _ _ rfl)), commit_eq _ _ rfl]
  rfl

omit listed in
theorem stepLeaves_cases (listed : s.part.core.recovery.sweep = .case :: rest) (bad : badOf s.part.core .case ≠ []) :
    StepLeaves ok s
      (losesInto (badOf s.part.core .case) (countRepaired (badOf s.part.core .case).length
        (sweepBegun s.part.core rest)).toCore).1
      (losesInto (badOf s.part.core .case) (countRepaired (badOf s.part.core .case).length
        (sweepBegun s.part.core rest)).toCore).2 s.part := by
  have lost := loseCase_each (badOf s.part.core .case) (countRepaired (badOf s.part.core .case).length
    (sweepBegun s.part.core rest))
  have still := (losesInto_recovering (badOf s.part.core .case) (countRepaired (badOf s.part.core .case).length
    (sweepBegun s.part.core rest)).toCore).trans recovering
  refine stepLeaves_of (e := { countRepaired (badOf s.part.core .case).length (sweepBegun s.part.core rest) with
    toCore := _, out := _ }) runs recovering awake listed ?_ rfl
  rw [sweepTable_cases (by rw [badOf_begun]; exact bad), badOf_begun, loseCases, lost]
  exact runWork_sweepEnd (n := 65535) still nofun rfl

end

/-! ### A store failure in a step -/

section
variable {ok : Bool} {t : Table} {rest : List Table} {s : State} (runs : blocksRun s.part = true)
  (recovering : s.part.core.recovery.recovering = true) (awake : s.part.core.recovery.waiting = none)
  (listed : s.part.core.recovery.sweep = t :: rest) (other : t ≠ .case) (bad : badOf s.part.core t ≠ [])
  (unsaved : s.part.save = none) (unsound : ¬ (ok = true ∧ (envOf s.part).image.isSome = true))
  (running : s.part.core.mode ≠ .halted)
include runs recovering awake listed other bad unsaved unsound running

omit runs recovering awake listed running in
theorem sweepTable_storeFailure : sweepTable (envOf s.part) s.part.save.isSome ok t (sweepBegun s.part.core rest)
    = storeFailure t (badOf (sweepBegun s.part.core rest).toCore t).length (sweepBegun s.part.core rest) := by
  rw [sweepTable_bad (by rw [badOf_begun]; exact bad) other, unsaved, Option.isSome_none, if_neg (by decide),
    reload_unsound unsound]

theorem stepLeaves_storeFailure (few : s.part.core.window.length + 1 < 3) (unordered : t = .device → s.part.core.orders = [])
    {e : Ev} (falls : fallInMonitoring (storeLost t (sweepBegun s.part.core rest)) = e) (still : e.recovery.recovering = true)
    (orders : e.orders = s.part.core.orders) (idle : e.todo = []) (store : e.storeFailed = true) :
    StepLeaves ok s e.out e.toCore { s.part with store := { s.part.store with valid := false } } := by
  refine stepLeaves_marked runs recovering awake listed ?_ store
  rw [sweepTable_storeFailure other bad unsaved unsound, storeFailure_few (by exact running) recovering few unordered]
  show runWork (envOf s.part) (65534 + 2) [.fall, .sweepEnd t] (storeLost t (sweepBegun s.part.core rest)) = _
  rw [runWork_done (e' := e) (by exact falls) idle, runWork_sweepEnd still (fun device => orders.trans (unordered device)) idle]

theorem step_storeFailure_halts (many : 3 ≤ s.part.core.window.length + 1) :
    exec (.recoverySweepStep ok) s = .next (ended (outcome
      [.tell .both (.faultFound .store none s.part.core.time.now (faultRecorded .store none s.part.core).total
        (s.part.core.window.length + 1) .halted (some false))]
      { s.part.core with
        mode := .halted
        record := { faultRecorded .store none s.part.core with storeFailed := true }
        window := s.part.core.window ++ [s.part.core.time.now]
        recovery := Recovery.idle
        devices := mapContents (fun v => { v with run := { v.run with nextPoll := none } }) s.part.core.devices }
      { s.part with store := { s.part.store with valid := false } }) s) := by
  have failed := (sweepTable_storeFailure (rest := rest) other bad unsaved unsound).trans
    (storeFailure_many (t := t) (e := sweepBegun s.part.core rest) running many _)
  rw [exec_recoverySweepStep runs recovering awake listed ((congrArg _ failed).trans (settle_nil _ _ rfl)), commit, if_pos rfl]
  rfl

end

/-! ### A reload that waited for a save (R175) -/

theorem completeSave_reloads (written ok : Bool) (img : Image) {p : Part} (runs : blocksRun p = true) :
    completeSave written ok img p = runEvent (fun env e => waitingReload env ok e)
      (replyWaiting .save (storeCode written)
        { p with save := none, store := { image := img, codeMatches := written, valid := written } }) := by
  have kept : (replyWaiting .save (storeCode written)
      { p with save := none, store := { image := img, codeMatches := written, valid := written } }).run = p.run := rfl
  unfold completeSave
  simp only [kept]
  unfold blocksRun at runs
  cases run : p.run <;> simp only [run] at runs ⊢ <;> cases runs

theorem saveCompletion_reloads {written ok : Bool} {img : Image} {t : Table} {s : State} (runs : blocksRun s.part = true)
    (saving : s.part.save = some img) (recovering : s.part.core.recovery.recovering = true)
    (waiting : s.part.core.recovery.waiting = some t) (other : t ≠ .case) (bad : badOf s.part.core t ≠ []) {p : Part}
    (stored : p = replyWaiting .save (storeCode written)
      { s.part with save := none, store := { image := img, codeMatches := written, valid := written } }) :
    exec (.saveCompletion written ok) s = exec (.recoverySweepStep ok)
      { s with part := { p with core := { s.part.core with
          recovery := { s.part.core.recovery with waiting := none, sweep := t :: s.part.core.recovery.sweep } } } } := by
  subst stored
  have step := exec_recoverySweepStep (ok := ok) (t := t) (rest := s.part.core.recovery.sweep)
    (s := { s with part := { replyWaiting .save (storeCode written)
        { s.part with save := none, store := { image := img, codeMatches := written, valid := written } } with
      core := { s.part.core with
        recovery := { s.part.core.recovery with waiting := none, sweep := t :: s.part.core.recovery.sweep } } } })
    (by exact runs) recovering rfl rfl rfl
  rw [sweepTable_bad (by rw [badOf_begun]; exact (badOf_recovery _ _ _).symm ▸ bad) other] at step
  refine Eq.trans ?_ step.symm
  show execSaveCompletion written ok s = _
  rw [execSaveCompletion, act_eq, saving]
  simp only []
  rw [completeSave_reloads written ok img runs, runEvent_eq]
  have reloads : ∀ env : Env, waitingReload env ok (startEvent s.part.core)
      = reload env ok t (startEvent { s.part.core with recovery := { s.part.core.recovery with waiting := none } }) := by
    intro env
    unfold waitingReload
    simp only [startEvent, waiting]
  exact congrArg (fun e => Host.Outcome.next (ended (commit (settle _ e) _) s)) (reloads _)

end Sys2Proof.Machine

end

