-- ==== Sys2Proof/Proofs/SweepClauses.lean ====
section
/-! PROOF. The clauses on a step of the recovery sweep, and on what it is made of (R152, R162, R170, R172 to R180,
R182). Settles O58. -/

namespace Sys2Proof.Machine

/-! ### The orders that a verified device table shows the arbiter (R152) -/

theorem takeUpLeft_idle (env : Env) {e : Ev} (idle : e.linkTx.isSome = true ∨ e.orders = []) :
    takeUpLeft env e = { e with orders := e.orders.map fun o => { o with left := false } } := by
  obtain busy | unordered := idle
  · exact arbitrate_busy env busy
  · rw [takeUpLeft_unordered env unordered, unordered, List.map_nil, ← unordered]

theorem takeUpLeft_sends {env : Env} {e : Ev} {o : Order} {v : Device} (free : e.linkTx = none) (running : e.mode ≠ .halted)
    (only : e.orders = [o]) (queued : o.state = .queued) (unsent : o.sends = none)
    (hv : entryAt e.devices o.device = some v) (good : badAt e.devices o.device = false) :
    takeUpLeft env e = { e with
      orders := [{ o with left := false, state := .sent, resend := false, sends := some 1
                          deadline := some ((e.time.now + env.settings.replyTimeout) % 86400000) }]
      linkTx := some (orderFrame v.link o.number o.action)
      out := e.out ++ [deviceCount .ordersSent o.device] } := by
  have shown : (e.orders.map fun o => { o with left := false }) = [{ o with left := false }] := by rw [only]; rfl
  rw [takeUpLeft, shown, arbitrate_first (e := { e with orders := [{ o with left := false }] }) (o := { o with left := false }) (v := v) free rfl queued
    rfl running hv good, sendOrder_eq]
  simp [sentTo, sendCounts, unsent]

theorem sound_of_badEntries {α : Type} {l : List (Checked α)} (none_ : badEntries l = []) : Sound l := by
  intro n
  rw [badEntries, List.filter_eq_nil_iff] at none_
  by_cases bound : n < l.length
  · exact Bool.eq_false_iff.2 (none_ n (List.mem_range.2 bound))
  · simp [badAt, List.getElem?_eq_none (Nat.le_of_not_lt bound)]

/-! ### The clauses on a step -/

section
variable {ok : Bool} {t : Table} {rest : List Table} {s : State} (runs : blocksRun s.part = true)
  (recovering : s.part.core.recovery.recovering = true) (awake : s.part.core.recovery.waiting = none)
include runs recovering awake

section
variable (listed : s.part.core.recovery.sweep = .device :: rest) (sound : badOf s.part.core .device = [])
include listed sound

theorem stepLeaves_deviceIdle (idle : s.part.core.linkTx.isSome = true ∨ s.part.core.orders = []) : StepLeaves ok s []
    { s.part.core with
      recovery := { s.part.core.recovery with sweep := rest }
      orders := s.part.core.orders.map fun o => { o with left := false } } s.part :=
  (stepLeaves_device (e := { sweepBegun s.part.core rest with
      orders := s.part.core.orders.map fun o => { o with left := false } }) runs recovering awake listed sound
    (takeUpLeft_idle (envOf s.part) (by exact idle)) recovering rfl rfl).congr rfl rfl

theorem stepLeaves_deviceSends {o : Order} {v : Device} (free : s.part.core.linkTx = none)
    (running : s.part.core.mode ≠ .halted) (only : s.part.core.orders = [o]) (queued : o.state = .queued)
    (unsent : o.sends = none) (hv : entryAt s.part.core.devices o.device = some v) :
    StepLeaves ok s [deviceCount .ordersSent o.device]
      { s.part.core with
        recovery := { s.part.core.recovery with sweep := rest }
        orders := [{ o with left := false, state := .sent, resend := false, sends := some 1
                            deadline := some ((s.part.core.time.now + s.part.settings.replyTimeout) % 86400000) }]
        linkTx := some (orderFrame v.link o.number o.action) } s.part := by
  have good : badAt s.part.core.devices o.device = false := sound_of_badEntries sound o.device
  have taken := takeUpLeft_sends (env := envOf s.part) (e := sweepBegun s.part.core rest) free running only queued unsent hv good
  have left := stepLeaves_device (ok := ok) runs recovering awake listed sound taken recovering rfl rfl
  exact left.congr rfl rfl

end

section
variable (listed : s.part.core.recovery.sweep = t :: rest) (bad : badOf s.part.core t ≠ []) (unsaved : s.part.save = none)
  (sound : ok = true ∧ s.part.store.valid = true ∧ s.part.store.codeMatches = true)
include listed bad unsaved sound

/-- The recovery once its step has reloaded the table. -/
def tableReloaded (t : Table) (rest : List Table) (c : Core) : Recovery :=
  { c.recovery with
    sweep := rest, reloaded := c.recovery.reloaded ++ [t], repaired := c.recovery.repaired + (badOf c t).length }

/-- The fault record with the bad entries of the table counted as repaired. -/
def repairedRecord (t : Table) (c : Core) : FaultRecord :=
  { c.record with repaired := min 65535 (c.record.repaired + (badOf c t).length) }

omit runs recovering awake listed bad unsaved in
theorem envOf_image_sound : (envOf s.part).image = some s.part.store.image := by
  obtain ⟨-, valid, matches_⟩ := sound
  simp [envOf, valid, matches_]

theorem stepValidated_plan (plan : t = .plan) : StepValidated ok s [] { s.part.core with
    plans := s.part.store.image.plans.map fun x => { content := x, check := 0 }
    stepsInUse := (s.part.store.image.plans.map fun x => (x.map (·.steps.length)).getD 0).sum
    record := repairedRecord t s.part.core, recovery := tableReloaded t rest s.part.core } := by
  subst plan
  exact stepValidated_reload runs recovering awake listed unsaved bad nofun sound.1 (envOf_image_sound sound)
    (reloadTable_plan _ _) recovering rfl rfl nofun

/-- The segment table as the image defines it. -/
def segmentsReloaded (img : Image) : List (Checked Segment) := img.segments.map fun x => { content := x, check := 0 }

theorem stepValidated_segment (segment : t = .segment) (unclosed : NoCloses s.part.core) :
    StepValidated ok s [] { s.part.core with
      segments := segmentsReloaded s.part.store.image
      record := repairedRecord t s.part.core, recovery := tableReloaded t rest s.part.core } := by
  subst segment
  exact stepValidated_reload runs recovering awake listed unsaved bad nofun sound.1 (envOf_image_sound sound)
    (reloadTable_segment _ (by exact unclosed)) recovering rfl rfl nofun

theorem stepValidated_roster (roster : t = .roster) : StepValidated ok s [] { s.part.core with
    roster := rosterReloaded s.part.store.image s.part.core.roster s.part.core.time.now
    discovery := s.part.core.discovery.filter fun x =>
      !(s.part.store.image.roster.filterMap fun b => b.map (·.address)).contains x.address
    deferred := s.part.core.deferred.filter fun a =>
      (s.part.store.image.roster.filterMap fun b => b.map (·.address)).contains a
    record := repairedRecord t s.part.core, recovery := tableReloaded t rest s.part.core } := by
  subst roster
  exact stepValidated_reload runs recovering awake listed unsaved bad nofun sound.1 (envOf_image_sound sound)
    (reloadTable_roster _ _) recovering rfl rfl nofun

/-- The device table as the image defines it. -/
def devicesReloaded (img : Image) (c : Core) : List (Checked Device) :=
  (mapFrom (fun n d => d.map (reloadDevice c n)) 0 img.devices).map fun x => { content := x, check := 0 }

theorem stepValidated_device (device : t = .device) (unordered : s.part.core.orders = []) :
    StepValidated ok s [] { s.part.core with
      devices := devicesReloaded s.part.store.image s.part.core
      reservations := mapFrom (fun n x =>
        if n < (devicesReloaded s.part.store.image s.part.core).length
            ∧ entryAt (devicesReloaded s.part.store.image s.part.core) n = none then none else x) 0
        s.part.core.reservations
      record := repairedRecord t s.part.core, recovery := tableReloaded t rest s.part.core } := by
  subst device
  exact stepValidated_reload runs recovering awake listed unsaved bad nofun sound.1 (envOf_image_sound sound)
    (reloadTable_device _ (by exact unordered)) recovering rfl rfl fun _ => unordered

omit runs recovering awake listed bad unsaved sound in
theorem reloadTable_segment_eq (img : Image) (e : Ev) :
    reloadTable img .segment e = withdrawBarred { e with segments := segmentsReloaded img } := rfl

/-- A QUEUED CLOSE that the reloaded segments bar leaves the queue before the validation. -/
theorem stepValidated_withdraws (segment : t = .segment) {o : Order} {v : Device} {q : Port} {tag : Byte}
    (only : s.part.core.orders = [o]) (close : o.action = .close) (queued : o.state = .queued) (cls : o.cls = .manual)
    (origin : o.origin = .port q tag) (unsent : o.sends = none) (hv : entryAt s.part.core.devices o.device = some v)
    (good : badAt s.part.core.devices o.device = false)
    (barred : barredByHold (segmentsReloaded s.part.store.image) s.part.core.holds v = true)
    (walks : s.part.core.walks = []) (room : s.part.core.room = []) (running : s.part.core.mode ≠ .halted) :
    StepValidated ok s
      [.tell (.only q) (.order
        { tag := tag, number := o.number, device := o.device, action := .close, outcome := .withdrawn
          state := v.run.state, retries := 0, refusal := none, withdrawal := some .workHold
          time := s.part.core.time.now })]
      { s.part.core with
        segments := segmentsReloaded s.part.store.image
        orders := []
        devices := putAt s.part.core.devices o.device (some { v with run := { v.run with currentOrder := none } })
        record := repairedRecord t s.part.core, recovery := tableReloaded t rest s.part.core } := by
  subst segment
  have begun : badOf (sweepBegun s.part.core rest).toCore .segment ≠ [] := bad
  have reloads : reloadTable s.part.store.image .segment (reloadBegun .segment (sweepBegun s.part.core rest))
      = { reloadBegun .segment (sweepBegun s.part.core rest) with
          segments := segmentsReloaded s.part.store.image
          orders := []
          devices := putAt s.part.core.devices o.device (some { v with run := { v.run with currentOrder := none } })
          out := [.tell (.only q) (.order
            { tag := tag, number := o.number, device := o.device, action := .close, outcome := .withdrawn
              state := v.run.state, retries := 0, refusal := none, withdrawal := some .workHold
              time := s.part.core.time.now })]
          todo := [.announce o.device] } := by
    have withdrawn := withdrawBarred_queued (e := { reloadBegun .segment (sweepBegun s.part.core rest) with
      segments := segmentsReloaded s.part.store.image }) only close hv good running queued
      (.inl barred)
    rw [if_pos (by exact barred)] at withdrawn
    rw [reloadTable_segment_eq, withdrawn]
    simp [orderWithdrawn, only, cls, origin, unsent, close, reloadBegun, sweepBegun, startEvent]
  refine stepValidated_of (n := 65531) runs recovering awake listed ?_ (e := { reloadBegun .segment (sweepBegun s.part.core rest) with
    segments := _, orders := [], devices := _, out := _, todo := [] }) rfl rfl recovering rfl rfl nofun
  rw [sweepTable_bad begun nofun, unsaved, Option.isSome_none, if_neg (by decide), sound.1,
    reload_sound (envOf_image_sound sound), reloads]
  exact runWork_announce_recovering (n := 65533) walks room recovering running

end

/-- The blocks before the bad entries of the case table are lost: they are counted as repaired. -/
def casesCounted (rest : List Table) (c : Core) : Core :=
  { c with
    record := repairedRecord .case c
    recovery := { c.recovery with sweep := rest, repaired := c.recovery.repaired + (badOf c .case).length } }

theorem stepLeaves_lost (listed : s.part.core.recovery.sweep = .case :: rest) (bad : badOf s.part.core .case ≠ []) :
    StepLeaves ok s (losesInto (badOf s.part.core .case) (casesCounted rest s.part.core)).1
      (losesInto (badOf s.part.core .case) (casesCounted rest s.part.core)).2 s.part := by
  have counted : (countRepaired (badOf s.part.core .case).length (sweepBegun s.part.core rest)).toCore
      = casesCounted rest s.part.core := rfl
  have left := stepLeaves_cases (ok := ok) runs recovering awake listed bad
  rw [counted] at left
  exact left

section
variable (listed : s.part.core.recovery.sweep = t :: rest) (other : t ≠ .case) (bad : badOf s.part.core t ≠ [])
  (unsaved : s.part.save = none)
  (unsound : ¬ (ok = true ∧ s.part.store.valid = true ∧ s.part.store.codeMatches = true))
include listed other bad unsaved unsound

omit runs recovering awake listed other bad unsaved in
theorem envOf_image_unsound : ¬ (ok = true ∧ (envOf s.part).image.isSome = true) := by
  rintro ⟨written, image⟩
  refine unsound ⟨written, ?_⟩
  rw [← Bool.and_eq_true]
  by_contra invalid
  rw [envOf, if_neg invalid] at image
  cases image

/-- The blocks that a store failure in a step leaves, the part running on. -/
def failureStored (t : Table) (rest : List Table) (c : Core) : Core :=
  { withoutBad t c with
    record := { faultRecorded .store none c with
      storeFailed := true
      repaired := min 65535 (c.record.repaired + (badOf c t).length) }
    window := c.window ++ [c.time.now]
    recovery := { c.recovery with sweep := rest, repaired := c.recovery.repaired + (badOf c t).length } }

/-- The notice of a store failure in a step. -/
def storeFailureTold (c : Core) (out : FaultOutcome) (fall : Bool) : List Emit :=
  [.tell .both (.faultFound .store none c.time.now (faultRecorded .store none c).total
    (c.window ++ [c.time.now]).length out (some fall))]

omit runs recovering awake listed other bad unsaved unsound in
theorem storeLost_begun (t : Table) (rest : List Table) (c : Core) :
    (storeLost t (sweepBegun c rest)).toCore = failureStored t rest c
      ∧ (storeLost t (sweepBegun c rest)).out = storeFailureTold c .furtherFault (c.mode == .monitoring) := by
  refine ⟨by cases t <;> rfl, ?_⟩
  rw [storeFailureTold, List.length_append]
  rfl

theorem stepLeaves_failureConfiguring (unordered : t = .device → s.part.core.orders = [])
    (few : s.part.core.window.length + 1 < 3) (mode : s.part.core.mode = .configuring) :
    StepLeaves ok s (storeFailureTold s.part.core .furtherFault false) (failureStored t rest s.part.core)
      { s.part with store := { s.part.store with valid := false } } := by
  obtain ⟨blocks, told⟩ := storeLost_begun t rest s.part.core
  obtain ⟨keepsMode, -, keepsOrders⟩ := withoutBad_keeps t s.part.core
  have falls := fallInMonitoring_configuring (e := storeLost t (sweepBegun s.part.core rest)) (by
    rw [blocks]
    exact keepsMode.trans mode)
  rw [mode] at told
  exact (stepLeaves_storeFailure runs recovering awake listed other bad unsaved (envOf_image_unsound unsound)
    (by rw [mode]; decide) few unordered falls recovering (by rw [blocks]; exact keepsOrders) rfl rfl).congr told blocks

theorem stepLeaves_failureMonitoring (unordered : t = .device → s.part.core.orders = [])
    (few : s.part.core.window.length + 1 < 3) (mode : s.part.core.mode = .monitoring)
    (caseless : ∀ n, entryAt s.part.core.cases n = none)
    (sent : ∀ o ∈ s.part.core.orders, o.cls = .poll → o.state = .sent) :
    StepLeaves ok s (storeFailureTold s.part.core .furtherFault true)
      { failureStored t rest s.part.core with
        mode := .configuring
        devices := mapContents (fun v => { v with run := { v.run with nextPoll := none } })
          (failureStored t rest s.part.core).devices }
      { s.part with store := { s.part.store with valid := false } } := by
  obtain ⟨blocks, told⟩ := storeLost_begun t rest s.part.core
  obtain ⟨keepsMode, keepsCases, keepsOrders⟩ := withoutBad_keeps t s.part.core
  have orders : (storeLost t (sweepBegun s.part.core rest)).orders = s.part.core.orders := by
    rw [blocks]
    exact keepsOrders
  have falls := fallInMonitoring_quiet (e := storeLost t (sweepBegun s.part.core rest))
    (by rw [blocks]; exact keepsMode.trans mode) (by rw [blocks]; exact keepsCases.symm ▸ caseless) (orders.symm ▸ sent)
  rw [mode] at told
  exact (stepLeaves_storeFailure runs recovering awake listed other bad unsaved (envOf_image_unsound unsound)
    (by rw [mode]; decide) few unordered falls recovering orders rfl rfl).congr told
    (congrArg (fun c : Core => { c with
      mode := .configuring
      devices := mapContents (fun v => { v with run := { v.run with nextPoll := none } }) c.devices }) blocks)

theorem step_failureHalts (running : s.part.core.mode ≠ .halted) (many : 3 ≤ s.part.core.window.length + 1) :
    exec (.recoverySweepStep ok) s = .next (ended (outcome (storeFailureTold s.part.core .halted false)
      { s.part.core with
        mode := .halted
        record := { faultRecorded .store none s.part.core with storeFailed := true }
        window := s.part.core.window ++ [s.part.core.time.now]
        recovery := Recovery.idle
        devices := mapContents (fun v => { v with run := { v.run with nextPoll := none } }) s.part.core.devices }
      { s.part with store := { s.part.store with valid := false } }) s) := by
  rw [storeFailureTold, List.length_append]
  exact step_storeFailure_halts runs recovering awake listed other bad unsaved (envOf_image_unsound unsound) running many

end

end

/-- Settles O58, clause by clause: the steps of a sweep, a save's completion, the entries reloaded, and the forced fall. -/
theorem recoverySweep : Obligations.RecoverySweep := by
  unfold Obligations.RecoverySweep
  refine ⟨?_, fun written ok img t s runs saving recovering waiting other bad =>
      saveCompletion_reloads runs saving recovering waiting other bad rfl, fun old now b => ⟨?_, ?_⟩, fun c n d =>
      ⟨fun v hv good same => reloadDevice_kept hv good same, fun none_ => reloadDevice_new none_⟩,
    fun e d o order none_ => failLost_eq order none_,
    fun e d entry now total inWindow outcome fall pre post halted others out => fallInMonitoring_halted halted others out,
    fun e _ => ⟨fun o v none_ only queued hv good => forcedFall_caseless none_ only queued hv good,
      fun n k one hk good readable => ⟨forcedFall_unordered one hk good readable, fun o v only queued hv sound =>
        forcedFall_ordered one hk good readable only queued hv sound⟩⟩⟩
  · intro ok t rest s runs recovering awake listed
    refine ⟨stepLeaves_sound runs recovering awake listed, ?_, step_waits runs recovering awake listed, ?_, ?_, ?_, ?_, ?_, ?_⟩
    · rintro sound rfl
      exact ⟨stepLeaves_deviceIdle runs recovering awake listed sound,
        fun o v free running only queued unsent hv =>
          stepLeaves_deviceSends runs recovering awake listed sound free running only queued unsent hv⟩
    · rintro ⟨bad, unsaved, sound⟩ plan
      exact stepValidated_plan runs recovering awake listed bad unsaved sound plan
    · rintro ⟨bad, unsaved, sound⟩ segment
      exact ⟨stepValidated_segment runs recovering awake listed bad unsaved sound segment,
        fun o v q tag only close queued cls origin unsent hv good barred walks room running =>
          stepValidated_withdraws runs recovering awake listed bad unsaved sound segment only close queued cls origin unsent
            hv good barred walks room running⟩
    · rintro ⟨bad, unsaved, sound⟩ roster
      exact stepValidated_roster runs recovering awake listed bad unsaved sound roster
    · rintro ⟨bad, unsaved, sound⟩ device unordered
      exact stepValidated_device runs recovering awake listed bad unsaved sound device unordered
    · rintro bad rfl
      exact stepLeaves_lost runs recovering awake listed bad
    · intro other bad unsaved unsound running unordered
      have length : (s.part.core.window ++ [s.part.core.time.now]).length = s.part.core.window.length + 1 := List.length_append
      exact ⟨fun few mode => stepLeaves_failureConfiguring runs recovering awake listed other bad unsaved unsound unordered
          (length ▸ few) mode,
        fun few mode caseless sent => stepLeaves_failureMonitoring runs recovering awake listed other bad unsaved unsound
          unordered (length ▸ few) mode caseless sent,
        fun many => step_failureHalts runs recovering awake listed other bad unsaved unsound running (length ▸ many)⟩
  · exact fun n v hv good same only => reloadSensor_kept now hv good ((sameBinding_iff b v).2 same) only
  · exact fun none_ => reloadSensor_new now fun n v hv good => Bool.eq_false_iff.2 fun same =>
      none_ n v hv good ((sameBinding_iff b v).1 same)

end Sys2Proof.Machine

end

