-- ==== Sys2Proof/Proofs/EvidenceRecords.lean ====
section
/-! PROOF. The records that evidence leaves: what masks an item, the record after an admission and after a merge, the
coverage of a head sensor, and the case to evict (R19, R53 to R55, R65 to R79, R88). -/

namespace Sys2Proof.Machine

/-! ### Masking (R53 to R55) -/

theorem maskingState_iff (s : DeviceState) : maskingState s = true ↔ s = .open_ ∨ s = .reclosing ∨ s = .lockedOut := by
  cases s <;> decide

theorem deviceMasks_iff (now : Nat) (r : DeviceRun) : deviceMasks now r = true ↔
    (r.reachable = true ∨ Config.unreachableMasks = true)
      ∧ (r.state = .open_ ∨ r.state = .reclosing ∨ r.state = .lockedOut
        ∨ ∃ t, r.settleUntil = some t ∧ reached now t = false) := by
  have state := maskingState_iff r.state
  unfold deviceMasks
  cases settling : r.settleUntil with
  | none => simp [state]
  | some t => simp [state, or_assoc]

/-- The masking test with its two lookups as searches of an option. -/
theorem isMasked_eq (c : Core) (it : Item) : isMasked c it
    = (((pathDevices c it.segment).any fun d => (runOf c d).any fun r => deviceMasks c.time.now r)
      || (c.holds[it.segment]?.any fun h => h.isSome) || c.mode == .configuring) := by
  have devices : ∀ d, (match runOf c d with
      | some r => deviceMasks c.time.now r
      | none => false) = (runOf c d).any fun r => deviceMasks c.time.now r := by
    intro d
    cases runOf c d <;> rfl
  unfold isMasked
  congr 2
  · exact congrArg (fun f => (pathDevices c it.segment).any f) (funext devices)
  · obtain _ | _ | h := c.holds[it.segment]? <;> rfl

theorem maskedAsStated (c : Core) (it : Item) : MaskedAsStated c it := by
  unfold MaskedAsStated
  rw [isMasked_eq, Bool.or_eq_true, Bool.or_eq_true, beq_iff_eq, or_assoc]
  refine or_congr ?_ (or_congr ?_ Iff.rfl)
  · simp only [List.any_eq_true, Option.any_eq_true, runOf, Option.map_eq_some_iff, ← deviceMasks_iff]
    constructor
    · rintro ⟨d, mem, -, ⟨v, hv, rfl⟩, masks⟩
      exact ⟨d, v, mem, hv, masks⟩
    · rintro ⟨d, v, mem, hv, masks⟩
      exact ⟨d, mem, v.run, ⟨v, hv, rfl⟩, masks⟩
  · simp only [Option.any_eq_true, Option.isSome_iff_exists]
    constructor
    · rintro ⟨-, found, h, rfl⟩
      exact ⟨h, found⟩
    · rintro ⟨h, found⟩
      exact ⟨some h, found, h, rfl⟩

/-! ### The record after an admission (R65, R66, R70 to R72, R76 to R79) -/

theorem holdsSensor_iff (l : List Present) (a : Nat) : holdsSensor l a = true ↔ ∃ q ∈ l, q.sensor = a := by
  simp [holdsSensor]

theorem contribute_rest (k : Case) (a : Nat) :
    contribute k a = { k with contributors := (contribute k a).contributors, unlisted := (contribute k a).unlisted } := by
  unfold contribute
  split
  · rfl
  · split <;> rfl

theorem contribute_listed {k : Case} {a : Nat} (h : a ∈ k.contributors) : contribute k a = k :=
  if_pos (List.contains_iff_mem.2 h)

theorem contribute_joins {k : Case} {a : Nat} (h : a ∉ k.contributors) (room : k.contributors.length < 8) :
    contribute k a = { k with contributors := k.contributors ++ [a] } := by
  unfold contribute
  rw [if_neg (fun listed => h (List.contains_iff_mem.1 listed)), if_pos (by exact room)]

theorem contribute_full {k : Case} {a : Nat} (h : a ∉ k.contributors) (full : 8 ≤ k.contributors.length) :
    contribute k a = { k with unlisted := true } := by
  unfold contribute
  rw [if_neg (fun listed => h (List.contains_iff_mem.1 listed)), if_neg (by exact Nat.not_lt.2 full)]

theorem addArcs_rest (k : Case) (arcs stamp : Nat) : addArcs k arcs stamp = { k with
    arcCount := min 255 (k.arcCount + arcs)
    firstArc := (addArcs k arcs stamp).firstArc, lastArc := (addArcs k arcs stamp).lastArc } := by
  unfold addArcs
  simp only []
  split <;> rfl

/-- Kinds that have a list in the present set. -/
def Listed (kind : EvidenceKind) : Prop := kind ≠ .arcBursts ∧ kind ≠ .tailRestored

theorem withPresent_rest (k : Case) (kind : EvidenceKind) (l : List Present) : withPresent k kind l = { k with
    tailDead := (withPresent k kind l).tailDead, headCurrentDrop := (withPresent k kind l).headCurrentDrop
    headLive := (withPresent k kind l).headLive, groundCurrent := (withPresent k kind l).groundCurrent } := by
  cases kind <;> rfl

theorem presentOf_withPresent_same {kind : EvidenceKind} (listed : Listed kind) (k : Case) (l : List Present) :
    presentOf (withPresent k kind l) kind = l := by
  obtain ⟨arcs, restored⟩ := listed
  cases kind with
  | arcBursts => exact absurd rfl arcs
  | tailRestored => exact absurd rfl restored
  | _ => rfl

theorem presentOf_withPresent_other {kind other : EvidenceKind} (ne : other ≠ kind) (k : Case) (l : List Present) :
    presentOf (withPresent k kind l) other = presentOf k other := by
  grind [presentOf.eq_def, withPresent.eq_def]

/-- The present set goes by the four lists. -/
theorem presentOf_congr {k k' : Case} (dead : k'.tailDead = k.tailDead) (drop : k'.headCurrentDrop = k.headCurrentDrop)
    (live : k'.headLive = k.headLive) (ground : k'.groundCurrent = k.groundCurrent) (kind : EvidenceKind) :
    presentOf k' kind = presentOf k kind := by
  cases kind <;> simp only [presentOf, dead, drop, live, ground]

/-- The record with an admission's ring entry, score and count (steps 1 and 2 of R76). -/
def noted (s : Settings) (k : Case) (it : Item) : Case :=
  { k with
    ring := appendRing k.ring [{ kind := it.kind, sensor := it.sensor, segment := it.segment, timestamp := it.timestamp
                                 weight := weightOf s k it, arcs := it.arcs }]
    score := addScore k.score (weightOf s k it)
    admitted := min 65535 (k.admitted + 1) }

/-- The list of an item's kind once its sensor is on it. -/
def listedWith (k : Case) (it : Item) : List Present :=
  if isDuplicate k it then restamp (presentOf k it.kind) { sensor := it.sensor, timestamp := it.timestamp }
  else joinPresent (presentOf k it.kind) { sensor := it.sensor, timestamp := it.timestamp }

theorem admitted_restored (s : Settings) (k : Case) {it : Item} (h : it.kind = .tailRestored) :
    admitted s k it = { noted s k it with tailDead := k.tailDead.filter fun q => q.sensor != it.sensor } := by
  unfold admitted
  simp only [h]
  simp only [noted, h]

theorem admitted_arcBursts (s : Settings) (k : Case) {it : Item} (h : it.kind = .arcBursts) :
    admitted s k it = contribute (addArcs (noted s k it) (it.arcs.getD 0) it.timestamp) it.sensor := by
  unfold admitted
  simp only [h]
  simp only [noted, h]

theorem admitted_listed (s : Settings) (k : Case) {it : Item} (listed : Listed it.kind) :
    admitted s k it = contribute (withPresent (noted s k it) it.kind (listedWith k it)) it.sensor := by
  obtain ⟨arcs, restored⟩ := listed
  unfold admitted
  split
  · next h => exact absurd h restored
  · next h => exact absurd h arcs
  · have same : presentOf (noted s k it) it.kind = presentOf k it.kind := presentOf_congr rfl rfl rfl rfl _
    rw [listedWith, ← same]
    rfl

theorem kind_cases (kind : EvidenceKind) : kind = .tailRestored ∨ kind = .arcBursts ∨ Listed kind := by
  unfold Listed
  cases kind <;> decide

/-- An admission writes the evidence of the record and nothing else. -/
theorem admitted_rest (s : Settings) (k : Case) (it : Item) : admitted s k it = { k with
    ring := (noted s k it).ring, score := (noted s k it).score, admitted := (noted s k it).admitted
    tailDead := (admitted s k it).tailDead, headCurrentDrop := (admitted s k it).headCurrentDrop
    headLive := (admitted s k it).headLive, groundCurrent := (admitted s k it).groundCurrent
    contributors := (admitted s k it).contributors, unlisted := (admitted s k it).unlisted
    arcCount := (admitted s k it).arcCount, firstArc := (admitted s k it).firstArc, lastArc := (admitted s k it).lastArc } := by
  obtain restored | arcs | listed := kind_cases it.kind
  · rw [admitted_restored s k restored]
    rfl
  · rw [admitted_arcBursts s k arcs, contribute_rest, addArcs_rest]
    rfl
  · rw [admitted_listed s k listed, contribute_rest, withPresent_rest]
    rfl

theorem presentOf_contribute (k : Case) (a : Nat) (kind : EvidenceKind) :
    presentOf (contribute k a) kind = presentOf k kind := by
  rw [contribute_rest]
  exact presentOf_congr rfl rfl rfl rfl kind

theorem presentOf_admitted_same (s : Settings) (k : Case) {it : Item} (listed : Listed it.kind) :
    presentOf (admitted s k it) it.kind = listedWith k it := by
  rw [admitted_listed s k listed, presentOf_contribute, presentOf_withPresent_same listed]

theorem presentOf_admitted_other (s : Settings) (k : Case) (it : Item) {kind : EvidenceKind} (other : kind ≠ it.kind)
    (kept : it.kind = .tailRestored → kind ≠ .tailDead) : presentOf (admitted s k it) kind = presentOf k kind := by
  obtain restored | arcs | listed := kind_cases it.kind
  · rw [admitted_restored s k restored]
    cases kind with
    | tailDead => exact absurd rfl (kept restored)
    | _ => rfl
  · rw [admitted_arcBursts s k arcs, presentOf_contribute, addArcs_rest]
    exact presentOf_congr rfl rfl rfl rfl kind
  · rw [admitted_listed s k listed, presentOf_contribute, presentOf_withPresent_other other]
    exact presentOf_congr rfl rfl rfl rfl kind

/-- The record to which an admission adds its sensor as a contributor. -/
theorem admitted_contributes (s : Settings) (k : Case) {it : Item} (h : it.kind ≠ .tailRestored) :
    ∃ k1, admitted s k it = contribute k1 it.sensor ∧ k1.contributors = k.contributors ∧ k1.unlisted = k.unlisted := by
  obtain restored | arcs | listed := kind_cases it.kind
  · exact absurd restored h
  · refine ⟨_, admitted_arcBursts s k arcs, ?_, ?_⟩ <;> rw [addArcs_rest] <;> rfl
  · refine ⟨_, admitted_listed s k listed, ?_, ?_⟩ <;> rw [withPresent_rest] <;> rfl

theorem addScore_eq (score : Nat) (w : Int) : (addScore score w : Int) = max 0 (min 4095 (score + w)) := by
  unfold addScore
  omega

theorem weightOf_listed {s : Settings} {k : Case} {it : Item} (listed : Listed it.kind) (held : isDuplicate k it = true) :
    weightOf s k it = 0 := by
  obtain ⟨arcs, restored⟩ := listed
  unfold weightOf
  cases kind : it.kind with
  | arcBursts => exact absurd kind arcs
  | tailRestored => exact absurd kind restored
  | _ => exact if_pos held

/-- A sensor that precedes every other of a list is the earliest of it. -/
theorem earliestOf_eq {x : Present} (l : List Present) (best : Present) (mem : x ∈ best :: l)
    (first : ∀ y ∈ best :: l, y ≠ x → diffTime x.timestamp y.timestamp < 0 ∧ 0 ≤ diffTime y.timestamp x.timestamp) :
    earliestOf best l = x := by
  induction l generalizing best with
  | nil => exact (List.mem_singleton.1 mem).symm
  | cons y ys ih =>
    rw [earliestOf]
    by_cases atBest : best = x
    · subst atBest
      have kept : (if diffTime y.timestamp best.timestamp < 0 then y else best) = best := by
        by_cases same : y = best
        · rw [same, ite_self]
        · exact if_neg (Int.not_lt.2 (first y (by simp) same).2)
      rw [kept]
      exact ih best (by simp) fun z inside => first z (by
        obtain rfl | inside := List.mem_cons.1 inside <;> simp [*])
    · by_cases here : y = x
      · subst here
        rw [if_pos (first best (by simp) atBest).1]
        exact ih y (by simp) fun z inside => first z (List.mem_cons_of_mem _ inside)
      · have later : x ∈ ys := by
          obtain rfl | mem := List.mem_cons.1 mem
          · exact absurd rfl atBest
          · exact (List.mem_cons.1 mem).resolve_left (Ne.symm here)
        exact ih _ (List.mem_cons_of_mem _ later) fun z inside => first z (by
          obtain eq | inside := List.mem_cons.1 inside
          · subst eq
            split <;> simp
          · simp [inside])

theorem joinPresent_room {l : List Present} (p : Present) (room : l.length < 8) : joinPresent l p = l ++ [p] := by
  unfold joinPresent
  exact if_pos (by simpa [Config.presentPerKind] using room)

/-- On a full list the earliest gives way. -/
theorem joinPresent_full {l : List Present} {p x : Present} (full : 8 ≤ l.length) (mem : x ∈ l ++ [p])
    (first : ∀ y ∈ l ++ [p], y ≠ x → diffTime x.timestamp y.timestamp < 0 ∧ 0 ≤ diffTime y.timestamp x.timestamp) :
    joinPresent l p = (l ++ [p]).erase x := by
  unfold joinPresent
  simp only []
  rw [if_neg (by simpa [Config.presentPerKind] using full)]
  cases all : l ++ [p] with
  | nil => rfl
  | cons y ys =>
    rw [all] at mem first
    simp only [earliestOf_eq ys y mem first]

theorem addArcs_first {k : Case} (none_ : k.firstArc = none) (arcs stamp : Nat) :
    (addArcs k arcs stamp).firstArc = some stamp ∧ (addArcs k arcs stamp).lastArc = some stamp := by
  unfold addArcs
  simp only [none_]
  exact ⟨trivial, trivial⟩

theorem addArcs_next {k : Case} {a b : Nat} (first : k.firstArc = some a) (last : k.lastArc = some b) (arcs stamp : Nat) :
    (addArcs k arcs stamp).firstArc = some (if diffTime stamp a < 0 then stamp else a)
      ∧ (addArcs k arcs stamp).lastArc = some (if 0 < diffTime stamp b then stamp else b) := by
  unfold addArcs
  simp only [first, last]
  exact ⟨trivial, trivial⟩

theorem admitted_arcs (s : Settings) (k : Case) {it : Item} (h : it.kind = .arcBursts) :
    (admitted s k it).arcCount = min 255 (k.arcCount + it.arcs.getD 0)
      ∧ (admitted s k it).firstArc = (addArcs (noted s k it) (it.arcs.getD 0) it.timestamp).firstArc
      ∧ (admitted s k it).lastArc = (addArcs (noted s k it) (it.arcs.getD 0) it.timestamp).lastArc := by
  rw [admitted_arcBursts s k h, contribute_rest]
  refine ⟨?_, rfl, rfl⟩
  show (addArcs _ _ _).arcCount = _
  rw [addArcs_rest]
  rfl

theorem admitted_arcless (s : Settings) (k : Case) {it : Item} (h : it.kind ≠ .arcBursts) :
    (admitted s k it).arcCount = k.arcCount ∧ (admitted s k it).firstArc = k.firstArc
      ∧ (admitted s k it).lastArc = k.lastArc := by
  obtain restored | arcs | listed := kind_cases it.kind
  · rw [admitted_restored s k restored]
    exact ⟨rfl, rfl, rfl⟩
  · exact absurd arcs h
  · rw [admitted_listed s k listed, contribute_rest, withPresent_rest]
    exact ⟨rfl, rfl, rfl⟩

theorem isDuplicate_iff (k : Case) (it : Item) : isDuplicate k it = true ↔ ∃ q ∈ presentOf k it.kind, q.sensor = it.sensor :=
  holdsSensor_iff _ _

theorem admittedAsStated (s : Settings) (k : Case) (it : Item) : AdmittedAsStated s k it := by
  unfold AdmittedAsStated
  simp only [← isDuplicate_iff, ← holdsSensor_iff k.tailDead]
  refine ⟨weightOf_listed, fun held => ⟨?_, ?_, ?_, ?_⟩, ?_, fun restored => ⟨?_, ?_, ?_, ?_, ?_⟩, ?_, ?_, ?_, fun listed held => ?_,
    fun listed held room => ?_, fun listed held full x mem first => ?_, fun kind other kept =>
      presentOf_admitted_other s k it other kept, fun kind => ?_, fun arcs => ?_, admitted_arcless s k, ?_⟩
  · intro kind
    simp [weightOf, kind, held]
  · intro kind
    simp [weightOf, kind, held]
  · intro kind
    simp [weightOf, kind, held]
  · intro kind
    simp [weightOf, kind, held]
  · intro kind
    simp [weightOf, kind]
  · intro held
    simp [weightOf, restored, held]
  · intro held
    simp [weightOf, restored, held]
  · rw [admitted_restored s k restored]
  · rw [admitted_restored s k restored]
    rfl
  · rw [admitted_restored s k restored]
    rfl
  · rw [admitted_rest]
    rfl
  · rw [admitted_rest]
    exact addScore_eq _ _
  · rw [admitted_rest]
    rfl
  · rw [presentOf_admitted_same s k listed, listedWith, if_pos held, restamp]
  · rw [presentOf_admitted_same s k listed, listedWith, if_neg held, joinPresent_room _ room]
  · rw [presentOf_admitted_same s k listed, listedWith, if_neg held, joinPresent_full full mem first]
  · obtain ⟨k1, eq, contributors, unlisted⟩ := admitted_contributes s k kind
    rw [eq, ← contributors, ← unlisted]
    refine ⟨fun listed => ?_, fun new room => ?_, fun new full => ?_⟩
    · rw [contribute_listed listed]
      exact ⟨rfl, rfl⟩
    · rw [contribute_joins new room]
      exact ⟨rfl, rfl⟩
    · rw [contribute_full new full]
      exact ⟨rfl, rfl⟩
  · obtain ⟨count, first, last⟩ := admitted_arcs s k arcs
    rw [count, first, last]
    exact ⟨rfl, fun none_ => addArcs_first (k := noted s k it) none_ _ _,
      fun a b ha hb => addArcs_next (k := noted s k it) ha hb _ _⟩
  · have rest := admitted_rest s k it
    rw [rest]

/-! ### The record after a merge (R88) -/

section
variable (r : RingEntry) (l : List RingEntry)

theorem insertByTime_perm : (insertByTime r l).Perm (r :: l) := by
  induction l with
  | nil => exact List.Perm.refl _
  | cons x xs ih =>
    rw [insertByTime]
    split
    · exact List.Perm.refl _
    · exact (ih.cons x).trans (List.Perm.swap r x xs)

end

/-- The insertions of a list in turn are a permutation of what they start from and the list. -/
theorem insertAll_perm (l acc : List RingEntry) : (l.foldl (fun acc r => insertByTime r acc) acc).Perm (acc ++ l) := by
  induction l generalizing acc with
  | nil => simp
  | cons r l ih =>
    rw [List.foldl_cons]
    exact (ih _).trans (((insertByTime_perm r acc).append_right l).trans (List.perm_middle.symm))

theorem sortRing_perm (l : List RingEntry) : (sortRing l).Perm l := by
  simpa [sortRing] using insertAll_perm l []

/-- Timestamps that lie less than half a day after one are in the order of their distances from it. -/
theorem diffTime_of_span {first a b : Nat} (ha : 0 ≤ diffTime a first) (hb : 0 ≤ diffTime b first) :
    diffTime a b = diffTime a first - diffTime b first := by
  simp only [diffTime, Config.day, Config.halfDay] at *
  omega

/-- Entries not later than the next one are in one order, when their timestamps span less than half a day. -/
def InSpan (first : Nat) (l : List RingEntry) : Prop := ∀ r ∈ l, 0 ≤ diffTime r.timestamp first

/-- Ring entries in ascending time. -/
def Ascending (l : List RingEntry) : Prop := l.Pairwise fun r s => diffTime r.timestamp s.timestamp ≤ 0

theorem mem_insertByTime (r x : RingEntry) (l : List RingEntry) : x ∈ insertByTime r l ↔ x = r ∨ x ∈ l := by
  rw [(insertByTime_perm r l).mem_iff, List.mem_cons]

section
variable {first : Nat} {r : RingEntry} {l : List RingEntry}

theorem insertByTime_ascending (span : InSpan first (r :: l)) (ascending : Ascending l) : Ascending (insertByTime r l) := by
  induction l with
  | nil => exact List.pairwise_singleton _ _
  | cons x xs ih =>
    obtain ⟨before, rest⟩ := List.pairwise_cons.1 ascending
    have atR := span r (by simp)
    have atX := span x (by simp)
    rw [insertByTime]
    split
    · next later =>
      refine List.pairwise_cons.2 ⟨fun y mem => ?_, ascending⟩
      have atY := span y (List.mem_cons_of_mem _ mem)
      rw [diffTime_of_span atR atY]
      rw [diffTime_of_span atX atR] at later
      obtain rfl | mem := List.mem_cons.1 mem
      · omega
      · have order := before y mem
        rw [diffTime_of_span atX atY] at order
        omega
    · next notLater =>
      refine List.pairwise_cons.2 ⟨fun y mem => ?_, ih (fun y mem => span y ?_) rest⟩
      · obtain rfl | mem := (mem_insertByTime r y xs).1 mem
        · exact Int.not_lt.1 notLater
        · exact before y mem
      · obtain rfl | mem := List.mem_cons.1 mem <;> simp [*]

/-- An entry joins those of its own timestamp at their end. -/
theorem insertByTime_filter (span : InSpan first (r :: l)) (ascending : Ascending l) (t : Nat) :
    (insertByTime r l).filter (fun x => x.timestamp == t)
      = l.filter (fun x => x.timestamp == t) ++ [r].filter (fun x => x.timestamp == t) := by
  induction l with
  | nil => rfl
  | cons x xs ih =>
    obtain ⟨before, rest⟩ := List.pairwise_cons.1 ascending
    have atR := span r (by simp)
    have atX := span x (by simp)
    rw [insertByTime]
    split
    · next later =>
      by_cases here : r.timestamp = t
      · have none_ : (x :: xs).filter (fun x => x.timestamp == t) = [] := by
          refine List.filter_eq_nil_iff.2 fun y mem same => ?_
          have stamp : y.timestamp = r.timestamp := (beq_iff_eq.1 same).trans here.symm
          rw [diffTime_of_span atX atR] at later
          obtain rfl | mem := List.mem_cons.1 mem
          · rw [stamp] at later
            omega
          · have order := before y mem
            rw [diffTime_of_span atX (span y (by simp [mem])), stamp] at order
            omega
        rw [List.filter_cons, none_]
        simp [here]
      · simp [here]
    · have next_ := ih (fun y mem => span y (by
        obtain rfl | mem := List.mem_cons.1 mem <;> simp [*])) rest
      rw [List.filter_cons, next_, List.filter_cons (x := x) (xs := xs)]
      split <;> rfl

end

theorem insertAll_sorted {first : Nat} (l acc : List RingEntry) (span : InSpan first (acc ++ l)) (ascending : Ascending acc) :
    Ascending (l.foldl (fun acc r => insertByTime r acc) acc)
      ∧ ∀ t, (l.foldl (fun acc r => insertByTime r acc) acc).filter (fun r => r.timestamp == t)
        = (acc ++ l).filter (fun r => r.timestamp == t) := by
  induction l generalizing acc with
  | nil => exact ⟨ascending, fun t => by rw [List.append_nil]; rfl⟩
  | cons r l ih =>
    have here : InSpan first (r :: acc) := fun y mem => span y (by
      obtain rfl | mem := List.mem_cons.1 mem <;> simp [*])
    obtain ⟨sorted, stable⟩ := ih (insertByTime r acc) (fun y mem => span y (by
      obtain inside | inside := List.mem_append.1 mem
      · obtain rfl | inside := (mem_insertByTime r y acc).1 inside <;> simp [*]
      · simp [inside])) (insertByTime_ascending here ascending)
    refine ⟨sorted, fun t => (stable t).trans ?_⟩
    rw [List.filter_append, insertByTime_filter here ascending, List.append_assoc, ← List.filter_append,
      ← List.filter_append]
    rfl

theorem sortRing_sorted {first : Nat} {l : List RingEntry} (span : InSpan first l) :
    Ascending (sortRing l)
      ∧ ∀ t, (sortRing l).filter (fun r => r.timestamp == t) = l.filter (fun r => r.timestamp == t) := by
  simpa [sortRing] using insertAll_sorted l [] (by simpa using span) List.Pairwise.nil

theorem sortRing_two (r s : RingEntry) :
    sortRing [r, s] = if 0 < diffTime r.timestamp s.timestamp then [s, r] else [r, s] := rfl

/-- The record of the merging case with the other's ring and TAIL_DEAD entries (steps 1 and 2 of R88). -/
def ringsMerged (x z : Case) : Case :=
  { x with ring := appendRing x.ring (sortRing z.ring), tailDead := z.tailDead.foldl mergeTailDead x.tailDead }

theorem merged_eq (x z : Case) : merged x z = { z.contributors.foldl contribute (ringsMerged x z) with
    unlisted := (z.contributors.foldl contribute (ringsMerged x z)).unlisted || z.unlisted
    score := min 4095 ((z.contributors.foldl contribute (ringsMerged x z)).score + z.score)
    admitted := min 65535 ((z.contributors.foldl contribute (ringsMerged x z)).admitted + z.admitted) } := rfl

theorem contributeAll_rest (l : List Nat) (x : Case) : l.foldl contribute x = { x with
    contributors := (l.foldl contribute x).contributors, unlisted := (l.foldl contribute x).unlisted } := by
  induction l generalizing x with
  | nil => rfl
  | cons a l ih =>
    rw [List.foldl_cons, ih, contribute_rest]

/-- The contributors that join depend on the contributors there are. -/
theorem contribute_congr {x y : Case} (contributors : x.contributors = y.contributors) (unlisted : x.unlisted = y.unlisted)
    (a : Nat) : (contribute x a).contributors = (contribute y a).contributors
      ∧ (contribute x a).unlisted = (contribute y a).unlisted := by
  unfold contribute
  rw [contributors]
  split
  · exact ⟨contributors, unlisted⟩
  · split
    · exact ⟨rfl, unlisted⟩
    · exact ⟨rfl, rfl⟩

theorem contributeAll_congr (l : List Nat) {x y : Case} (contributors : x.contributors = y.contributors)
    (unlisted : x.unlisted = y.unlisted) : (l.foldl contribute x).contributors = (l.foldl contribute y).contributors
      ∧ (l.foldl contribute x).unlisted = (l.foldl contribute y).unlisted := by
  induction l generalizing x y with
  | nil => exact ⟨contributors, unlisted⟩
  | cons a l ih =>
    obtain ⟨contributors', unlisted'⟩ := contribute_congr contributors unlisted a
    exact ih contributors' unlisted'

/-- A merge writes the evidence of the record and nothing else. -/
theorem merged_rest (x z : Case) : merged x z = { x with
    ring := appendRing x.ring (sortRing z.ring)
    tailDead := z.tailDead.foldl mergeTailDead x.tailDead
    contributors := (z.contributors.foldl contribute x).contributors
    unlisted := (z.contributors.foldl contribute x).unlisted || z.unlisted
    score := min 4095 (x.score + z.score), admitted := min 65535 (x.admitted + z.admitted) } := by
  obtain ⟨contributors, unlisted⟩ := contributeAll_congr z.contributors (x := ringsMerged x z) (y := x) rfl rfl
  rw [merged_eq, ← contributors, ← unlisted, contributeAll_rest]
  rfl

theorem mergeTailDead_held {l : List Present} {p : Present} (held : ∃ q ∈ l, q.sensor = p.sensor) : mergeTailDead l p
    = l.map fun q => if q.sensor = p.sensor ∧ 0 < diffTime p.timestamp q.timestamp then p else q :=
  if_pos ((holdsSensor_iff l p.sensor).2 held)

theorem mergeTailDead_new {l : List Present} {p : Present} (new : ¬ ∃ q ∈ l, q.sensor = p.sensor) :
    mergeTailDead l p = joinPresent l p :=
  if_neg fun held => new ((holdsSensor_iff l p.sensor).1 held)

theorem mergedAsStated (x z : Case) : MergedAsStated x z := by
  unfold MergedAsStated
  simp only [merged_rest x z]
  refine ⟨⟨sortRing z.ring, sortRing_perm z.ring, fun r s two => ?_, fun first span => sortRing_sorted span, rfl⟩, trivial,
    fun l p => ⟨mergeTailDead_held, mergeTailDead_new, joinPresent_room p⟩, ⟨trivial, trivial⟩,
    fun y a => ⟨contribute_listed, contribute_joins, contribute_full⟩, trivial, trivial, trivial⟩
  rw [two]
  exact sortRing_two r s

/-! ### The coverage of a head sensor (R19) -/

theorem hasHeadSensor_iff (c : Core) (t : Nat) (ph : Phase) : hasHeadSensor c t ph = true
    ↔ ∃ n v, entryAt c.roster n = some v ∧ v.segment = t ∧ v.side = .head ∧ phaseIn ph v.phases = true := by
  rw [hasHeadSensor, Bool.not_eq_true', List.isEmpty_eq_false_iff_exists_mem]
  simp only [mem_entriesWhere, Bool.and_eq_true, beq_iff_eq, and_assoc]

theorem coverageAsStated (c : Core) (y : Nat) (ph : Phase) : CoverageAsStated c y ph := by
  intro z
  have unsensed : (!((pathOf c.segments z).takeWhile (· != y)).any fun t => hasHeadSensor c t ph) = true
      ↔ ∀ t ∈ (pathOf c.segments z).takeWhile (· != y),
        ¬ ∃ n v, entryAt c.roster n = some v ∧ v.segment = t ∧ v.side = .head ∧ phaseIn ph v.phases = true := by
    simp only [← hasHeadSensor_iff, Bool.not_eq_true', List.any_eq_false]
  rw [headCoverage, List.mem_filter, List.mem_range, inCoverage]
  cases hr : entryAt c.segments z with
  | none => simp
  | some r =>
    simp only [Bool.and_eq_true, unsensed, List.contains_iff_mem, Option.some.injEq, and_assoc]
    constructor
    · rintro ⟨inside, carries, onPath, none_⟩
      exact ⟨inside, ⟨r, rfl, carries⟩, onPath, none_⟩
    · rintro ⟨inside, ⟨r', rfl, carries⟩, onPath, none_⟩
      exact ⟨inside, carries, onPath, none_⟩

/-! ### The case that makes room (R74) -/

/-- A case in WATCH takes the place of the best candidate where its score is lower. -/
theorem evictionBetter_watch {c : Core} {n : Nat} {k : Case} (hk : entryAt c.cases n = some k) (watch : k.state = .watch)
    (best : Option (Nat × Nat)) : evictionBetter c best n
      = some (best.elim (n, k.score) fun b => if k.score < b.2 then (n, k.score) else b) := by
  unfold evictionBetter
  rw [hk]
  simp only [watch]
  cases best with
  | none => rfl
  | some b => exact (apply_ite some _ _ _).symm

theorem evictionBetter_other {c : Core} {n : Nat} (none_ : ∀ k, entryAt c.cases n = some k → k.state ≠ .watch)
    (best : Option (Nat × Nat)) : evictionBetter c best n = best := by
  unfold evictionBetter
  cases hk : entryAt c.cases n with
  | none => rfl
  | some k =>
    cases state : k.state with
    | watch => exact absurd state (none_ k hk)
    | _ => simp only [state]

/-- No case of a list of entries is in WATCH. -/
def NoneInWatch (c : Core) (l : List Nat) : Prop := ∀ m ∈ l, ∀ k, entryAt c.cases m = some k → k.state ≠ .watch

/-- The WATCH case of the lowest score of a list of entries, of equals the one met first. -/
def LeastOf (c : Core) (l : List Nat) (n score : Nat) : Prop :=
  n ∈ l ∧ (∃ k, entryAt c.cases n = some k ∧ k.state = .watch ∧ k.score = score)
    ∧ ∀ m ∈ l, ∀ x, entryAt c.cases m = some x → x.state = .watch →
      score < x.score ∨ (score = x.score ∧ l.idxOf n ≤ l.idxOf m)

section
variable {c : Core} {l : List Nat} {x : Nat}

theorem noneInWatch_append (none_ : NoneInWatch c l) (other : ∀ k, entryAt c.cases x = some k → k.state ≠ .watch) :
    NoneInWatch c (l ++ [x]) := by
  intro m mem
  obtain inside | rfl := List.mem_append.1 mem |>.imp id List.mem_singleton.1
  · exact none_ m inside
  · exact other

theorem leastOf_new {k : Case} (hk : entryAt c.cases x = some k) (watch : k.state = .watch)
    (lower : ∀ m ∈ l, ∀ y, entryAt c.cases m = some y → y.state = .watch → k.score < y.score) :
    LeastOf c (l ++ [x]) x k.score := by
  refine ⟨by simp, ⟨k, hk, watch, rfl⟩, fun m mem y hy inWatch => ?_⟩
  obtain inside | rfl := List.mem_append.1 mem |>.imp id List.mem_singleton.1
  · exact .inl (lower m inside y hy inWatch)
  · obtain rfl := Option.some.inj (hk.symm.trans hy)
    exact .inr ⟨rfl, Nat.le_refl _⟩

theorem leastOf_kept {n score : Nat} (least : LeastOf c l n score)
    (higher : ∀ y, entryAt c.cases x = some y → y.state = .watch → score ≤ y.score) :
    LeastOf c (l ++ [x]) n score := by
  obtain ⟨mem, watched, all⟩ := least
  have at_ : (l ++ [x]).idxOf n = l.idxOf n := List.idxOf_append_of_mem mem
  refine ⟨List.mem_append_left _ mem, watched, fun m inside y hy inWatch => ?_⟩
  by_cases before : m ∈ l
  · rw [at_, List.idxOf_append_of_mem before]
    exact all m before y hy inWatch
  · obtain rfl := List.mem_singleton.1 ((List.mem_append.1 inside).resolve_left before)
    have later : l.idxOf n ≤ (l ++ [m]).idxOf m := by
      rw [List.idxOf_append_of_notMem before]
      exact Nat.le_trans (Nat.le_of_lt (List.idxOf_lt_length_of_mem mem)) (Nat.le_add_right _ _)
    have enough := higher y hy inWatch
    rw [at_]
    omega

end

/-- The candidates met so far leave none, or the least of them. -/
theorem evictionBest (c : Core) (l : List Nat) :
    (l.foldl (evictionBetter c) none = none → NoneInWatch c l)
      ∧ ∀ n s, l.foldl (evictionBetter c) none = some (n, s) → LeastOf c l n s := by
  induction l using List.reverseRecOn with
  | nil => exact ⟨fun _ => nofun, fun n s h => nomatch h⟩
  | append_singleton l x ih =>
    obtain ⟨none_, least⟩ := ih
    rw [List.foldl_append, List.foldl_cons, List.foldl_nil]
    by_cases watch : ∃ k, entryAt c.cases x = some k ∧ k.state = .watch
    · obtain ⟨k, hk, inWatch⟩ := watch
      rw [evictionBetter_watch hk inWatch]
      cases best : l.foldl (evictionBetter c) none with
      | none =>
        refine ⟨fun h => (nomatch h), fun n s h => ?_⟩
        obtain ⟨rfl, rfl⟩ := Prod.mk.inj (Option.some.inj h)
        exact leastOf_new hk inWatch fun m mem y hy watching => absurd watching (none_ best m mem y hy)
      | some b =>
        obtain ⟨m, low⟩ := b
        have before := least m low best
        simp only [Option.elim_some]
        by_cases lower : k.score < low
        · rw [if_pos lower]
          refine ⟨fun h => (nomatch h), fun n s h => ?_⟩
          obtain ⟨rfl, rfl⟩ := Prod.mk.inj (Option.some.inj h)
          obtain ⟨-, -, all⟩ := before
          exact leastOf_new hk inWatch fun i mem y hy watching => by
            have atLeast := all i mem y hy watching
            omega
        · rw [if_neg lower]
          refine ⟨fun h => (nomatch h), fun n s h => ?_⟩
          obtain ⟨rfl, rfl⟩ := Prod.mk.inj (Option.some.inj h)
          exact leastOf_kept before fun y hy _ => by
            obtain rfl := Option.some.inj (hk.symm.trans hy)
            exact Nat.not_lt.1 lower
    · have other : ∀ k, entryAt c.cases x = some k → k.state ≠ .watch := fun k hk inWatch => watch ⟨k, hk, inWatch⟩
      rw [evictionBetter_other other]
      exact ⟨fun h => noneInWatch_append (none_ h) other, fun n s h =>
        leastOf_kept (least n s h) fun y hy inWatch => absurd inWatch (other y hy)⟩

theorem evicteeAsStated (c : Core) : EvicteeAsStated c := by
  obtain ⟨none_, least⟩ := evictionBest c (c.opened ++ List.range c.cases.length)
  have everywhere : ∀ {n : Nat} {k : Case}, entryAt c.cases n = some k → n ∈ c.opened ++ List.range c.cases.length :=
    fun hk => List.mem_append_right _ (List.mem_range.2 (entryAt_lt hk))
  refine ⟨?_, fun n chosen => ?_⟩
  · rw [evictee, Option.map_eq_none_iff]
    refine ⟨fun h n k hk => none_ h n (everywhere hk) k hk, fun all => ?_⟩
    cases best : (c.opened ++ List.range c.cases.length).foldl (evictionBetter c) none with
    | none => rfl
    | some b =>
      obtain ⟨-, ⟨k, hk, watch, -⟩, -⟩ := least b.1 b.2 best
      exact absurd watch (all _ k hk)
  · obtain ⟨⟨m, s⟩, best, rfl⟩ := Option.map_eq_some_iff.1 chosen
    obtain ⟨-, ⟨k, hk, watch, rfl⟩, all⟩ := least m s best
    exact ⟨k, hk, watch, fun i x hx inWatch => all i (everywhere hx) x hx inWatch⟩

end Sys2Proof.Machine

end

