-- ==== Sys2Proof/Proofs/EvidenceCases.lean ====
section
/-! PROOF. The case on a segment and phase, what stands there for an item, and the merges of descendants (R57, R68,
R87 to R89). -/

namespace Sys2Proof.Machine

/-! ### The case on a segment and phase (R68) -/

/-- A case of the segment and phase stands in an entry. -/
def StandsAt (c : Core) (s : Nat) (ph : Phase) (n : Nat) : Prop :=
  ∃ k, entryAt c.cases n = some k ∧ k.segment = s ∧ k.phase = ph

section
variable {c c' : Core} {s : Nat} {ph : Phase} {n : Nat} {k : Case}

theorem mem_casesOn : n ∈ entriesWhere c.cases (fun k => k.segment == s && k.phase == ph) ↔ StandsAt c s ph n := by
  simp [mem_entriesWhere, StandsAt]

theorem caseOn_eq_none_iff : caseOn c s ph = none ↔ ∀ n, ¬ StandsAt c s ph n := by
  rw [caseOn, List.head?_eq_none_iff, List.eq_nil_iff_forall_not_mem]
  simp only [mem_casesOn]

/-- It is the lowest entry in which a case of the segment and phase stands. -/
theorem caseOn_eq_some_iff : caseOn c s ph = some n ↔ StandsAt c s ph n ∧ ∀ m, StandsAt c s ph m → n ≤ m := by
  have sorted := entriesWhere_pairwise c.cases fun k => k.segment == s && k.phase == ph
  simp only [← mem_casesOn]
  rw [caseOn]
  cases found : entriesWhere c.cases fun k => k.segment == s && k.phase == ph with
  | nil => simp
  | cons x xs =>
    rw [found] at sorted
    obtain ⟨first, -⟩ := List.pairwise_cons.1 sorted
    rw [List.head?_cons]
    constructor
    · intro eq
      obtain rfl := Option.some.inj eq
      refine ⟨by simp, fun m mem => ?_⟩
      obtain rfl | mem := List.mem_cons.1 mem
      · exact Nat.le_refl _
      · exact Nat.le_of_lt (first m mem)
    · rintro ⟨mem, least⟩
      obtain rfl | mem := List.mem_cons.1 mem
      · rfl
      · exact absurd (first n mem) (Nat.not_lt.2 (least x (by simp)))

theorem caseOn_stands (h : caseOn c s ph = some n) : ∃ k, entryAt c.cases n = some k ∧ k.segment = s ∧ k.phase = ph :=
  (caseOn_eq_some_iff.1 h).1

theorem caseOn_congr (same : ∀ m, StandsAt c' s ph m ↔ StandsAt c s ph m) : caseOn c' s ph = caseOn c s ph := by
  cases h : caseOn c s ph with
  | none => exact caseOn_eq_none_iff.2 fun n stands => caseOn_eq_none_iff.1 h n ((same n).1 stands)
  | some n =>
    obtain ⟨stands, least⟩ := caseOn_eq_some_iff.1 h
    exact caseOn_eq_some_iff.2 ⟨(same n).2 stands, fun m here => least m ((same m).1 here)⟩

theorem caseAt_segment (here : CaseAt c s ph n k) : k.segment = s ∧ k.phase = ph := by
  obtain ⟨on, hk, -⟩ := here
  obtain ⟨k', hk', place⟩ := caseOn_stands on
  obtain rfl := Option.some.inj (hk.symm.trans hk')
  exact place

/-- A case written in the place of one of its segment and phase stands as that did. -/
theorem standsAt_withCase_same (hk : entryAt c.cases n = some k) {k' : Case} (segment : k'.segment = k.segment)
    (phase : k'.phase = k.phase) (m : Nat) : StandsAt (withCase n k' c) s ph m ↔ StandsAt c s ph m := by
  unfold StandsAt
  rw [entryAt_withCase hk]
  by_cases here : m = n
  · subst here
    simp [hk, segment, phase]
  · simp [here]

theorem caseOn_withCase_same (hk : entryAt c.cases n = some k) {k' : Case} (segment : k'.segment = k.segment)
    (phase : k'.phase = k.phase) (s : Nat) (ph : Phase) : caseOn (withCase n k' c) s ph = caseOn c s ph :=
  caseOn_congr (standsAt_withCase_same hk segment phase)

/-- An entry read after a write holds what was written, or what it held. -/
theorem entryAt_withCase_cases {m : Nat} {x : Case} (h : entryAt (withCase n k c).cases m = some x) :
    m = n ∧ x = k ∨ m ≠ n ∧ entryAt c.cases m = some x := by
  have at_ : (withCase n k c).cases.length = c.cases.length := List.length_set
  have lt : m < c.cases.length := at_ ▸ entryAt_lt h
  by_cases here : m = n
  · subst here
    rw [show entryAt (withCase m k c).cases m = some k from
      (entryAt_putAt c.cases m m (some k) lt).trans (if_pos rfl)] at h
    exact .inl ⟨rfl, (Option.some.inj h).symm⟩
  · refine .inr ⟨here, ?_⟩
    rw [← h]
    simp [entryAt, withCase, List.getElem?_set_ne (Ne.symm here)]

theorem entryAt_withCase_other {m : Nat} (here : m ≠ n) : entryAt (withCase n k c).cases m = entryAt c.cases m := by
  simp [entryAt, withCase, List.getElem?_set_ne (Ne.symm here)]

/-- A case of another segment does not come to stand on a segment. -/
theorem standsAt_withCase_other (segment : k.segment ≠ s) {m : Nat} (stands : StandsAt (withCase n k c) s ph m) :
    m ≠ n ∧ StandsAt c s ph m := by
  obtain ⟨x, hx, place⟩ := stands
  obtain ⟨-, rfl⟩ | ⟨ne, there⟩ := entryAt_withCase_cases hx
  · exact absurd place.1 segment
  · exact ⟨ne, x, there, place⟩

theorem standsAt_freed {m : Nat} : StandsAt (freed n c) s ph m ↔ m ≠ n ∧ StandsAt c s ph m := by
  unfold StandsAt
  rw [entryAt_freed]
  by_cases here : m = n <;> simp [here]

end

/-! ### What stands on a segment for an item (R57) -/

section
variable {c : Core} {s : Nat} {ph : Phase} {n : Nat} {k : Case}

theorem standing_none (h : caseOn c s ph = none) : standing c s ph = .none := by
  unfold standing
  rw [h]

theorem standing_taking (here : CaseAt c s ph n k) (takes : k.state = .watch ∨ k.state = .confirmed) :
    standing c s ph = .taking n := by
  obtain ⟨on, hk, good⟩ := here
  unfold standing
  simp only [on, good, hk, Bool.false_eq_true, if_false]
  obtain state | state := takes <;> simp [takesEvidence, state]

theorem standing_past (here : CaseAt c s ph n k) (past : k.state = .isolating ∨ k.state = .isolated ∨ k.state = .blocked) :
    standing c s ph = .past := by
  obtain ⟨on, hk, good⟩ := here
  unfold standing
  simp only [on, good, hk, Bool.false_eq_true, if_false]
  obtain state | state | state := past <;> simp [takesEvidence, state]

/-- The search along a path passes over the segments on which no case stands. -/
theorem searchPath_append {pre : List Nat} (none_ : ∀ x ∈ pre, caseOn c x ph = none) (rest : List Nat) :
    searchPath c ph (pre ++ rest) = searchPath c ph rest := by
  induction pre with
  | nil => rfl
  | cons x pre ih =>
    rw [List.cons_append, searchPath, standing_none (none_ x (by simp))]
    exact ih fun y mem => none_ y (by simp [mem])

theorem searchPath_none {path : List Nat} (none_ : ∀ x ∈ path, caseOn c x ph = none) : searchPath c ph path = none := by
  rw [← List.append_nil path, searchPath_append none_]
  rfl

theorem searchPath_at {t : Nat} {st : Standing} (stands : standing c t ph = st) (some_ : st ≠ .none) (rest : List Nat) :
    searchPath c ph (t :: rest) = some (t, st) := by
  rw [searchPath, stands]
  cases st with
  | none => exact absurd rfl some_
  | _ => rfl

end

/-! ### The cases to merge (R87) -/

/-- The cases on the descendants of a segment, of a phase. -/
def OnDescendant (c : Core) (x : Nat) (ph : Phase) (m : Nat) : Prop :=
  ∃ z k, z < 96 ∧ isAncestor c.segments x z = true ∧ caseOn c z ph = some m ∧ entryAt c.cases m = some k ∧ k.state = .watch

/-- The case that a segment gives the list of those to merge. -/
def mergeableOn (c : Core) (x : Nat) (ph : Phase) (z : Nat) : Option Nat :=
  if isAncestor c.segments x z then
    (caseOn c z ph).filter fun n => (entryAt c.cases n).any fun k => k.state == .watch
  else none

theorem mergeable_eq (c : Core) (x : Nat) (ph : Phase) :
    mergeable c x ph = (List.range 96).filterMap (mergeableOn c x ph) := by
  refine congrArg (fun f => (List.range 96).filterMap f) (funext fun z => ?_)
  unfold mergeableOn
  split
  · cases caseOn c z ph with
    | none => rfl
    | some n =>
      simp only [Option.filter_some]
      cases entryAt c.cases n with
      | none => rfl
      | some k => simp [Option.any_some]
  · rfl

theorem mergeableOn_eq_some_iff {c : Core} {x : Nat} {ph : Phase} {z m : Nat} : mergeableOn c x ph z = some m
    ↔ isAncestor c.segments x z = true ∧ caseOn c z ph = some m ∧ ∃ k, entryAt c.cases m = some k ∧ k.state = .watch := by
  unfold mergeableOn
  split
  · next below => simp [below, Option.filter_eq_some_iff, Option.any_eq_true]
  · next above => simp [above]

theorem mem_mergeable_iff (c : Core) (x : Nat) (ph : Phase) (m : Nat) : m ∈ mergeable c x ph ↔ OnDescendant c x ph m := by
  rw [mergeable_eq, List.mem_filterMap]
  simp only [mergeableOn_eq_some_iff, List.mem_range]
  constructor
  · rintro ⟨z, inside, below, on, k, hk, watch⟩
    exact ⟨z, k, inside, below, on, hk, watch⟩
  · rintro ⟨z, k, inside, below, on, hk, watch⟩
    exact ⟨z, inside, below, on, k, hk, watch⟩

/-- The cases to merge stand in ascending segment number. -/
theorem mergeable_ascends (c : Core) (x : Nat) (ph : Phase) : (mergeable c x ph).Pairwise fun a b =>
    ∀ ka kb, entryAt c.cases a = some ka → entryAt c.cases b = some kb → ka.segment < kb.segment := by
  rw [mergeable_eq, List.pairwise_filterMap]
  refine List.pairwise_lt_range.imp fun {y z} lt a ha b hb ka kb hka hkb => ?_
  obtain ⟨-, onY, -⟩ := mergeableOn_eq_some_iff.1 ha
  obtain ⟨-, onZ, -⟩ := mergeableOn_eq_some_iff.1 hb
  obtain ⟨k, hk, segment, -⟩ := caseOn_stands onY
  obtain ⟨k', hk', segment', -⟩ := caseOn_stands onZ
  obtain rfl := Option.some.inj (hk.symm.trans hka)
  obtain rfl := Option.some.inj (hk'.symm.trans hkb)
  omega

theorem mergeable_watch {c : Core} {x : Nat} {ph : Phase} {m : Nat} {k : Case} (mem : m ∈ mergeable c x ph)
    (hk : entryAt c.cases m = some k) : k.state = .watch := by
  obtain ⟨z, k', -, -, -, hk', watch⟩ := (mem_mergeable_iff c x ph m).1 mem
  obtain rfl := Option.some.inj (hk.symm.trans hk')
  exact watch

theorem mergeable_eq_nil {c : Core} {x : Nat} {ph : Phase} (none_ : ∀ m, ¬ OnDescendant c x ph m) : mergeable c x ph = [] :=
  List.eq_nil_iff_forall_not_mem.2 fun m mem => none_ m ((mem_mergeable_iff c x ph m).1 mem)

/-! ### The merges (R88, R89) -/

/-- The cases of a list can be merged into the case of an entry: it is not among them, and they stand in WATCH with
their fields in their ranges. -/
def Mergeables (c : Core) (n : Nat) (zs : List Nat) : Prop :=
  n ∉ zs ∧ ∀ z ∈ zs, ∀ kz, entryAt c.cases z = some kz → kz.state = .watch ∧ kz.unreadable = []

theorem mergeInto_eq {n z : Nat} {kx kz : Case} {e : Ev} (hx : entryAt e.cases n = some kx) (hz : entryAt e.cases z = some kz)
    (watch : kz.state = .watch) (readable : kz.unreadable = []) : mergeInto n e z = { e with
      toCore := freed z (withCase n (merged kx kz) e.toCore)
      out := e.out ++ [caseTold z kz (some .watch) none .merged none e.time.now,
        segmentCount .casesClosedUnconfirmed (some kz.segment) 1] } := by
  unfold mergeInto
  simp only [hx, hz]
  rw [freeCase_told readable, watch, if_pos rfl]
  rfl

theorem mergesInto_cons {n z : Nat} {zs : List Nat} {kx kz : Case} {c : Core} (hx : entryAt c.cases n = some kx)
    (hz : entryAt c.cases z = some kz) : mergesInto n (z :: zs) c
      = ([caseTold z kz (some .watch) none .merged none c.time.now,
          segmentCount .casesClosedUnconfirmed (some kz.segment) 1]
            ++ (mergesInto n zs (freed z (withCase n (merged kx kz) c))).1,
        (mergesInto n zs (freed z (withCase n (merged kx kz) c))).2) := by
  simp only [mergesInto, hx, hz]
  rfl

theorem mergesInto_skip {n z : Nat} {zs : List Nat} {c : Core} (hz : entryAt c.cases z = none) :
    mergesInto n (z :: zs) c = mergesInto n zs c := by
  rw [mergesInto]
  cases entryAt c.cases n <;> simp only [hz]

theorem mergeInto_skip {n z : Nat} {e : Ev} (hz : entryAt e.cases z = none) : mergeInto n e z = e := by
  unfold mergeInto
  cases entryAt e.cases n <;> simp only [hz]

/-- What a merge leaves of the cases still to merge. -/
theorem mergeables_tail {c : Core} {n z : Nat} {zs : List Nat} (all : Mergeables c n (z :: zs)) (k : Case) :
    Mergeables (freed z (withCase n k c)) n zs := by
  obtain ⟨apart, each⟩ := all
  refine ⟨fun mem => apart (by simp [mem]), fun y mem ky hy => each y (by simp [mem]) ky ?_⟩
  rw [entryAt_freed] at hy
  have ne : y ≠ n := fun eq => apart (by simp [← eq, mem])
  rw [entryAt_withCase_other ne] at hy
  split at hy
  · cases hy
  · exact hy

theorem entryAt_merged {c : Core} {n z : Nat} {k kx : Case} (hx : entryAt c.cases n = some kx) (apart : n ≠ z) :
    entryAt (freed z (withCase n k c)).cases n = some k := by
  rw [entryAt_freed, if_neg apart, entryAt_withCase hx, if_pos rfl]

/-- The merges of a list in turn. -/
theorem mergeInto_each {n : Nat} (zs : List Nat) {kx : Case} (e : Ev) (hx : entryAt e.cases n = some kx)
    (all : Mergeables e.toCore n zs) : zs.foldl (mergeInto n) e
      = { e with toCore := (mergesInto n zs e.toCore).2, out := e.out ++ (mergesInto n zs e.toCore).1 } := by
  induction zs generalizing e kx with
  | nil => simp [mergesInto]
  | cons z zs ih =>
    obtain ⟨apart, each⟩ := all
    rw [List.foldl_cons]
    cases hz : entryAt e.cases z with
    | none =>
      rw [mergeInto_skip hz, mergesInto_skip hz]
      exact ih e hx ⟨fun mem => apart (by simp [mem]), fun y mem => each y (by simp [mem])⟩
    | some kz =>
      obtain ⟨watch, readable⟩ := each z (by simp) kz hz
      rw [mergeInto_eq hx hz watch readable, mergesInto_cons hx hz,
        ih _ (entryAt_merged hx (by rintro rfl; exact apart (by simp))) (mergeables_tail ⟨apart, each⟩ _)]
      simp only [List.append_assoc]

section
variable {env : Env} {n x : Nat} {ph : Phase} {e : Ev} (sound : AllSound e.toCore)
include sound

theorem mergeDescendants_none (none_ : mergeable e.toCore x ph = []) : mergeDescendants env n x ph e = e := by
  unfold mergeDescendants
  rw [firstBad_sound sound]
  simp only [none_]

theorem mergeDescendants_some {zs : List Nat} {kx : Case} (some_ : mergeable e.toCore x ph = zs) (any : zs ≠ [])
    (apart : n ∉ zs) (hx : entryAt e.cases n = some kx)
    (readable : ∀ z ∈ zs, ∀ kz, entryAt e.cases z = some kz → kz.unreadable = []) :
    mergeDescendants env n x ph e = confirmTest env n
      { e with toCore := (mergesInto n zs e.toCore).2, out := e.out ++ (mergesInto n zs e.toCore).1 } := by
  have all : Mergeables e.toCore n zs := ⟨apart, fun z mem kz hz =>
    ⟨mergeable_watch (some_ ▸ mem) hz, readable z mem kz hz⟩⟩
  rw [← mergeInto_each zs e hx all]
  unfold mergeDescendants
  rw [firstBad_sound sound]
  simp only [some_]

theorem mergeDescendants_one {z : Nat} {kx kz : Case} (one : mergeable e.toCore x ph = [z]) (apart : n ≠ z)
    (hx : entryAt e.cases n = some kx) (hz : entryAt e.cases z = some kz) (readable : kz.unreadable = []) :
    mergeDescendants env n x ph e = confirmTest env n { e with
      toCore := freed z (withCase n (merged kx kz) e.toCore)
      out := e.out ++ [caseTold z kz (some .watch) none .merged none e.time.now,
        segmentCount .casesClosedUnconfirmed (some kz.segment) 1] } := by
  rw [mergeDescendants_some sound one (by simp) (by simpa using apart) hx (by
    intro y mem ky hy
    obtain rfl := List.mem_singleton.1 mem
    obtain rfl := Option.some.inj (hz.symm.trans hy)
    exact readable), mergesInto_cons hx hz]
  simp only [mergesInto, List.append_nil]

end

end Sys2Proof.Machine

end

