-- ==== Sys2Proof/Proofs/EvidenceRoutes.lean ====
section
/-! PROOF. The admission of an item, the opening of a case for it, and the way it takes through the cases (R57 to R64,
R67, R73 to R76, R80 to R83). -/

namespace Sys2Proof.Machine

/-! ### The event of an item -/

/-- The event of an item in which the blocks have become `c`, `xs` has been told and counted, and the cases of the
entries `ns` have been confirmed. -/
def handled (c : Core) (xs : List Emit) (ns : List Nat) : Ev := { startEvent c with out := xs, confirmedNow := ns }

/-- The blocks differ in the case table and in what is held for its entries only. -/
def CasesOnly (c c' : Core) : Prop := c' = { c with
  cases := c'.cases, serial := c'.serial, counted := c'.counted, opened := c'.opened, walks := c'.walks, room := c'.room }

namespace CasesOnly

theorem refl (c : Core) : CasesOnly c c := rfl

theorem trans {c c' c'' : Core} (h : CasesOnly c c') (g : CasesOnly c' c'') : CasesOnly c c'' := by
  unfold CasesOnly at *
  rw [g, h]

theorem withCase (n : Nat) (k : Case) (c : Core) : CasesOnly c (withCase n k c) := rfl

theorem freed (n : Nat) (c : Core) : CasesOnly c (freed n c) := rfl

section
variable {c c' : Core} (h : CasesOnly c c')
include h

theorem segments : c'.segments = c.segments := by rw [h]
theorem time : c'.time = c.time := by rw [h]
theorem supervision : c'.supervision = c.supervision := by rw [h]
theorem orders : c'.orders = c.orders := by rw [h]
theorem healthy : Machine.healthy c' = Machine.healthy c := by
  rw [h]
  rfl

theorem unclosed (none_ : NoCloses c) : NoCloses c' := by
  intro o mem
  rw [h.orders] at mem
  exact none_ o mem

theorem allSound (sound : AllSound c) (cases : Sound c'.cases) : AllSound c' := by
  obtain ⟨segments, roster, devices, plans, -⟩ := sound
  refine ⟨?_, ?_, ?_, ?_, cases⟩ <;> rw [h] <;> assumption

theorem headCoverage (s : Nat) (ph : Phase) : Machine.headCoverage c' s ph = Machine.headCoverage c s ph := by
  rw [h]
  rfl

end

end CasesOnly

theorem mergesInto_casesOnly (n : Nat) (zs : List Nat) (c : Core) : CasesOnly c (mergesInto n zs c).2 := by
  induction zs generalizing c with
  | nil => exact .refl c
  | cons z zs ih =>
    rw [mergesInto]
    split
    · exact ((CasesOnly.withCase n _ c).trans (.freed z _)).trans (ih _)
    · exact ih c

theorem sound_mergesInto (n : Nat) (zs : List Nat) {c : Core} (sound : Sound c.cases) : Sound (mergesInto n zs c).2.cases := by
  induction zs generalizing c with
  | nil => exact sound
  | cons z zs ih =>
    rw [mergesInto]
    split
    · exact ih (sound_set (sound_set sound n _) z none)
    · exact ih sound

/-- The case merged into keeps all that a merge does not write. -/
theorem entryAt_mergesInto {n : Nat} (zs : List Nat) {c : Core} {k : Case} (hk : entryAt c.cases n = some k)
    (apart : n ∉ zs) : ∃ k2, entryAt (mergesInto n zs c).2.cases n = some k2 ∧ k2 = { k with
      ring := k2.ring, tailDead := k2.tailDead, contributors := k2.contributors, unlisted := k2.unlisted
      score := k2.score, admitted := k2.admitted } := by
  induction zs generalizing c k with
  | nil => exact ⟨k, hk, rfl⟩
  | cons z zs ih =>
    cases hz : entryAt c.cases z with
    | none =>
      rw [mergesInto_skip hz]
      exact ih hk fun mem => apart (by simp [mem])
    | some kz =>
      rw [mergesInto_cons hk hz]
      obtain ⟨k2, hk2, rest⟩ := ih (entryAt_merged (z := z) (k := merged k kz) hk fun same => apart (by simp [same]))
        fun mem => apart (by simp [mem])
      refine ⟨k2, hk2, rest.trans ?_⟩
      rw [merged_rest]

/-! ### The confirmation test (R80 to R82) -/

/-- A case as its confirmation leaves it. -/
def confirmedRecord (k : Case) (f : Finding) (now : Nat) : Case :=
  { k with
    state := .confirmed, finding := some f
    isolation := some { confirmedAt := now, plan := none, step := 0, depth := 0, late := false, isolatedBy := none } }

/-- What a confirmation tells and counts. -/
def confirmingTold (n : Nat) (k : Case) (f : Finding) (now : Nat) : List Emit :=
  [caseTold n (confirmedRecord k f now) (some .watch) (some .confirmed) .confirmed none now,
   segmentCount .casesConfirmed (some k.segment) 1,
   segmentCount .evidenceConfirming (some k.segment) k.admitted]

section
variable {p : Part} {c : Core} {n : Nat} {k : Case} (hk : entryAt c.cases n = some k) (lock : c.time.lock = p.core.time.lock)
  (xs : List Emit) (ns : List Nat)
include hk lock

theorem confirmTest_stays (stays : StaysUnconfirmed p k) :
    confirmTest (envOf p) n (handled c xs ns) = handled c xs ns := by
  obtain confirmed | ⟨watch, broken, downed⟩ := stays
  · simp only [confirmTest, handled, startEvent, hk, confirmed]
  · refine confirmTest_noFinding (envOf p) (by exact hk) watch ?_
    rw [← lock] at broken
    simp only [findingFor, envOf, handled, startEvent, broken, downed]

theorem confirmTest_confirms {f : Finding} (confirms : Confirms p k f) : confirmTest (envOf p) n (handled c xs ns)
    = handled (withCase n (confirmedRecord k f c.time.now) c) (xs ++ confirmingTold n k f c.time.now) (ns ++ [n]) := by
  obtain ⟨watch, readable, found⟩ := confirms
  rw [← lock] at found
  have finding : findingFor (envOf p).settings (handled c xs ns).time.lock k = some f := by
    obtain ⟨broken, downed, rfl⟩ | ⟨broken, downed, rfl⟩ | ⟨broken, downed, rfl⟩ := found <;>
      simp only [findingFor, envOf, handled, startEvent, broken, downed]
  rw [confirmTest_finding (envOf p) (by exact hk) watch finding]
  simp [confirmCase, changeCase, putCase, raise, countSegment, occur, caseNotice, putAt, watch, readable, handled, startEvent,
    withCase, confirmedRecord, confirmingTold, caseTold, segmentCount]

end

/-- The test leaves the case where it is. -/
theorem confirmTest_core {env : Env} {n : Nat} {e : Ev} {k : Case} (hk : entryAt e.cases n = some k) :
    (confirmTest env n e).toCore = e.toCore
      ∨ ∃ f, (confirmTest env n e).toCore = withCase n (confirmedRecord k f e.time.now) e.toCore := by
  unfold confirmTest
  rw [hk]
  simp only []
  split
  · split
    · exact .inl rfl
    · next f _ => exact .inr ⟨f, rfl⟩
  · exact .inl rfl

/-! ### Admission (R67, R76) -/

theorem admission_eq {env : Env} {n : Nat} {it : Item} {k : Case} {e : Ev} (hk : entryAt e.cases n = some k)
    (kind : it.kind ≠ .tailRestored) : admission env n it e = confirmTest env n { e with
      toCore := withCase n (admitted env.settings k it) e.toCore
      out := e.out ++ [sensorCount .evidenceAdmitted (some k.segment) it.sensor] } := by
  unfold admission
  rw [hk]
  simp only []
  rfl

theorem admitted_place (s : Settings) (k : Case) (it : Item) : (admitted s k it).segment = k.segment
    ∧ (admitted s k it).phase = k.phase ∧ (admitted s k it).state = k.state ∧ (admitted s k it).unreadable = k.unreadable
    ∧ (admitted s k it).finding = k.finding := by
  rw [admitted_rest]
  exact ⟨rfl, rfl, rfl, rfl, rfl⟩

/-- An admission writes its case, which keeps its place, and nothing else of the blocks. -/
theorem admission_core {env : Env} {n : Nat} {it : Item} {k : Case} {e : Ev} (hk : entryAt e.cases n = some k)
    (kind : it.kind ≠ .tailRestored) : ∃ k1, (admission env n it e).toCore = withCase n k1 e.toCore
      ∧ k1.segment = k.segment ∧ k1.phase = k.phase := by
  obtain ⟨segment, phase, -⟩ := admitted_place env.settings k it
  rw [admission_eq hk kind]
  obtain same | ⟨f, confirmed⟩ := confirmTest_core (env := env) (n := n) (e := { e with
      toCore := withCase n (admitted env.settings k it) e.toCore
      out := e.out ++ [sensorCount .evidenceAdmitted (some k.segment) it.sensor] })
    ((entryAt_withCase hk _ n).trans (if_pos rfl))
  · exact ⟨_, same, segment, phase⟩
  · exact ⟨_, confirmed.trans (withCase_twice n _ _ _), segment, phase⟩

section
variable {p : Part} {c : Core} {n : Nat} {k : Case} {it : Item} (hk : entryAt c.cases n = some k)
  (lock : c.time.lock = p.core.time.lock) (kind : it.kind ≠ .tailRestored) (xs : List Emit) (ns : List Nat)
include hk lock kind

theorem admission_stays (stays : StaysUnconfirmed p (admitted p.settings k it)) :
    admission (envOf p) n it (handled c xs ns) = handled (withCase n (admitted p.settings k it) c)
      (xs ++ [sensorCount .evidenceAdmitted (some k.segment) it.sensor]) ns := by
  rw [admission_eq (by exact hk) kind]
  exact confirmTest_stays ((entryAt_withCase hk _ n).trans (if_pos rfl)) lock _ ns stays

theorem admission_confirms {f : Finding} (confirms : Confirms p (admitted p.settings k it) f) :
    admission (envOf p) n it (handled c xs ns)
      = handled (withCase n (confirmedRecord (admitted p.settings k it) f c.time.now) c)
        (xs ++ sensorCount .evidenceAdmitted (some k.segment) it.sensor
          :: confirmingTold n (admitted p.settings k it) f c.time.now) (ns ++ [n]) := by
  rw [admission_eq (by exact hk) kind]
  refine (confirmTest_confirms (c := withCase n (admitted p.settings k it) c)
    ((entryAt_withCase hk _ n).trans (if_pos rfl)) lock
    (xs ++ [sensorCount .evidenceAdmitted (some k.segment) it.sensor]) ns confirms).trans ?_
  rw [withCase_twice, List.append_assoc]
  rfl

end

/-! ### The opening of a case (R73 to R75) -/

/-- The case that an item opens (R69). -/
def openedCase (p : Part) (it : Item) (c : Core) : Case :=
  newCase (envOf p) ((c.serial + 1) % 65536) it.segment it.phase c.time.now

/-- The blocks with a case that an item opens in an entry. -/
def withOpened (p : Part) (n : Nat) (it : Item) (c : Core) : Core :=
  withCase n (admitted p.settings (openedCase p it c) it)
    { c with serial := (c.serial + 1) % 65536, opened := c.opened ++ [n] }

/-- What the opening of a case tells and counts. -/
def openedTold (p : Part) (n : Nat) (it : Item) (c : Core) : List Emit :=
  [caseTold n (openedCase p it c) none (some .watch) .opened none c.time.now,
   segmentCount .casesOpened (some it.segment) 1,
   sensorCount .evidenceAdmitted (some it.segment) it.sensor]

/-- The kinds that open a case: none of them gives it a HEAD_LIVE or a GROUND_CURRENT entry. -/
def OpensCase (kind : EvidenceKind) : Prop := kind = .arcBursts ∨ kind = .headCurrentDrop ∨ kind = .tailDead

/-- A case without HEAD_LIVE and GROUND_CURRENT entries meets neither condition. -/
theorem staysUnconfirmed_of_bare {p : Part} {k : Case} (watch : k.state = .watch) (live : k.headLive = [])
    (ground : k.groundCurrent = []) : StaysUnconfirmed p k :=
  .inr ⟨watch, by simp [isBroken, live], by simp [isDowned, ground]⟩

section
variable {p : Part} {it : Item} (kind : OpensCase it.kind)
include kind

theorem opens_kind : it.kind ≠ .headLive ∧ it.kind ≠ .groundCurrent ∧ it.kind ≠ .tailRestored := by
  obtain kind | kind | kind := kind <;> rw [kind] <;> decide

theorem openedCase_bare (s : Settings) (c : Core) : (admitted s (openedCase p it c) it).headLive = []
    ∧ (admitted s (openedCase p it c) it).groundCurrent = [] := by
  obtain ⟨live, ground, restored⟩ := opens_kind kind
  exact ⟨presentOf_admitted_other s _ it (kind := .headLive) (Ne.symm live) (fun h => absurd h restored),
    presentOf_admitted_other s _ it (kind := .groundCurrent) (Ne.symm ground) (fun h => absurd h restored)⟩

theorem openIn_eq {n : Nat} {c : Core} (inside : n < c.cases.length) (lock : c.time.lock = p.core.time.lock)
    (xs : List Emit) (ns : List Nat) : openIn (envOf p) n it (handled c xs ns)
      = handled (withOpened p n it c) (xs ++ openedTold p n it c) ns := by
  obtain ⟨-, -, restored⟩ := opens_kind kind
  obtain ⟨live, ground⟩ := openedCase_bare (p := p) kind p.settings c
  have there : entryAt (withCase n (openedCase p it c)
      { c with serial := (c.serial + 1) % 65536, opened := c.opened ++ [n] }).cases n = some (openedCase p it c) :=
    (entryAt_putAt c.cases n n (some (openedCase p it c)) inside).trans (if_pos rfl)
  have begun : openIn (envOf p) n it (handled c xs ns) = admission (envOf p) n it (handled
      (withCase n (openedCase p it c) { c with serial := (c.serial + 1) % 65536, opened := c.opened ++ [n] })
      (xs ++ [caseTold n (openedCase p it c) none (some .watch) .opened none c.time.now,
        segmentCount .casesOpened (some it.segment) 1]) ns) := by
    simp [openIn, handled, startEvent, putCase, withCase, putAt, raise, countSegment, occur, segmentCount, openedCase,
      newCase, caseNotice, caseTold]
  rw [begun, admission_stays there lock restored _ ns (staysUnconfirmed_of_bare (by
    rw [(admitted_place _ _ _).2.2.1]
    rfl) live ground), withCase_twice]
  simp [withOpened, openedTold, openedCase, newCase]

theorem openCase_free {n : Nat} {c : Core} (free : freeEntry c = some n) (good : badAt c.cases n = false)
    (lock : c.time.lock = p.core.time.lock) (xs : List Emit) (ns : List Nat) : openCase (envOf p) it (handled c xs ns)
      = (handled (withOpened p n it c) (xs ++ openedTold p n it c) ns, .opened n) := by
  have inside : n < c.cases.length := List.mem_range.1 (List.mem_of_find?_eq_some free)
  unfold openCase
  rw [show freeEntry (handled c xs ns).toCore = some n from free]
  simp only []
  rw [if_neg (by rw [show badAt (handled c xs ns).cases n = false from good]; decide), openIn_eq kind inside lock]

theorem openCase_evicts {z : Nat} {c : Core} {gone : Case} (full : freeEntry c = none) (chosen : evictee c = some z)
    (hz : entryAt c.cases z = some gone) (readable : gone.unreadable = []) (sound : AllSound c)
    (lock : c.time.lock = p.core.time.lock) (xs : List Emit) (ns : List Nat) : openCase (envOf p) it (handled c xs ns)
      = (handled (withOpened p z it (freed z c))
          (xs ++ [caseTold z gone (some .watch) none .evicted none c.time.now,
            segmentCount .casesClosedUnconfirmed (some gone.segment) 1] ++ openedTold p z it c) ns, .opened z) := by
  obtain ⟨k, hk, watch, -⟩ := (evicteeAsStated c).2 z chosen
  obtain rfl := Option.some.inj (hz.symm.trans hk)
  have inside : z < (freed z c).cases.length := by
    rw [show (freed z c).cases.length = c.cases.length from List.length_set]
    exact entryAt_lt hz
  unfold openCase
  rw [show freeEntry (handled c xs ns).toCore = none from full]
  simp only []
  rw [firstBad_sound (by exact sound)]
  simp only []
  rw [show evictee (handled c xs ns).toCore = some z from chosen]
  simp only []
  rw [show entryAt (handled c xs ns).cases z = some gone from hz]
  simp only []
  rw [freeCase_told readable, watch, if_pos rfl]
  have opened := openIn_eq (p := p) kind inside (by exact lock) (xs ++ [caseTold z gone (some .watch) none .evicted none c.time.now,
    segmentCount .casesClosedUnconfirmed (some gone.segment) 1]) ns
  exact congrArg (fun e => (e, Opening.opened z)) opened

omit kind in
theorem openCase_refused {c : Core} (full : freeEntry c = none) (none_ : evictee c = none) (sound : AllSound c)
    (xs : List Emit) (ns : List Nat) : openCase (envOf p) it (handled c xs ns)
      = (handled c (xs ++ [segmentCount .casesRefused (some it.segment) 1,
          .tell .both (.tableExhausted it.kind it.sensor it.segment it.phase c.time.now)]) ns, .refused) := by
  unfold openCase
  rw [show freeEntry (handled c xs ns).toCore = none from full]
  simp only []
  rw [firstBad_sound (by exact sound)]
  simp only []
  rw [show evictee (handled c xs ns).toCore = none from none_]
  simp [raise, countSegment, occur, handled, segmentCount]

end

/-! ### The way of an item (R57 to R64) -/

section
variable {env : Env} {it : Item} {e : Ev} {n : Nat} {k : Case}

/-- The kinds that go to their own segment's case alone. -/
def OwnOnly (kind : EvidenceKind) : Prop := kind = .arcBursts ∨ kind = .groundCurrent ∨ kind = .tailRestored

theorem attributeItem_own (own : OwnOnly it.kind) :
    attributeItem env it e = attributeOwn env (it.kind == .arcBursts) it e := by
  unfold attributeItem
  obtain kind | kind | kind := own <;> rw [kind] <;> rfl

theorem attributeItem_own_taking (own : OwnOnly it.kind) (here : CaseAt e.toCore it.segment it.phase n k)
    (takes : k.state = .watch ∨ k.state = .confirmed) : attributeItem env it e = admission env n it e := by
  rw [attributeItem_own own, attributeOwn, standing_taking here takes]

theorem attributeItem_own_past (own : OwnOnly it.kind) (here : CaseAt e.toCore it.segment it.phase n k)
    (past : k.state = .isolating ∨ k.state = .isolated ∨ k.state = .blocked) : attributeItem env it e = e := by
  rw [attributeItem_own own, attributeOwn, standing_past here past]

theorem attributeItem_own_none (kind : it.kind = .groundCurrent ∨ it.kind = .tailRestored)
    (none_ : caseOn e.toCore it.segment it.phase = none) : attributeItem env it e = e := by
  rw [attributeItem_own (.inr kind), attributeOwn, standing_none none_]
  obtain kind | kind := kind <;> rw [kind] <;> rfl

theorem attributeItem_arcs_opens (kind : it.kind = .arcBursts) (none_ : caseOn e.toCore it.segment it.phase = none) :
    attributeItem env it e = (openCase env it e).1 := by
  rw [attributeItem_own (.inl kind), attributeOwn, standing_none none_, kind]
  rfl

section
variable (dead : it.kind = .tailDead)
include dead

theorem attributeItem_dead : attributeItem env it e = attributeTailDead env it e := by
  unfold attributeItem
  rw [dead]

theorem attributeItem_dead_opened {e' : Ev} (none_ : ∀ x ∈ pathOf e.segments it.segment, caseOn e.toCore x it.phase = none)
    (opened : openCase env it e = (e', .opened n)) :
    attributeItem env it e = mergeDescendants env n it.segment it.phase e' := by
  rw [attributeItem_dead dead, attributeTailDead, searchPath_none none_]
  simp only [opened]

theorem attributeItem_dead_refused {e' : Ev} (none_ : ∀ x ∈ pathOf e.segments it.segment, caseOn e.toCore x it.phase = none)
    (refused : openCase env it e = (e', .refused)) : attributeItem env it e = e' := by
  rw [attributeItem_dead dead, attributeTailDead, searchPath_none none_]
  simp only [refused]

section
variable {pre post : List Nat} {t : Nat} (path : pathOf e.segments it.segment = pre ++ t :: post)
  (before : ∀ x ∈ pre, caseOn e.toCore x it.phase = none) (here : CaseAt e.toCore t it.phase n k)
include path before here

theorem attributeItem_dead_past (past : k.state = .isolating ∨ k.state = .isolated ∨ k.state = .blocked) :
    attributeItem env it e = e := by
  rw [attributeItem_dead dead, attributeTailDead, path, searchPath_append before,
    searchPath_at (standing_past here past) (by decide)]

theorem attributeItem_dead_taking (takes : k.state = .watch ∨ k.state = .confirmed) : attributeItem env it e
    = if t = it.segment then mergeDescendants env n it.segment it.phase (admission env n it e) else admission env n it e := by
  rw [attributeItem_dead dead, attributeTailDead, path, searchPath_append before,
    searchPath_at (standing_taking here takes) (by simp)]

end

end

/-- The other segments of the coverage of a head item. -/
def beyond (c : Core) (it : Item) : List Nat := (headCoverage c it.segment it.phase).filter (· != it.segment)

section
variable (head : it.kind = .headCurrentDrop ∨ it.kind = .headLive)
include head

theorem attributeItem_head : attributeItem env it e = attributeHead env (it.kind == .headCurrentDrop) it e := by
  unfold attributeItem
  obtain kind | kind := head <;> rw [kind] <;> rfl

theorem attributeItem_head_taking (here : CaseAt e.toCore it.segment it.phase n k)
    (takes : k.state = .watch ∨ k.state = .confirmed) :
    attributeItem env it e = attributeBeyond env it (admission env n it e) := by
  rw [attributeItem_head head, attributeHead, standing_taking here takes]

theorem attributeItem_head_past (here : CaseAt e.toCore it.segment it.phase n k)
    (past : k.state = .isolating ∨ k.state = .isolated ∨ k.state = .blocked) :
    attributeItem env it e = attributeBeyond env it e := by
  rw [attributeItem_head head, attributeHead, standing_past here past]

end

theorem attributeItem_live_none (kind : it.kind = .headLive) (none_ : caseOn e.toCore it.segment it.phase = none) :
    attributeItem env it e = attributeBeyond env it e := by
  rw [attributeItem_head (.inr kind), attributeHead, standing_none none_, kind]
  rfl

theorem attributeItem_drop_opens {e' : Ev} {o : Opening} (kind : it.kind = .headCurrentDrop)
    (none_ : caseOn e.toCore it.segment it.phase = none) (opens : openCase env it e = (e', o)) (kept : o ≠ .abandoned) :
    attributeItem env it e = attributeBeyond env it e' := by
  rw [attributeItem_head (.inl kind), attributeHead, standing_none none_, kind]
  simp only [beq_self_eq_true, if_true, opens]

theorem attributeBeyond_eq (sound : AllSound e.toCore) :
    attributeBeyond env it e = attributeCoverage env it (beyond e.toCore it) e := by
  rw [attributeBeyond, firstBad_sound sound]
  rfl

/-- A head item passes over the segments of its coverage on which no case stands. -/
theorem attributeCoverage_append {pre : List Nat} (none_ : ∀ z ∈ pre, caseOn e.toCore z it.phase = none) (rest : List Nat) :
    attributeCoverage env it (pre ++ rest) e = attributeCoverage env it rest e := by
  induction pre with
  | nil => rfl
  | cons z pre ih =>
    rw [List.cons_append, attributeCoverage, standing_none (none_ z (by simp))]
    exact ih fun y mem => none_ y (by simp [mem])

theorem attributeCoverage_none {zs : List Nat} (none_ : ∀ z ∈ zs, caseOn e.toCore z it.phase = none) :
    attributeCoverage env it zs e = e := by
  rw [← List.append_nil zs, attributeCoverage_append none_]
  rfl

theorem attributeBeyond_none (sound : AllSound e.toCore) (none_ : ∀ z ∈ beyond e.toCore it, caseOn e.toCore z it.phase = none) :
    attributeBeyond env it e = e := by
  rw [attributeBeyond_eq sound, attributeCoverage_none none_]

theorem beyond_nodup (c : Core) (it : Item) : (beyond c it).Nodup :=
  (List.nodup_range.filter _).filter _

section
variable {z : Nat} (sound : AllSound e.toCore) (mem : z ∈ beyond e.toCore it)
  (others : ∀ y ∈ beyond e.toCore it, y ≠ z → caseOn e.toCore y it.phase = none)
include sound mem others

/-- With one case beyond, the way of a head item ends there. -/
theorem attributeBeyond_reaches : ∃ post, (∀ y ∈ post, caseOn e.toCore y it.phase = none)
    ∧ attributeBeyond env it e = attributeCoverage env it (z :: post) e := by
  obtain ⟨pre, post, split⟩ := List.append_of_mem mem
  have distinct := beyond_nodup e.toCore it
  rw [split] at distinct others
  obtain ⟨-, tail, apart⟩ := List.nodup_append.1 distinct
  obtain ⟨notIn, -⟩ := List.nodup_cons.1 tail
  refine ⟨post, fun y inside => others y (by simp [inside]) (by rintro rfl; exact notIn inside), ?_⟩
  rw [attributeBeyond_eq sound, split]
  exact attributeCoverage_append (fun y inside => others y (by simp [inside]) (apart y inside z (by simp))) _

theorem attributeBeyond_past (here : CaseAt e.toCore z it.phase n k)
    (past : k.state = .isolating ∨ k.state = .isolated ∨ k.state = .blocked) : attributeBeyond env it e = e := by
  obtain ⟨post, none_, reaches⟩ := attributeBeyond_reaches (env := env) sound mem others
  rw [reaches, attributeCoverage, standing_past here past]
  exact attributeCoverage_none none_

theorem attributeBeyond_taking (here : CaseAt e.toCore z it.phase n k) (takes : k.state = .watch ∨ k.state = .confirmed)
    (kind : it.kind ≠ .tailRestored) : attributeBeyond env it e = admission env n it e := by
  obtain ⟨post, none_, reaches⟩ := attributeBeyond_reaches (env := env) sound mem others
  have stands := standing_taking here takes
  obtain ⟨-, hk, -⟩ := here
  obtain ⟨k1, core, segment, phase⟩ := admission_core (env := env) hk kind
  rw [reaches, attributeCoverage, stands]
  refine attributeCoverage_none fun y inside => ?_
  rw [core, caseOn_withCase_same hk segment phase]
  exact none_ y inside

end

end

end Sys2Proof.Machine

end

