-- ==== Sys2Proof/Proofs/EvidenceEnds.lean ====
section
/-! PROOF. The end of an item's event: the cases it has confirmed are passed to IS (R52, R83, R112, R114, R115). -/

namespace Sys2Proof.Machine

/-! ### The cases confirmed in the event (R112) -/

/-- A case that is confirmed stays CONFIRMED: the authority is not AUTO and unattended isolation does not apply. -/
def StaysConfirmed (p : Part) : Prop :=
  p.settings.authority ≠ 1 ∧ ¬ (p.inForce.options.unattendedIsolate = true ∧ p.core.supervision.absent = true)

/-- A case that is confirmed goes to ISOLATING for a reason. -/
def MovesFor (p : Part) (r : CaseReason) : Prop :=
  p.settings.authority = 1 ∧ r = .authority
    ∨ p.settings.authority ≠ 1 ∧ p.inForce.options.unattendedIsolate = true ∧ p.core.supervision.absent = true
      ∧ r = .unattended

section
variable {p : Part} {c : Core} (same : c.supervision = p.core.supervision)
include same

theorem moveReason_stays (stays : StaysConfirmed p) : moveReason (envOf p) c = none := by
  obtain ⟨ordinary, attended⟩ := stays
  unfold moveReason unattended
  rw [same, if_neg (by exact ordinary), if_neg (by simpa [envOf] using attended)]

theorem moveReason_moves {r : CaseReason} (moves : MovesFor p r) : moveReason (envOf p) c = some r := by
  unfold moveReason unattended
  rw [same]
  obtain ⟨auto, rfl⟩ | ⟨ordinary, on, absent, rfl⟩ := moves
  · exact if_pos auto
  · rw [if_neg (by exact ordinary), if_pos (by simp [envOf, on, absent])]

end

theorem runWork_pass_stays {env : Env} {e : Ev} (none_ : moveReason env e.toCore = none) (idle : e.todo = []) (ns : List Nat)
    (fuel : Nat) : runWork env fuel (ns.map .pass) e = e := by
  have clear : { e with todo := [] } = e := by rw [← idle]
  have passed : ∀ n, doWork env (.pass n) { e with todo := [] } = e := by
    intro n
    rw [clear]
    show passCase env n e = e
    unfold passCase
    rw [none_]
  induction ns generalizing fuel with
  | nil => exact runWork_nil _ _ _
  | cons n ns ih =>
    cases fuel with
    | zero => rfl
    | succ fuel =>
      rw [List.map_cons, runWork_done (passed n) idle]
      exact ih fuel

/-- A confirmed case without a plan that is passed to IS and goes ends BLOCKED before the rest of the work. -/
theorem runWork_pass_blocked {env : Env} {n m : Nat} {reason : CaseReason} {k : Case} {r : IsolationRecord} {e : Ev}
    {ws : List Work} (well : healthy e.toCore = true) (sound : AllSound e.toCore) (unclosed : NoCloses e.toCore)
    (hk : entryAt e.cases n = some k) (confirmed : k.state = .confirmed) (readable : k.unreadable = [])
    (record : k.isolation = some r) (unplanned : ∀ sg, entryAt e.segments k.segment = some sg → sg.plan = none)
    (idle : e.todo = []) (moves : moveReason env e.toCore = some reason) : runWork env (m + 3) (.pass n :: ws) e
      = runWork env m ws { e with
          toCore := withCase n (blockedCase k r) e.toCore, out := e.out ++ blockedTold n reason k e.time.now } := by
  have clear : { e with todo := [] } = e := by rw [← idle]
  have passed : doWork env (.pass n) { e with todo := [] } = later [.isolate n reason] e := by
    rw [clear]
    show passCase env n e = _
    unfold passCase
    rw [moves]
  rw [runWork_cons, passed]
  have next_ : (later [.isolate n reason] e).todo ++ ws = .isolate n reason :: ws := by
    rw [later_todo, idle]
    rfl
  rw [next_, show { later [.isolate n reason] e with todo := [] } = e from clear]
  refine runWork_two (x := .begin n) (e' := isolationTold n reason k r e) ?_ idle
    (beginWalk_blocked well hk readable unplanned) idle
  rw [clear]
  exact isolate_unclosed well sound unclosed hk confirmed readable record

/-! ### The event of an item (R52) -/

/-- The blocks once the oldest item has left the list. -/
def itemTaken (rest : List Item) (s : State) : Core := { s.part.core with items := rest }

/-- The handling of the oldest item tells `xs` and leaves the blocks as `c`. -/
def Ends (s : State) (xs : List Emit) (c : Core) : Prop :=
  exec .evidenceItemHandling s = .next (ended (outcome xs c s.part) s)

theorem Ends.congr {s : State} {xs xs' : List Emit} {c c' : Core} (h : Ends s xs c) (told : xs = xs') (blocks : c = c') :
    Ends s xs' c' := told ▸ blocks ▸ h

section
variable {it : Item} {rest : List Item} {s : State} (runs : blocksRun s.part = true)
  (listed : s.part.core.items = it :: rest)
include runs listed

theorem ends_of {e : Ev} (settled : settle (envOf s.part)
      (judgeItem (envOf s.part) it (handled (itemTaken rest s) [] [])) = e) (store : e.storeFailed = false) :
    Ends s e.out e.toCore := by
  have begun : handleItem (envOf s.part) (startEvent s.part.core)
      = judgeItem (envOf s.part) it (handled (itemTaken rest s) [] []) := by
    unfold handleItem
    simp only [startEvent, listed]
    rfl
  show happen handleItem s = _
  rw [happen_eq _ _ runs, runEvent_eq, begun, settled, commit_eq _ _ store]

theorem ends_dropped (sick : ¬ Healthy s) : Ends s [] { itemTaken rest s with items := [] } := by
  have unwell : healthy (itemTaken rest s) = false :=
    Bool.eq_false_iff.2 fun well => sick ((healthy_iff (itemTaken rest s)).1 well)
  have judged : judgeItem (envOf s.part) it (handled (itemTaken rest s) [] [])
      = handled { itemTaken rest s with items := [] } [] [] := by
    unfold judgeItem
    rw [if_neg (by rw [show healthy (handled (itemTaken rest s) [] []).toCore = false from unwell]; decide)]
    rfl
  exact ends_of runs listed (e := handled { itemTaken rest s with items := [] } [] [])
    ((congrArg _ judged).trans (settle_nil _ _ rfl)) rfl

variable (well : Healthy s)
include well

omit runs listed in
theorem healthy_itemTaken : healthy (itemTaken rest s) = true := (healthy_iff (itemTaken rest s)).2 well

omit runs listed in
theorem judgeItem_read (devices : Sound s.part.core.devices) (segments : Sound s.part.core.segments) :
    judgeItem (envOf s.part) it (handled (itemTaken rest s) [] [])
      = if isMasked (itemTaken rest s) it then
          countEvidence .evidenceMasked it.segment it.sensor (handled (itemTaken rest s) [] [])
        else later ((attributeItem (envOf s.part) it (handled (itemTaken rest s) [] [])).confirmedNow.map Work.pass)
          (attributeItem (envOf s.part) it (handled (itemTaken rest s) [] [])) := by
  have reads : firstBad (itemTaken rest s) (maskReads (itemTaken rest s) it) = none := by
    refine (firstBad_none_iff _ _).2 fun r mem => ?_
    obtain onPath | inTable := List.mem_append.1 mem
    · obtain ⟨n, -, rfl⟩ := List.mem_map.1 onPath
      exact segments n
    · exact allRefs_devices_sound (c := itemTaken rest s) devices r inTable
  unfold judgeItem
  rw [if_pos (by exact healthy_itemTaken well)]
  rw [show firstBad (handled (itemTaken rest s) [] []).toCore (maskReads (handled (itemTaken rest s) [] []).toCore it) = none
    from reads]
  rfl

theorem ends_masked (devices : Sound s.part.core.devices) (segments : Sound s.part.core.segments)
    (masked : isMasked (itemTaken rest s) it = true) :
    Ends s [sensorCount .evidenceMasked (some it.segment) it.sensor] (itemTaken rest s) := by
  have judged := judgeItem_read (it := it) (rest := rest) well devices segments
  rw [if_pos masked] at judged
  exact ends_of runs listed (e := handled (itemTaken rest s) [sensorCount .evidenceMasked (some it.segment) it.sensor] [])
    ((congrArg _ judged).trans (settle_nil _ _ rfl)) rfl

variable (devices : Sound s.part.core.devices) (segments : Sound s.part.core.segments)
  (unmasked : isMasked (itemTaken rest s) it = false)
include devices segments unmasked

omit runs listed in
/-- The end of the event of an item that is not masked. -/
theorem settle_attributed {c : Core} {xs : List Emit} {ns : List Nat}
    (attributed : attributeItem (envOf s.part) it (handled (itemTaken rest s) [] []) = handled c xs ns) :
    settle (envOf s.part) (judgeItem (envOf s.part) it (handled (itemTaken rest s) [] []))
      = runWork (envOf s.part) 65536 (ns.map .pass) (handled c xs ns) := by
  rw [judgeItem_read well devices segments, if_neg (by rw [unmasked]; decide), attributed]
  rfl

/-- No case moves: none was confirmed, or those confirmed stay CONFIRMED. -/
theorem ends_handled {c : Core} {xs : List Emit} {ns : List Nat}
    (attributed : attributeItem (envOf s.part) it (handled (itemTaken rest s) [] []) = handled c xs ns)
    (quiet : ns = [] ∨ StaysConfirmed s.part ∧ c.supervision = s.part.core.supervision) : Ends s xs c := by
  refine ends_of runs listed (e := handled c xs ns)
    ((settle_attributed well devices segments unmasked attributed).trans ?_) rfl
  obtain rfl | ⟨stays, same⟩ := quiet
  · exact runWork_nil _ _ _
  · exact runWork_pass_stays (moveReason_stays same stays) rfl ns _

/-- What the blocks must be for their confirmed cases to move. -/
structure MayMove (s : State) (r : CaseReason) (c : Core) : Prop where
  moves : MovesFor s.part r
  supervision : c.supervision = s.part.core.supervision
  sound : AllSound c
  unclosed : NoCloses c
  well : healthy c = true

omit runs listed well devices segments unmasked in
theorem MayMove.casesOnly {r : CaseReason} {c c' : Core} (may : MayMove s r c) (frame : CasesOnly c c')
    (cases : Sound c'.cases) : MayMove s r c' where
  moves := may.moves
  supervision := frame.supervision.trans may.supervision
  sound := frame.allSound may.sound cases
  unclosed := frame.unclosed may.unclosed
  well := frame.healthy.trans may.well

/-- A confirmed case of a segment without a plan. -/
structure ToBlock (c : Core) (n : Nat) (k : Case) (r : IsolationRecord) : Prop where
  at_ : entryAt c.cases n = some k
  confirmed : k.state = .confirmed
  readable : k.unreadable = []
  record : k.isolation = some r
  unplanned : ∀ sg, entryAt c.segments k.segment = some sg → sg.plan = none

omit runs listed well devices segments unmasked in
theorem runWork_moves {c : Core} {xs : List Emit} {ns : List Nat} {n m : Nat} {k : Case} {r : IsolationRecord}
    {reason : CaseReason} {ws : List Work} (may : MayMove s reason c) (case_ : ToBlock c n k r) :
    runWork (envOf s.part) (m + 3) (.pass n :: ws) (handled c xs ns) = runWork (envOf s.part) m ws
      (handled (withCase n (blockedCase k r) c) (xs ++ blockedTold n reason k c.time.now) ns) :=
  runWork_pass_blocked may.well may.sound may.unclosed case_.at_ case_.confirmed case_.readable case_.record case_.unplanned
    rfl (moveReason_moves may.supervision may.moves)

/-- The one case confirmed goes to ISOLATING, and is BLOCKED for want of a plan. -/
theorem ends_moved {c : Core} {xs : List Emit} {n : Nat} {k : Case} {r : IsolationRecord} {reason : CaseReason}
    (attributed : attributeItem (envOf s.part) it (handled (itemTaken rest s) [] []) = handled c xs [n])
    (may : MayMove s reason c) (case_ : ToBlock c n k r) :
    Ends s (xs ++ blockedTold n reason k c.time.now) (withCase n (blockedCase k r) c) := by
  refine ends_of runs listed (e := handled (withCase n (blockedCase k r) c) (xs ++ blockedTold n reason k c.time.now) [n])
    ((settle_attributed well devices segments unmasked attributed).trans ?_) rfl
  exact (runWork_moves (m := 65533) may case_).trans (runWork_nil _ _ _)

/-- Two cases confirmed go to ISOLATING in turn, and are BLOCKED for want of a plan. -/
theorem ends_movedBoth {c : Core} {xs : List Emit} {n m : Nat} {k x : Case} {r q : IsolationRecord} {reason : CaseReason}
    (attributed : attributeItem (envOf s.part) it (handled (itemTaken rest s) [] []) = handled c xs [n, m])
    (may : MayMove s reason c) (case_ : ToBlock c n k r) (next_ : ToBlock c m x q) (apart : m ≠ n) :
    Ends s (xs ++ blockedTold n reason k c.time.now ++ blockedTold m reason x c.time.now)
      (withCase m (blockedCase x q) (withCase n (blockedCase k r) c)) := by
  refine ends_of runs listed (e := handled (withCase m (blockedCase x q) (withCase n (blockedCase k r) c))
      (xs ++ blockedTold n reason k c.time.now ++ blockedTold m reason x c.time.now) [n, m])
    ((settle_attributed well devices segments unmasked attributed).trans ?_) rfl
  have may' : MayMove s reason (withCase n (blockedCase k r) c) :=
    may.casesOnly (.withCase n _ c) (sound_set may.sound.2.2.2.2 n _)
  have next' : ToBlock (withCase n (blockedCase k r) c) m x q :=
    { next_ with at_ := (entryAt_withCase_other apart).trans next_.at_ }
  refine (runWork_moves (m := 65533) may case_).trans ?_
  exact (runWork_moves (m := 65530) may' next').trans (runWork_nil _ _ _)

/-! ### An item admitted to a case -/

section
variable {n : Nat} {k : Case} (sound : AllSound (itemTaken rest s)) (hk : entryAt (itemTaken rest s).cases n = some k)
  (kind : it.kind ≠ .tailRestored)
  (attributed : attributeItem (envOf s.part) it (handled (itemTaken rest s) [] [])
    = admission (envOf s.part) n it (handled (itemTaken rest s) [] []))
include sound hk kind attributed

omit sound in
theorem ends_admitted (stays : StaysUnconfirmed s.part (admitted s.part.settings k it)) :
    Ends s [sensorCount .evidenceAdmitted (some k.segment) it.sensor]
      (withCase n (admitted s.part.settings k it) (itemTaken rest s)) :=
  ends_handled runs listed well devices segments unmasked
    (attributed.trans (admission_stays hk rfl kind [] [] stays)) (.inl rfl)

theorem ends_confirms {f : Finding} (confirms : Confirms s.part (admitted s.part.settings k it) f) :
    (StaysConfirmed s.part → Ends s
      (sensorCount .evidenceAdmitted (some k.segment) it.sensor
        :: confirmingTold n (admitted s.part.settings k it) f s.part.core.time.now)
      (withCase n (confirmedRecord (admitted s.part.settings k it) f s.part.core.time.now) (itemTaken rest s)))
    ∧ ∀ r, MovesFor s.part r → (∀ sg, entryAt s.part.core.segments k.segment = some sg → sg.plan = none) →
        NoCloses (itemTaken rest s) → Ends s
      (sensorCount .evidenceAdmitted (some k.segment) it.sensor
        :: confirmingTold n (admitted s.part.settings k it) f s.part.core.time.now
        ++ blockedTold n r (confirmedRecord (admitted s.part.settings k it) f s.part.core.time.now) s.part.core.time.now)
      (withCase n
        { confirmedRecord (admitted s.part.settings k it) f s.part.core.time.now with state := .blocked }
        (itemTaken rest s)) := by
  have admits := attributed.trans (admission_confirms hk rfl kind [] [] confirms)
  obtain ⟨segment, -, -, unreadable, -⟩ := admitted_place s.part.settings k it
  refine ⟨fun stays => ends_handled runs listed well devices segments unmasked admits (.inr ⟨stays, rfl⟩),
    fun r moves unplanned unclosed => ?_⟩
  have may : MayMove s r (withCase n (confirmedRecord (admitted s.part.settings k it) f s.part.core.time.now)
      (itemTaken rest s)) := ⟨moves, rfl, allSound_withCase sound n _, unclosed, healthy_itemTaken (rest := rest) well⟩
  have moved := ends_moved runs listed well devices segments unmasked admits may
    ⟨(entryAt_withCase hk _ n).trans (if_pos rfl), rfl, confirms.2.1, rfl, by
      rw [show (confirmedRecord (admitted s.part.settings k it) f (itemTaken rest s).time.now).segment = k.segment
        from segment]
      exact unplanned⟩
  rw [withCase_twice] at moved
  exact moved

end

end

end Sys2Proof.Machine

end

