-- ==== Sys2Proof/Proofs/EvidenceOutcomes.lean ====
section
/-! PROOF. What becomes of an item: admitted, dropped, or opening a case, with the merges and the confirmations that
follow (R57 to R64, R73 to R75, R82, R83, R86 to R89). -/

namespace Sys2Proof.Machine

/-! ### Entries written and freed in turn -/

section
variable {n m : Nat} {k x : Case} {c : Core}

theorem withCase_comm (apart : n ≠ m) : withCase n k (withCase m x c) = withCase m x (withCase n k c) := by
  simp [withCase, List.set_comm _ _ apart]

theorem freed_withCase_same : freed n (withCase n k c) = freed n c := by
  simp [freed, withCase, List.set_set]

theorem withCase_freed_comm (apart : n ≠ m) : withCase n k (freed m c) = freed m (withCase n k c) := by
  simp [freed, withCase, List.set_comm _ _ apart]

theorem withCase_freed_withCase (apart : n ≠ m) : withCase n k (freed m (withCase n x c)) = withCase n k (freed m c) := by
  rw [withCase_freed_comm apart, withCase_twice, withCase_freed_comm apart]

end

/-! ### Descendants without a case in WATCH (R87) -/

/-- No case in WATCH stands on a descendant of an item's segment. -/
def DescendantsQuiet (c : Core) (it : Item) : Prop :=
  ∀ z n k, isAncestor c.segments it.segment z = true → caseOn c z it.phase = some n → entryAt c.cases n = some k →
    k.state ≠ .watch

theorem isAncestor_ne {segs : List (Checked Segment)} {x z : Nat} (h : isAncestor segs x z = true) : z ≠ x := by
  rintro rfl
  simp [isAncestor] at h

theorem mergeable_quiet {c : Core} {it : Item} {n : Nat} {k k1 : Case} (quiet : DescendantsQuiet c it)
    (here : CaseAt c it.segment it.phase n k) (segment : k1.segment = k.segment) (phase : k1.phase = k.phase) :
    mergeable (withCase n k1 c) it.segment it.phase = [] := by
  obtain ⟨own, -⟩ := caseAt_segment here
  obtain ⟨-, hk, -⟩ := here
  refine mergeable_eq_nil fun m ⟨z, x, _, below, on, hx, watch⟩ => ?_
  rw [caseOn_withCase_same hk segment phase] at on
  obtain ⟨y, hy, place, -⟩ := caseOn_stands on
  have apart : m ≠ n := by
    rintro rfl
    obtain rfl := Option.some.inj (hk.symm.trans hy)
    exact isAncestor_ne below (place.symm.trans own)
  rw [entryAt_withCase_other apart] at hx
  exact quiet z m x below on hx watch

/-- A case that opens takes an entry that was free, or that of a case in WATCH, and no other case's place. -/
structure TakesEntry (c c' : Core) (n : Nat) (segment : Nat) : Prop where
  frame : CasesOnly c c'
  watch : ∀ k, entryAt c.cases n = some k → k.state = .watch
  others : ∀ m, m ≠ n → entryAt c'.cases m = entryAt c.cases m
  stands : ∀ s ph m, s ≠ segment → (StandsAt c' s ph m ↔ m ≠ n ∧ StandsAt c s ph m)

namespace TakesEntry

variable {c c' : Core} {n segment s : Nat} {ph : Phase} (h : TakesEntry c c' n segment) (other : s ≠ segment)
include h other

theorem caseOn_none (none_ : caseOn c s ph = none) : caseOn c' s ph = none :=
  caseOn_eq_none_iff.2 fun m stands => caseOn_eq_none_iff.1 none_ m ((h.stands s ph m other).1 stands).2

theorem caseOn_kept {m : Nat} {k : Case} (on : caseOn c s ph = some m) (hk : entryAt c.cases m = some k)
    (state : k.state ≠ .watch) : caseOn c' s ph = some m ∧ entryAt c'.cases m = some k := by
  have apart : m ≠ n := by
    rintro rfl
    exact state (h.watch k hk)
  obtain ⟨stands, least⟩ := caseOn_eq_some_iff.1 on
  exact ⟨caseOn_eq_some_iff.2 ⟨(h.stands s ph m other).2 ⟨apart, stands⟩, fun i here =>
    least i ((h.stands s ph i other).1 here).2⟩, (h.others m apart).trans hk⟩

omit other in
theorem mergeable_quiet {it : Item} (own : it.segment = segment) (quiet : DescendantsQuiet c it) :
    mergeable c' it.segment it.phase = [] := by
  refine mergeable_eq_nil fun m ⟨z, x, _, below, on, hx, watch⟩ => ?_
  rw [h.frame.segments] at below
  have other : z ≠ segment := own ▸ isAncestor_ne below
  cases before : caseOn c z it.phase with
  | none => cases (h.caseOn_none other before).symm.trans on
  | some i =>
    obtain ⟨k, hk, -⟩ := caseOn_stands before
    have state := quiet z i k below before hk
    obtain ⟨on', hk'⟩ := h.caseOn_kept other before hk state
    obtain rfl := Option.some.inj (on.symm.trans on')
    obtain rfl := Option.some.inj (hx.symm.trans hk')
    exact state watch

end TakesEntry

theorem withOpened_segment (p : Part) (it : Item) (c : Core) :
    (admitted p.settings (openedCase p it c) it).segment = it.segment := by
  obtain ⟨segment, -⟩ := admitted_place p.settings (openedCase p it c) it
  exact segment

theorem takesEntry_free (p : Part) {n : Nat} (it : Item) {c : Core} (free : freeEntry c = some n) :
    TakesEntry c (withOpened p n it c) n it.segment where
  frame := rfl
  watch k hk := by
    have empty := List.find?_some free
    rw [hk] at empty
    cases empty
  others m apart := entryAt_withCase_other apart
  stands s ph m other := by
    constructor
    · exact fun stands => standsAt_withCase_other (by rw [withOpened_segment]; exact Ne.symm other) stands
    · rintro ⟨apart, k, hk, place⟩
      exact ⟨k, (entryAt_withCase_other apart).trans hk, place⟩

theorem takesEntry_evicts (p : Part) {z : Nat} (it : Item) {c : Core} (chosen : evictee c = some z) :
    TakesEntry c (withOpened p z it (freed z c)) z it.segment where
  frame := rfl
  watch k hk := by
    obtain ⟨k', hk', watch, -⟩ := (evicteeAsStated c).2 z chosen
    obtain rfl := Option.some.inj (hk.symm.trans hk')
    exact watch
  others m apart := (entryAt_withCase_other apart).trans ((entryAt_freed z m c).trans (if_neg apart))
  stands s ph m other := by
    constructor
    · intro stands
      obtain ⟨apart, there⟩ := standsAt_withCase_other (c := { freed z c with
        serial := (c.serial + 1) % 65536, opened := (freed z c).opened ++ [z] })
        (by rw [withOpened_segment]; exact Ne.symm other) stands
      exact ⟨apart, (standsAt_freed.1 (show StandsAt (freed z c) s ph m from there)).2⟩
    · rintro ⟨apart, k, hk, place⟩
      exact ⟨k, (entryAt_withCase_other apart).trans (((entryAt_freed z m c).trans (if_neg apart)).trans hk), place⟩

section
variable {it : Item} {rest : List Item} {s : State} (runs : blocksRun s.part = true)
  (listed : s.part.core.items = it :: rest) (well : Healthy s)
include runs listed well

/-! ### A case that opens (R73 to R75) -/

omit runs listed well in
/-- The case that an ARC_BURSTS item opens, once the item is admitted to it. -/
theorem admitted_openedArcs (p : Part) (c : Core) {arcs : Nat} (kind : it.kind = .arcBursts) (count : it.arcs = some arcs) :
    admitted p.settings (openedCase p it c) it
      = { serial := (c.serial + 1) % 65536, segment := it.segment, phase := it.phase, state := .watch
          openedAt := c.time.now, windowEnd := (c.time.now + p.settings.watchWindow) % 86400000
          score := min 4095 p.settings.weightArcBursts, tailDead := [], headCurrentDrop := [], headLive := []
          groundCurrent := [], arcCount := min 255 arcs, firstArc := some it.timestamp, lastArc := some it.timestamp
          contributors := [it.sensor], unlisted := false
          ring := [{ kind := .arcBursts, sensor := it.sensor, segment := it.segment
                     timestamp := it.timestamp, weight := p.settings.weightArcBursts, arcs := some arcs }]
          admitted := 1, finding := none, isolation := none, unreadable := [] } := by
  rw [admitted_arcBursts _ _ kind]
  simp [openedCase, newCase, noted, addArcs, contribute, weightOf, kind, count, appendRing, addScore, addTime, Config.day,
    Config.contributors, Config.ring, envOf]

section
variable (devices : Sound s.part.core.devices) (segments : Sound s.part.core.segments)
  (unmasked : isMasked (itemTaken rest s) it = false)
include devices segments unmasked

theorem ends_arcsOpened {n : Nat} (kind : it.kind = .arcBursts) (none_ : caseOn (itemTaken rest s) it.segment it.phase = none)
    (free : freeEntry (itemTaken rest s) = some n) (good : badAt (itemTaken rest s).cases n = false) :
    Ends s (openedTold s.part n it (itemTaken rest s)) (withOpened s.part n it (itemTaken rest s)) := by
  refine ends_handled runs listed well devices segments unmasked (ns := []) ?_ (.inl rfl)
  rw [attributeItem_arcs_opens kind (by exact none_), openCase_free (.inl kind) free good rfl]
  rfl

end

variable (sound : AllSound (itemTaken rest s)) (unmasked : isMasked (itemTaken rest s) it = false)
include sound unmasked

/-- Where an item opens a case and goes nowhere else. -/
def OpensHere (c : Core) (it : Item) : Prop :=
  it.kind = .arcBursts ∧ caseOn c it.segment it.phase = none
    ∨ it.kind = .headCurrentDrop ∧ caseOn c it.segment it.phase = none ∧ (∀ z ∈ beyond c it, caseOn c z it.phase = none)
    ∨ it.kind = .tailDead ∧ (∀ x ∈ pathOf c.segments it.segment, caseOn c x it.phase = none) ∧ DescendantsQuiet c it

omit runs listed well sound unmasked in
theorem opensHere_kind {c : Core} (opens : OpensHere c it) : OpensCase it.kind := by
  obtain ⟨kind, -⟩ | ⟨kind, -⟩ | ⟨kind, -⟩ := opens
  · exact .inl kind
  · exact .inr (.inl kind)
  · exact .inr (.inr kind)

omit runs listed well sound unmasked in
theorem mem_beyond_ne {c : Core} {z : Nat} (mem : z ∈ beyond c it) : z ≠ it.segment := by
  simpa using (List.mem_filter.1 mem).2

omit runs listed well unmasked in
/-- An item that opens a case here does nothing else. -/
theorem attributeItem_opens {c : Core} {xs : List Emit} {n : Nat} (opens : OpensHere (itemTaken rest s) it)
    (opened : openCase (envOf s.part) it (handled (itemTaken rest s) [] []) = (handled c xs [], .opened n))
    (takes : TakesEntry (itemTaken rest s) c n it.segment) (cases : Sound c.cases) :
    attributeItem (envOf s.part) it (handled (itemTaken rest s) [] []) = handled c xs [] := by
  have sound' : AllSound c := takes.frame.allSound sound cases
  obtain ⟨kind, none_⟩ | ⟨kind, none_, bare⟩ | ⟨kind, none_, quiet⟩ := opens
  · rw [attributeItem_arcs_opens kind (by exact none_), opened]
  · rw [attributeItem_drop_opens kind (by exact none_) opened (by simp)]
    refine attributeBeyond_none (by exact sound') fun z mem => ?_
    have inside : z ∈ beyond (itemTaken rest s) it := by
      rw [beyond, show headCoverage (handled c xs []).toCore it.segment it.phase = headCoverage c it.segment it.phase from rfl,
        takes.frame.headCoverage] at mem
      exact mem
    exact takes.caseOn_none (mem_beyond_ne inside) (bare z inside)
  · rw [attributeItem_dead_opened kind (by exact none_) opened]
    exact mergeDescendants_none (by exact sound') (takes.mergeable_quiet rfl quiet)

section
variable (opens : OpensHere (itemTaken rest s) it)
include opens

theorem ends_opened {n : Nat} (free : freeEntry (itemTaken rest s) = some n) :
    Ends s (openedTold s.part n it (itemTaken rest s)) (withOpened s.part n it (itemTaken rest s)) :=
  ends_handled runs listed well sound.2.2.1 sound.1 unmasked
    (attributeItem_opens sound opens (openCase_free (opensHere_kind opens) free (sound.2.2.2.2 n) rfl [] [])
      (takesEntry_free s.part it free) (sound_set sound.2.2.2.2 n _)) (.inl rfl)

theorem ends_evicted {z : Nat} {gone : Case} (full : freeEntry (itemTaken rest s) = none)
    (chosen : evictee (itemTaken rest s) = some z) (hz : entryAt (itemTaken rest s).cases z = some gone)
    (readable : gone.unreadable = []) : Ends s
      ([caseTold z gone (some .watch) none .evicted none s.part.core.time.now,
        segmentCount .casesClosedUnconfirmed (some gone.segment) 1] ++ openedTold s.part z it (itemTaken rest s))
      (withOpened s.part z it (freed z (itemTaken rest s))) :=
  ends_handled runs listed well sound.2.2.1 sound.1 unmasked
    (attributeItem_opens sound opens (openCase_evicts (opensHere_kind opens) full chosen hz readable sound rfl [] [])
      (takesEntry_evicts s.part it chosen) (sound_set (sound_set sound.2.2.2.2 z _) z _)) (.inl rfl)

theorem ends_refused (full : freeEntry (itemTaken rest s) = none) (none_ : evictee (itemTaken rest s) = none) : Ends s
      [segmentCount .casesRefused (some it.segment) 1,
        .tell .both (.tableExhausted it.kind it.sensor it.segment it.phase s.part.core.time.now)] (itemTaken rest s) := by
  have refused := openCase_refused (p := s.part) (it := it) full none_ sound [] []
  refine ends_handled runs listed well sound.2.2.1 sound.1 unmasked (ns := []) ?_ (.inl rfl)
  obtain ⟨kind, here⟩ | ⟨kind, here, bare⟩ | ⟨kind, path, -⟩ := opens
  · rw [attributeItem_arcs_opens kind (by exact here), refused]
    rfl
  · rw [attributeItem_drop_opens kind (by exact here) refused (by simp)]
    exact attributeBeyond_none (by exact sound) bare
  · exact attributeItem_dead_refused kind (by exact path) refused

end

/-! ### A case that takes the item, or has left WATCH and CONFIRMED -/

/-- The item is admitted to a case, and counted. -/
def AdmittedTo (s : State) (it : Item) (rest : List Item) (n : Nat) (k : Case) : Prop :=
  Ends s [sensorCount .evidenceAdmitted (some k.segment) it.sensor]
    (withCase n (admitted s.part.settings k it) (itemTaken rest s))

/-- The admission of the item to a case confirms it: it stays CONFIRMED, or without a plan ends BLOCKED. -/
def ConfirmsAt (s : State) (it : Item) (rest : List Item) (n : Nat) (k : Case) : Prop :=
  ∀ f, Confirms s.part (admitted s.part.settings k it) f →
    (StaysConfirmed s.part → Ends s
      (sensorCount .evidenceAdmitted (some k.segment) it.sensor
        :: confirmingTold n (admitted s.part.settings k it) f s.part.core.time.now)
      (withCase n (confirmedRecord (admitted s.part.settings k it) f s.part.core.time.now) (itemTaken rest s)))
    ∧ ∀ r, MovesFor s.part r → (∀ sg, entryAt s.part.core.segments k.segment = some sg → sg.plan = none) →
        NoCloses (itemTaken rest s) → Ends s
      (sensorCount .evidenceAdmitted (some k.segment) it.sensor
        :: confirmingTold n (admitted s.part.settings k it) f s.part.core.time.now
        ++ blockedTold n r (confirmedRecord (admitted s.part.settings k it) f s.part.core.time.now) s.part.core.time.now)
      (withCase n
        { confirmedRecord (admitted s.part.settings k it) f s.part.core.time.now with state := .blocked }
        (itemTaken rest s))

/-- A case that has left WATCH and CONFIRMED. -/
def Past (k : Case) : Prop := k.state = .isolating ∨ k.state = .isolated ∨ k.state = .blocked

omit runs listed well sound unmasked in
theorem takes_of_stays {p : Part} {k : Case} (stays : StaysUnconfirmed p (admitted p.settings k it)) :
    k.state = .watch ∨ k.state = .confirmed := by
  obtain ⟨-, -, state, -⟩ := admitted_place p.settings k it
  obtain confirmed | ⟨watch, -⟩ := stays
  · exact .inr (state ▸ confirmed)
  · exact .inl (state ▸ watch)

omit runs listed well sound unmasked in
theorem takes_of_confirms {p : Part} {k : Case} {f : Finding} (confirms : Confirms p (admitted p.settings k it) f) :
    k.state = .watch ∨ k.state = .confirmed := by
  obtain ⟨-, -, state, -⟩ := admitted_place p.settings k it
  exact .inl (state ▸ confirms.1)

section
variable {n : Nat} {k : Case} (hk : entryAt (itemTaken rest s).cases n = some k) (kind : it.kind ≠ .tailRestored)
  (taking : k.state = .watch ∨ k.state = .confirmed →
    attributeItem (envOf s.part) it (handled (itemTaken rest s) [] [])
      = admission (envOf s.part) n it (handled (itemTaken rest s) [] []))
include hk kind taking

/-- The way to one case: what it does with the item. -/
theorem ends_reached : (StaysUnconfirmed s.part (admitted s.part.settings k it) → AdmittedTo s it rest n k)
    ∧ ConfirmsAt s it rest n k :=
  ⟨fun stays => ends_admitted runs listed well sound.2.2.1 sound.1 unmasked hk kind (taking (takes_of_stays stays)) stays,
    fun _ confirms => ends_confirms runs listed well sound.2.2.1 sound.1 unmasked sound hk kind
      (taking (takes_of_confirms confirms)) confirms⟩

end

omit sound in
theorem ends_unchanged (devices : Sound s.part.core.devices) (segments : Sound s.part.core.segments)
    (same : attributeItem (envOf s.part) it (handled (itemTaken rest s) [] []) = handled (itemTaken rest s) [] []) :
    Ends s [] (itemTaken rest s) :=
  ends_handled runs listed well devices segments unmasked same (.inl rfl)

/-- An item that goes to its own segment's case alone. -/
theorem ends_own {n : Nat} {k : Case} (kind : it.kind = .arcBursts ∨ it.kind = .groundCurrent)
    (here : CaseAt (itemTaken rest s) it.segment it.phase n k) :
    (StaysUnconfirmed s.part (admitted s.part.settings k it) → AdmittedTo s it rest n k) ∧ ConfirmsAt s it rest n k
      ∧ (Past k → Ends s [] (itemTaken rest s)) := by
  have own : OwnOnly it.kind := kind.imp id .inl
  have kept : it.kind ≠ .tailRestored := by
    obtain kind | kind := kind <;> rw [kind] <;> decide
  obtain ⟨admits, confirms⟩ := ends_reached runs listed well sound unmasked here.2.1 kept
    (attributeItem_own_taking own (by exact here))
  exact ⟨admits, confirms, fun past => ends_unchanged runs listed well unmasked sound.2.2.1 sound.1
    (attributeItem_own_past own (by exact here) past)⟩

/-! ### A tail restored (R63, R64, R86) -/

section
variable {n : Nat} {k : Case} (restored : it.kind = .tailRestored)
  (here : CaseAt (itemTaken rest s) it.segment it.phase n k)
include restored here

omit runs listed well sound unmasked in
/-- The admission of a TAIL_RESTORED item, whose test is that of R86. -/
theorem admission_restored (takes : k.state = .watch ∨ k.state = .confirmed) :
    attributeItem (envOf s.part) it (handled (itemTaken rest s) [] [])
      = if holdsSensor k.tailDead it.sensor && (admitted s.part.settings k it).tailDead.isEmpty then
          restorationTest n (admitted s.part.settings k it)
            (handled (withCase n (admitted s.part.settings k it) (itemTaken rest s))
              [sensorCount .evidenceAdmitted (some k.segment) it.sensor] [])
        else handled (withCase n (admitted s.part.settings k it) (itemTaken rest s))
          [sensorCount .evidenceAdmitted (some k.segment) it.sensor] [] := by
  rw [attributeItem_own_taking (.inr (.inr restored)) (by exact here) takes]
  unfold admission
  rw [show entryAt (handled (itemTaken rest s) [] []).cases n = some k from here.2.1]
  simp only [restored]
  rfl

/-- The TAIL_RESTORED leaves no dead tail. -/
def Emptied (s : Settings) (k : Case) (it : Item) : Prop :=
  (∃ q ∈ k.tailDead, q.sensor = it.sensor) ∧ (admitted s k it).tailDead = []

/-- The TAIL_RESTORED frees the case (R86). -/
def Restores (s : Settings) (k : Case) (it : Item) : Prop :=
  Emptied s k it ∧ (k.state = .watch ∧ k.arcCount = 0 ∨ k.state = .confirmed ∧ k.finding = some .broken)

omit runs listed well sound unmasked here restored in
theorem emptied_iff : (holdsSensor k.tailDead it.sensor && (admitted s.part.settings k it).tailDead.isEmpty) = true
    ↔ Emptied s.part.settings k it := by
  rw [Bool.and_eq_true, holdsSensor_iff, List.isEmpty_iff]
  rfl

theorem ends_restoredKept (takes : k.state = .watch ∨ k.state = .confirmed) (kept : ¬ Restores s.part.settings k it) :
    AdmittedTo s it rest n k := by
  obtain ⟨-, -, state, -, finding⟩ := admitted_place s.part.settings k it
  obtain ⟨arcs, -⟩ := admitted_arcless s.part.settings k (it := it) (by rw [restored]; decide)
  refine ends_handled runs listed well sound.2.2.1 sound.1 unmasked (ns := []) ?_ (.inl rfl)
  rw [admission_restored restored here takes]
  split
  · next emptied =>
    have stands := fun h => kept ⟨emptied_iff.1 emptied, h⟩
    unfold restorationTest
    rw [state, arcs, finding]
    obtain watch | confirmed := takes
    · rw [watch]
      exact if_neg fun none_ => stands (.inl ⟨watch, none_⟩)
    · rw [confirmed]
      exact if_neg fun broken => stands (.inr ⟨confirmed, broken⟩)
  · rfl

theorem ends_restoredFreed (readable : k.unreadable = []) (frees : Restores s.part.settings k it) : Ends s
      ([sensorCount .evidenceAdmitted (some k.segment) it.sensor,
        caseTold n (admitted s.part.settings k it) (some k.state) none .restored none s.part.core.time.now]
          ++ if k.state = .watch then [segmentCount .casesClosedUnconfirmed (some k.segment) 1] else [])
      (freed n (itemTaken rest s)) := by
  obtain ⟨segment, -, state, unreadable, finding⟩ := admitted_place s.part.settings k it
  obtain ⟨arcs, -⟩ := admitted_arcless s.part.settings k (it := it) (by rw [restored]; decide)
  obtain ⟨emptied, frees⟩ := frees
  have takes : k.state = .watch ∨ k.state = .confirmed := frees.imp And.left And.left
  have test : ∀ e : Ev, restorationTest n (admitted s.part.settings k it) e
      = freeCase n (admitted s.part.settings k it) .restored none e := by
    intro e
    unfold restorationTest
    rw [state, arcs, finding]
    obtain ⟨watch, none_⟩ | ⟨confirmed, broken⟩ := frees
    · rw [watch]
      exact if_pos none_
    · rw [confirmed]
      exact if_pos broken
  refine ends_handled runs listed well sound.2.2.1 sound.1 unmasked (ns := []) ?_ (.inl rfl)
  rw [admission_restored restored here takes, if_pos (emptied_iff.2 emptied), test, freeCase_told (unreadable.trans readable),
    state, segment]
  exact congrArg (fun c => handled c _ []) freed_withCase_same

end

end

end Sys2Proof.Machine

end

