-- ==== Sys2Proof/Proofs/EvidenceMerges.lean ====
section
/-! PROOF. A TAIL_DEAD item on its path, with the merges it asks for, and a head item on its coverage (R57 to R63, R87 to
R89). -/

namespace Sys2Proof.Machine

/-- A path is its segment and those behind it. -/
theorem pathOf_cons (segs : List (Checked Segment)) (s : Nat) : ∃ post, pathOf segs s = s :: post := by
  have head := pathOf_head segs s
  cases path : pathOf segs s with
  | nil => simp [path] at head
  | cons x post =>
    rw [path] at head
    obtain rfl : x = s := by simpa using head
    exact ⟨post, rfl⟩

/-! ### The merges into a case (R87 to R89) -/

/-- The cases that a case of an entry, once written there, takes in. -/
def merging (c : Core) (it : Item) (n : Nat) (k : Case) : List Nat := mergeable (withCase n k c) it.segment it.phase

/-- What the merges into it tell and leave. -/
def mergedFrom (c : Core) (it : Item) (n : Nat) (k : Case) : List Emit × Core :=
  mergesInto n (merging c it n k) (withCase n k c)

/-- There are cases to merge, other than the case itself, with their fields in their ranges. -/
def MergesAll (c : Core) (it : Item) (n : Nat) (k : Case) : Prop :=
  merging c it n k ≠ [] ∧ n ∉ merging c it n k
    ∧ ∀ z ∈ merging c it n k, ∀ kz, entryAt c.cases z = some kz → kz.unreadable = []

section
variable {c : Core} {it : Item} {n : Nat} {k0 k : Case}

theorem mergedFrom_casesOnly (c : Core) (it : Item) (n : Nat) (k : Case) : CasesOnly c (mergedFrom c it n k).2 :=
  (CasesOnly.withCase n k c).trans (mergesInto_casesOnly n _ _)

theorem sound_mergedFrom (sound : Sound c.cases) : Sound (mergedFrom c it n k).2.cases :=
  sound_mergesInto n _ (sound_set sound n (some k))

theorem mergeDescendants_merging {env : Env} (sound : AllSound c) (hk : entryAt c.cases n = some k0)
    (all : MergesAll c it n k) (xs : List Emit) (ns : List Nat) :
    mergeDescendants env n it.segment it.phase (handled (withCase n k c) xs ns)
      = confirmTest env n (handled (mergedFrom c it n k).2 (xs ++ (mergedFrom c it n k).1) ns) := by
  obtain ⟨any, apart, readable⟩ := all
  refine mergeDescendants_some (zs := merging c it n k) (kx := k) (by exact allSound_withCase sound n k) rfl any apart
    ((entryAt_withCase hk k n).trans (if_pos rfl)) fun z mem kz hz => readable z mem kz ?_
  rw [← entryAt_withCase_other (k := k) (show z ≠ n from fun same => apart (same ▸ mem))]
  exact hz

/-- The case that the merges leave in the entry. -/
theorem mergedFrom_entry (hk : entryAt c.cases n = some k0) (all : MergesAll c it n k) {k2 : Case}
    (there : entryAt (mergedFrom c it n k).2.cases n = some k2) : k2 = { k with
      ring := k2.ring, tailDead := k2.tailDead, contributors := k2.contributors, unlisted := k2.unlisted
      score := k2.score, admitted := k2.admitted } := by
  obtain ⟨-, apart, -⟩ := all
  obtain ⟨k', hk', rest⟩ := entryAt_mergesInto (merging c it n k) ((entryAt_withCase hk k n).trans (if_pos rfl)) apart
  obtain rfl := Option.some.inj (hk'.symm.trans there)
  exact rest

section
variable {z : Nat} {kz : Case} (hk : entryAt c.cases n = some k0) (one : merging c it n k = [z]) (apart : n ≠ z)
  (hz : entryAt c.cases z = some kz)
include hk one apart hz

theorem mergedFrom_one : mergedFrom c it n k = ([caseTold z kz (some .watch) none .merged none c.time.now,
    segmentCount .casesClosedUnconfirmed (some kz.segment) 1], freed z (withCase n (merged k kz) c)) := by
  rw [mergedFrom, one, mergesInto_cons ((entryAt_withCase hk k n).trans (if_pos rfl))
    ((entryAt_withCase_other (Ne.symm apart)).trans hz), withCase_twice]
  simp only [mergesInto, List.append_nil]
  rfl

theorem mergedFrom_one_entry : entryAt (mergedFrom c it n k).2.cases n = some (merged k kz) := by
  rw [mergedFrom_one hk one apart hz]
  exact entryAt_merged hk apart

omit hk in
theorem mergesAll_one (readable : kz.unreadable = []) : MergesAll c it n k := by
  unfold MergesAll
  rw [one]
  refine ⟨by simp, by simpa using apart, fun y mem ky hy => ?_⟩
  obtain rfl := List.mem_singleton.1 mem
  obtain rfl := Option.some.inj (hz.symm.trans hy)
  exact readable

end

end

section
variable {it : Item} {rest : List Item} {s : State} (runs : blocksRun s.part = true)
  (listed : s.part.core.items = it :: rest) (well : Healthy s) (sound : AllSound (itemTaken rest s))
  (unmasked : isMasked (itemTaken rest s) it = false)
include runs listed well sound unmasked

/-! ### A TAIL_DEAD item (R57 to R59) -/

section
variable (dead : it.kind = .tailDead)
include dead

omit runs listed well sound unmasked in
theorem dead_kind : it.kind ≠ .tailRestored := by
  rw [dead]
  decide

section
variable {pre post : List Nat} {t n : Nat} {k : Case}
  (path : pathOf (itemTaken rest s).segments it.segment = pre ++ t :: post)
  (before : ∀ x ∈ pre, caseOn (itemTaken rest s) x it.phase = none) (here : CaseAt (itemTaken rest s) t it.phase n k)
include path before here

theorem ends_deadPast (past : Past k) : Ends s [] (itemTaken rest s) :=
  ends_unchanged runs listed well unmasked sound.2.2.1 sound.1
    (attributeItem_dead_past dead (by exact path) (by exact before) (by exact here) past)

/-- With no merge to make, the item does what its admission does. -/
theorem ends_deadReached (alone : t ≠ it.segment ∨ DescendantsQuiet (itemTaken rest s) it) :
    (StaysUnconfirmed s.part (admitted s.part.settings k it) → AdmittedTo s it rest n k) ∧ ConfirmsAt s it rest n k := by
  refine ends_reached runs listed well sound unmasked here.2.1 (dead_kind dead) fun takes => ?_
  rw [attributeItem_dead_taking dead (by exact path) (by exact before) (by exact here) takes]
  split
  · next own =>
    subst own
    have quiet := alone.resolve_left fun other => other rfl
    obtain ⟨k1, core, segment, phase⟩ := admission_core (env := envOf s.part) (it := it)
      (e := handled (itemTaken rest s) [] []) here.2.1 (dead_kind dead)
    exact mergeDescendants_none (by rw [core]; exact allSound_withCase sound n k1)
      (by rw [core]; exact mergeable_quiet quiet here segment phase)
  · rfl

end

section
variable {n : Nat} {k : Case} (here : CaseAt (itemTaken rest s) it.segment it.phase n k)
include here

omit runs listed well sound unmasked in
theorem attributeItem_dead_own (takes : k.state = .watch ∨ k.state = .confirmed) :
    attributeItem (envOf s.part) it (handled (itemTaken rest s) [] []) = mergeDescendants (envOf s.part) n it.segment it.phase
      (admission (envOf s.part) n it (handled (itemTaken rest s) [] [])) := by
  obtain ⟨post, path⟩ := pathOf_cons (itemTaken rest s).segments it.segment
  exact (attributeItem_dead_taking dead (pre := []) (by exact path) nofun (by exact here) takes).trans (if_pos rfl)

section
variable {f : Finding} (confirms : Confirms s.part (admitted s.part.settings k it) f)
  (all : MergesAll (itemTaken rest s) it n (confirmedRecord (admitted s.part.settings k it) f s.part.core.time.now))
  {k2 : Case} (there : entryAt (mergedFrom (itemTaken rest s) it n
    (confirmedRecord (admitted s.part.settings k it) f s.part.core.time.now)).2.cases n = some k2)
include confirms all there

/-- Cases merged into one that the admission has confirmed. -/
theorem ends_confirmedMerges :
    (StaysConfirmed s.part → Ends s
      (sensorCount .evidenceAdmitted (some k.segment) it.sensor
        :: confirmingTold n (admitted s.part.settings k it) f s.part.core.time.now
        ++ (mergedFrom (itemTaken rest s) it n
          (confirmedRecord (admitted s.part.settings k it) f s.part.core.time.now)).1)
      (mergedFrom (itemTaken rest s) it n (confirmedRecord (admitted s.part.settings k it) f s.part.core.time.now)).2)
    ∧ ∀ r, MovesFor s.part r → (∀ sg, entryAt s.part.core.segments k.segment = some sg → sg.plan = none) →
        NoCloses (itemTaken rest s) → Ends s
      (sensorCount .evidenceAdmitted (some k.segment) it.sensor
        :: confirmingTold n (admitted s.part.settings k it) f s.part.core.time.now
        ++ (mergedFrom (itemTaken rest s) it n
          (confirmedRecord (admitted s.part.settings k it) f s.part.core.time.now)).1
        ++ blockedTold n r (confirmedRecord (admitted s.part.settings k it) f s.part.core.time.now) s.part.core.time.now)
      (withCase n { k2 with state := .blocked } (mergedFrom (itemTaken rest s) it n
        (confirmedRecord (admitted s.part.settings k it) f s.part.core.time.now)).2) := by
  have written := mergedFrom_entry here.2.1 all there
  have frame := mergedFrom_casesOnly (itemTaken rest s) it n
    (confirmedRecord (admitted s.part.settings k it) f s.part.core.time.now)
  obtain ⟨segment, -⟩ := admitted_place s.part.settings k it
  have attributed : attributeItem (envOf s.part) it (handled (itemTaken rest s) [] []) = handled
      (mergedFrom (itemTaken rest s) it n (confirmedRecord (admitted s.part.settings k it) f s.part.core.time.now)).2
      (sensorCount .evidenceAdmitted (some k.segment) it.sensor
        :: confirmingTold n (admitted s.part.settings k it) f s.part.core.time.now
        ++ (mergedFrom (itemTaken rest s) it n
          (confirmedRecord (admitted s.part.settings k it) f s.part.core.time.now)).1) [n] := by
    rw [attributeItem_dead_own dead here (takes_of_confirms confirms),
      admission_confirms here.2.1 rfl (dead_kind dead) [] [] confirms]
    exact (mergeDescendants_merging sound here.2.1 all _ _).trans
      (confirmTest_stays there (congrArg TimeBase.lock frame.time) _ _ (.inl (congrArg Case.state written)))
  refine ⟨fun stays => ends_handled runs listed well sound.2.2.1 sound.1 unmasked attributed
    (.inr ⟨stays, frame.supervision⟩), fun r moves unplanned unclosed => ?_⟩
  have may : MayMove s r (itemTaken rest s) := ⟨moves, rfl, sound, unclosed, healthy_itemTaken well⟩
  have moved := ends_moved runs listed well sound.2.2.1 sound.1 unmasked attributed
    (may.casesOnly frame (sound_mergedFrom sound.2.2.2.2))
    ⟨there, congrArg Case.state written, (congrArg Case.unreadable written).trans confirms.2.1,
      congrArg Case.isolation written, by
        rw [frame.segments, (congrArg Case.segment written).trans segment]
        exact unplanned⟩
  refine moved.congr ?_ ?_
  · have told : blockedTold n r k2 s.part.core.time.now
        = blockedTold n r (confirmedRecord (admitted s.part.settings k it) f s.part.core.time.now) s.part.core.time.now :=
      (congrArg (fun x => blockedTold n r x s.part.core.time.now) written).trans rfl
    rw [frame.time]
    exact congrArg _ told
  · refine congrArg (fun x => withCase n x _) ?_
    rw [blockedCase]
    exact congrArg (fun i => { k2 with state := .blocked, isolation := i }) (congrArg Case.isolation written).symm

end

section
variable (taking : StaysUnconfirmed s.part (admitted s.part.settings k it))
  (all : MergesAll (itemTaken rest s) it n (admitted s.part.settings k it)) {k2 : Case}
  (there : entryAt (mergedFrom (itemTaken rest s) it n (admitted s.part.settings k it)).2.cases n = some k2)
include taking all there

/-- Cases merged into one that the admission has not confirmed, which the one test after them may confirm. -/
theorem ends_merges :
    (StaysUnconfirmed s.part k2 → Ends s
      (sensorCount .evidenceAdmitted (some k.segment) it.sensor
        :: (mergedFrom (itemTaken rest s) it n (admitted s.part.settings k it)).1)
      (mergedFrom (itemTaken rest s) it n (admitted s.part.settings k it)).2)
    ∧ ∀ f, Confirms s.part k2 f →
      (StaysConfirmed s.part → Ends s
        (sensorCount .evidenceAdmitted (some k.segment) it.sensor
          :: (mergedFrom (itemTaken rest s) it n (admitted s.part.settings k it)).1
          ++ confirmingTold n k2 f s.part.core.time.now)
        (withCase n (confirmedRecord k2 f s.part.core.time.now)
          (mergedFrom (itemTaken rest s) it n (admitted s.part.settings k it)).2))
      ∧ ∀ r, MovesFor s.part r → (∀ sg, entryAt s.part.core.segments k.segment = some sg → sg.plan = none) →
          NoCloses (itemTaken rest s) → Ends s
        (sensorCount .evidenceAdmitted (some k.segment) it.sensor
          :: (mergedFrom (itemTaken rest s) it n (admitted s.part.settings k it)).1
          ++ confirmingTold n k2 f s.part.core.time.now
          ++ blockedTold n r (confirmedRecord k2 f s.part.core.time.now) s.part.core.time.now)
        (withCase n { confirmedRecord k2 f s.part.core.time.now with state := .blocked }
          (mergedFrom (itemTaken rest s) it n (admitted s.part.settings k it)).2) := by
  have written := mergedFrom_entry here.2.1 all there
  have frame := mergedFrom_casesOnly (itemTaken rest s) it n (admitted s.part.settings k it)
  have cases : Sound (mergedFrom (itemTaken rest s) it n (admitted s.part.settings k it)).2.cases :=
    sound_mergedFrom sound.2.2.2.2
  obtain ⟨segment, -⟩ := admitted_place s.part.settings k it
  have tested : attributeItem (envOf s.part) it (handled (itemTaken rest s) [] []) = confirmTest (envOf s.part) n
      (handled (mergedFrom (itemTaken rest s) it n (admitted s.part.settings k it)).2
        (sensorCount .evidenceAdmitted (some k.segment) it.sensor
          :: (mergedFrom (itemTaken rest s) it n (admitted s.part.settings k it)).1) []) := by
    rw [attributeItem_dead_own dead here (takes_of_stays taking),
      admission_stays here.2.1 rfl (dead_kind dead) [] [] taking]
    exact mergeDescendants_merging sound here.2.1 all _ _
  refine ⟨fun stays => ends_handled runs listed well sound.2.2.1 sound.1 unmasked
    (tested.trans (confirmTest_stays there (congrArg TimeBase.lock frame.time) _ _ stays)) (.inl rfl), fun f confirms => ?_⟩
  have attributed := tested.trans (confirmTest_confirms there (congrArg TimeBase.lock frame.time) _ _ confirms)
  rw [frame.time] at attributed
  refine ⟨fun stays => ends_handled runs listed well sound.2.2.1 sound.1 unmasked attributed
    (.inr ⟨stays, frame.supervision⟩), fun r moves unplanned unclosed => ?_⟩
  have may : MayMove s r (itemTaken rest s) := ⟨moves, rfl, sound, unclosed, healthy_itemTaken well⟩
  have moved := ends_moved runs listed well sound.2.2.1 sound.1 unmasked attributed
    (may.casesOnly (frame.trans (.withCase n _ _)) (sound_set cases n _))
    ⟨(entryAt_withCase there _ n).trans (if_pos rfl), rfl, confirms.2.1, rfl, by
      rw [(frame.trans (.withCase n _ _)).segments,
        show (confirmedRecord k2 f (itemTaken rest s).time.now).segment = k.segment from
          (congrArg Case.segment written).trans segment]
      exact unplanned⟩
  rw [withCase_twice] at moved
  refine moved.congr ?_ rfl
  rw [(frame.trans (.withCase n _ _)).time]
  rfl

end

end

/-- Cases merged into one that the item opens, which stays in WATCH. -/
theorem ends_openedMerges {n : Nat} (none_ : ∀ x ∈ pathOf (itemTaken rest s).segments it.segment,
      caseOn (itemTaken rest s) x it.phase = none) (free : freeEntry (itemTaken rest s) = some n) {zs : List Nat}
    (some_ : mergeable (withOpened s.part n it (itemTaken rest s)) it.segment it.phase = zs) (any : zs ≠ [])
    (apart : n ∉ zs)
    (readable : ∀ z ∈ zs, ∀ kz, entryAt (itemTaken rest s).cases z = some kz → kz.unreadable = []) :
    Ends s (openedTold s.part n it (itemTaken rest s)
        ++ (mergesInto n zs (withOpened s.part n it (itemTaken rest s))).1)
      (mergesInto n zs (withOpened s.part n it (itemTaken rest s))).2 := by
  have kind : OpensCase it.kind := .inr (.inr dead)
  have takes := takesEntry_free s.part it free
  have inside : n < (itemTaken rest s).cases.length := List.mem_range.1 (List.mem_of_find?_eq_some free)
  have sound' : AllSound (withOpened s.part n it (itemTaken rest s)) :=
    takes.frame.allSound sound (sound_set sound.2.2.2.2 n _)
  have there : entryAt (withOpened s.part n it (itemTaken rest s)).cases n
      = some (admitted s.part.settings (openedCase s.part it (itemTaken rest s)) it) :=
    (entryAt_putAt (itemTaken rest s).cases n n _ inside).trans (if_pos rfl)
  obtain ⟨k2, hk2, written⟩ := entryAt_mergesInto zs there apart
  obtain ⟨live, ground⟩ := openedCase_bare (p := s.part) kind s.part.settings (itemTaken rest s)
  have bare : StaysUnconfirmed s.part k2 := staysUnconfirmed_of_bare
    ((congrArg Case.state written).trans (admitted_place _ _ _).2.2.1) ((congrArg Case.headLive written).trans live)
    ((congrArg Case.groundCurrent written).trans ground)
  refine ends_handled runs listed well sound.2.2.1 sound.1 unmasked (ns := []) ?_ (.inl rfl)
  rw [attributeItem_dead_opened dead (by exact none_)
      (openCase_free kind free (sound.2.2.2.2 n) rfl [] []),
    mergeDescendants_some (by exact sound') some_ any apart (by exact there) fun z mem kz hz => readable z mem kz
      ((takes.others z fun same => apart (same ▸ mem)).symm.trans hz)]
  exact confirmTest_stays hk2 (congrArg TimeBase.lock
    (takes.frame.trans (mergesInto_casesOnly n zs _)).time) _ [] bare

end

/-! ### A head item (R62, R63) -/

section
variable (head : it.kind = .headCurrentDrop ∨ it.kind = .headLive)
include head

omit runs listed well sound unmasked in
theorem head_kind : it.kind ≠ .tailRestored := by
  obtain kind | kind := head <;> rw [kind] <;> decide

section
variable {n : Nat} {k : Case} (here : CaseAt (itemTaken rest s) it.segment it.phase n k)
include here

/-- A head item whose coverage has no other case. -/
theorem ends_headOwn (bare : ∀ z ∈ beyond (itemTaken rest s) it, caseOn (itemTaken rest s) z it.phase = none) :
    (StaysUnconfirmed s.part (admitted s.part.settings k it) → AdmittedTo s it rest n k) ∧ ConfirmsAt s it rest n k
      ∧ (Past k → Ends s [] (itemTaken rest s)) := by
  obtain ⟨admits, confirms⟩ := ends_reached runs listed well sound unmasked here.2.1 (head_kind head) fun takes => by
    obtain ⟨k1, core, segment, phase⟩ := admission_core (env := envOf s.part) (it := it)
      (e := handled (itemTaken rest s) [] []) here.2.1 (head_kind head)
    rw [attributeItem_head_taking head (by exact here) takes]
    refine attributeBeyond_none (by rw [core]; exact allSound_withCase sound n k1) fun z mem => ?_
    rw [core] at mem ⊢
    exact (caseOn_withCase_same here.2.1 segment phase z it.phase).trans (bare z mem)
  refine ⟨admits, confirms, fun past => ends_unchanged runs listed well unmasked sound.2.2.1 sound.1 ?_⟩
  rw [attributeItem_head_past head (by exact here) past]
  exact attributeBeyond_none (by exact sound) bare

end

/-- A head item that passes its own segment by, and reaches one case of its coverage. -/
theorem ends_headBeyond {z n : Nat} {k : Case} (mem : z ∈ beyond (itemTaken rest s) it)
    (others : ∀ y ∈ beyond (itemTaken rest s) it, y ≠ z → caseOn (itemTaken rest s) y it.phase = none)
    (there : CaseAt (itemTaken rest s) z it.phase n k)
    (passes : it.kind = .headLive ∧ caseOn (itemTaken rest s) it.segment it.phase = none
      ∨ ∃ m x, CaseAt (itemTaken rest s) it.segment it.phase m x ∧ Past x) :
    (StaysUnconfirmed s.part (admitted s.part.settings k it) → AdmittedTo s it rest n k) ∧ ConfirmsAt s it rest n k
      ∧ (Past k → Ends s [] (itemTaken rest s)) := by
  have goesOn : attributeItem (envOf s.part) it (handled (itemTaken rest s) [] [])
      = attributeBeyond (envOf s.part) it (handled (itemTaken rest s) [] []) := by
    obtain ⟨kind, none_⟩ | ⟨m, x, here, past⟩ := passes
    · exact attributeItem_live_none kind none_
    · exact attributeItem_head_past head (by exact here) past
  obtain ⟨admits, confirms⟩ := ends_reached runs listed well sound unmasked there.2.1 (head_kind head) fun takes =>
    goesOn.trans (attributeBeyond_taking (by exact sound) mem others (by exact there) takes (head_kind head))
  exact ⟨admits, confirms, fun past => ends_unchanged runs listed well unmasked sound.2.2.1 sound.1
    (goesOn.trans (attributeBeyond_past (by exact sound) mem others (by exact there) past))⟩

omit head in
theorem ends_headLiveNone (kind : it.kind = .headLive) (none_ : caseOn (itemTaken rest s) it.segment it.phase = none)
    (bare : ∀ z ∈ beyond (itemTaken rest s) it, caseOn (itemTaken rest s) z it.phase = none) :
    Ends s [] (itemTaken rest s) := by
  refine ends_unchanged runs listed well unmasked sound.2.2.1 sound.1 ?_
  rw [attributeItem_live_none kind (by exact none_)]
  exact attributeBeyond_none (by exact sound) bare

section
variable {n z m : Nat} {k x : Case} {f g : Finding} (here : CaseAt (itemTaken rest s) it.segment it.phase n k)
  (mem : z ∈ beyond (itemTaken rest s) it)
  (others : ∀ y ∈ beyond (itemTaken rest s) it, y ≠ z → caseOn (itemTaken rest s) y it.phase = none)
  (there : CaseAt (itemTaken rest s) z it.phase m x)
  (confirms : Confirms s.part (admitted s.part.settings k it) f)
  (confirms' : Confirms s.part (admitted s.part.settings x it) g)
include here mem others there confirms confirms'

omit runs listed well sound unmasked head others confirms confirms' in
theorem beyond_apart : m ≠ n := by
  rintro rfl
  obtain rfl := Option.some.inj (here.2.1.symm.trans there.2.1)
  exact mem_beyond_ne mem ((caseAt_segment there).1.symm.trans (caseAt_segment here).1)

omit runs listed well unmasked in
/-- A head item that confirms its own segment's case and one of its coverage. -/
theorem attributeItem_headBoth : attributeItem (envOf s.part) it (handled (itemTaken rest s) [] []) = handled
    (withCase m (confirmedRecord (admitted s.part.settings x it) g s.part.core.time.now)
      (withCase n (confirmedRecord (admitted s.part.settings k it) f s.part.core.time.now) (itemTaken rest s)))
    (sensorCount .evidenceAdmitted (some k.segment) it.sensor
        :: confirmingTold n (admitted s.part.settings k it) f s.part.core.time.now
      ++ sensorCount .evidenceAdmitted (some x.segment) it.sensor
        :: confirmingTold m (admitted s.part.settings x it) g s.part.core.time.now) [n, m] := by
  have apart := beyond_apart here mem there
  obtain ⟨segment, phase, -⟩ := admitted_place s.part.settings k it
  have kept := caseOn_withCase_same here.2.1
    (k' := confirmedRecord (admitted s.part.settings k it) f s.part.core.time.now) segment phase
  have hx : entryAt (withCase n (confirmedRecord (admitted s.part.settings k it) f s.part.core.time.now)
      (itemTaken rest s)).cases m = some x := (entryAt_withCase_other apart).trans there.2.1
  have sound' := allSound_withCase sound n (confirmedRecord (admitted s.part.settings k it) f s.part.core.time.now)
  rw [attributeItem_head_taking head (by exact here) (takes_of_confirms confirms),
    admission_confirms here.2.1 rfl (head_kind head) [] [] confirms,
    attributeBeyond_taking (by exact sound') (by exact mem)
      (fun y inside other => (kept y it.phase).trans (others y inside other))
      ⟨(kept z it.phase).trans there.1, hx, sound'.2.2.2.2 m⟩ (takes_of_confirms confirms') (head_kind head)]
  exact admission_confirms hx rfl (head_kind head) _ _ confirms'

theorem ends_headBoth :
    (StaysConfirmed s.part → Ends s
      (sensorCount .evidenceAdmitted (some k.segment) it.sensor
          :: confirmingTold n (admitted s.part.settings k it) f s.part.core.time.now
        ++ sensorCount .evidenceAdmitted (some x.segment) it.sensor
          :: confirmingTold m (admitted s.part.settings x it) g s.part.core.time.now)
      (withCase m (confirmedRecord (admitted s.part.settings x it) g s.part.core.time.now)
        (withCase n (confirmedRecord (admitted s.part.settings k it) f s.part.core.time.now) (itemTaken rest s))))
    ∧ ∀ r, MovesFor s.part r → (∀ sg, entryAt s.part.core.segments k.segment = some sg → sg.plan = none) →
        (∀ sg, entryAt s.part.core.segments x.segment = some sg → sg.plan = none) →
        NoCloses (itemTaken rest s) → Ends s
      (sensorCount .evidenceAdmitted (some k.segment) it.sensor
          :: confirmingTold n (admitted s.part.settings k it) f s.part.core.time.now
        ++ sensorCount .evidenceAdmitted (some x.segment) it.sensor
          :: confirmingTold m (admitted s.part.settings x it) g s.part.core.time.now
        ++ blockedTold n r (confirmedRecord (admitted s.part.settings k it) f s.part.core.time.now) s.part.core.time.now
        ++ blockedTold m r (confirmedRecord (admitted s.part.settings x it) g s.part.core.time.now) s.part.core.time.now)
      (withCase m { confirmedRecord (admitted s.part.settings x it) g s.part.core.time.now with state := .blocked }
        (withCase n { confirmedRecord (admitted s.part.settings k it) f s.part.core.time.now with state := .blocked }
          (itemTaken rest s))) := by
  have attributed := attributeItem_headBoth sound head here mem others there confirms confirms'
  have apart := beyond_apart here mem there
  obtain ⟨segment, -⟩ := admitted_place s.part.settings k it
  obtain ⟨segment', -⟩ := admitted_place s.part.settings x it
  refine ⟨fun stays => ends_handled runs listed well sound.2.2.1 sound.1 unmasked attributed (.inr ⟨stays, rfl⟩),
    fun r moves unplanned unplanned' unclosed => ?_⟩
  have may : MayMove s r (itemTaken rest s) := ⟨moves, rfl, sound, unclosed, healthy_itemTaken well⟩
  have moved := ends_movedBoth runs listed well sound.2.2.1 sound.1 unmasked attributed
    (may.casesOnly ((CasesOnly.withCase n _ _).trans (.withCase m _ _)) (sound_set (sound_set sound.2.2.2.2 n _) m _))
    (k := confirmedRecord (admitted s.part.settings k it) f s.part.core.time.now)
    (x := confirmedRecord (admitted s.part.settings x it) g s.part.core.time.now)
    ⟨(entryAt_withCase_other (Ne.symm apart)).trans ((entryAt_withCase here.2.1 _ n).trans (if_pos rfl)), rfl,
      confirms.2.1, rfl, fun sg at_ => unplanned sg (segment ▸ at_)⟩
    ⟨(entryAt_withCase ((entryAt_withCase_other apart).trans there.2.1) _ m).trans (if_pos rfl), rfl, confirms'.2.1, rfl,
      fun sg at_ => unplanned' sg (segment' ▸ at_)⟩ apart
  refine moved.congr rfl ?_
  rw [withCase_comm (Ne.symm apart), withCase_twice, withCase_twice]
  rfl

end

end

end

end Sys2Proof.Machine

end

