-- ==== Sys2Proof/Proofs/EvidenceHandled.lean ====
section
/-! PROOF. The handling of the oldest item, kind by kind. Settles O52. -/

namespace Sys2Proof.Machine

section
variable {it : Item} {rest : List Item} {s : State} (runs : blocksRun s.part = true)
  (listed : s.part.core.items = it :: rest) (well : Healthy s)
include runs listed well

/-- The case that an ARC_BURSTS item opens, its record written out. -/
theorem ends_arcsRecord (segments : Sound s.part.core.segments) (devices : Sound s.part.core.devices) {n : Nat}
    (kind : it.kind = .arcBursts) (unmasked : isMasked (itemTaken rest s) it = false)
    (none_ : caseOn (itemTaken rest s) it.segment it.phase = none) (free : freeEntry (itemTaken rest s) = some n)
    (good : badAt (itemTaken rest s).cases n = false) {k : Case}
    (record : admitted s.part.settings (openedCase s.part it (itemTaken rest s)) it = k) : Ends s
      [caseTold n k none (some .watch) .opened none s.part.core.time.now,
        segmentCount .casesOpened (some it.segment) 1, sensorCount .evidenceAdmitted (some it.segment) it.sensor]
      (withCase n k { itemTaken rest s with
        serial := (s.part.core.serial + 1) % 65536, opened := s.part.core.opened ++ [n] }) := by
  subst record
  have told : caseTold n (admitted s.part.settings (openedCase s.part it (itemTaken rest s)) it) none (some .watch) .opened
      none s.part.core.time.now
        = caseTold n (openedCase s.part it (itemTaken rest s)) none (some .watch) .opened none s.part.core.time.now :=
    (congrArg (fun k => caseTold n k none (some .watch) .opened none s.part.core.time.now)
      (admitted_rest s.part.settings (openedCase s.part it (itemTaken rest s)) it)).trans rfl
  rw [told]
  exact ends_arcsOpened runs listed well devices segments unmasked kind none_ free good

variable (sound : AllSound (itemTaken rest s)) (unmasked : isMasked (itemTaken rest s) it = false)
include sound unmasked

section
variable (dead : it.kind = .tailDead) {n z : Nat} {k kz : Case}
  (here : CaseAt (itemTaken rest s) it.segment it.phase n k) (apart : n ≠ z)
  (hz : entryAt (itemTaken rest s).cases z = some kz) (readable : kz.unreadable = [])
include dead here apart hz readable

/-- What the merge of the one case tells and counts. -/
def goneTold (z : Nat) (kz : Case) (now : Nat) : List Emit :=
  [caseTold z kz (some .watch) none .merged none now, segmentCount .casesClosedUnconfirmed (some kz.segment) 1]

/-- The one case on a descendant, merged into a case that the admission has confirmed. -/
theorem ends_confirmedMerge {f : Finding} (confirms : Confirms s.part (admitted s.part.settings k it) f)
    (stays : StaysConfirmed s.part) (one : merging (itemTaken rest s) it n
      (confirmedRecord (admitted s.part.settings k it) f s.part.core.time.now) = [z]) : Ends s
      (sensorCount .evidenceAdmitted (some k.segment) it.sensor
        :: confirmingTold n (admitted s.part.settings k it) f s.part.core.time.now ++ goneTold z kz s.part.core.time.now)
      (freed z (withCase n
        (merged (confirmedRecord (admitted s.part.settings k it) f s.part.core.time.now) kz) (itemTaken rest s))) := by
  have merge := mergedFrom_one here.2.1 one apart hz
  have left := (ends_confirmedMerges runs listed well sound unmasked dead here confirms (mergesAll_one one apart hz readable)
    (mergedFrom_one_entry here.2.1 one apart hz)).1 stays
  rw [merge] at left
  exact left

section
variable (taking : StaysUnconfirmed s.part (admitted s.part.settings k it))
  (one : merging (itemTaken rest s) it n (admitted s.part.settings k it) = [z])
include taking one

/-- The one case on a descendant, merged into a case that stays in WATCH. -/
theorem ends_merge (stays : StaysUnconfirmed s.part (merged (admitted s.part.settings k it) kz)) : Ends s
      (sensorCount .evidenceAdmitted (some k.segment) it.sensor :: goneTold z kz s.part.core.time.now)
      (freed z (withCase n (merged (admitted s.part.settings k it) kz) (itemTaken rest s))) := by
  have merge := mergedFrom_one here.2.1 one apart hz
  have left := (ends_merges runs listed well sound unmasked dead here taking (mergesAll_one one apart hz readable)
    (mergedFrom_one_entry here.2.1 one apart hz)).1 stays
  rw [merge] at left
  exact left

/-- The one case on a descendant, merged into a case that the test after it confirms. -/
theorem ends_mergeConfirms {f : Finding} (confirms : Confirms s.part (merged (admitted s.part.settings k it) kz) f) :
    (StaysConfirmed s.part → Ends s
      (sensorCount .evidenceAdmitted (some k.segment) it.sensor :: goneTold z kz s.part.core.time.now
        ++ confirmingTold n (merged (admitted s.part.settings k it) kz) f s.part.core.time.now)
      (withCase n (confirmedRecord (merged (admitted s.part.settings k it) kz) f s.part.core.time.now)
        (freed z (itemTaken rest s))))
    ∧ ∀ r, MovesFor s.part r → (∀ sg, entryAt s.part.core.segments k.segment = some sg → sg.plan = none) →
        NoCloses (itemTaken rest s) → Ends s
      (sensorCount .evidenceAdmitted (some k.segment) it.sensor :: goneTold z kz s.part.core.time.now
        ++ confirmingTold n (merged (admitted s.part.settings k it) kz) f s.part.core.time.now
        ++ blockedTold n r (confirmedRecord (merged (admitted s.part.settings k it) kz) f s.part.core.time.now)
          s.part.core.time.now)
      (withCase n
        { confirmedRecord (merged (admitted s.part.settings k it) kz) f s.part.core.time.now with state := .blocked }
        (freed z (itemTaken rest s))) := by
  have merge := mergedFrom_one here.2.1 one apart hz
  have left := (ends_merges runs listed well sound unmasked dead here taking (mergesAll_one one apart hz readable)
    (mergedFrom_one_entry here.2.1 one apart hz)).2 f confirms
  rw [merge] at left
  obtain ⟨stays, moved⟩ := left
  exact ⟨fun authority => (stays authority).congr rfl (withCase_freed_withCase apart),
    fun r moves unplanned unclosed => (moved r moves unplanned unclosed).congr rfl (withCase_freed_withCase apart)⟩

end

end

end

/-- Settles O52, kind by kind, from the way of an item through the cases and the records it leaves. -/
theorem evidenceHandling : Obligations.EvidenceHandling := by
  unfold Obligations.EvidenceHandling
  refine ⟨?_, fun env n x ph e sound => ⟨mergeDescendants_none sound,
      fun z kx kz one apart hx hz readable => mergeDescendants_one sound one apart hx hz readable,
      fun zs kx some_ any apart hx readable => mergeDescendants_some sound some_ any apart hx readable,
      mergeable_ascends e.toCore x ph, mem_mergeable_iff e.toCore x ph⟩,
    maskedAsStated, admittedAsStated, mergedAsStated, coverageAsStated, evicteeAsStated⟩
  intro it rest s runs listed
  refine ⟨ends_dropped runs listed, fun well segments devices => ⟨fun masks => ?_, fun masked => ?_, ?_⟩,
    fun well sound unmasked => ⟨?_, ?_, ?_, ?_, ?_, ?_⟩⟩
  · exact ends_masked runs listed well devices segments ((maskedAsStated _ _).2 (.inr masks.symm))
  · exact ends_masked runs listed well devices segments masked
  · intro arcs n kind count unmasked none_ free good
    exact ends_arcsRecord runs listed well segments devices kind unmasked none_ free good
      (admitted_openedArcs s.part (itemTaken rest s) kind count)
  · exact fun kind n k here => ends_own runs listed well sound unmasked kind here
  · exact fun kind none_ => ends_unchanged runs listed well unmasked sound.2.2.1 sound.1 (attributeItem_own_none kind none_)
  · intro restored n k here readable
    exact ⟨fun past => ends_unchanged runs listed well unmasked sound.2.2.1 sound.1
        (attributeItem_own_past (.inr (.inr restored)) here past),
      ends_restoredKept runs listed well sound unmasked restored here,
      ends_restoredFreed runs listed well sound unmasked restored here readable⟩
  · intro dead
    refine ⟨fun pre t post n k path before here => ⟨?_, ?_, ?_, ?_, ?_, ?_⟩, fun n k here => And.intro ?_ (And.intro ?_ ?_)⟩
    · exact ends_deadPast runs listed well sound unmasked dead path before here
    · exact fun taking other =>
        (ends_deadReached runs listed well sound unmasked dead path before here (.inl other)).1 taking
    · exact fun taking _ quiet =>
        (ends_deadReached runs listed well sound unmasked dead path before here (.inr quiet)).1 taking
    · exact fun alone => (ends_deadReached runs listed well sound unmasked dead path before here alone).2
    · rintro z kz f rfl apart hz readable
      exact ⟨fun confirms stays one =>
          ends_confirmedMerge runs listed well sound unmasked dead here apart hz readable confirms stays one,
        fun taking one confirms =>
          ends_mergeConfirms runs listed well sound unmasked dead here apart hz readable taking one confirms⟩
    · rintro z kz taking rfl apart
      exact fun one hz readable stays =>
        ends_merge runs listed well sound unmasked dead here apart hz readable taking one stays
    · exact fun f k2 confirms all there =>
        ends_confirmedMerges runs listed well sound unmasked dead here confirms all there
    · exact fun taking all k2 there => ends_merges runs listed well sound unmasked dead here taking all there
    · exact fun n none_ free any apart readable =>
        ends_openedMerges runs listed well sound unmasked dead none_ free rfl any apart readable
  · intro head
    exact ⟨fun n k here bare => ends_headOwn runs listed well sound unmasked head here bare,
      fun n k z m x f g here mem others there confirms confirms' =>
        ends_headBoth runs listed well sound unmasked head here mem others there confirms confirms',
      ends_headLiveNone runs listed well sound unmasked,
      fun z n k mem others there passes => ends_headBeyond runs listed well sound unmasked head mem others there passes⟩
  · intro opens
    exact ⟨fun n free => ends_opened runs listed well sound unmasked opens free,
      ends_refused runs listed well sound unmasked opens,
      fun z gone full chosen hz readable => ends_evicted runs listed well sound unmasked opens full chosen hz readable⟩

end Sys2Proof.Machine

end
